-- ==== Sys2Proof/Word.lean ====
section
/-! DEFINITION. The machine's words: register lanes, pairs, bytes, lane masks and addresses (R2, R55, R56). -/
namespace Sys2Proof

/-- One byte (R2). -/
abbrev Byte := BitVec 8
/-- One lane of one vector register (R55). -/
abbrev Word := BitVec 32
/-- A 64-bit value: a register pair (R56), an instruction word (R244), a program counter (R15). -/
abbrev Dword := BitVec 64
/-- One bit per lane of a group, bit l for lane l (R12). -/
abbrev LaneMask := BitVec 32
/-- One bit per lane of a slice (R18). -/
abbrev Mask4 := BitVec 4

end Sys2Proof
end

