-- ==== Sys2Proof/Syntax.lean ====
section
/-! DEFINITION. The syntax of the machine's steps: one constructor of Instr for each row of the opcode table.
Instructions carry the fields of their encoding (R244 to R261); events carry what their agent supplies. -/
namespace Sys2Proof

/-- A source operand: a register or a latch (R246). -/
inductive Src where
  | reg (n : BitVec 10)
  | lat (n : BitVec 3)
deriving DecidableEq, Repr

/-- A guarding predicate: p0 to p7, perhaps negated (R246). -/
structure Guard where
  neg : Bool
  p : BitVec 3
deriving DecidableEq, Repr

/-- The integer type of an instruction (R255). -/
inductive IntTy where
  | i32 | n32
deriving DecidableEq, Repr

/-- The float form (R255). -/
inductive FForm where
  | f32 | f16x2 | b16x2
deriving DecidableEq, Repr

/-- Condition codes of ICMP (R328). -/
inductive ICc where
  | eq | ne | lt | le | gt | ge
deriving DecidableEq, Repr

/-- Condition codes of FCMP (R321). -/
inductive FCc where
  | eq | ne | lt | le | gt | ge | un
deriving DecidableEq, Repr

/-- The forms of IMUL (R329). -/
inductive MulKind where
  | lo | hi | wide
deriving DecidableEq, Repr

/-- Rounding modes (R74, R79). -/
inductive Rnd where
  | rn | rz | ru | rd
deriving DecidableEq, Repr

/-- Conversion policies (R77, R79). -/
inductive Pol where
  | sat | inf | nan | trap
deriving DecidableEq, Repr

/-- Format codes 0 to 10 (R66). -/
inductive Fmt where
  | f16 | b16 | f8e4 | f8e5 | i4x | i8 | f32 | i32 | n8 | n16 | n32
deriving DecidableEq, Repr

/-- Address spaces (R103). -/
inductive Space where
  | g | s | c | y
deriving DecidableEq, Repr

/-- Access sizes (R256). -/
inductive Size where
  | b1 | b2 | b4 | b8 | b16
deriving DecidableEq, Repr

/-- The operations of ATOM and ARED (R256, R294). -/
inductive AtomOp where
  | add | and | or | xor | min | max | swap | cas
deriving DecidableEq, Repr

/-- Fence scopes (R128). -/
inductive FenceScope where
  | team | clu | dev | sys
deriving DecidableEq, Repr

/-- SHFL modes (R370). -/
inductive ShflMode where
  | abs | rel | rot | bfly
deriving DecidableEq, Repr

/-- VOTE forms (R382). -/
inductive VoteKind where
  | all | any | bal
deriving DecidableEq, Repr

/-- Reduction operations (R326). -/
inductive RedOp where
  | add | min | max | and | or | xor
deriving DecidableEq, Repr

/-- Reduction types (R326). -/
inductive RedTy where
  | i32 | n32 | f32 | f16x2 | b16x2
deriving DecidableEq, Repr

/-- BAR kinds (R298). -/
inductive BarKind where
  | arr | wait | sync
deriving DecidableEq, Repr

/-- MOVI's immediate: 22 bits sign-extended, or 32 bits (R248, R339). -/
inductive MoviImm where
  | short (v : BitVec 22)
  | long (v : BitVec 32)
deriving DecidableEq, Repr

/-- A relation handle: team h0 to h15 or cluster hc0 to hc63 (R35, R49). -/
structure Hnd where
  clu : Bool
  n : BitVec 6
deriving DecidableEq, Repr

/-- Destination, one source (format V). -/
structure V1 where
  nw : Bool
  d : BitVec 10
  a : Src
  g : Guard
deriving DecidableEq, Repr

/-- Destination, two sources (format V). -/
structure V2 where
  nw : Bool
  d : BitVec 10
  a : Src
  b : Src
  g : Guard
deriving DecidableEq, Repr

/-- Destination, three sources (format V). -/
structure V3 where
  nw : Bool
  d : BitVec 10
  a : Src
  b : Src
  c : Src
  g : Guard
deriving DecidableEq, Repr

/-- Predicate destination, two sources (ICMP, FCMP). -/
structure VP2 where
  nw : Bool
  pd : BitVec 3
  a : Src
  b : Src
  g : Guard
deriving DecidableEq, Repr

/-- PLOP's operands (R249). -/
structure PlopOp where
  nw : Bool
  pd : BitVec 3
  pa : BitVec 3
  pb : BitVec 3
  pc : BitVec 3
  tbl : BitVec 8
  g : Guard
deriving DecidableEq, Repr

/-- LD (R331). -/
structure LdOp where
  wk : Bool
  d : BitVec 10
  base : Src
  sx : Bool
  size : Size
  off : BitVec 11
  g : Guard
  space : Space
  sb : BitVec 3
deriving DecidableEq, Repr

/-- ST (R375). -/
structure StOp where
  wk : Bool
  sb : Option (BitVec 3)
  size : Size
  base : Src
  data : Src
  off : BitVec 11
  g : Guard
  space : Space
deriving DecidableEq, Repr

/-- LDB (R334): pairs are named by half their register number. -/
structure LdbOp where
  wk : Bool
  d : BitVec 10
  base : BitVec 10
  plane2 : BitVec 9
  size : Size
  off : BitVec 11
  g : Guard
  sb : BitVec 3
deriving DecidableEq, Repr

/-- STB (R377). -/
structure StbOp where
  wk : Bool
  sb : Option (BitVec 3)
  plane2 : BitVec 9
  base : BitVec 10
  data2 : BitVec 9
  size : Size
  off : BitVec 11
  g : Guard
deriving DecidableEq, Repr

/-- ATOM (R296). -/
structure AtomArgs where
  w8 : Bool
  d2 : BitVec 9
  t : Bool
  op : AtomOp
  base : BitVec 10
  b2 : BitVec 9
  off : BitVec 11
  g : Guard
  space : Space
  sb : BitVec 3
deriving DecidableEq, Repr

/-- ARED (R295). -/
structure AredArgs where
  w8 : Bool
  op : AtomOp
  t : Bool
  mrg : Bool
  base : Src
  data : Src
  off : BitVec 11
  g : Guard
  space : Space
  sb : BitVec 3
deriving DecidableEq, Repr

/-- AMAXP (R293). -/
structure AmaxpArgs where
  nw : Bool
  d : BitVec 10
  base : Src
  v : Src
  off : BitVec 11
  g : Guard
  space : Space
  sb : BitVec 3
deriving DecidableEq, Repr

/-- MWAIT (R341): space .G or .Y. -/
structure MwaitArgs where
  w8 : Bool
  d : BitVec 10
  base : BitVec 10
  x : Src
  off : BitVec 11
  g : Guard
  isY : Bool
  ne : Bool
deriving DecidableEq, Repr

/-- A .G address without data: PREF, CFLUSH. -/
structure AddrOp where
  base : BitVec 10
  off : BitVec 11
  g : Guard
deriving DecidableEq, Repr

/-- SHFL (R370). -/
structure ShflArgs where
  d : BitVec 10
  a : Src
  b : Src
  pv : BitVec 3
  mode : ShflMode
  g : Guard
deriving DecidableEq, Repr

/-- MMA (R143). -/
structure MmaArgs where
  slot : BitVec 9
  a : BitVec 10
  f : Src
  q : Src
  set : BitVec 3
  sb : BitVec 3
  g : Guard
deriving DecidableEq, Repr

/-- ACCOPEN (R290): n is written minus 1. -/
structure AccopenArgs where
  f : BitVec 9
  n1 : BitVec 6
  vf : Src
  r : BitVec 8
  snap : Bool
deriving DecidableEq, Repr

/-- ACCLD (R287). -/
structure AccldArgs where
  slot : BitVec 9
  base : Src
  off : BitVec 11
  g : Guard
  sb : BitVec 3
deriving DecidableEq, Repr

/-- ACCST (R291). -/
structure AccstArgs where
  slot : BitVec 9
  base : Src
  dst : Fmt
  pol : Pol
  rm : Rnd
  off : BitVec 11
  g : Guard
  sb : BitVec 3
deriving DecidableEq, Repr

/-- CPY (R313): a barrier pair exactly with .BCB. -/
structure CpyArgs where
  s2g : Bool
  vg : BitVec 10
  vp : BitVec 10
  bcb : Option (BitVec 10)
  sb : BitVec 3
  g : Guard
deriving DecidableEq, Repr

/-- BRM (R307): pair i counts only when i is at most k1. -/
structure BrmArgs where
  rc : Bool
  k1 : BitVec 2
  q0 : Guard
  q1 : Guard
  q2 : Guard
  q3 : Guard
  off : BitVec 32
deriving DecidableEq, Repr

/-- What the codes found as a home slice read a line: nothing; an error of a DRAM sector, or of the L2, that was corrected or not; or an
error of the line's directory, lease or monitor state that was not (R120, R200, R201). -/
inductive Ecc where
  | clean | corrected | uncorrectable | l2Corrected | l2Uncorrectable | stateCorrected | stateError
deriving DecidableEq, Repr

/-- What the codes found as a core read its pool or its L1 for a load (R200). -/
inductive CoreEcc where
  | clean
  | pool (fatal : Bool)
  | l1 (fatal : Bool)
deriving DecidableEq, Repr

/-- What arrives at a core for a load: which operation it is of, what the core's codes found, and the bytes of destinations, as (lane,
byte), that it brings ahead of the rest; with none it brings all that is missing (R200, R238). -/
structure Reply where
  id : Nat
  ecc : CoreEcc
  part : List (Nat × Nat)
deriving DecidableEq, Repr

/-- What arrives at a core for an atomic, in the same way (R238). -/
structure Ack where
  id : Nat
  part : List (Nat × Nat)
deriving DecidableEq, Repr

/-- The five engines that write stop records (R186). -/
inductive Engine where
  | issue | mem | async | relation | matrix
deriving DecidableEq, Repr

/-- Which handle an event of the relation engine acts on: a team's or a cluster's, by its name in the state. -/
inductive HRef where
  | team (uid n : Nat)
  | cluster (uid n : Nat)
deriving DecidableEq, Repr

/-- What one interval of the ageing monitors measured (R204, R205): six increments in 2^-16 WU, four drifts, temperature. -/
structure Reading where
  incs : List Int
  drifts : List Int
  temp : Int
deriving DecidableEq, Repr

/-- The steps of the machine: one constructor for each row of the opcode table, in its order. -/
inductive Instr where
  | iadd (o : V2)
  | isub (o : V2)
  | imul (o : V2) (k : MulKind) (ty : IntTy)
  | imad (o : V3)
  | imin (o : V2) (ty : IntTy)
  | imax (o : V2) (ty : IntTy)
  | iabs (o : V1)
  | icmp (o : VP2) (cc : ICc) (ty : IntTy)
  | lop3 (o : V3) (tbl : BitVec 8)
  | shl (o : V2)
  | shr (o : V2) (arith : Bool)
  | shf (o : V3) (right : Bool)
  | popc (o : V1)
  | clz (o : V1)
  | brev (o : V1)
  | bfx (o : V3) (ty : IntTy)
  | bfi (o : V3)
  | prmt (o : V3)
  | sel (o : V2) (pc : BitVec 3)
  | mov (o : V1)
  | movi (nw : Bool) (d : BitVec 10) (imm : MoviImm) (g : Guard)
  | movs (nw : Bool) (d : BitVec 10) (num : BitVec 3) (g : Guard)
  | plop (o : PlopOp)
  | fadd (o : V2) (fm : FForm)
  | fmul (o : V2) (fm : FForm)
  | ffma (o : V3) (fm : FForm)
  | fmin (o : V2) (fm : FForm)
  | fmax (o : V2) (fm : FForm)
  | fcmp (o : VP2) (cc : FCc) (fm : FForm)
  | fcls (o : V1) (fm : FForm)
  | frcp (o : V1) (fm : FForm)
  | frsq (o : V1) (fm : FForm)
  | fsqrt (o : V1) (fm : FForm)
  | fexp2 (o : V1) (fm : FForm)
  | flog2 (o : V1) (fm : FForm)
  | cvt (o : V1) (dst : Fmt) (src : Fmt) (pol : Pol) (rm : Rnd)
  | qpack (o : V2) (c : BitVec 10)
  | qunpk (o : V1) (e : BitVec 2)
  | rand (nw : Bool) (d : BitVec 10) (k : BitVec 10) (g : Guard)
  | ld (o : LdOp)
  | st (o : StOp)
  | ldb (o : LdbOp)
  | stb (o : StbOp)
  | ldc (nw : Bool) (d : BitVec 10) (off : BitVec 22) (g : Guard)
  | atom (o : AtomArgs)
  | ared (o : AredArgs)
  | amaxp (o : AmaxpArgs)
  | mwait (o : MwaitArgs)
  | fence (sc : FenceScope)
  | pref (o : AddrOp)
  | cflush (o : AddrOp)
  | shfl (o : ShflArgs)
  | vote (k : VoteKind) (d : BitVec 10) (pa : BitVec 3) (g : Guard)
  | gred (d : BitVec 10) (a : Src) (op : RedOp) (ty : RedTy) (g : Guard)
  | gscan (d : BitVec 10) (a : Src) (exc : Bool) (op : RedOp) (ty : RedTy) (g : Guard)
  | matchv (d : BitVec 10) (a : Src) (g : Guard)
  | mma (o : MmaArgs)
  | bset (d : BitVec 10) (b : BitVec 10) (w : Src) (g : Guard)
  | bsetFree (d : BitVec 10) (w : Src) (g : Guard)
  | accopen (o : AccopenArgs)
  | accclose
  | accz (slot : BitVec 9) (n1 : BitVec 9) (g : Guard)
  | accmov (dst : BitVec 9) (src : BitVec 9) (g : Guard)
  | accld (o : AccldArgs)
  | accst (o : AccstArgs)
  | bndthr (slot : BitVec 9) (t : BitVec 10) (g : Guard)
  | bndrd (slot : BitVec 9) (d : BitVec 10) (conv : Option (Fmt × Rnd)) (g : Guard)
  | mqrun (r : BitVec 10) (sb : BitVec 3) (g : Guard)
  | cpy (o : CpyArgs)
  | gath (d : Src) (sb : BitVec 3) (g : Guard)
  | scat (d : Src) (sb : BitVec 3) (g : Guard)
  | nzscan (d : Src) (sb : BitVec 3) (g : Guard)
  | ownE (t : Src) (c : Src) (g : Guard)
  | ownT (t : Src) (c : Src) (g : Guard)
  | relent (d : BitVec 10) (k : Src) (p : Src) (h : Hnd) (g : Guard)
  | relsealSeal (d : BitVec 10) (h : Hnd) (g : Guard)
  | relsealRec (d : BitVec 10) (n : Src) (p : Src) (h : Hnd) (g : Guard)
  | relsealFree (d : BitVec 10) (h : Hnd) (g : Guard)
  | relgrp (d : BitVec 10) (o : Src) (h : Hnd) (g : Guard)
  | reljoin (d : BitVec 10) (j : Src) (hl : Hnd) (hr : Hnd) (g : Guard)
  | relmrg (d : BitVec 10) (m : Src) (sb : BitVec 3) (g : Guard)
  | relstat (d : BitVec 10) (h : Hnd) (g : Guard)
  | nop (rc : Bool) (g : Guard)
  | bra (rc : Bool) (off : BitVec 32) (g : Guard)
  | braPop (rc : Bool) (n : BitVec 3) (off : BitVec 32) (g : Guard)
  | brm (o : BrmArgs)
  | jmp (rc : Bool) (off : BitVec 32)
  | call (rc : Bool) (off : BitVec 32) (g : Guard)
  | ret (rc : Bool) (g : Guard)
  | exit (rc : Bool) (g : Guard)
  | rcvpush (rc : Bool) (off : BitVec 32)
  | rcvdrop (rc : Bool) (n1 : BitVec 4)
  | regang (rc : Bool)
  | regangAll (rc : Bool)
  | yield (off : BitVec 32) (sb : BitVec 3) (g : Guard)
  | bar (rc : Bool) (k : BarKind) (clu : Bool) (d : BitVec 10)
  | phwait (rc : Bool) (base : Src) (p : Src) (off : BitVec 11) (g : Guard)
  | phflip (rc : Bool) (base : Src) (off : BitVec 11) (g : Guard)
  | bcbarm (a : BitVec 10) (n : Src) (sb : BitVec 3) (g : Guard)
  | bcbwait (d : BitVec 10) (a : BitVec 10) (g : Guard)
  | phend (rc : Bool) (off : BitVec 32)
  | emit (rc : Bool) (n : Src) (r : BitVec 10) (g : Guard)
  | sigchk (rc : Bool) (imm : BitVec 32)
  | trap (imm : BitVec 22) (g : Guard)
  | rtt
  | srget (d : BitVec 10) (num : BitVec 8) (g : Guard)
  | srset (num : BitVec 8) (a : Src) (g : Guard)
  | pmoff
  | pmon
  | flushp (sb : BitVec 3) (g : Guard)
  | tlbinv (a : BitVec 10) (b : BitVec 10) (g : Guard)
  | pqpop (d : BitVec 10) (a : BitVec 10) (off : BitVec 11) (sb : BitVec 3) (g : Guard)
  | ctxkill (a : Src) (g : Guard)
  | cstateRead (d : BitVec 10) (a : Src) (b : Src) (g : Guard)
  | cstateReserve (d : BitVec 10) (a : Src) (b : Src) (g : Guard)
  | cstateRelease (d : BitVec 10) (a : Src) (b : Src) (g : Guard)
  | cdrain (d : BitVec 10) (a : Src) (b : Src) (g : Guard)
  | cretire (d : BitVec 10) (a : Src) (g : Guard)
  | wearrdSelf (d : BitVec 10) (f : Src) (g : Guard)
  | wearrd (d : BitVec 10) (a : Src) (f : Src) (g : Guard)
  | tstrun (a : Src) (w : BitVec 10) (g : Guard)
  | tstabt (a : Src) (g : Guard)
  -- events of the device: no encoding
  | clauseIssue (core port : Nat)
  | gangForced (grp gang : Nat)
  | regangWindowExpiry (grp : Nat) (addr : Dword)
  | homeLoadRequest (core : Nat) (k : Option Nat) (ecc : Ecc)
  | loadReply (core : Nat) (r : Reply)
  | homeStoreApply (core : Nat) (k : Option Nat)
  | homeAtomicApply (core : Nat) (k : Option Nat)
  | routerMerge (c1 c2 : Nat)
  | atomicAck (core : Nat) (a : Ack)
  | mwaitPoll (id : Nat)
  | ptsTick (core : Nat)
  | fenceComplete (grp gang : Nat)
  | pageWalk (core : Nat)
  | hostPeerWrite (agent pa : Nat) (data : List Byte)
  | hostPeerRead (agent pa len : Nat)
  | flushProbeReturn (core id : Nat)
  | sysWriteComplete (core : Nat)
  | sysReadReturn (core id : Nat) (data : List Byte)
  | migrationSwitch (k : Nat)
  | migrationRelease (k : Nat)
  | matrixOperandError (grp slot row seg : Nat)
  | fusionWindowClose (quad : Nat)
  | matrixPass (quad : Nat)
  | mtxEntryForced (quad id : Nat)
  | mqrunCommandApply (core id : Nat)
  | asyncOpStart (core : Nat)
  | cpyChunk (core id : Nat)
  | asyncRow (core id : Nat)
  | asyncOpComplete (core id : Nat)
  | relationGrouping (h : HRef)
  | reljoinPairs (grp gang : Nat)
  | relmrgComplete (core id : Nat)
  | joinSpawnStart (team : Nat)
  | queueTailWake (ctx : Nat)
  | admitLaunch (ctx : Nat)
  | teamBind (launch : Nat)
  | preemptionSave (team : Nat)
  | teamResume (team : Nat)
  | phaseStart (core : Nat) (good : Bool)
  | launchComplete (ctx : Nat)
  | forcedPartialLaunch (ctx : Nat)
  | roundCommit (launch : Nat)
  | engineStopRecord (ctx core : Nat) (eng : Engine)
  | haltComplete (ctx : Nat)
  | watchdogExpiry (grp : Nat)
  | deadDrainComplete (ctx : Nat)
  | monitorMeasurement (core : Nat) (r : Reading)
  | wearCharge (core acc cycles : Nat) (busy : List (Nat × Nat × Nat))
  | wearFlashWrite
  | quadRetirement (quad : Nat)
  | testDueNotice (core : Nat)
  | testOverdue (core : Nat)
  | testRunComplete (core : Nat) (got : BitVec 32)
  | testAbortComplete (core : Nat)
  | powerCap (island : Nat) (step : BitVec 3)
  | thermalThrottle (island : Nat) (hot : Bool)
  | thermalTrip
  | coldReset
  | warmReset
  | createctx (ring ctx : Nat) (rec : BitVec 512) (vf base size : Nat) (ats : Bool)
  | killctx (ring ctx : Nat)
  | resume (ring ctx : Nat)
  | notifymap (ring ctx : Nat) (va : Dword)
  | hostTlbinv (ring ctx : Nat) (base size : Nat)
  | migrate (ring ctx : Nat) (va : Dword) (dst : Nat)
  | setroute (ring : Nat) (args : List Byte)
  | evring (ring addr k : Nat)
  | wearcopy (ring core addr : Nat)
  /-- `grant`: whether access is granted, and if so whether the right to write with it (R221) -/
  | atsTranslation (ctx page : Nat) (grant : Option Bool)
  | priResponse (ctx page : Nat) (good : Bool)
  | priTimeout (ctx page : Nat)
  | atsInvalidation (ctx page : Nat)
  | lockInterface (vf : Nat)
  | startInterface (vf : Nat)
  | stopInterface (vf : Nat)
  | tdiError (vf : Nat)
  | spdmRequest (req : List Byte)
  | flitReceive (link : Nat) (crcGood : Bool)
  | linkRetrain (link : Nat) (good : Bool)
  | powerLoss
  | dieReset (die : Nat)
  | privateRangeZeroed (ctx : Nat)
deriving DecidableEq, Repr

/-- The rows that are events of the device: they have no encoding and no gang issues them (spec/95). -/
def Instr.isEvent : Instr → Bool
  | .clauseIssue .. | .gangForced .. | .regangWindowExpiry .. | .homeLoadRequest .. | .loadReply ..
  | .homeStoreApply .. | .homeAtomicApply .. | .routerMerge .. | .atomicAck .. | .mwaitPoll .. | .ptsTick ..
  | .fenceComplete .. | .pageWalk .. | .hostPeerWrite .. | .hostPeerRead .. | .flushProbeReturn ..
  | .sysWriteComplete .. | .sysReadReturn .. | .migrationSwitch .. | .migrationRelease ..
  | .matrixOperandError .. | .fusionWindowClose .. | .matrixPass .. | .mtxEntryForced ..
  | .mqrunCommandApply .. | .asyncOpStart .. | .cpyChunk .. | .asyncRow .. | .asyncOpComplete ..
  | .relationGrouping .. | .reljoinPairs .. | .relmrgComplete .. | .joinSpawnStart .. | .queueTailWake ..
  | .admitLaunch .. | .teamBind .. | .preemptionSave .. | .teamResume .. | .phaseStart .. | .launchComplete ..
  | .forcedPartialLaunch .. | .roundCommit .. | .engineStopRecord .. | .haltComplete .. | .watchdogExpiry ..
  | .deadDrainComplete .. | .monitorMeasurement .. | .wearCharge .. | .wearFlashWrite | .quadRetirement ..
  | .testDueNotice .. | .testOverdue .. | .testRunComplete .. | .testAbortComplete .. | .powerCap ..
  | .thermalThrottle .. | .thermalTrip | .coldReset | .warmReset | .createctx .. | .killctx .. | .resume ..
  | .notifymap .. | .hostTlbinv .. | .migrate .. | .setroute .. | .evring .. | .wearcopy ..
  | .atsTranslation .. | .priResponse .. | .priTimeout .. | .atsInvalidation .. | .lockInterface ..
  | .startInterface .. | .stopInterface .. | .tdiError .. | .spdmRequest .. | .flitReceive ..
  | .linkRetrain .. | .powerLoss | .dieReset .. | .privateRangeZeroed .. => true
  | _ => false

end Sys2Proof
end

