-- ==== Sys2Proof/Machine/State.lean ====
section
/-! DEFINITION. The state of the machine, all of it plain data, and the state after reset.
Collections are tables: lists of (key, value) pairs, keys strictly rising. A key that a table does not list stands for
the entry's default: zero for a register, a counter or a byte, "none exists" for a thing that comes and goes. -/
namespace Sys2Proof.Machine

/-- A table by number, keys strictly rising. -/
abbrev Tab (α : Type) := List (Nat × α)

/-- The one stop that is the model's own. -/
inductive Fault where
  /-- An instruction's meaning was asked for and no gang is issuing (State.focus names none): there is nothing it could act
  in. Raised by every instruction's meaning, never by step, which names a gang first. Safe: the machine stops. -/
  | noIssuingGang
deriving DecidableEq, Repr

/-- Refusals. -/
inductive Refusal where
  /-- An instruction without a meaning yet, by its mnemonic. Raised only by an arm of exec. Safe: the machine stops. -/
  | notModelled (mnemonic : String)
deriving DecidableEq, Repr

/-! ### Slices, gangs and groups -/

/-- An entry of a reconvergence stack (R18). -/
structure StackEntry where
  addr : Dword
  waiting : Mask4
  pending : Mask4
  saved : Mask4
deriving DecidableEq, Repr

/-- A clause in progress: its header's address and word, the slot that issues next, and its latches (R59, R245). -/
structure Clause where
  hdr : Dword
  word : Dword
  /-- the words of its instructions, as the core fetched and checked them before slot 0 (R263, R264) -/
  words : List Dword
  slot : Nat
  /-- latch k of lane l at key 32k + l; unlisted reads zero -/
  lats : Tab Word
  /-- bit k: latch k is valid -/
  latOk : BitVec 8
deriving DecidableEq, Repr

/-- What trap entry saves for one slice, and where RTT resumes it (R189, R190). -/
structure TrapSave where
  pc : Dword
  active : Mask4
  preds : Tab LaneMask
  clause : Option Clause
  depth : Nat
deriving DecidableEq, Repr

/-- A slice (R12, R15, R18, R60, R202). -/
structure Slice where
  pc : Dword
  live : Mask4
  active : Mask4
  /-- entry 1 first -/
  stack : List StackEntry
  /-- resume addresses of parked lanes, by lane of the slice -/
  resume : Tab Dword
  /-- the pop flag of the instruction at pc is not to be applied again (R20) -/
  popDone : Bool
  /-- entries popped or discarded by the issue in progress, whose tokens follow its word's own update (R202) -/
  tokens : Nat
  sig : Word
  /-- %sigreg and stack signature as they stood at ACCOPEN (R202, R285) -/
  sigOpen : Word
  stackOpen : List Dword
  /-- sb0 to sb7 -/
  sb : Tab Nat
  trap : Option TrapSave
deriving DecidableEq, Repr

/-- What holds a gang (R23, R30, R386). A gang that is to execute its instruction again when the wait ends keeps its slot. -/
inductive Wait where
  | no
  | regang (all : Bool) (addr : Dword)
  /-- at the rendezvous of a group instruction: BAR, ACCOPEN, ACCCLOSE, PHEND (R285, R298, R347) -/
  | rendezvous (addr : Dword) (bar : Bool)
  /-- in the wait of a barrier: its scope, the phase waited for and the destination -/
  | barrier (clu : Bool) (phase d : Nat)
  | mwait (id : Nat)
  | bcbwait (id : Nat)
  | phwait (off : Nat) (parity : Bool)
  | yield (label : Dword) (sb : Nat)
  /-- in the wait of a RELGRP or RELJOIN: handles, issue record, destination, operand of the lowest lane, executing lanes -/
  | relgrp (h : HRef) (tag d o : Nat) (lanes : LaneMask)
  | reljoin (hl hr : HRef) (tag d j : Nat) (lanes : LaneMask)
  /-- an EMIT waiting for a pool page (R172) -/
  | emit
  /-- a trapping instruction held until the handler has returned (R189) -/
  | trapHeld
  /-- the group's quantum has ended in deterministic mode, and whether the gang's next instruction is a synchronising operation (R178) -/
  | round (sync : Bool)
  /-- stopped at an instruction that holds a precise halting fault (R187) -/
  | stopped
deriving DecidableEq, Repr

/-- One lane's access in a memory operation. -/
structure Piece where
  lane : Nat
  /-- accesses of stage 1 follow those of stage 0 (R334, R377) -/
  stage : Nat
  va : Nat
  pa : Nat
  len : Nat
  val : Nat
  cmp : Nat
  /-- the value read, or zero for a store, once performed -/
  got : Option Nat
  /-- merged into another request on the way (R133) -/
  merged : Bool
  /-- its sector took a miss-status entry, or shares one (R108) -/
  entry : Bool
  /-- a weak store whose bytes a copy in its core's L1 has shown (R127) -/
  shown : Bool
deriving DecidableEq, Repr

/-- What a rollback restores (R129). -/
structure Snap where
  slices : Tab Slice
  regs : Tab Word
  undef : Option Nat
  preds : Tab LaneMask
  rets : Tab (List Dword)
  rand : Tab Nat
  clause : Option Clause
deriving DecidableEq, Repr

/-- An incomplete fence of a gang (R128, R129). -/
structure Fence where
  scope : FenceScope
  /-- rollbacks so far; from two on the gang does not speculate -/
  tries : Nat
  snap : Snap
  /-- operations named from here on were issued after the fence -/
  start : Nat
  /-- lines read speculatively: physical line and the write time read -/
  reads : List (Nat × Nat)
  /-- the operations whose acknowledgement the fence awaits -/
  awaits : List Nat
  /-- the largest timestamp among the acknowledgements -/
  ts : Nat
  /-- flags and words of speculative instructions, committed when the fence completes -/
  flags : Word
  words : Nat
  /-- tiles read speculatively, and whether one of them has flipped since (R99) -/
  tiles : List Nat
  soiled : Bool
deriving DecidableEq, Repr

/-- A gang (R15, R171, R386). -/
structure Gang where
  id : Nat
  slices : List Nat
  wait : Wait
  clause : Option Clause
  port : Option Nat
  /-- the cycle from which it accrues skipped cycles while it is ready, and when it was forced -/
  since : Nat
  forced : Option Nat
  fence : Option Fence
  /-- a scoreboard the next clause waits for whatever its mask (FLUSHP, R324) -/
  alsoWait : Option Nat
  /-- an address whose translation a walk is fetching for this gang (R109) -/
  walking : Option Nat
  /-- the header from which this gang's pc was set by a branch, and the branch's slot (R116, R264) -/
  origin : Option (Dword × Nat)
  /-- lanes of the EMIT in progress whose record has been written (R317) -/
  emitted : LaneMask
  /-- what its lanes left have still to send, once a lane has sent: each lane's node, and the reads of its record as they were checked at
  issue (R183, R317) -/
  emitLeft : List (Nat × Nat)
  emitReads : List Piece
deriving DecidableEq, Repr

/-- An open accumulator run (R95 to R99). -/
structure Run where
  f : Nat
  n : Nat
  r : Nat
  snap : Bool
  word : Word
  /-- 0 the opening format, 1 F32, 2 F32X -/
  width : Nat
  pure : Bool
  replay : Dword
  /-- tiles read since ACCOPEN (R99) -/
  tiles : List Nat
deriving DecidableEq, Repr

/-- A group's part in a barrier (R298): the phase at which it last arrived, whether that arrival is pending, whether an abandoned
status has not been returned yet, and whether the team's barrier does not count the arrival, since the group has ended its phase and
the next one has not executed a BAR yet (R29). -/
structure BarPart where
  last : Option Nat
  pending : Bool
  abandoned : Bool
  uncounted : Bool
deriving DecidableEq, Repr

/-- One byte of a store log (R179): a physical .G byte address or a .S offset. -/
structure LogByte where
  spad : Bool
  addr : Nat
  val : Byte
deriving DecidableEq, Repr

/-- A group's state in deterministic mode (R178, R179). -/
structure DetPart where
  log : List LogByte
  /-- entries taken -/
  used : Nat
  /-- the quantum has ended -/
  ended : Bool
  /-- the gang whose held synchronising operation may execute now -/
  granted : Option Nat
  /-- engine operations completed whose effects wait for their observation (R180) -/
  unseen : List Nat
deriving DecidableEq, Repr

/-- Where a group is in its life (R29 to R31, R175). -/
inductive Stage where
  | running | betweenPhases | exiting | exited
deriving DecidableEq, Repr

/-- An operand error of an MMA that its group has still to take (R118): the slot, the cell, the MMA's origin tag, and what its issue record says
(R186). -/
structure OperandError where
  slot : Nat
  cell : Nat
  tag : Nat
  clause : Dword
  islot : Nat
  opa : Dword
  opb : Dword
deriving DecidableEq, Repr

/-- A group (R12, R55, R58, R61, R177, R309, R358). -/
structure Group where
  ctx : Nat
  launch : Nat
  team : Nat
  index : Nat
  slot : Nat
  serial : Word
  budget : Nat
  /-- rank of lane 0 (R14, R34, R173) -/
  rank0 : Nat
  stage : Stage
  /-- register n of lane l at key 32n + l; unlisted reads zero, or the free value of `undef` (R29) -/
  regs : Tab Word
  undef : Option Nat
  preds : Tab LaneMask
  rets : Tab (List Dword)
  rand : Tab Nat
  fstat : Word
  accw : BitVec 2
  trapinfo : Word
  lclock : Dword
  dclock : Dword
  inHandler : Bool
  /-- the cycle at which an open PMOFF region began, and whether its watchdog has expired (R197) -/
  pmoff : Option Nat
  overrun : Bool
  run : Option Run
  barTeam : BarPart
  barClu : BarPart
  phases : Nat
  /-- between phases: the place of its phase record in the save area (R65, R184) -/
  record : Option Nat
  det : DetPart
  /-- an operand error to be taken at the next clause boundary (R118) -/
  operandError : Option OperandError
  slices : Tab Slice
  gangs : List Gang
  nextGang : Nat
deriving DecidableEq, Repr

/-! ### Teams, clusters and populations -/

/-- The states of a handle (R38). -/
inductive HState where
  | idle | opened | sealed | grouped | unsealable | corrupt
deriving DecidableEq, Repr

/-- A population handle (R35, R36, R38, R48). -/
structure Handle where
  state : HState
  live : Bool
  desc : BitVec 512
  /-- the .S offset of its descriptor and the team that opened it -/
  off : Nat
  opener : Nat
  rows : Nat
  /-- lanes that entered: group uid and lane -/
  entered : List (Nat × Nat)
  /-- a RELGRP has asked for the grouping -/
  asked : Bool
  /-- the rows, in buffer order, as the engine read and grouped them -/
  image : List Nat
  /-- float flags of each survivor's folds, by row (R42) -/
  flags : Tab Word
  held : Nat
  /-- the largest timestamp of the engine's writes to its buffer, which the end of a RELGRP wait hands on (R44) -/
  ts : Nat
  /-- deterministic mode: rows that have entered stand in a store log still (R180) -/
  logged : Bool
deriving DecidableEq, Repr

/-- One spawned lane's registers: key, left columns, right columns (R46). -/
structure SpawnLane where
  key : Dword
  left : List Word
  right : List Word
deriving DecidableEq, Repr

/-- An entry of a team's spawn queue (R46). -/
structure Spawn where
  lanes : List SpawnLane
  /-- lanes started so far -/
  started : Nat
  q : Nat
  entry : Nat
  budget : Nat
  dclock : Dword
  hl : HRef
  hr : HRef
deriving DecidableEq, Repr

/-- A widened range (R284): a run that closed at a width above its opening width. -/
structure Widened where
  f : Nat
  n : Nat
  r : Nat
  /-- opening format (0 F32, 1 F16, 2 B16) and width reached -/
  fmt : Nat
  width : Nat
deriving DecidableEq, Repr

/-- What an engine operation does (R151 to R155, R47). -/
inductive EngKind where
  | cpyIn | cpyOut | gath | scat | nzscan | mqrun | relmrg
deriving DecidableEq, Repr

/-- An operation of a core's async block or relation engine (R152, R162). -/
structure EngOp where
  id : Nat
  kind : EngKind
  ctx : Nat
  grp : Nat
  team : Nat
  slices : List Nat
  lanes : LaneMask
  tag : Option Nat
  sb : Nat
  d : Nat
  started : Bool
  /-- chunk, row, element or command reached -/
  at_ : Nat
  /-- elements counted, or commands applied -/
  m : Nat
  status : Nat
  g : Nat
  o : Nat
  n : Nat
  /-- the barrier of .BCB -/
  bar : Option Nat
  /-- descriptor's address and its contents as read at issue -/
  desc : Nat
  data : BitVec 512
  /-- tiles it flips back -/
  tiles : List Nat
  /-- .S writes placed at completion, as (offset, bytes, value); in deterministic mode .G writes too, by physical address, which
  wait for their observation (R180) -/
  out : List (Nat × Nat × Nat)
  gout : List (Nat × Nat × Nat)
  ts : Nat
  /-- all chunks done -/
  ran : Bool
  /-- completed; in deterministic mode the flip of its tiles still waits for a commit (R180) -/
  isOver : Bool
  /-- stopped by a fault that the halt reports -/
  faulted : Bool
  /-- the bytes and owner bits of its team's scratchpad that an MQRUN of deterministic mode reads: those of its start (R180) -/
  still : Option (List Host.Cell × BitVec 512)
deriving DecidableEq, Repr

/-- An issue record (R192). -/
structure IssueRec where
  opa : Dword
  opb : Dword
  clause : Dword
  serial : Word
  refs : Nat
  islot : Nat
  gslot : Nat
  ghost : Bool
  team : Nat
  group : Nat
deriving DecidableEq, Repr

/-- Where a team is (R24, R30, R385). -/
inductive Residence where
  | resident | swappedOut | retired
deriving DecidableEq, Repr

/-- A team (R12, R53, R54, R63, R64). -/
structure Team where
  launch : Nat
  index : Nat
  core : Nat
  cluster : Nat
  rank : Nat
  residence : Residence
  /-- scratchpad window in bytes, and its bytes -/
  window : Nat
  spad : List Host.Cell
  /-- bit t: tile t is on the engine side -/
  owner : BitVec 512
  slots : Nat
  /-- byte b of slot s at 4096s + b; byte b of its cells at 64s + b -/
  acc : List Host.Cell
  cells : List Host.Cell
  /-- shape tags: 1 F16, 2 B16; unlisted F32 -/
  tags : Tab Nat
  widened : List Widened
  handles : Tab Handle
  spawns : List Spawn
  serials : List Nat
  barPhase : Nat
  /-- a pre-emption request has been sent: its gangs begin no clause, and swapped out it is queued for resumption (R168, R196) -/
  stopping : Bool
  /-- swapped out: its engine operations, its issue records by their old index, and its queued phases (R162, R192, R385) -/
  parked : List EngOp
  parkedRecs : Tab IssueRec
  parkedPhases : List Nat
  /-- bound sequence number, for pre-emption of the most recently bound (R168) -/
  bound : Nat
deriving DecidableEq, Repr

/-- A cluster (R27, R35, R298). -/
structure Cluster where
  launch : Nat
  index : Nat
  cores : List Nat
  reserved : Bool
  handles : Tab Handle
  barPhase : Nat
  /-- the largest logical time at which a group arrived at the cluster barrier (R299) -/
  barTs : Nat
deriving DecidableEq, Repr

/-! ### Launches, contexts and nodes -/

/-- A launch (R165, R166, R167, R173, R178). -/
structure Launch where
  ctx : Nat
  /-- queue index of its entry -/
  index : Nat
  record : BitVec 1024
  kernel : BitVec 2048
  /-- teams to run, next to bind, bound so far, retired so far -/
  n : Nat
  next : Nat
  bound : Nat
  retired : Nat
  wu : Nat
  mapno : Nat
  /-- wear per logical quad as read at admission (R169) -/
  wear : List Nat
  /-- physical address of each 256-byte block of the constant bank, pinned at admission (R105) -/
  bank : List Nat
  /-- a coalesced launch: node, launch serial, pool page, number of records, starting dclock (R173) -/
  node : Option (Nat × Nat × Nat × Nat × Nat)
  round : Nat
  /-- deterministic mode, while a round commits: the gangs whose synchronising operations have still to execute (R178) -/
  grants : Option (List (Nat × Nat))
  /-- order in which Distaff read the record (R168) -/
  order : Nat
  complete : Bool
deriving DecidableEq, Repr

/-- A consumed queue entry (R164, R166). -/
structure QEntry where
  index : Nat
  record : BitVec 1024
  launch : Option Nat
  status : Option Nat
  teams : Nat
  wu : Nat
  /-- its completion record has been dealt with -/
  done : Bool
  /-- order in which Distaff read the record (R168) -/
  order : Nat
deriving DecidableEq, Repr

/-- A buffer of a node (R172): its page, records in it, age, largest dclock among its EMITs. -/
structure NodeBuf where
  page : Nat
  m : Nat
  age : Nat
  dclock : Nat
deriving DecidableEq, Repr

/-- A graph node (R172 to R174). -/
structure Node where
  record : BitVec 1024
  kernel : BitVec 2048
  bank : List Nat
  serial : Nat
  bufs : List NodeBuf
  /-- the queue index of the kind 2 record that closed it -/
  closing : Option Nat
deriving DecidableEq, Repr

/-- What a stop record says (R186). -/
structure Report where
  cls : Nat
  cause : Nat
  addr : Nat
  aux : Nat
  serial : Word
  team : Nat
  clause : Dword
  islot : Nat
  gslot : Nat
  group : Nat
  core : Nat
  tag : Nat
  exited : Bool
  precise : Bool
  engine : Nat
  slices : Nat
  opa : Dword
  opb : Dword
deriving DecidableEq, Repr

/-- A context (R61, R163, R184 to R187, R198, R199, R221, R224, R226). -/
structure Ctx where
  alive : Bool
  dead : Bool
  gen : Nat
  record : BitVec 512
  vf : Nat
  /-- private range (R226) -/
  base : Nat
  size : Nat
  ats : Bool
  /-- the halt line is up: cause of the fault that raised it -/
  line : Option Nat
  halted : Bool
  first : Nat
  nrec : Nat
  hseq : Nat
  tseq : Nat
  cseq : Nat
  /-- engines that have still to write a stop record, and reports of their own faults -/
  serving : List (Nat × Engine)
  reports : List Report
  wu : Nat
  head : Nat
  /-- the queue tail has been seen beyond head (R164) -/
  woken : Bool
  entries : List QEntry
  nodes : Tab Node
  /-- pages of the record pool in use -/
  pages : List Nat
  /-- private range waits to be zeroed (R226) -/
  zeroing : Bool
  /-- the PASID of its requests on the host port (R220) -/
  pasid : BitVec 20
deriving DecidableEq, Repr

/-! ### Cores -/

/-- A line in an L1: lease, sector masks and data (R110, R123). -/
structure L1Line where
  wts : Nat
  rts : Nat
  valid : Mask4
  owned : Mask4
  dirty : Mask4
  data : BitVec 2048
  /-- the way of its set that it stands in -/
  way : Nat
deriving DecidableEq, Repr

/-- A translation held by a TLB (R114 to R117). -/
structure TlbEntry where
  ctx : Nat
  va : Nat
  size : Nat
  pa : Nat
  host : Bool
  x : Bool
  w : Bool
deriving DecidableEq, Repr

/-- A table entry held by a walk cache: the table that a level's prefix leads to (R117). -/
structure WalkEntry where
  ctx : Nat
  /-- level of the table it leads to: 3 for a T3 table, down to 0 -/
  level : Nat
  prefx : Nat
  table : Nat
deriving DecidableEq, Repr

/-- What a memory operation does. -/
inductive OpKind where
  | load (sx : Bool)
  | ldb
  | store
  | stb
  | atom (op : AtomOp) (t w8 : Bool)
  | ared (op : AtomOp) (t w8 mrg : Bool)
  | amaxp (nw : Bool)
  | bcbarm
  | mwait (ne w8 : Bool)
  | bcbwait
  | accld (slot : Nat)
  | accst
  /-- PQPOP: a store, and the register, lanes and value of what it returns (R279) -/
  | pop (d : Nat) (lanes : LaneMask) (w : Word)
deriving DecidableEq, Repr

/-- A memory operation of a gang in flight (R107, R122, R192). -/
structure Op where
  id : Nat
  ctx : Nat
  gen : Nat
  grp : Nat
  gang : Nat
  slices : List Nat
  tag : Option Nat
  sb : Option Nat
  kind : OpKind
  d : Nat
  pieces : List Piece
  /-- the core's logical time at issue (R127) -/
  pts : Nat
  /-- largest timestamp at which a piece was placed -/
  ts : Nat
  /-- a consumed sector was uncorrectable: its address (R201) -/
  poison : Option Nat
  /-- performed, waiting for its reply or acknowledgement -/
  ready : Bool
  /-- a .Y access that the host port or a link has still to accept, and whether it writes (R122, R137) -/
  port : Option Bool
deriving DecidableEq, Repr

/-- A request on the host port or a link (R106, R107, R137, R221, R231): the part of an instruction's operation that lies in one
64-byte sector, or one lane's atomic. -/
structure YOp where
  op : Op
  write : Bool
  /-- posted and not yet completed at its destination -/
  link : Option Nat
  /-- waits for a translation or a page response (R221) -/
  ats : Bool
  /-- order in which the port or the link accepted it (R122, R137) -/
  seq : Nat
  /-- a confidential context's, on the host port: it uses a selective IDE stream with the T bit set (R226) -/
  tbit : Bool
deriving DecidableEq, Repr

/-- A walk that a core waits for (R117): for a gang's instruction, or for its fetch. -/
structure Walk where
  grp : Nat
  gang : Nat
  ctx : Nat
  va : Nat
  fetch : Bool
deriving DecidableEq, Repr

/-- A core (R171, R175, R192, R193, R215). -/
structure Core where
  pts : Nat
  /-- advances of R125 made so far -/
  ticks : Nat
  /-- the largest timestamp acknowledged to the core (R128) -/
  seen : Nat
  l1 : Tab L1Line
  /-- the replacement bits of each set of the L1 (R110, log 8) -/
  plru : Tab (BitVec 7)
  tlb : List TlbEntry
  walks : List Walk
  /-- ordinary operations in core order, weak ones, those that wait for a reply, and the host port's -/
  rq : List Op
  wk : List Op
  replies : List Op
  yq : List YOp
  /-- flush probes outstanding: the operation that awaits them (R136) -/
  probes : List Op
  ops : List EngOp
  issueRecs : Tab IssueRec
  serial : Word
  part : Word
  phaseQ : List Nat
  /-- words of code that the instruction cache holds: launch, address, word (R264) -/
  icache : List (Nat × Nat × Dword)
  /-- words that the constant cache holds: launch, offset in the bank, word; the oldest first (R103, R105) -/
  ccache : List (Nat × Nat × Word)
  /-- contexts and launches that have begun a clause here, or had a request computed, since the last charge (R206) -/
  served : List (Nat × Nat)
deriving DecidableEq, Repr

/-! ### Quads -/

/-- A holder's quarter of a B set (R139 to R141). -/
structure Quarter where
  grp : Nat
  vb : Nat
  ncol : Nat
deriving DecidableEq, Repr

/-- A B set (R138). -/
structure BSet where
  launch : Nat
  id : Nat
  bfmt : Nat
  kg : Nat
  nq : Nat
  quarters : Tab Quarter
deriving DecidableEq, Repr

/-- A row of a reservation entry (R144): lane, A registers and A-row bound. -/
structure ARow where
  lane : Nat
  regs : List Word
  bound : BitVec 16
deriving DecidableEq, Repr

/-- A reservation entry: one quarter's request (R142, R144, R147). -/
structure ResEntry where
  id : Nat
  /-- the MMA it belongs to -/
  mma : Nat
  ctx : Nat
  launch : Nat
  grp : Nat
  team : Nat
  core : Nat
  slices : List Nat
  tag : Option Nat
  sb : Nat
  set : Nat
  slot : Nat
  word : Word
  rows : List ARow
  /-- its fusion window -/
  window : Nat
  skipped : Nat
  forced : Bool
  /-- the request that counts the malformed units of B for its MMA (R83) -/
  lead : Bool
  /-- the quad in whose table it stands and whose set it names: its team may resume on another (R162, R385) -/
  quad : Nat
  /-- K-groups applied so far: a pre-emption request stops it between two (R162) -/
  kdone : Nat
deriving DecidableEq, Repr

/-- A fusion window (R146). -/
structure Window where
  id : Nat
  launch : Nat
  set : Nat
  word : Word
  isOpen : Bool
deriving DecidableEq, Repr

/-- A quad (R117, R138, R142). -/
structure Quad where
  sets : List BSet
  table : List ResEntry
  windows : List Window
  tlb : List TlbEntry
  walkc : List WalkEntry
deriving DecidableEq, Repr

/-! ### Home slices -/

/-- A line's directory and lease state (R112, R119, R120, R123). -/
structure DirEntry where
  wts : Nat
  rts : Nat
  /-- owner core -/
  owner : Option Nat
  /-- bit q: quad q has been granted a copy -/
  sharers : BitVec 72
  /-- held by the host over CXL.mem (R222) -/
  hostHeld : Bool
  /-- way 14 or 15 that pins it (R120) -/
  pinned : Option Nat
deriving DecidableEq, Repr

/-- When a monitor fires (R132, R159). -/
inductive Cond where
  | eq (x : Nat) | ne (x : Nat) | atMost0
deriving DecidableEq, Repr

/-- A monitor, or a poll that stands for one (R132). -/
structure Monitor where
  id : Nat
  ctx : Nat
  grp : Nat
  gang : Nat
  core : Nat
  va : Nat
  pa : Nat
  len : Nat
  cond : Cond
  d : Nat
  lanes : LaneMask
  tag : Option Nat
  polling : Bool
  /-- the cycle at which its word was last read for a poll -/
  polled : Nat
deriving DecidableEq, Repr

/-- A merged request in a router: the piece of one core's operation that another's carries (R133). -/
structure Merge where
  src : Nat
  srcOp : Nat
  lane : Nat
  dst : Nat
  dstOp : Nat
  dstLane : Nat
deriving DecidableEq, Repr

/-- A page migration (R119). -/
structure Migration where
  ctx : Nat
  va : Nat
  size : Nat
  p : Nat
  q : Nat
  switched : Bool
  /-- writes of Distaff and of posted requests that the homes hold, in arrival order: address, bytes, value, agent -/
  held : List (Nat × Nat × Nat × Nat)
deriving DecidableEq, Repr

/-! ### The device -/

/-- The four wear states (R212). -/
inductive WearState where
  | healthy | derated | drained | retired
deriving DecidableEq, Repr

/-- A lifetime wear record (R208). Power-on time is kept in the 10 s intervals of the monitors (R205): `hours` counts them, and
`vfh` those spent at each step; the record gives both in hours. EM damage is kept in 2^-48 of the life budget, as wear is; the record
gives it in whole 2^-32. -/
structure Wear where
  lasttest : Nat
  tests : Nat
  stops : Tab Nat
  errs : Tab Nat
  tpk30 : Int
  tpeak : Int
  vfh : Tab Nat
  em : Tab Nat
  drift : Tab Int
  hours : Nat
  eol : Nat
  rate : Nat
  cwu : Nat
  overdue : Nat
  why : Nat
  state : WearState
  /-- for rate and tpk30: accrual and temperature of each reading of the last 30 days of power-on time, the newest first -/
  recent : List (Nat × Int)
deriving DecidableEq, Repr

/-- A running in-field test (R215). -/
structure TestRun where
  core : Nat
  ctx : Nat
  issuer : Nat
  pa : Nat
  run : Nat
  /-- an abort has been asked for -/
  aborting : Bool
deriving DecidableEq, Repr

/-- A notice (R176). -/
structure Notice where
  kind : Nat
  ctx : Nat
  nseq : Nat
  time : Nat
  arg : BitVec 128
deriving DecidableEq, Repr

/-- A host event (R225): its kind and what it names. -/
structure Event where
  kind : Nat
  ctx : Nat
  arg : Nat
deriving DecidableEq, Repr

/-- The states of a TDI (R226). -/
inductive Tdi where
  | unlocked | locked | run | error
deriving DecidableEq, Repr

/-- A Skein link (R230). -/
structure Link where
  up : Bool
  failures : Nat
  replay : Bool
deriving DecidableEq, Repr

/-- A command ring (R223, R224): tail, head, and the 64-byte entries by ring position. -/
structure Ring where
  tail : Nat
  head : Nat
  entries : Tab (BitVec 512)
deriving DecidableEq, Repr

/-- A firmware bank's header and body, as flash holds it (R228). -/
structure Bank where
  header : BitVec 1536
  body : List Byte
deriving DecidableEq, Repr

/-- What a function's configuration header says it is (R1). -/
structure PciHeader where
  vendor : BitVec 16
  device : BitVec 16
  revision : BitVec 8
deriving DecidableEq, Repr

/-- What flash keeps over a power loss (R120, R209, R214, R228). -/
structure Flash where
  wear : Tab Wear
  map : List (Option Nat)
  mapno : Nat
  pins : List Nat
  accel : Tab Nat
  minSvn : Nat
  lastBank : Nat
  replacement : Bool
  events : List Event
  /-- as `dieErrs` and `corrected` of the device (R200) -/
  dieErrs : Tab Nat
  corrected : Tab (List Nat)
deriving DecidableEq, Repr

/-- The rest of the device: maps, wear, tests, islands, queues to the outside, links, boot. -/
structure Device where
  boot : Nat
  /-- a power loss whose 60 s of accrual no bring-up has added yet (R209) -/
  lost : Bool
  /-- the configuration headers of the physical function and of the virtual ones (R1) -/
  pf : PciHeader
  vf : PciHeader
  /-- logical quad n at position n: its physical quad (R9, R214) -/
  map : List (Option Nat)
  mapno : Nat
  wear : Tab Wear
  flash : Flash
  banks : List Bank
  /-- reserving context of a core (R215) -/
  resv : Tab Nat
  tests : List TestRun
  /-- power-on time of a core's last notice, and whether the test it asked for has been run or recorded overdue (R215, R216) -/
  testDue : Tab (Nat × Bool)
  /-- quads marked by CRETIRE (R214) -/
  retiring : List Nat
  islands : Tab (BitVec 3)
  throttled : List Nat
  tempc : Tab Word
  /-- what SRSET of a maintenance context has written to a privileged register, and what the device's own value was then: by register number,
  %tempc's by core beside it (R4, log 79) -/
  privSet : Tab (Dword × Dword)
  tripped : Bool
  queue : List Notice
  heldNotices : List Notice
  nseq : Nat
  /-- the high-priority notice last posted: launch and cores lacking (R176) -/
  prio2 : List (Nat × Nat)
  /-- the host's event ring, events written to it, and those the host has taken out of it (R225) -/
  ring : Option (Nat × Nat)
  ringNext : Nat
  ringTaken : Nat
  /-- events written to the ring, and signals given on MSI-X vector 0 -/
  delivered : List Event
  signals : Nat
  heldEvents : List Event
  lostEvents : Nat
  rings : Tab Ring
  /-- MSI-X table entries, vector v of function f at 64f + v, and the vectors whose pending bit is set (R220) -/
  msix : Tab (BitVec 128)
  msixPend : List Nat
  replacement : Bool
  routes : Tab Nat
  links : Tab Link
  /-- the port is trained in CXL mode (R222) -/
  cxl : Bool
  tdis : Tab Tdi
  /-- pages for which the device holds an ATS translation, each with its right to write, and page requests outstanding (R221) -/
  atsPages : List (Nat × Nat × Bool)
  priPages : List (Nat × Nat)
  /-- SPDM requests since reset, and the answers (R227); the keys of the IDE streams, the link's 0 and the selective ones' 1 to 8 -/
  spdmIn : List (List Byte)
  spdmOut : List (List Byte)
  ideKeys : Tab (BitVec 256)
  /-- logical time of the host port and the links, by agent number from 288 (R124, R134) -/
  agents : Tab Nat
  poison : List Nat
  /-- writes that a link that was down has dropped: link and address (R230) -/
  dropped : List (Nat × Nat)
  /-- what the last read of the host port or a link returned (R135) -/
  readData : List Byte
  /-- per DRAM sector the power-on times of its corrections within 24 hours (R120, R200, log 91), and per die, in its lifetime record, the
  corrections of its L2 slices, of their directory, lease and monitor state, and of its channels -/
  corrected : Tab (List Nat)
  dieErrs : Tab Nat
  /-- per page of flash how often its code has corrected it, and how often it could not (R200, log 104) -/
  flashErrs : Tab (Nat × Nat)
  /-- per core the accrual charged since its monitors last measured, and its busy cycles of the last millisecond charged (R206, R217) -/
  charged : Tab Nat
  load : Tab Nat
  unconsumed : List Nat
deriving DecidableEq, Repr

/-- Who moves next: a choice of the surroundings, held as data (log 1). -/
inductive Turn where
  /-- an event of the device -/
  | event (i : Instr)
  /-- the gang that holds a port of a core issues its next instruction -/
  | issue (core port : Nat)
  /-- core cycles pass -/
  | tick (n : Nat)
  /-- a core's instruction cache, or its constant cache, gives up the word at a position (R105, R264) -/
  | lose (core : Nat) (code : Bool) (n : Nat)
  /-- the host takes events out of its ring (R225) -/
  | hostTakes (n : Nat)
  /-- the gang that holds a port of a core, in a context that halts, stops at an instruction that cannot complete (R187) -/
  | stall (core port : Nat)
  /-- a pool's codes find an error in what an operation of the core's async block reads of .S next: a corrected one, or one that they cannot
  correct (R152, R200) -/
  | poolError (core id : Nat) (bad : Bool)
  /-- some bytes of what an operation of a core returns are there ahead of the rest, by lane and byte: of a read or an atomic of the host port or a
  link, which returns this data, of a RELMRG or of a PQPOP (R238) -/
  | early (core id : Nat) (data : List Byte) (part : List (Nat × Nat))
  /-- the hottest sensor of a core is sampled, in 1/16 °C (R218) -/
  | sample (core : Nat) (temp : Int)
  /-- the code of a page of flash finds an error: a corrected one, or one that it cannot correct (R200) -/
  | flashError (page : Nat) (bad : Bool)
deriving DecidableEq, Repr

/-- The state of the machine. -/
structure State where
  /-- the model's own: turns to come, counter of free values, the issuing gang, fresh names -/
  agenda : List Turn
  free : Nat
  focus : Option (Nat × Nat)
  nextUid : Nat
  /-- %cycle: core cycles since cold reset (R61) -/
  cycle : Nat
  /-- device memory, physical bytes; an unlisted byte reads 0 (R113, R229) -/
  mem : List Host.Cell
  /-- host memory and peers, by host address; an unlisted byte reads 0 (log 3) -/
  host : List Host.Cell
  dir : Tab DirEntry
  /-- the L2: of set n of slice m, at 256m + n, the lines that stand in its ways, the most recently used first (R111, R120) -/
  l2 : Tab (List Nat)
  monitors : List Monitor
  router : List Merge
  migrations : List Migration
  groups : Tab Group
  teams : Tab Team
  clusters : Tab Cluster
  launches : Tab Launch
  ctxs : Tab Ctx
  cores : Tab Core
  quads : Tab Quad
  dev : Device
deriving DecidableEq, Repr

/-! ### Reset -/

/-- A wear record as at manufacture: every field zero (R208). -/
def Wear.fresh : Wear :=
  ⟨0, 0, [], [], 0, 0, [], [], [], 0, 0, 0, 0, 0, 0, .healthy, []⟩

/-- Logical quad 16d + i on physical quad 18d + i (R9, log 4). -/
def Device.shippedMap : List (Option Nat) :=
  (List.range 64).map fun n => some (18 * (n / 16) + n % 16)

/-- Flash as at manufacture (R208, R214). -/
def Flash.fresh : Flash :=
  ⟨[], Device.shippedMap, 0, [], [], 0, 0, false, [], [], []⟩

/-- A firmware bank that holds nothing but its magic and kind (R228, log 6). -/
def Bank.fresh (kind : Nat) : Bank :=
  ⟨BitVec.ofNat 1536 (0x4649524D + kind * 2 ^ 32), []⟩

/-- The device after bring-up (R229). -/
def Device.reset : Device where
  boot := 6
  lost := false
  pf := ⟨0x1F4C, 0x0960, 0x21⟩
  vf := ⟨0x1F4C, 0x0961, 0x21⟩
  map := Device.shippedMap
  mapno := 0
  wear := []
  flash := Flash.fresh
  banks := [Bank.fresh 1, Bank.fresh 1, Bank.fresh 2, Bank.fresh 2]
  resv := []
  tests := []
  testDue := []
  retiring := []
  islands := []
  throttled := []
  tempc := []
  privSet := []
  tripped := false
  queue := []
  heldNotices := []
  nseq := 0
  prio2 := []
  ring := none
  ringNext := 0
  ringTaken := 0
  delivered := []
  signals := 0
  heldEvents := []
  lostEvents := 0
  rings := []
  msix := []
  msixPend := []
  replacement := false
  routes := []
  links := []
  cxl := false
  tdis := []
  atsPages := []
  priPages := []
  spdmIn := []
  spdmOut := []
  ideKeys := []
  agents := []
  poison := []
  dropped := []
  readData := []
  corrected := []
  dieErrs := []
  flashErrs := []
  charged := []
  load := []
  unconsumed := []

/-- The machine right after reset and bring-up: memory zeroed, logical time 0, no context, no work (R123, R163, R229). -/
def State.reset : State where
  agenda := []
  free := 0
  focus := none
  nextUid := 0
  cycle := 0
  mem := []
  host := []
  dir := []
  l2 := []
  monitors := []
  router := []
  migrations := []
  groups := []
  teams := []
  clusters := []
  launches := []
  ctxs := []
  cores := []
  quads := []
  dev := Device.reset

end Sys2Proof.Machine
end

