-- ==== Sys2Proof/Machine/Store.lean ====
section
/-! DEFINITION. Tables and memory: the named operations over the two kinds of collection that State is made of. -/
namespace Sys2Proof.Machine

/-! ### Tables -/

/-- The entry of a key, if the table lists it. -/
def Tab.look {α : Type} : Tab α → Nat → Option α
  | [], _ => none
  | (k, v) :: t, n => if k = n then some v else Tab.look t n

/-- The entry of a key, or a default. -/
def Tab.getD {α : Type} (t : Tab α) (n : Nat) (d : α) : α := (Tab.look t n).getD d

/-- Set the entry of a key, keeping keys in rising order. -/
def Tab.put {α : Type} : Tab α → Nat → α → Tab α
  | [], n, v => [(n, v)]
  | (k, w) :: t, n, v =>
    if n < k then (n, v) :: (k, w) :: t
    else if n = k then (n, v) :: t
    else (k, w) :: Tab.put t n v

/-- Remove a key. -/
def Tab.del {α : Type} : Tab α → Nat → Tab α
  | [], _ => []
  | (k, w) :: t, n => if k = n then t else (k, w) :: Tab.del t n

/-- Change the entry of a key if it is listed. -/
def Tab.alter {α : Type} : Tab α → Nat → (α → α) → Tab α
  | [], _, _ => []
  | (k, w) :: t, n, f => if k = n then (k, f w) :: t else (k, w) :: Tab.alter t n f

/-- Keys in strictly rising order. -/
def Tab.rising {α : Type} : Tab α → Bool
  | [] => true
  | [_] => true
  | (k, _) :: (m, w) :: t => decide (k < m) && Tab.rising ((m, w) :: t)

/-! ### Memory: bytes by address, canonical -/

/-- The byte at an address; an unlisted address reads 0 (R229; host memory: log 3). -/
def Mem.read : List Host.Cell → Nat → Byte
  | [], _ => 0
  | (k, v) :: t, a => if k = a then v else Mem.read t a

/-- Write a byte, keeping the canonical form: addresses rising, no zero listed. -/
def Mem.write : List Host.Cell → Nat → Byte → List Host.Cell
  | [], a, v => if v = 0 then [] else [(a, v)]
  | (k, w) :: t, a, v =>
    if a < k then (if v = 0 then (k, w) :: t else (a, v) :: (k, w) :: t)
    else if a = k then (if v = 0 then t else (a, v) :: t)
    else (k, w) :: Mem.write t a v

/-- Whether an address lies above a bound, if there is one. -/
def aboveBound (b : Option Nat) (k : Nat) : Bool := match b with | none => true | some n => decide (n < k)

/-- The canonical form: addresses strictly rising, above a bound, and no entry equal to what an unlisted address reads as. -/
def Mem.wfAbove : Option Nat → List Host.Cell → Bool
  | _, [] => true
  | b, (k, v) :: t => aboveBound b k && v != 0 && Mem.wfAbove (some k) t

/-- The canonical form of memory. -/
def Memory.wf (m : List Host.Cell) : Bool := Mem.wfAbove none m

/-- n bytes at a, little-endian (R2). -/
def Mem.readN (m : List Host.Cell) (a : Nat) : Nat → Nat
  | 0 => 0
  | n + 1 => (Mem.read m a).toNat + 256 * Mem.readN m (a + 1) n

/-- Write the low n bytes of a value at a, little-endian (R2). -/
def Mem.writeN (m : List Host.Cell) (a : Nat) : Nat → Nat → List Host.Cell
  | 0, _ => m
  | n + 1, v => Mem.writeN (Mem.write m a (BitVec.ofNat 8 v)) (a + 1) n (v / 256)

/-- The bytes at a, as a list. -/
def Mem.bytes (m : List Host.Cell) (a n : Nat) : List Byte := (List.range n).map fun i => Mem.read m (a + i)

/-- Write a list of bytes at a. -/
def Mem.writeBytes (m : List Host.Cell) (a : Nat) : List Byte → List Host.Cell
  | [] => m
  | b :: bs => Mem.writeBytes (Mem.write m a b) (a + 1) bs

/-- The low n bytes of a value, the lowest first (R2). -/
def leBytes (v n : Nat) : List Byte := (List.range n).map fun i => BitVec.ofNat 8 (v / 2 ^ (8 * i))

/-- Zero the bytes of an interval. -/
def Mem.clear (m : List Host.Cell) (a n : Nat) : List Host.Cell := m.filter fun c => !(a ≤ c.1 && c.1 < a + n)

/-! ### Small helpers -/

/-- Position of the first element that satisfies a test. -/
def findPos {α : Type} (p : α → Bool) : List α → Option Nat
  | [] => none
  | x :: xs => if p x then some 0 else (findPos p xs).map (· + 1)

/-- Remove the element at a position. -/
def dropAt {α : Type} : List α → Nat → List α
  | [], _ => []
  | _ :: xs, 0 => xs
  | x :: xs, n + 1 => x :: dropAt xs n

/-- Change the elements that satisfy a test. -/
def mapIf {α : Type} (p : α → Bool) (f : α → α) (xs : List α) : List α := xs.map fun x => if p x then f x else x

/-- A list without repeats, first occurrences kept. -/
def nodup (xs : List Nat) : List Nat := xs.foldl (fun acc x => if acc.contains x then acc else acc ++ [x]) []

/-- Insert into a list that a comparison orders. -/
def insertBy {α : Type} (le : α → α → Bool) (x : α) : List α → List α
  | [] => [x]
  | y :: ys => if le x y then x :: y :: ys else y :: insertBy le x ys

/-- Insertion sort; equal elements keep their order. -/
def sortBy {α : Type} (le : α → α → Bool) (xs : List α) : List α := xs.foldr (insertBy le) []

/-- The first n of which a list has the least by a key, ties to the earlier. -/
def argmin {α : Type} (key : α → Nat) : List α → Option α
  | [] => none
  | x :: xs =>
    match argmin key xs with
    | none => some x
    | some y => if key x ≤ key y then some x else some y

/-- Bits hi down to lo of a number. -/
def bits (v hi lo : Nat) : Nat := v / 2 ^ lo % 2 ^ (hi + 1 - lo)

/-- One bit of a number. -/
def bit (v i : Nat) : Bool := v / 2 ^ i % 2 == 1

/-- A bit as a number. -/
def b2n (b : Bool) : Nat := if b then 1 else 0

/-- Sign extension of the low w bits to 64 bits, as a number mod 2^64. -/
def sext64 (v w : Nat) : Nat := if v % 2 ^ w < 2 ^ (w - 1) then v % 2 ^ w else v % 2 ^ w + (2 ^ 64 - 2 ^ w)

end Sys2Proof.Machine
end

