-- ==== Sys2Proof/Machine/Crypto.lean ====
section
/-! DEFINITION. SHA-512 and the verification of Ed25519 signatures, which R227 and R228 name. The spec leaves both to their standards, FIPS 180-4
and RFC 8032: what stands here is theirs (log 106). Numbers are Nat; a message is a list of bytes. -/
namespace Sys2Proof.Machine

/-! ### SHA-512 -/

/-- The fractional parts of the cube roots of the first 80 primes, and of the square roots of the first 8. -/
def sha512K : List Nat :=
  [0x428a2f98d728ae22, 0x7137449123ef65cd, 0xb5c0fbcfec4d3b2f, 0xe9b5dba58189dbbc, 0x3956c25bf348b538,
   0x59f111f1b605d019, 0x923f82a4af194f9b, 0xab1c5ed5da6d8118, 0xd807aa98a3030242, 0x12835b0145706fbe,
   0x243185be4ee4b28c, 0x550c7dc3d5ffb4e2, 0x72be5d74f27b896f, 0x80deb1fe3b1696b1, 0x9bdc06a725c71235,
   0xc19bf174cf692694, 0xe49b69c19ef14ad2, 0xefbe4786384f25e3, 0x0fc19dc68b8cd5b5, 0x240ca1cc77ac9c65] ++
  [0x2de92c6f592b0275, 0x4a7484aa6ea6e483, 0x5cb0a9dcbd41fbd4, 0x76f988da831153b5, 0x983e5152ee66dfab,
   0xa831c66d2db43210, 0xb00327c898fb213f, 0xbf597fc7beef0ee4, 0xc6e00bf33da88fc2, 0xd5a79147930aa725,
   0x06ca6351e003826f, 0x142929670a0e6e70, 0x27b70a8546d22ffc, 0x2e1b21385c26c926, 0x4d2c6dfc5ac42aed,
   0x53380d139d95b3df, 0x650a73548baf63de, 0x766a0abb3c77b2a8, 0x81c2c92e47edaee6, 0x92722c851482353b] ++
  [0xa2bfe8a14cf10364, 0xa81a664bbc423001, 0xc24b8b70d0f89791, 0xc76c51a30654be30, 0xd192e819d6ef5218,
   0xd69906245565a910, 0xf40e35855771202a, 0x106aa07032bbd1b8, 0x19a4c116b8d2d0c8, 0x1e376c085141ab53,
   0x2748774cdf8eeb99, 0x34b0bcb5e19b48a8, 0x391c0cb3c5c95a63, 0x4ed8aa4ae3418acb, 0x5b9cca4f7763e373,
   0x682e6ff3d6b2b8a3, 0x748f82ee5defb2fc, 0x78a5636f43172f60, 0x84c87814a1f0ab72, 0x8cc702081a6439ec] ++
  [0x90befffa23631e28, 0xa4506cebde82bde9, 0xbef9a3f7b2c67915, 0xc67178f2e372532b, 0xca273eceea26619c,
   0xd186b8c721c0c207, 0xeada7dd6cde0eb1e, 0xf57d4f7fee6ed178, 0x06f067aa72176fba, 0x0a637dc5a2c898a6,
   0x113f9804bef90dae, 0x1b710b35131c471b, 0x28db77f523047d84, 0x32caab7b40c72493, 0x3c9ebe0a15c9bebc,
   0x431d67c49c100d4c, 0x4cc5d4becb3e42b6, 0x597f299cfc657e2a, 0x5fcb6fab3ad6faec, 0x6c44198c4a475817]

def sha512H : List Nat :=
  [0x6a09e667f3bcc908, 0xbb67ae8584caa73b, 0x3c6ef372fe94f82b, 0xa54ff53a5f1d36f1,
   0x510e527fade682d1, 0x9b05688c2b3e6c1f, 0x1f83d9abfb41bd6b, 0x5be0cd19137e2179]

/-- Rotation to the right in 64 bits. -/
def rotr64 (x n : Nat) : Nat := x / 2 ^ n + x % 2 ^ n * 2 ^ (64 - n)

/-- Bytes as a number, the first highest. -/
def bigEndian (bs : List Byte) : Nat := bs.foldl (fun n b => 256 * n + b.toNat) 0

/-- The n words of 64 bits of a number, the highest first. -/
def words64 (v : Nat) : Nat → List Nat
  | 0 => []
  | n + 1 => v / 2 ^ (64 * n) % 2 ^ 64 :: words64 v n

/-- A message padded to a multiple of 128 bytes: one bit, zeros, and the length in bits. -/
def sha512Pad (m : List Byte) : List Byte :=
  let n := m.length
  m ++ 0x80 :: (List.replicate ((239 - n % 128) % 128) 0 ++ (List.range 16).map fun i => BitVec.ofNat 8 (8 * n / 2 ^ (8 * (15 - i))))

/-- The schedule of a block, extended from its last 16 words, the latest first. -/
def sha512Extend : Nat → List Nat → List Nat
  | 0, w => w
  | n + 1, w =>
    let a := w.getD 14 0
    let b := w.getD 1 0
    let s0 := rotr64 a 1 ^^^ rotr64 a 8 ^^^ (a / 2 ^ 7)
    let s1 := rotr64 b 19 ^^^ rotr64 b 61 ^^^ (b / 2 ^ 6)
    sha512Extend n ((s1 + w.getD 6 0 + s0 + w.getD 15 0) % 2 ^ 64 :: w)

/-- The eight working variables of a round. -/
structure ShaVars where
  a : Nat
  b : Nat
  c : Nat
  d : Nat
  e : Nat
  f : Nat
  g : Nat
  h : Nat
deriving DecidableEq, Repr

def ShaVars.ofList (v : List Nat) : ShaVars :=
  ⟨v.getD 0 0, v.getD 1 0, v.getD 2 0, v.getD 3 0, v.getD 4 0, v.getD 5 0, v.getD 6 0, v.getD 7 0⟩

def ShaVars.toList (v : ShaVars) : List Nat := [v.a, v.b, v.c, v.d, v.e, v.f, v.g, v.h]

/-- One round, with its constant and its schedule word. -/
def ShaVars.round (v : ShaVars) (k w : Nat) : ShaVars :=
  let s1 := rotr64 v.e 14 ^^^ rotr64 v.e 18 ^^^ rotr64 v.e 41
  let ch := (v.e &&& v.f) ^^^ ((2 ^ 64 - 1 - v.e) &&& v.g)
  let t1 := v.h + s1 + ch + k + w
  let s0 := rotr64 v.a 28 ^^^ rotr64 v.a 34 ^^^ rotr64 v.a 39
  let maj := (v.a &&& v.b) ^^^ (v.a &&& v.c) ^^^ (v.b &&& v.c)
  ⟨(t1 + s0 + maj) % 2 ^ 64, v.a, v.b, v.c, (v.d + t1) % 2 ^ 64, v.e, v.f, v.g⟩

/-- One block, as its number of 1024 bits. -/
def sha512Block (h : List Nat) (block : Nat) : List Nat :=
  let w := (sha512Extend 64 (words64 block 16).reverse).reverse
  let v := (sha512K.zip w).foldl (fun (v : ShaVars) e => v.round e.1 e.2) (ShaVars.ofList h)
  (h.zip v.toList).map fun e => (e.1 + e.2) % 2 ^ 64

/-- The blocks of a padded message. -/
def sha512Blocks (m : List Byte) : List Nat :=
  (List.range (m.length / 128)).map fun i => bigEndian ((m.drop (128 * i)).take 128)

/-- The digest, its first byte lowest. -/
def sha512 (m : List Byte) : BitVec 512 :=
  let h := (sha512Blocks (sha512Pad m)).foldl sha512Block sha512H
  let bytes := h.flatMap fun x => (List.range 8).map fun i => x / 2 ^ (8 * (7 - i)) % 256
  BitVec.ofNat 512 (bytes.foldr (fun b n => b + 256 * n) 0)

/-! ### Ed25519 -/

/-- The field's prime, the order of the base point, and a power in the field. -/
def edP : Nat := 2 ^ 255 - 19
def edL : Nat := 2 ^ 252 + 27742317777372353535851937790883648493

/-- a to the power that some bits give, the lowest first, modulo p. -/
def powBits (p : Nat) : List Bool → Nat → Nat
  | [], _ => 1 % p
  | b :: bs, a => (if b then a else 1) * powBits p bs (a * a % p) % p

/-- The n bits of a number, the lowest first. -/
def bitsOf (v n : Nat) : List Bool := (List.range n).map fun i => v / 2 ^ i % 2 == 1

def edPow (a e : Nat) : Nat := powBits edP (bitsOf e 255) (a % edP)

/-- The curve's constant -121665/121666, and a square root of -1. -/
def edD : Nat := (edP - 121665) * edPow 121666 (edP - 2) % edP
def edI : Nat := edPow 2 ((edP - 1) / 4)

/-- A point: X, Y, Z and T = XY/Z. -/
structure EdPoint where
  x : Nat
  y : Nat
  z : Nat
  t : Nat
deriving DecidableEq, Repr

def EdPoint.zero : EdPoint := ⟨0, 1, 1, 0⟩

/-- The sum of two points. -/
def EdPoint.add (p q : EdPoint) : EdPoint :=
  let sub := fun (a b : Nat) => (a + (edP - b % edP)) % edP
  let a := sub p.y p.x * sub q.y q.x % edP
  let b := (p.y + p.x) * (q.y + q.x) % edP
  let c := 2 * p.t % edP * q.t % edP * edD % edP
  let d := 2 * p.z * q.z % edP
  let e := sub b a
  let f := sub d c
  let g := (d + c) % edP
  let h := (b + a) % edP
  ⟨e * f % edP, g * h % edP, f * g % edP, e * h % edP⟩

/-- The multiple of a point that some bits give, the lowest first. -/
def EdPoint.times : List Bool → EdPoint → EdPoint
  | [], _ => .zero
  | b :: bs, p => if b then p.add (EdPoint.times bs (p.add p)) else EdPoint.times bs (p.add p)

/-- Whether two points are one. -/
def EdPoint.same (p q : EdPoint) : Bool := p.x * q.z % edP == q.x * p.z % edP && p.y * q.z % edP == q.y * p.z % edP

/-- The point that 32 bytes encode, the first byte lowest: y, and in bit 255 the parity of x. -/
def edDecode (v : Nat) : Option EdPoint :=
  let y := v % 2 ^ 255
  if edP ≤ y then none
  else
    let u := (y * y + (edP - 1)) % edP
    let w := (edD * (y * y % edP) + 1) % edP
    let x := u * edPow w 3 % edP * edPow (u * edPow w 7) ((edP - 5) / 8) % edP
    let vx := w * (x * x % edP) % edP
    let root := if vx = u then some x else if vx = (edP - u) % edP then some (x * edI % edP) else none
    match root with
    | none => none
    | some x =>
      if x = 0 && v / 2 ^ 255 % 2 == 1 then none
      else
        let x := if x % 2 = v / 2 ^ 255 % 2 then x else edP - x
        some ⟨x, y, 1, x * y % edP⟩

/-- The base point: y = 4/5, x even. -/
def edBase : Option EdPoint := edDecode (4 * edPow 5 (edP - 2) % edP)

/-- Whether a signature of a message verifies under a key: [S]B = R + [k]A. -/
def ed25519Verify (key : BitVec 256) (m : List Byte) (sig : BitVec 512) : Bool :=
  let r := sig.toNat % 2 ^ 256
  let s := sig.toNat / 2 ^ 256
  match edDecode key.toNat, edDecode r, edBase with
  | some a, some p, some b =>
    let k := (sha512 (leBytes r 32 ++ leBytes key.toNat 32 ++ m)).toNat % edL
    decide (s < edL) && (EdPoint.times (bitsOf s 253) b).same (p.add (EdPoint.times (bitsOf k 253) a))
  | _, _, _ => false

end Sys2Proof.Machine
end

