-- ==== Sys2Proof/Config.lean ====
section
/-! DEFINITION. What the part fixes once (fuses, vendor cryptography) and the free values of the model.
Every constant here is opaque: no proof can see its value. -/
namespace Sys2Proof.Config

/-- Free values: what a register that is not carried over PHEND holds until it is written (R29, log 2). -/
opaque freeWord : Nat → BitVec 32

/-- Free values for a digit that the fixed-precision evaluation of FEXP2 and FLOG2 leaves undecided (R81, log 9). -/
opaque freeBit : Nat → Bool

/-- The 32 bytes of an event in the host's ring, by its kind, the context it names and what else it names; their layout is not given
(R225, log 11). -/
opaque eventBytes : Nat → Nat → Nat → BitVec 256

/-- The fused expected scan signature of a physical core (R215, log 6). -/
opaque expectSignature : Nat → BitVec 32

/-- The fused hash of the signing key (R228, log 6). -/
opaque fusedKeyHash : BitVec 256

/-- The digest of the boot ROM and that of the fused security configuration: measurement blocks 1 and 4 (R227, log 6). -/
opaque bootRom : BitVec 512
opaque fusedSecurity : BitVec 512

/-- The certificate of slot 0, that of the device identity key, and that of slot 1, that of the alias key, by the digest of the running
firmware (R227, log 6). -/
opaque identityCertificate : List (BitVec 8)
opaque aliasCertificate : BitVec 512 → List (BitVec 8)

/-- The algorithms by which a device signs, hashes, exchanges keys and protects a session. -/
structure Algorithms where
  signature : String
  hash : String
  exchange : String
  aead : String
deriving DecidableEq, Repr

/-- The device's answer to the last of a row of SPDM 1.3 requests, under its algorithms, from the measurement blocks, the certificates and the
interface reports, as the standard gives it (R227, log 6). -/
opaque spdmAnswer :
  Algorithms → List (List (BitVec 8)) → List (BitVec 512) → List (List (BitVec 8)) → List (BitVec 768) → List (BitVec 8)

/-- How the arguments of CREATECTX (context record, VF, base and size of the private range, and whether the context's .Y requests are
translated by ATS) lie in the 56 bytes of its entry from byte 8 on: the record alone has 64 bytes, and the spec gives no layout (R224, log
107). -/
opaque createArgs : BitVec 512 → Nat → Nat → Nat → Bool → List (BitVec 8)

/-- The IDE stream and key that the last of a row of SPDM requests programs, if it is an IDE_KM message of a session (R220, log 6). -/
opaque ideProgram : List (List (BitVec 8)) → Option (Nat × BitVec 256)

/-- The PASID of a context's requests, by the number of contexts created before it: the host assigns it (R220, log 95). -/
opaque pasid : Nat → BitVec 20

end Sys2Proof.Config
end

