-- ==== Sys2Proof/WellFormed.lean ====
section
/-! DEFINITION. Well-formed instructions: the checks on a word's fields that do not depend on the state (R246, R255 to R262).
Each check has a name of its own; Instr.wf gathers them. -/
namespace Sys2Proof

namespace Wf

/-- A pair names an even register (R56). -/
def even (n : BitVec 10) : Bool := n.getLsbD 0 == false

/-- A block of four starts at a multiple of 4 (R256). -/
def quad (n : BitVec 10) : Bool := n.getLsbD 0 == false && n.getLsbD 1 == false

/-- A 64-bit source is an even register, never a latch (R246). -/
def pairSrc : Src → Bool
  | .reg n => even n
  | .lat _ => false

/-- LOP3 names only v0 to v511 in sources B and C (R249). -/
def low512 : Src → Bool
  | .reg n => n.getLsbD 9 == false
  | .lat _ => true

/-- The base of a memory access: an even pair for .G and .Y, one register or latch otherwise (R250). -/
def base (sp : Space) (b : Src) : Bool :=
  match sp with
  | .g | .y => pairSrc b
  | .s | .c => true

/-- A destination block of a load (R256). -/
def destBlock (sz : Size) (d : BitVec 10) : Bool :=
  match sz with
  | .b8 => even d
  | .b16 => quad d
  | _ => true

/-- A data block of a store: latches only up to 4 bytes (R256). -/
def dataBlock (sz : Size) : Src → Bool
  | .reg n => destBlock sz n
  | .lat _ => sz != .b8 && sz != .b16

/-- .SX only with sizes 1 and 2 (R256). -/
def signExt (sx : Bool) (sz : Size) : Bool := !sx || sz == .b1 || sz == .b2

/-- .WK only in .G (R256). -/
def weak (wk : Bool) (sp : Space) : Bool := !wk || sp == .g

/-- Writes never name .C (R105). -/
def notConst (sp : Space) : Bool := sp != .c

/-- LDB and STB have sizes 1 to 8 (R256). -/
def boundSize (sz : Size) : Bool := sz != .b16

/-- The bit t of ATOM and ARED (R256). -/
def tBit (t : Bool) (w8 : Bool) : AtomOp → Bool
  | .add => !t || !w8
  | .min | .max => true
  | _ => !t

/-- ARED has no .SWAP and no .CAS (R256). -/
def redOp (o : AtomOp) : Bool := o != .swap && o != .cas

/-- .MRG is legal only on ARED.ADD.F32 (R256). -/
def merge (mrg t : Bool) (o : AtomOp) : Bool := !mrg || (t && o == .add)

/-- Bitwise reductions take no float type (R257). -/
def redTy (o : RedOp) (t : RedTy) : Bool :=
  match o with
  | .and | .or | .xor => t == .i32 || t == .n32
  | _ => true

/-- CVT takes no I4X (R79). -/
def cvtFmt (f : Fmt) : Bool := f != .i4x

/-- ACCST and BNDRD of I4X take RN, and ACCST takes SAT (R291, R303). -/
def i4xRn (f : Fmt) (rm : Rnd) : Bool := f != .i4x || rm == .rn

/-- A team handle number lies below 16 (R49). -/
def hnd (h : Hnd) : Bool := h.clu || h.n.toNat < 16

/-- The pair fields of BRM beyond its count are zero (R307). -/
def brmPair (i : Nat) (k1 : BitVec 2) (q : Guard) : Bool := i ≤ k1.toNat || q == ⟨false, 0⟩

/-- The special registers that R61 assigns. -/
def srAssigned (n : BitVec 8) : Bool := n.toNat ≤ 0x0F || (0x40 ≤ n.toNat && n.toNat ≤ 0x43)

/-- The 64-bit special registers (R61). -/
def sr64 (n : BitVec 8) : Bool :=
  n == 0x08 || n == 0x09 || n == 0x0E || n == 0x0F || n == 0x40 || n == 0x41

end Wf

open Wf in
/-- Well-formed: the word decodes, as far as its own fields decide (R246, R255 to R262). Events have no word. -/
def Instr.wf (i : Instr) : Bool :=
  match i with
  | .imul o k _ => k != .wide || even o.d
  | .lop3 o _ => low512 o.b && low512 o.c
  | .cvt _ d s _ _ => cvtFmt d && cvtFmt s
  | .qpack _ c => even c
  | .rand _ d k _ => even d && even k
  | .ld o => Wf.base o.space o.base && destBlock o.size o.d && signExt o.sx o.size && weak o.wk o.space
  | .st o => Wf.base o.space o.base && dataBlock o.size o.data && weak o.wk o.space && notConst o.space
  | .ldb o => even o.d && even o.base && boundSize o.size
  | .stb o => even o.base && boundSize o.size
  | .ldc _ _ off _ => off.toNat % 4 == 0 && decide (off.toNat < 65536)
  | .atom o =>
    notConst o.space && Wf.base o.space (.reg o.base) && tBit o.t o.w8 o.op
      && (o.op != .cas || !o.w8 || o.b2.getLsbD 0 == false)
  | .ared o =>
    notConst o.space && Wf.base o.space o.base && redOp o.op && tBit o.t o.w8 o.op && merge o.mrg o.t o.op
      && (!o.w8 || pairSrc o.data)
  | .amaxp o => notConst o.space && Wf.base o.space o.base
  | .mwait o => even o.base && (!o.w8 || (pairSrc o.x && even o.d))
  | .pref o => even o.base
  | .cflush o => even o.base
  | .vote k d _ _ => k == .bal || decide (d.toNat < 8)
  | .gred _ _ op ty _ => redTy op ty
  | .gscan _ _ _ op ty _ => redTy op ty
  | .accopen o => decide (o.r.toNat ≤ 192)
  | .accst o => i4xRn o.dst o.rm && (o.dst != .i4x || o.pol == .sat)
  | .bndrd _ _ c _ => match c with
    | none => true
    | some (f, rm) => i4xRn f rm
  | .cpy o => even o.vg && even o.vp && (match o.bcb with | none => true | some c => even c)
  | .relent _ _ _ h _ => hnd h
  | .relsealSeal _ h _ => hnd h
  | .relsealRec _ _ _ h _ => hnd h
  | .relsealFree _ h _ => hnd h
  | .relgrp _ _ h _ => hnd h
  | .reljoin _ _ l r _ => hnd l && hnd r
  | .relstat _ h _ => hnd h
  | .braPop _ n _ _ => n != 0
  | .brm o => brmPair 1 o.k1 o.q1 && brmPair 2 o.k1 o.q2 && brmPair 3 o.k1 o.q3
  | .bcbarm a _ _ _ => even a
  | .bcbwait _ a _ => even a
  | .emit _ _ r _ => even r
  | .srget d n _ => srAssigned n && (!sr64 n || even d)
  | .srset n a _ => srAssigned n && (!sr64 n || pairSrc a)
  | .tlbinv a b _ => even a && even b
  | .pqpop _ a _ _ _ => even a
  | .cstateReserve .. => false
  | .cstateRelease .. => false
  | .wearrdSelf d _ _ => even d
  | .wearrd d _ _ _ => even d
  | .tstrun _ w _ => even w
  | i => !i.isEvent

end Sys2Proof
end

