-- ==== Sys2Proof/Decode.lean ====
section
/-! DEFINITION. The encoding: the fields of a 64-bit instruction word (R246 to R252), the decoder, total on any word and
rejecting by name (R262), and the encoder, written from the same tables (R249, R255 to R260, R79, R143, R149, R157, R161, R49). -/
namespace Sys2Proof

/-- Why a word is no instruction (R262). -/
inductive IllegalWord where
  /-- bits 63..61 are 0b111: a header in a clause body -/
  | header
  /-- the opcode map assigns the opcode to nothing (R254) -/
  | unassigned
  /-- a non-zero field that must be zero -/
  | mustBeZero
  /-- a reserved modifier or field value, or a predicate that R261 forbids -/
  | reserved
  /-- a use that R246 or the class tables forbid (Instr.wf) -/
  | illFormed
deriving DecidableEq, Repr

/-- The fields that every format shares or subdivides (R247). -/
structure Raw where
  op : BitVec 10
  x : BitVec 1
  d : BitVec 10
  a : BitVec 11
  b : BitVec 11
  c : BitVec 11
  p : BitVec 4
  m : BitVec 6
deriving DecidableEq, Repr

/-- Cut a word into its fields (R247). -/
def Raw.split (w : Dword) : Raw where
  op := w.extractLsb' 54 10
  x := w.extractLsb' 53 1
  d := w.extractLsb' 43 10
  a := w.extractLsb' 32 11
  b := w.extractLsb' 21 11
  c := w.extractLsb' 10 11
  p := w.extractLsb' 6 4
  m := w.extractLsb' 0 6

/-- Put a word together from its fields (R247). -/
def Raw.join (r : Raw) : Dword := r.op ++ r.x ++ r.d ++ r.a ++ r.b ++ r.c ++ r.p ++ r.m

/-- Bits h down to h-n+1 are taken at offset lo of a field. -/
def sub {w : Nat} (v : BitVec w) (lo n : Nat) : BitVec n := v.extractLsb' lo n

/-- A field that must be zero. -/
def mbz {w : Nat} (v : BitVec w) : Except IllegalWord Unit :=
  if v = 0 then .ok () else .error .mustBeZero

/-- One bit as a truth value. -/
def bitOf (v : BitVec 1) : Bool := v == 1

/-- The guarding predicate in bits 9..6 (R246). -/
def decGuard (p : BitVec 4) : Guard := ⟨bitOf (sub p 3 1), sub p 0 3⟩

/-- The guarding predicate, encoded. -/
def encGuard (g : Guard) : BitVec 4 := BitVec.ofBool g.neg ++ g.p

/-- An instruction that must encode predicate 7 with negate 0 (R261). -/
def always (p : BitVec 4) : Except IllegalWord Unit :=
  if p = 7 then .ok () else .error .reserved

/-- A source field (R246). -/
def decSrc (v : BitVec 11) : Except IllegalWord Src :=
  if bitOf (sub v 10 1) then
    if sub v 3 7 = 0 then .ok (.lat (sub v 0 3)) else .error .mustBeZero
  else .ok (.reg (sub v 0 10))

/-- A source field, encoded. -/
def encSrc : Src → BitVec 11
  | .reg n => (0 : BitVec 1) ++ n
  | .lat n => (1 : BitVec 1) ++ (0 : BitVec 7) ++ n

/-- A field that names a register and allows no latch. -/
def decReg (v : BitVec 11) : Except IllegalWord (BitVec 10) :=
  if bitOf (sub v 10 1) then .error .illFormed else .ok (sub v 0 10)

/-- A register field without latch, encoded. -/
def encReg (n : BitVec 10) : BitVec 11 := (0 : BitVec 1) ++ n

/-- A predicate in the low bits of a destination or source field. -/
def decPred {w : Nat} (v : BitVec w) : Except IllegalWord (BitVec 3) :=
  if v.extractLsb' 3 (w - 3) = 0 then .ok (v.extractLsb' 0 3) else .error .mustBeZero

def fmtCode : Fmt → BitVec 4
  | .f16 => 0 | .b16 => 1 | .f8e4 => 2 | .f8e5 => 3 | .i4x => 4 | .i8 => 5
  | .f32 => 6 | .i32 => 7 | .n8 => 8 | .n16 => 9 | .n32 => 10

/-- Format codes 11 to 15 are reserved (R66). -/
def decFmt (v : BitVec 4) : Except IllegalWord Fmt :=
  match v.toNat with
  | 0 => .ok .f16 | 1 => .ok .b16 | 2 => .ok .f8e4 | 3 => .ok .f8e5 | 4 => .ok .i4x | 5 => .ok .i8
  | 6 => .ok .f32 | 7 => .ok .i32 | 8 => .ok .n8 | 9 => .ok .n16 | 10 => .ok .n32
  | _ => .error .reserved

def rndCode : Rnd → BitVec 2
  | .rn => 0 | .rz => 1 | .ru => 2 | .rd => 3

def decRnd (v : BitVec 2) : Rnd :=
  if v = 0 then .rn else if v = 1 then .rz else if v = 2 then .ru else .rd

def polCode : Pol → BitVec 2
  | .sat => 0 | .inf => 1 | .nan => 2 | .trap => 3

def decPol (v : BitVec 2) : Pol :=
  if v = 0 then .sat else if v = 1 then .inf else if v = 2 then .nan else .trap

def formCode : FForm → BitVec 2
  | .f32 => 0 | .f16x2 => 1 | .b16x2 => 2

def decForm (v : BitVec 2) : Except IllegalWord FForm :=
  if v = 0 then .ok .f32 else if v = 1 then .ok .f16x2 else if v = 2 then .ok .b16x2 else .error .reserved

def tyBit : IntTy → BitVec 1
  | .i32 => 0 | .n32 => 1

def decTy (v : BitVec 1) : IntTy := if bitOf v then .n32 else .i32

def iccCode : ICc → BitVec 3
  | .eq => 0 | .ne => 1 | .lt => 2 | .le => 3 | .gt => 4 | .ge => 5

def decIcc (v : BitVec 3) : Except IllegalWord ICc :=
  match v.toNat with
  | 0 => .ok .eq | 1 => .ok .ne | 2 => .ok .lt | 3 => .ok .le | 4 => .ok .gt | 5 => .ok .ge
  | _ => .error .reserved

def fccCode : FCc → BitVec 3
  | .eq => 0 | .ne => 1 | .lt => 2 | .le => 3 | .gt => 4 | .ge => 5 | .un => 6

def decFcc (v : BitVec 3) : Except IllegalWord FCc :=
  match v.toNat with
  | 0 => .ok .eq | 1 => .ok .ne | 2 => .ok .lt | 3 => .ok .le | 4 => .ok .gt | 5 => .ok .ge | 6 => .ok .un
  | _ => .error .reserved

def sizeCode : Size → BitVec 3
  | .b1 => 0 | .b2 => 1 | .b4 => 2 | .b8 => 3 | .b16 => 4

def decSize (v : BitVec 3) : Except IllegalWord Size :=
  match v.toNat with
  | 0 => .ok .b1 | 1 => .ok .b2 | 2 => .ok .b4 | 3 => .ok .b8 | 4 => .ok .b16
  | _ => .error .reserved

def spaceCode : Space → BitVec 3
  | .g => 0 | .s => 1 | .c => 2 | .y => 3

/-- Space codes 4 to 7 are reserved (R103). -/
def decSpace (v : BitVec 3) : Except IllegalWord Space :=
  match v.toNat with
  | 0 => .ok .g | 1 => .ok .s | 2 => .ok .c | 3 => .ok .y
  | _ => .error .reserved

def atomCode : AtomOp → BitVec 3
  | .add => 0 | .and => 1 | .or => 2 | .xor => 3 | .min => 4 | .max => 5 | .swap => 6 | .cas => 7

def decAtom (v : BitVec 3) : AtomOp :=
  match v.toNat with
  | 0 => .add | 1 => .and | 2 => .or | 3 => .xor | 4 => .min | 5 => .max | 6 => .swap | _ => .cas

def redOpCode : RedOp → BitVec 3
  | .add => 0 | .min => 1 | .max => 2 | .and => 3 | .or => 4 | .xor => 5

def decRedOp (v : BitVec 3) : Except IllegalWord RedOp :=
  match v.toNat with
  | 0 => .ok .add | 1 => .ok .min | 2 => .ok .max | 3 => .ok .and | 4 => .ok .or | 5 => .ok .xor
  | _ => .error .reserved

def redTyCode : RedTy → BitVec 3
  | .i32 => 0 | .n32 => 1 | .f32 => 2 | .f16x2 => 3 | .b16x2 => 4

def decRedTy (v : BitVec 3) : Except IllegalWord RedTy :=
  match v.toNat with
  | 0 => .ok .i32 | 1 => .ok .n32 | 2 => .ok .f32 | 3 => .ok .f16x2 | 4 => .ok .b16x2
  | _ => .error .reserved

/-- A handle field: bits 10..7 zero, bit 6 the scope, bits 5..0 the number (R49). -/
def decHnd (v : BitVec 11) : Except IllegalWord Hnd :=
  if sub v 7 4 = 0 then .ok ⟨bitOf (sub v 6 1), sub v 0 6⟩ else .error .mustBeZero

def encHnd (h : Hnd) : BitVec 11 := (0 : BitVec 4) ++ BitVec.ofBool h.clu ++ h.n

/-- The 32 bits 41..10 of format C (R252). -/
def Raw.off32 (r : Raw) : BitVec 32 := sub r.a 0 10 ++ r.b ++ r.c

/-- A format C word (R252): the pop flag, bits 52..43, the 32 bits 41..10, bits 9..0. -/
def mkC (op : BitVec 10) (rc : Bool) (d : BitVec 10) (off : BitVec 32) (p : BitVec 4) (m : BitVec 6) : Raw :=
  ⟨op, BitVec.ofBool rc, d, (0 : BitVec 1) ++ sub off 22 10, sub off 11 11, sub off 0 11, p, m⟩

/-- Fields A, B and C all zero. -/
def Raw.noSrc (r : Raw) : Except IllegalWord Unit := do mbz r.a; mbz r.b; mbz r.c

/-- The operands of a VALU instruction with one source (R255). -/
def Raw.v1 (r : Raw) : Except IllegalWord V1 := do
  mbz r.b
  mbz r.c
  let a ← decSrc r.a
  .ok ⟨bitOf r.x, r.d, a, decGuard r.p⟩

/-- The operands of a VALU instruction with two sources. -/
def Raw.v2 (r : Raw) : Except IllegalWord V2 := do
  mbz r.c
  let a ← decSrc r.a
  let b ← decSrc r.b
  .ok ⟨bitOf r.x, r.d, a, b, decGuard r.p⟩

/-- The operands of a VALU instruction with three sources. -/
def Raw.v3 (r : Raw) : Except IllegalWord V3 := do
  let a ← decSrc r.a
  let b ← decSrc r.b
  let c ← decSrc r.c
  .ok ⟨bitOf r.x, r.d, a, b, c, decGuard r.p⟩

/-- The operands of a comparison into a predicate. -/
def Raw.vp2 (r : Raw) : Except IllegalWord VP2 := do
  mbz r.c
  let pd ← decPred r.d
  let a ← decSrc r.a
  let b ← decSrc r.b
  .ok ⟨bitOf r.x, pd, a, b, decGuard r.p⟩

def encV1 (op : BitVec 10) (o : V1) (m : BitVec 6) : Raw :=
  ⟨op, BitVec.ofBool o.nw, o.d, encSrc o.a, 0, 0, encGuard o.g, m⟩

def encV2 (op : BitVec 10) (o : V2) (m : BitVec 6) : Raw :=
  ⟨op, BitVec.ofBool o.nw, o.d, encSrc o.a, encSrc o.b, 0, encGuard o.g, m⟩

def encV3 (op : BitVec 10) (o : V3) (m : BitVec 6) : Raw :=
  ⟨op, BitVec.ofBool o.nw, o.d, encSrc o.a, encSrc o.b, encSrc o.c, encGuard o.g, m⟩

def encVP2 (op : BitVec 10) (o : VP2) (m : BitVec 6) : Raw :=
  ⟨op, BitVec.ofBool o.nw, (0 : BitVec 7) ++ o.pd, encSrc o.a, encSrc o.b, 0, encGuard o.g, m⟩

/-- The modifier with the integer type in bit 3 and k in bits 2..0 (R255). -/
def tyMod (ty : IntTy) (k : BitVec 3) : BitVec 6 := (0 : BitVec 2) ++ tyBit ty ++ k

/-- The modifier with the float form in bits 5..4 and k in bits 3..0 (R255). -/
def formMod (fm : FForm) (k : BitVec 4) : BitVec 6 := formCode fm ++ k

/-- A source of format VL: L, 9 bits of register or 3 of latch (R249). -/
def decSrc9 (l : BitVec 1) (v : BitVec 9) : Except IllegalWord Src :=
  if bitOf l then
    if sub v 3 6 = 0 then .ok (.lat (sub v 0 3)) else .error .mustBeZero
  else .ok (.reg ((0 : BitVec 1) ++ v))

def encSrc9 : Src → BitVec 1 × BitVec 9
  | .reg n => (0, sub n 0 9)
  | .lat n => (1, (0 : BitVec 6) ++ n)

/-- Class VALU (R255). -/
def decodeValu (r : Raw) : Except IllegalWord Instr := do
  let m := r.m
  if r.op = 0x001 then do mbz m; .ok (.iadd (← r.v2))
  else if r.op = 0x002 then do mbz m; .ok (.isub (← r.v2))
  else if r.op = 0x003 then do
    mbz (sub m 4 2); mbz (sub m 2 1)
    let k ← if sub m 0 2 = 0 then .ok MulKind.lo else if sub m 0 2 = 1 then .ok MulKind.hi
      else if sub m 0 2 = 2 then .ok MulKind.wide else .error .reserved
    .ok (.imul (← r.v2) k (decTy (sub m 3 1)))
  else if r.op = 0x004 then do mbz m; .ok (.imad (← r.v3))
  else if r.op = 0x005 then do mbz (sub m 4 2); mbz (sub m 0 3); .ok (.imin (← r.v2) (decTy (sub m 3 1)))
  else if r.op = 0x006 then do mbz (sub m 4 2); mbz (sub m 0 3); .ok (.imax (← r.v2) (decTy (sub m 3 1)))
  else if r.op = 0x007 then do mbz m; .ok (.iabs (← r.v1))
  else if r.op = 0x008 then do
    mbz (sub m 4 2)
    .ok (.icmp (← r.vp2) (← decIcc (sub m 0 3)) (decTy (sub m 3 1)))
  else if r.op = 0x009 then do
    let a ← decSrc r.a
    let b ← decSrc9 (sub r.b 10 1) (sub r.b 1 9)
    let c ← decSrc9 (sub r.c 9 1) (sub r.c 0 9)
    .ok (.lop3 ⟨bitOf r.x, r.d, a, b, c, decGuard r.p⟩ (sub r.b 0 1 ++ sub r.c 10 1 ++ m))
  else if r.op = 0x00A then do mbz m; .ok (.shl (← r.v2))
  else if r.op = 0x00B then do mbz (sub m 1 5); .ok (.shr (← r.v2) (bitOf (sub m 0 1)))
  else if r.op = 0x00C then do mbz (sub m 1 5); .ok (.shf (← r.v3) (bitOf (sub m 0 1)))
  else if r.op = 0x00D then do mbz m; .ok (.popc (← r.v1))
  else if r.op = 0x00E then do mbz m; .ok (.clz (← r.v1))
  else if r.op = 0x00F then do mbz m; .ok (.brev (← r.v1))
  else if r.op = 0x010 then do mbz (sub m 4 2); mbz (sub m 0 3); .ok (.bfx (← r.v3) (decTy (sub m 3 1)))
  else if r.op = 0x011 then do mbz m; .ok (.bfi (← r.v3))
  else if r.op = 0x012 then do mbz m; .ok (.prmt (← r.v3))
  else if r.op = 0x013 then do
    mbz m
    let pc ← decPred r.c
    let a ← decSrc r.a
    let b ← decSrc r.b
    .ok (.sel ⟨bitOf r.x, r.d, a, b, decGuard r.p⟩ pc)
  else if r.op = 0x014 then do mbz m; .ok (.mov (← r.v1))
  else if r.op = 0x015 then do
    mbz m
    if bitOf (sub r.a 10 1) then .ok (.movi (bitOf r.x) r.d (.long r.off32) (decGuard r.p))
    else do
      mbz (sub r.a 0 10)
      .ok (.movi (bitOf r.x) r.d (.short (r.b ++ r.c)) (decGuard r.p))
  else if r.op = 0x016 then do
    mbz m; mbz r.a; mbz r.b; mbz (sub r.c 8 3)
    if sub r.c 3 5 = 0 then .ok (.movs (bitOf r.x) r.d (sub r.c 0 3) (decGuard r.p)) else .error .reserved
  else if r.op = 0x017 then do
    let pd ← decPred r.d
    let pa ← decPred r.a
    mbz (sub r.b 4 7)
    mbz (sub r.c 3 7)
    .ok (.plop ⟨bitOf r.x, pd, pa, sub r.b 1 3, sub r.c 0 3, sub r.b 0 1 ++ sub r.c 10 1 ++ m, decGuard r.p⟩)
  else .error .unassigned

/-- Class VALU, the float half and the conversions (R255, R79). -/
def decodeFloat (r : Raw) : Except IllegalWord Instr := do
  let m := r.m
  let fm := decForm (sub m 4 2)
  if r.op = 0x020 then do mbz (sub m 0 4); .ok (.fadd (← r.v2) (← fm))
  else if r.op = 0x021 then do mbz (sub m 0 4); .ok (.fmul (← r.v2) (← fm))
  else if r.op = 0x022 then do mbz (sub m 0 4); .ok (.ffma (← r.v3) (← fm))
  else if r.op = 0x023 then do mbz (sub m 0 4); .ok (.fmin (← r.v2) (← fm))
  else if r.op = 0x024 then do mbz (sub m 0 4); .ok (.fmax (← r.v2) (← fm))
  else if r.op = 0x025 then do
    mbz (sub m 3 1)
    .ok (.fcmp (← r.vp2) (← decFcc (sub m 0 3)) (← fm))
  else if r.op = 0x026 then do mbz (sub m 0 4); .ok (.fcls (← r.v1) (← fm))
  else if r.op = 0x027 then do mbz (sub m 0 4); .ok (.frcp (← r.v1) (← fm))
  else if r.op = 0x028 then do mbz (sub m 0 4); .ok (.frsq (← r.v1) (← fm))
  else if r.op = 0x029 then do mbz (sub m 0 4); .ok (.fsqrt (← r.v1) (← fm))
  else if r.op = 0x02A then do mbz (sub m 0 4); .ok (.fexp2 (← r.v1) (← fm))
  else if r.op = 0x02B then do mbz (sub m 0 4); .ok (.flog2 (← r.v1) (← fm))
  else if r.op = 0x030 then do
    mbz r.b; mbz (sub r.c 8 3); mbz (sub m 4 2)
    let a ← decSrc r.a
    .ok (.cvt ⟨bitOf r.x, r.d, a, decGuard r.p⟩ (← decFmt (sub r.c 4 4)) (← decFmt (sub r.c 0 4))
      (decPol (sub m 2 2)) (decRnd (sub m 0 2)))
  else if r.op = 0x031 then do
    mbz m
    let a ← decSrc r.a
    let b ← decSrc r.b
    .ok (.qpack ⟨bitOf r.x, r.d, a, b, decGuard r.p⟩ (← decReg r.c))
  else if r.op = 0x032 then do mbz (sub m 2 4); .ok (.qunpk (← r.v1) (sub m 0 2))
  else if r.op = 0x033 then do
    mbz m; mbz r.b; mbz r.c
    .ok (.rand (bitOf r.x) r.d (← decReg r.a) (decGuard r.p))
  else .error .unassigned

/-- Class MEM (R256, R157). -/
def decodeMem (r : Raw) : Except IllegalWord Instr := do
  let g := decGuard r.p
  let sb := sub r.m 0 3
  if r.op = 0x080 then do
    mbz (sub r.b 4 7)
    .ok (.ld ⟨bitOf r.x, r.d, ← decSrc r.a, bitOf (sub r.b 3 1), ← decSize (sub r.b 0 3), r.c, g,
      ← decSpace (sub r.m 3 3), sb⟩)
  else if r.op = 0x081 then do
    mbz (sub r.d 4 6)
    let s ← if bitOf (sub r.d 3 1) then .ok (some sb) else do mbz sb; .ok none
    .ok (.st ⟨bitOf r.x, s, ← decSize (sub r.d 0 3), ← decSrc r.a, ← decSrc r.b, r.c, g, ← decSpace (sub r.m 3 3)⟩)
  else if r.op = 0x082 then do
    mbz (sub r.m 3 3)
    .ok (.ldb ⟨bitOf r.x, r.d, ← decReg r.a, sub r.b 2 9, ← decSize ((0 : BitVec 1) ++ sub r.b 0 2), r.c, g, sb⟩)
  else if r.op = 0x083 then do
    mbz (sub r.m 3 3)
    let s ← if bitOf (sub r.d 0 1) then .ok (some sb) else do mbz sb; .ok none
    .ok (.stb ⟨bitOf r.x, s, sub r.d 1 9, ← decReg r.a, sub r.b 2 9, ← decSize ((0 : BitVec 1) ++ sub r.b 0 2), r.c, g⟩)
  else if r.op = 0x084 then do
    mbz r.m; mbz r.a
    .ok (.ldc (bitOf r.x) r.d (r.b ++ r.c) g)
  else if r.op = 0x088 then
    do .ok (.atom ⟨bitOf r.x, sub r.d 1 9, bitOf (sub r.d 0 1), decAtom (sub r.a 10 1 ++ sub r.b 0 2), sub r.a 0 10,
      sub r.b 2 9, r.c, g, ← decSpace (sub r.m 3 3), sb⟩)
  else if r.op = 0x089 then do
    mbz (sub r.d 6 4); mbz (sub r.d 0 1)
    .ok (.ared ⟨bitOf r.x, decAtom (sub r.d 3 3), bitOf (sub r.d 2 1), bitOf (sub r.d 1 1), ← decSrc r.a,
      ← decSrc r.b, r.c, g, ← decSpace (sub r.m 3 3), sb⟩)
  else if r.op = 0x08A then
    do .ok (.amaxp ⟨bitOf r.x, r.d, ← decSrc r.a, ← decSrc r.b, r.c, g, ← decSpace (sub r.m 3 3), sb⟩)
  else if r.op = 0x08C then do
    mbz (sub r.m 1 2)
    let y ← if sub r.m 3 3 = 0 then .ok false else if sub r.m 3 3 = 3 then .ok true else .error .reserved
    .ok (.mwait ⟨bitOf r.x, r.d, ← decReg r.a, ← decSrc r.b, r.c, g, y, bitOf (sub r.m 0 1)⟩)
  else if r.op = 0x090 then do
    mbz r.x; mbz r.d; r.noSrc; always r.p; mbz (sub r.m 2 4)
    .ok (.fence (if sub r.m 0 2 = 0 then .team else if sub r.m 0 2 = 1 then .clu
      else if sub r.m 0 2 = 2 then .dev else .sys))
  else if r.op = 0x091 then do
    mbz r.x; mbz r.d; mbz r.b; mbz r.m
    .ok (.pref ⟨← decReg r.a, r.c, g⟩)
  else if r.op = 0x092 then do
    mbz r.x; mbz r.d; mbz r.b; mbz r.m
    .ok (.cflush ⟨← decReg r.a, r.c, g⟩)
  else .error .unassigned

/-- Class XFER (R257). -/
def decodeXfer (r : Raw) : Except IllegalWord Instr := do
  let g := decGuard r.p
  mbz r.x
  if r.op = 0x100 then do
    mbz (sub r.m 2 4)
    let pv ← decPred r.c
    .ok (.shfl ⟨r.d, ← decSrc r.a, ← decSrc r.b, pv,
      if sub r.m 0 2 = 0 then .abs else if sub r.m 0 2 = 1 then .rel else if sub r.m 0 2 = 2 then .rot else .bfly, g⟩)
  else if r.op = 0x101 then do
    mbz r.b; mbz r.c
    let pa ← decPred r.a
    if r.m = 0 then do mbz (sub r.d 3 7); .ok (.vote .all r.d pa g)
    else if r.m = 1 then do mbz (sub r.d 3 7); .ok (.vote .any r.d pa g)
    else if r.m = 2 then .ok (.vote .bal r.d pa g)
    else .error .reserved
  else if r.op = 0x102 then do
    mbz r.b; mbz r.c
    .ok (.gred r.d (← decSrc r.a) (← decRedOp (sub r.m 0 3)) (← decRedTy (sub r.m 3 3)) g)
  else if r.op = 0x103 then do
    mbz (sub r.b 1 10); mbz r.c
    .ok (.gscan r.d (← decSrc r.a) (bitOf (sub r.b 0 1)) (← decRedOp (sub r.m 0 3)) (← decRedTy (sub r.m 3 3)) g)
  else if r.op = 0x104 then do
    mbz r.b; mbz r.c; mbz r.m
    .ok (.matchv r.d (← decSrc r.a) g)
  else .error .unassigned

/-- Class MTX (R143, R149, R157, R258): bit 52, the top of the destination field, must be zero but in BSET. -/
def decodeMtx (r : Raw) : Except IllegalWord Instr := do
  let g := decGuard r.p
  let slot := sub r.d 0 9
  mbz r.x
  if r.op = 0x181 then do
    mbz r.c
    if r.m = 0 then .ok (.bset r.d (← decReg r.a) (← decSrc r.b) g)
    else if r.m = 1 then do mbz r.a; .ok (.bsetFree r.d (← decSrc r.b) g)
    else .error .reserved
  else do
    mbz (sub r.d 9 1)
    if r.op = 0x180 then
      do .ok (.mma ⟨slot, ← decReg r.a, ← decSrc r.b, ← decSrc r.c, sub r.m 3 3, sub r.m 0 3, g⟩)
    else if r.op = 0x188 then do
      always r.p; mbz (sub r.a 6 5); mbz (sub r.c 0 3); mbz (sub r.m 1 5)
      .ok (.accopen ⟨slot, sub r.a 0 6, ← decSrc r.b, sub r.c 3 8, bitOf (sub r.m 0 1)⟩)
    else if r.op = 0x189 then do
      always r.p; mbz r.d; r.noSrc; mbz r.m
      .ok .accclose
    else if r.op = 0x18A then do
      mbz (sub r.a 9 2); mbz r.b; mbz r.c; mbz r.m
      .ok (.accz slot (sub r.a 0 9) g)
    else if r.op = 0x18B then do
      mbz (sub r.a 9 2); mbz r.b; mbz r.c; mbz r.m
      .ok (.accmov slot (sub r.a 0 9) g)
    else if r.op = 0x18C then do
      mbz r.b; mbz (sub r.m 3 3)
      .ok (.accld ⟨slot, ← decSrc r.a, r.c, g, sub r.m 0 3⟩)
    else if r.op = 0x18D then do
      mbz (sub r.b 8 3); mbz (sub r.m 3 3)
      .ok (.accst ⟨slot, ← decSrc r.a, ← decFmt (sub r.b 4 4), decPol (sub r.b 2 2), decRnd (sub r.b 0 2), r.c, g,
        sub r.m 0 3⟩)
    else if r.op = 0x190 then do
      mbz r.b; mbz r.c; mbz r.m
      .ok (.bndthr slot (← decReg r.a) g)
    else if r.op = 0x191 then do
      mbz r.c; mbz r.m
      let d ← decReg r.a
      if bitOf (sub r.b 8 1) then do
        mbz (sub r.b 9 2); mbz (sub r.b 2 2)
        .ok (.bndrd slot d (some (← decFmt (sub r.b 4 4), decRnd (sub r.b 0 2))) g)
      else do
        mbz r.b
        .ok (.bndrd slot d none g)
    else if r.op = 0x198 then do
      mbz r.d; mbz r.b; mbz r.c; mbz (sub r.m 3 3)
      .ok (.mqrun (← decReg r.a) (sub r.m 0 3) g)
    else .error .unassigned

/-- Class ENG (R157, R49). -/
def decodeEng (r : Raw) : Except IllegalWord Instr := do
  let g := decGuard r.p
  let sb := sub r.m 0 3
  mbz r.x
  if r.op = 0x200 then do
    mbz r.d
    let dir ← if sub r.m 4 2 = 0 then .ok false else if sub r.m 4 2 = 1 then .ok true else .error .reserved
    let bcb ← if bitOf (sub r.m 3 1) then do .ok (some (← decReg r.c)) else do mbz r.c; .ok none
    .ok (.cpy ⟨dir, ← decReg r.a, ← decReg r.b, bcb, sb, g⟩)
  else if r.op = 0x201 then do
    mbz r.d; mbz r.b; mbz r.c; mbz (sub r.m 3 3)
    .ok (.gath (← decSrc r.a) sb g)
  else if r.op = 0x202 then do
    mbz r.d; mbz r.b; mbz r.c; mbz (sub r.m 3 3)
    .ok (.scat (← decSrc r.a) sb g)
  else if r.op = 0x203 then do
    mbz r.d; mbz r.b; mbz r.c; mbz (sub r.m 3 3)
    .ok (.nzscan (← decSrc r.a) sb g)
  else if r.op = 0x208 then do
    mbz r.d; mbz r.c; mbz (sub r.m 1 5)
    let t ← decSrc r.a
    let c ← decSrc r.b
    if bitOf (sub r.m 0 1) then .ok (.ownE t c g) else .ok (.ownT t c g)
  else if r.op = 0x210 then do
    mbz r.m
    .ok (.relent r.d (← decSrc r.a) (← decSrc r.b) (← decHnd r.c) g)
  else if r.op = 0x211 then do
    let h ← decHnd r.c
    if r.m = 0 then do mbz r.a; mbz r.b; .ok (.relsealSeal r.d h g)
    else if r.m = 1 then do .ok (.relsealRec r.d (← decSrc r.a) (← decSrc r.b) h g)
    else if r.m = 2 then do mbz r.a; mbz r.b; .ok (.relsealFree r.d h g)
    else .error .reserved
  else if r.op = 0x212 then do
    mbz r.b; mbz r.m
    .ok (.relgrp r.d (← decSrc r.a) (← decHnd r.c) g)
  else if r.op = 0x213 then do
    mbz r.m
    .ok (.reljoin r.d (← decSrc r.a) (← decHnd r.c) (← decHnd r.b) g)
  else if r.op = 0x214 then do
    mbz r.b; mbz r.c; mbz (sub r.m 3 3)
    .ok (.relmrg r.d (← decSrc r.a) sb g)
  else if r.op = 0x215 then do
    mbz r.a; mbz r.b; mbz r.m
    .ok (.relstat r.d (← decHnd r.c) g)
  else .error .unassigned

/-- Class CTL (R259, R161, R157). -/
def decodeCtl (r : Raw) : Except IllegalWord Instr := do
  let g := decGuard r.p
  let rc := bitOf r.x
  let top := sub r.a 10 1
  if r.op = 0x280 then do mbz r.d; r.noSrc; mbz r.m; .ok (.nop rc g)
  else if r.op = 0x281 then do
    mbz r.m; mbz (sub r.d 2 8)
    let n := sub r.d 0 2 ++ top
    if n = 0 then .ok (.bra rc r.off32 g) else .ok (.braPop rc n r.off32 g)
  else if r.op = 0x282 then do
    mbz (sub r.d 9 1); mbz (sub r.m 0 2)
    .ok (.brm ⟨rc, sub r.d 7 2, g, decGuard (sub r.m 2 4), decGuard (sub r.d 3 4),
      decGuard (sub r.d 0 3 ++ top), r.off32⟩)
  else if r.op = 0x283 then do mbz r.d; mbz top; mbz r.m; always r.p; .ok (.jmp rc r.off32)
  else if r.op = 0x284 then do mbz r.d; mbz top; mbz r.m; .ok (.call rc r.off32 g)
  else if r.op = 0x285 then do mbz r.d; r.noSrc; mbz r.m; .ok (.ret rc g)
  else if r.op = 0x286 then do mbz r.d; r.noSrc; mbz r.m; .ok (.exit rc g)
  else if r.op = 0x288 then do mbz r.d; mbz top; mbz r.m; always r.p; .ok (.rcvpush rc r.off32)
  else if r.op = 0x289 then do mbz r.d; r.noSrc; mbz (sub r.m 4 2); always r.p; .ok (.rcvdrop rc (sub r.m 0 4))
  else if r.op = 0x28A then do
    mbz r.d; r.noSrc; mbz (sub r.m 1 5); always r.p
    if bitOf (sub r.m 0 1) then .ok (.regangAll rc) else .ok (.regang rc)
  else if r.op = 0x28C then do mbz r.x; mbz r.d; mbz top; mbz (sub r.m 3 3); .ok (.yield r.off32 (sub r.m 0 3) g)
  else if r.op = 0x290 then do
    r.noSrc; mbz (sub r.m 3 3); always r.p
    let k ← if sub r.m 0 2 = 0 then .ok BarKind.arr else if sub r.m 0 2 = 1 then .ok BarKind.wait
      else if sub r.m 0 2 = 2 then .ok BarKind.sync else .error .reserved
    .ok (.bar rc k (bitOf (sub r.m 2 1)) r.d)
  else if r.op = 0x291 then do
    mbz r.d; mbz (sub r.m 0 3)
    if sub r.m 3 3 = 1 then .ok (.phwait rc (← decSrc r.a) (← decSrc r.b) r.c g) else .error .reserved
  else if r.op = 0x292 then do
    mbz r.d; mbz r.b; mbz (sub r.m 0 3)
    if sub r.m 3 3 = 1 then .ok (.phflip rc (← decSrc r.a) r.c g) else .error .reserved
  else if r.op = 0x293 then do
    mbz r.x; mbz r.d; mbz r.c; mbz (sub r.m 3 3)
    .ok (.bcbarm (← decReg r.a) (← decSrc r.b) (sub r.m 0 3) g)
  else if r.op = 0x294 then do
    mbz r.x; mbz r.b; mbz r.c; mbz r.m
    .ok (.bcbwait r.d (← decReg r.a) g)
  else if r.op = 0x298 then do mbz r.d; mbz top; mbz r.m; always r.p; .ok (.phend rc r.off32)
  else if r.op = 0x299 then do
    mbz r.d; mbz r.c; mbz r.m
    .ok (.emit rc (← decSrc r.a) (← decReg r.b) g)
  else if r.op = 0x29C then do mbz r.d; mbz top; mbz r.m; always r.p; .ok (.sigchk rc r.off32)
  else .error .unassigned

/-- Class SYS (R260, R279). A CSTATE word is the row CSTATE_READ until its action is known (log 10). -/
def decodeSys (r : Raw) : Except IllegalWord Instr := do
  let g := decGuard r.p
  mbz r.x
  if r.op = 0x300 then do mbz r.d; mbz r.a; mbz r.m; .ok (.trap (r.b ++ r.c) g)
  else if r.op = 0x301 then do mbz r.d; r.noSrc; mbz r.m; always r.p; .ok .rtt
  else if r.op = 0x302 then do
    mbz r.a; mbz r.b; mbz (sub r.c 8 3); mbz r.m
    .ok (.srget r.d (sub r.c 0 8) g)
  else if r.op = 0x303 then do
    mbz r.d; mbz r.b; mbz (sub r.c 8 3); mbz r.m
    .ok (.srset (sub r.c 0 8) (← decSrc r.a) g)
  else if r.op = 0x304 then do mbz r.d; r.noSrc; mbz r.m; always r.p; .ok .pmoff
  else if r.op = 0x305 then do mbz r.d; r.noSrc; mbz r.m; always r.p; .ok .pmon
  else if r.op = 0x306 then do mbz r.d; r.noSrc; mbz (sub r.m 3 3); .ok (.flushp (sub r.m 0 3) g)
  else if r.op = 0x307 then do
    mbz r.d; mbz r.c; mbz r.m
    .ok (.tlbinv (← decReg r.a) (← decReg r.b) g)
  else if r.op = 0x308 then do
    mbz r.b; mbz (sub r.m 3 3)
    .ok (.pqpop r.d (← decReg r.a) r.c (sub r.m 0 3) g)
  else if r.op = 0x309 then do mbz r.d; mbz r.b; mbz r.c; mbz r.m; .ok (.ctxkill (← decSrc r.a) g)
  else if r.op = 0x30C then do mbz r.c; mbz r.m; .ok (.cstateRead r.d (← decSrc r.a) (← decSrc r.b) g)
  else if r.op = 0x30D then do mbz r.c; mbz r.m; .ok (.cdrain r.d (← decSrc r.a) (← decSrc r.b) g)
  else if r.op = 0x30E then do mbz r.b; mbz r.c; mbz r.m; .ok (.cretire r.d (← decSrc r.a) g)
  else if r.op = 0x30F then do
    mbz r.c
    if r.m = 0 then do .ok (.wearrd r.d (← decSrc r.a) (← decSrc r.b) g)
    else if r.m = 1 then do mbz r.a; .ok (.wearrdSelf r.d (← decSrc r.b) g)
    else .error .reserved
  else if r.op = 0x310 then do
    mbz r.d; mbz r.c; mbz r.m
    .ok (.tstrun (← decSrc r.a) (← decReg r.b) g)
  else if r.op = 0x311 then do
    mbz r.d; mbz r.b; mbz r.c; mbz r.m
    .ok (.tstabt (← decSrc r.a) g)
  else .error .unassigned

/-- The fields of a word as an instruction, before the checks of Instr.wf. -/
def decodeRaw (r : Raw) : Except IllegalWord Instr :=
  let k := sub r.op 7 3
  if k = 0 then (if sub r.op 5 2 = 0 then decodeValu r else decodeFloat r)
  else if k = 1 then decodeMem r
  else if k = 2 then decodeXfer r
  else if k = 3 then decodeMtx r
  else if k = 4 then decodeEng r
  else if k = 5 then decodeCtl r
  else if k = 6 then decodeSys r
  else .error .header

/-- The instruction a word holds (R244 to R262). -/
def decode (w : Dword) : Except IllegalWord Instr :=
  match decodeRaw (Raw.split w) with
  | .error e => .error e
  | .ok i => if i.wf then .ok i else .error .illFormed

/-- LOP3's fields (R249). -/
def encLop3 (o : V3) (tbl : BitVec 8) : Raw :=
  let b := encSrc9 o.b
  let c := encSrc9 o.c
  ⟨0x009, BitVec.ofBool o.nw, o.d, encSrc o.a, b.1 ++ b.2 ++ sub tbl 7 1, sub tbl 6 1 ++ c.1 ++ c.2, encGuard o.g,
    sub tbl 0 6⟩

/-- A format V, E or S word without NW (R247). -/
def mkV (op d : BitVec 10) (a b c : BitVec 11) (g : Guard) (m : BitVec 6) : Raw := ⟨op, 0, d, a, b, c, encGuard g, m⟩

/-- The optional scoreboard of ST and STB: sbv and sbN. -/
def encSbv : Option (BitVec 3) → BitVec 1 × BitVec 3
  | none => (0, 0)
  | some n => (1, n)

/-- The fields of an instruction's word; events have none. -/
def encodeRaw : Instr → Option Raw
  | .iadd o => some (encV2 0x001 o 0)
  | .isub o => some (encV2 0x002 o 0)
  | .imul o k ty => some (encV2 0x003 o (tyMod ty (match k with | .lo => 0 | .hi => 1 | .wide => 2)))
  | .imad o => some (encV3 0x004 o 0)
  | .imin o ty => some (encV2 0x005 o (tyMod ty 0))
  | .imax o ty => some (encV2 0x006 o (tyMod ty 0))
  | .iabs o => some (encV1 0x007 o 0)
  | .icmp o cc ty => some (encVP2 0x008 o (tyMod ty (iccCode cc)))
  | .lop3 o t => some (encLop3 o t)
  | .shl o => some (encV2 0x00A o 0)
  | .shr o ar => some (encV2 0x00B o ((0 : BitVec 5) ++ BitVec.ofBool ar))
  | .shf o rt => some (encV3 0x00C o ((0 : BitVec 5) ++ BitVec.ofBool rt))
  | .popc o => some (encV1 0x00D o 0)
  | .clz o => some (encV1 0x00E o 0)
  | .brev o => some (encV1 0x00F o 0)
  | .bfx o ty => some (encV3 0x010 o (tyMod ty 0))
  | .bfi o => some (encV3 0x011 o 0)
  | .prmt o => some (encV3 0x012 o 0)
  | .sel o pc => some ⟨0x013, BitVec.ofBool o.nw, o.d, encSrc o.a, encSrc o.b, (0 : BitVec 8) ++ pc, encGuard o.g, 0⟩
  | .mov o => some (encV1 0x014 o 0)
  | .movi nw d (.short v) g =>
    some ⟨0x015, BitVec.ofBool nw, d, 0, sub v 11 11, sub v 0 11, encGuard g, 0⟩
  | .movi nw d (.long v) g =>
    some ⟨0x015, BitVec.ofBool nw, d, (1 : BitVec 1) ++ sub v 22 10, sub v 11 11, sub v 0 11, encGuard g, 0⟩
  | .movs nw d n g => some ⟨0x016, BitVec.ofBool nw, d, 0, 0, (0 : BitVec 8) ++ n, encGuard g, 0⟩
  | .plop o =>
    some ⟨0x017, BitVec.ofBool o.nw, (0 : BitVec 7) ++ o.pd, (0 : BitVec 8) ++ o.pa,
      (0 : BitVec 7) ++ o.pb ++ sub o.tbl 7 1, sub o.tbl 6 1 ++ (0 : BitVec 7) ++ o.pc, encGuard o.g, sub o.tbl 0 6⟩
  | .fadd o fm => some (encV2 0x020 o (formMod fm 0))
  | .fmul o fm => some (encV2 0x021 o (formMod fm 0))
  | .ffma o fm => some (encV3 0x022 o (formMod fm 0))
  | .fmin o fm => some (encV2 0x023 o (formMod fm 0))
  | .fmax o fm => some (encV2 0x024 o (formMod fm 0))
  | .fcmp o cc fm => some (encVP2 0x025 o (formMod fm ((0 : BitVec 1) ++ fccCode cc)))
  | .fcls o fm => some (encV1 0x026 o (formMod fm 0))
  | .frcp o fm => some (encV1 0x027 o (formMod fm 0))
  | .frsq o fm => some (encV1 0x028 o (formMod fm 0))
  | .fsqrt o fm => some (encV1 0x029 o (formMod fm 0))
  | .fexp2 o fm => some (encV1 0x02A o (formMod fm 0))
  | .flog2 o fm => some (encV1 0x02B o (formMod fm 0))
  | .cvt o dst src pol rm =>
    some ⟨0x030, BitVec.ofBool o.nw, o.d, encSrc o.a, 0, (0 : BitVec 3) ++ fmtCode dst ++ fmtCode src, encGuard o.g,
      (0 : BitVec 2) ++ polCode pol ++ rndCode rm⟩
  | .qpack o c => some ⟨0x031, BitVec.ofBool o.nw, o.d, encSrc o.a, encSrc o.b, encReg c, encGuard o.g, 0⟩
  | .qunpk o e => some (encV1 0x032 o ((0 : BitVec 4) ++ e))
  | .rand nw d k g => some ⟨0x033, BitVec.ofBool nw, d, encReg k, 0, 0, encGuard g, 0⟩
  | .ld o =>
    some ⟨0x080, BitVec.ofBool o.wk, o.d, encSrc o.base, (0 : BitVec 7) ++ BitVec.ofBool o.sx ++ sizeCode o.size, o.off,
      encGuard o.g, spaceCode o.space ++ o.sb⟩
  | .st o =>
    some ⟨0x081, BitVec.ofBool o.wk, (0 : BitVec 6) ++ (encSbv o.sb).1 ++ sizeCode o.size, encSrc o.base, encSrc o.data,
      o.off, encGuard o.g, spaceCode o.space ++ (encSbv o.sb).2⟩
  | .ldb o =>
    some ⟨0x082, BitVec.ofBool o.wk, o.d, encReg o.base, o.plane2 ++ sub (sizeCode o.size) 0 2, o.off, encGuard o.g,
      (0 : BitVec 3) ++ o.sb⟩
  | .stb o =>
    some ⟨0x083, BitVec.ofBool o.wk, o.plane2 ++ (encSbv o.sb).1, encReg o.base, o.data2 ++ sub (sizeCode o.size) 0 2,
      o.off, encGuard o.g, (0 : BitVec 3) ++ (encSbv o.sb).2⟩
  | .ldc nw d off g => some ⟨0x084, BitVec.ofBool nw, d, 0, sub off 11 11, sub off 0 11, encGuard g, 0⟩
  | .atom o =>
    some ⟨0x088, BitVec.ofBool o.w8, o.d2 ++ BitVec.ofBool o.t, sub (atomCode o.op) 2 1 ++ o.base,
      o.b2 ++ sub (atomCode o.op) 0 2, o.off, encGuard o.g, spaceCode o.space ++ o.sb⟩
  | .ared o =>
    some ⟨0x089, BitVec.ofBool o.w8,
      (0 : BitVec 4) ++ atomCode o.op ++ BitVec.ofBool o.t ++ BitVec.ofBool o.mrg ++ (0 : BitVec 1), encSrc o.base,
      encSrc o.data, o.off, encGuard o.g, spaceCode o.space ++ o.sb⟩
  | .amaxp o =>
    some ⟨0x08A, BitVec.ofBool o.nw, o.d, encSrc o.base, encSrc o.v, o.off, encGuard o.g, spaceCode o.space ++ o.sb⟩
  | .mwait o =>
    some ⟨0x08C, BitVec.ofBool o.w8, o.d, encReg o.base, encSrc o.x, o.off, encGuard o.g,
      (if o.isY then (3 : BitVec 3) else 0) ++ (0 : BitVec 2) ++ BitVec.ofBool o.ne⟩
  | .fence sc =>
    some ⟨0x090, 0, 0, 0, 0, 0, 7,
      (0 : BitVec 4) ++ (match sc with | .team => (0 : BitVec 2) | .clu => 1 | .dev => 2 | .sys => 3)⟩
  | .pref o => some ⟨0x091, 0, 0, encReg o.base, 0, o.off, encGuard o.g, 0⟩
  | .cflush o => some ⟨0x092, 0, 0, encReg o.base, 0, o.off, encGuard o.g, 0⟩
  | .shfl o =>
    some (mkV 0x100 o.d (encSrc o.a) (encSrc o.b) ((0 : BitVec 8) ++ o.pv) o.g
      ((0 : BitVec 4) ++ (match o.mode with | .abs => (0 : BitVec 2) | .rel => 1 | .rot => 2 | .bfly => 3)))
  | .vote k d pa g =>
    some (mkV 0x101 d ((0 : BitVec 8) ++ pa) 0 0 g (match k with | .all => 0 | .any => 1 | .bal => 2))
  | .gred d a op ty g => some (mkV 0x102 d (encSrc a) 0 0 g (redTyCode ty ++ redOpCode op))
  | .gscan d a exc op ty g =>
    some (mkV 0x103 d (encSrc a) ((0 : BitVec 10) ++ BitVec.ofBool exc) 0 g (redTyCode ty ++ redOpCode op))
  | .matchv d a g => some (mkV 0x104 d (encSrc a) 0 0 g 0)
  | .mma o =>
    some (mkV 0x180 ((0 : BitVec 1) ++ o.slot) (encReg o.a) (encSrc o.f) (encSrc o.q) o.g (o.set ++ o.sb))
  | .bset d b w g => some (mkV 0x181 d (encReg b) (encSrc w) 0 g 0)
  | .bsetFree d w g => some (mkV 0x181 d 0 (encSrc w) 0 g 1)
  | .accopen o =>
    some (mkV 0x188 ((0 : BitVec 1) ++ o.f) ((0 : BitVec 5) ++ o.n1) (encSrc o.vf) (o.r ++ (0 : BitVec 3)) ⟨false, 7⟩
      ((0 : BitVec 5) ++ BitVec.ofBool o.snap))
  | .accclose => some (mkV 0x189 0 0 0 0 ⟨false, 7⟩ 0)
  | .accz sl n1 g => some (mkV 0x18A ((0 : BitVec 1) ++ sl) ((0 : BitVec 2) ++ n1) 0 0 g 0)
  | .accmov dst src g => some (mkV 0x18B ((0 : BitVec 1) ++ dst) ((0 : BitVec 2) ++ src) 0 0 g 0)
  | .accld o =>
    some (mkV 0x18C ((0 : BitVec 1) ++ o.slot) (encSrc o.base) 0 o.off o.g ((0 : BitVec 3) ++ o.sb))
  | .accst o =>
    some (mkV 0x18D ((0 : BitVec 1) ++ o.slot) (encSrc o.base)
      ((0 : BitVec 3) ++ fmtCode o.dst ++ polCode o.pol ++ rndCode o.rm) o.off o.g ((0 : BitVec 3) ++ o.sb))
  | .bndthr sl t g => some (mkV 0x190 ((0 : BitVec 1) ++ sl) (encReg t) 0 0 g 0)
  | .bndrd sl d none g => some (mkV 0x191 ((0 : BitVec 1) ++ sl) (encReg d) 0 0 g 0)
  | .bndrd sl d (some (f, rm)) g =>
    some (mkV 0x191 ((0 : BitVec 1) ++ sl) (encReg d)
      ((0 : BitVec 2) ++ (1 : BitVec 1) ++ fmtCode f ++ (0 : BitVec 2) ++ rndCode rm) 0 g 0)
  | .mqrun r sb g => some (mkV 0x198 0 (encReg r) 0 0 g ((0 : BitVec 3) ++ sb))
  | .cpy o =>
    some (mkV 0x200 0 (encReg o.vg) (encReg o.vp) (match o.bcb with | none => 0 | some c => encReg c) o.g
      ((0 : BitVec 1) ++ BitVec.ofBool o.s2g ++ BitVec.ofBool o.bcb.isSome ++ o.sb))
  | .gath d sb g => some (mkV 0x201 0 (encSrc d) 0 0 g ((0 : BitVec 3) ++ sb))
  | .scat d sb g => some (mkV 0x202 0 (encSrc d) 0 0 g ((0 : BitVec 3) ++ sb))
  | .nzscan d sb g => some (mkV 0x203 0 (encSrc d) 0 0 g ((0 : BitVec 3) ++ sb))
  | .ownE t c g => some (mkV 0x208 0 (encSrc t) (encSrc c) 0 g 1)
  | .ownT t c g => some (mkV 0x208 0 (encSrc t) (encSrc c) 0 g 0)
  | .relent d k p h g => some (mkV 0x210 d (encSrc k) (encSrc p) (encHnd h) g 0)
  | .relsealSeal d h g => some (mkV 0x211 d 0 0 (encHnd h) g 0)
  | .relsealRec d n p h g => some (mkV 0x211 d (encSrc n) (encSrc p) (encHnd h) g 1)
  | .relsealFree d h g => some (mkV 0x211 d 0 0 (encHnd h) g 2)
  | .relgrp d o h g => some (mkV 0x212 d (encSrc o) 0 (encHnd h) g 0)
  | .reljoin d j hl hr g => some (mkV 0x213 d (encSrc j) (encHnd hr) (encHnd hl) g 0)
  | .relmrg d m sb g => some (mkV 0x214 d (encSrc m) 0 0 g ((0 : BitVec 3) ++ sb))
  | .relstat d h g => some (mkV 0x215 d 0 0 (encHnd h) g 0)
  | .nop rc g => some (mkC 0x280 rc 0 0 (encGuard g) 0)
  | .bra rc off g => some (mkC 0x281 rc 0 off (encGuard g) 0)
  | .braPop rc n off g =>
    some ⟨0x281, BitVec.ofBool rc, (0 : BitVec 8) ++ sub n 1 2, sub n 0 1 ++ sub off 22 10, sub off 11 11, sub off 0 11,
      encGuard g, 0⟩
  | .brm o =>
    some ⟨0x282, BitVec.ofBool o.rc, (0 : BitVec 1) ++ o.k1 ++ encGuard o.q2 ++ sub (encGuard o.q3) 1 3,
      sub (encGuard o.q3) 0 1 ++ sub o.off 22 10, sub o.off 11 11, sub o.off 0 11, encGuard o.q0,
      encGuard o.q1 ++ (0 : BitVec 2)⟩
  | .jmp rc off => some (mkC 0x283 rc 0 off 7 0)
  | .call rc off g => some (mkC 0x284 rc 0 off (encGuard g) 0)
  | .ret rc g => some (mkC 0x285 rc 0 0 (encGuard g) 0)
  | .exit rc g => some (mkC 0x286 rc 0 0 (encGuard g) 0)
  | .rcvpush rc off => some (mkC 0x288 rc 0 off 7 0)
  | .rcvdrop rc n1 => some (mkC 0x289 rc 0 0 7 ((0 : BitVec 2) ++ n1))
  | .regang rc => some (mkC 0x28A rc 0 0 7 0)
  | .regangAll rc => some (mkC 0x28A rc 0 0 7 1)
  | .yield off sb g => some (mkC 0x28C false 0 off (encGuard g) ((0 : BitVec 3) ++ sb))
  | .bar rc k clu d =>
    some ⟨0x290, BitVec.ofBool rc, d, 0, 0, 0, 7,
      (0 : BitVec 3) ++ BitVec.ofBool clu ++ (match k with | .arr => (0 : BitVec 2) | .wait => 1 | .sync => 2)⟩
  | .phwait rc base p off g => some ⟨0x291, BitVec.ofBool rc, 0, encSrc base, encSrc p, off, encGuard g, 8⟩
  | .phflip rc base off g => some ⟨0x292, BitVec.ofBool rc, 0, encSrc base, 0, off, encGuard g, 8⟩
  | .bcbarm a n sb g => some (mkV 0x293 0 (encReg a) (encSrc n) 0 g ((0 : BitVec 3) ++ sb))
  | .bcbwait d a g => some (mkV 0x294 d (encReg a) 0 0 g 0)
  | .phend rc off => some (mkC 0x298 rc 0 off 7 0)
  | .emit rc n r g => some ⟨0x299, BitVec.ofBool rc, 0, encSrc n, encReg r, 0, encGuard g, 0⟩
  | .sigchk rc imm => some (mkC 0x29C rc 0 imm 7 0)
  | .trap imm g => some (mkV 0x300 0 0 (sub imm 11 11) (sub imm 0 11) g 0)
  | .rtt => some (mkV 0x301 0 0 0 0 ⟨false, 7⟩ 0)
  | .srget d n g => some (mkV 0x302 d 0 0 ((0 : BitVec 3) ++ n) g 0)
  | .srset n a g => some (mkV 0x303 0 (encSrc a) 0 ((0 : BitVec 3) ++ n) g 0)
  | .pmoff => some (mkV 0x304 0 0 0 0 ⟨false, 7⟩ 0)
  | .pmon => some (mkV 0x305 0 0 0 0 ⟨false, 7⟩ 0)
  | .flushp sb g => some (mkV 0x306 0 0 0 0 g ((0 : BitVec 3) ++ sb))
  | .tlbinv a b g => some (mkV 0x307 0 (encReg a) (encReg b) 0 g 0)
  | .pqpop d a off sb g => some (mkV 0x308 d (encReg a) 0 off g ((0 : BitVec 3) ++ sb))
  | .ctxkill a g => some (mkV 0x309 0 (encSrc a) 0 0 g 0)
  | .cstateRead d a b g => some (mkV 0x30C d (encSrc a) (encSrc b) 0 g 0)
  | .cstateReserve d a b g => some (mkV 0x30C d (encSrc a) (encSrc b) 0 g 0)
  | .cstateRelease d a b g => some (mkV 0x30C d (encSrc a) (encSrc b) 0 g 0)
  | .cdrain d a b g => some (mkV 0x30D d (encSrc a) (encSrc b) 0 g 0)
  | .cretire d a g => some (mkV 0x30E d (encSrc a) 0 0 g 0)
  | .wearrdSelf d f g => some (mkV 0x30F d 0 (encSrc f) 0 g 1)
  | .wearrd d a f g => some (mkV 0x30F d (encSrc a) (encSrc f) 0 g 0)
  | .tstrun a w g => some (mkV 0x310 0 (encSrc a) (encReg w) 0 g 0)
  | .tstabt a g => some (mkV 0x311 0 (encSrc a) 0 0 g 0)
  | _ => none

/-- The word of an instruction; none for an event. -/
def encode (i : Instr) : Option Dword := (encodeRaw i).map Raw.join

/-- Whether a JMP may stand in a BRM table: predicate 7 and bit 53 zero (R307). -/
def tableJmp (w : Dword) : Option (BitVec 32) :=
  match decode w with
  | .ok (.jmp false off) => some off
  | _ => none

/-- A clause header's fields (R244). -/
structure Header where
  cls : BitVec 3
  count : Nat
  wait : BitVec 8
  sw : Bool
deriving DecidableEq, Repr

/-- The header a word holds, or nothing (R244, R262): the count is the number of instructions. -/
def decodeHeader (w : Dword) : Option Header :=
  if w.extractLsb' 61 3 = 7 ∧ w.extractLsb' 60 1 = 0 ∧ w.extractLsb' 57 3 ≠ (7 : BitVec 3) ∧ w.extractLsb' 0 40 = 0 then
    some ⟨w.extractLsb' 57 3, (w.extractLsb' 53 4).toNat + 1, w.extractLsb' 45 8, w.getLsbD 44⟩
  else none

/-- The header of a clause of one instruction of a class, with the switch-permitted bit (R244). -/
def headerOf (cls : BitVec 3) : Dword :=
  (7 : BitVec 3) ++ (0 : BitVec 1) ++ cls ++ (0 : BitVec 4) ++ (0 : BitVec 8) ++ (1 : BitVec 1) ++ (0 : BitVec 44)

/-- The class of a word's opcode (R245). -/
def wordClass (w : Dword) : BitVec 3 := w.extractLsb' 61 3

/-- The instructions that end their clause (R245). -/
def Instr.endsClause : Instr → Bool
  | .bra .. | .braPop .. | .brm .. | .jmp .. | .call .. | .ret .. | .yield .. | .phend .. | .rtt | .exit ..
  | .accopen .. => true
  | _ => false

/-- The instruction my decoder reads from a word numbered as the opcode table numbers it: one 64-bit word, the first
byte at the lowest address (R2, R244). -/
def decodeTableWord (_nbits w : Nat) : Option Instr :=
  match decode (BitVec.ofNat 64 w) with
  | .ok i => some i
  | .error _ => none

end Sys2Proof
end

