-- ==== Sys2Proof/Machine/Gangs.lean ====
section
/-! DEFINITION. Groups, slices and gangs: registers, predicates and latches, the reconvergence stack, and what retiring one
instruction word does to the gang that issued it. -/
namespace Sys2Proof.Machine

/-! ### Parts of the state by name -/

def Slice.dead : Slice := ⟨0, 0, 0, [], [], false, 0, 0, 0, [], [], none⟩

def Core.fresh : Core := ⟨0, 0, 0, [], [], [], [], [], [], [], [], [], [], [], 0, 0, [], [], [], []⟩

def Quad.fresh : Quad := ⟨[], [], [], [], []⟩

def Ctx.fresh : Ctx :=
  ⟨false, false, 0, 0, 0, 0, 0, false, none, false, 0, 0, 0, 0, 0, [], [], 0, 0, false, [], [], [], false, 0⟩

def DirEntry.fresh : DirEntry := ⟨0, 0, none, 0, false, none⟩

def Handle.fresh : Handle := ⟨.idle, false, 0, 0, 0, 0, [], false, [], [], 0, 0, false⟩

def State.group (s : State) (g : Nat) : Option Group := s.groups.look g
def State.team (s : State) (t : Nat) : Option Team := s.teams.look t
def State.cluster (s : State) (c : Nat) : Option Cluster := s.clusters.look c
def State.launch (s : State) (l : Nat) : Option Launch := s.launches.look l
def State.core (s : State) (c : Nat) : Core := s.cores.getD c Core.fresh
def State.quad (s : State) (q : Nat) : Quad := s.quads.getD q Quad.fresh
def State.ctx (s : State) (c : Nat) : Ctx := s.ctxs.getD c Ctx.fresh
def State.line (s : State) (n : Nat) : DirEntry := s.dir.getD n DirEntry.fresh

def State.modGroup (s : State) (g : Nat) (f : Group → Group) : State := { s with groups := s.groups.alter g f }
def State.modTeam (s : State) (t : Nat) (f : Team → Team) : State := { s with teams := s.teams.alter t f }
def State.modCluster (s : State) (c : Nat) (f : Cluster → Cluster) : State := { s with clusters := s.clusters.alter c f }
def State.modLaunch (s : State) (l : Nat) (f : Launch → Launch) : State := { s with launches := s.launches.alter l f }
def State.modCore (s : State) (c : Nat) (f : Core → Core) : State := { s with cores := s.cores.put c (f (s.core c)) }
def State.modQuad (s : State) (q : Nat) (f : Quad → Quad) : State := { s with quads := s.quads.put q (f (s.quad q)) }
def State.modCtx (s : State) (c : Nat) (f : Ctx → Ctx) : State := { s with ctxs := s.ctxs.put c (f (s.ctx c)) }
def State.modLine (s : State) (n : Nat) (f : DirEntry → DirEntry) : State := { s with dir := s.dir.put n (f (s.line n)) }

/-- A fresh name. -/
def State.fresh (s : State) : State × Nat := ({ s with nextUid := s.nextUid + 1 }, s.nextUid)

def Group.gang (g : Group) (k : Nat) : Option Gang := g.gangs.find? (·.id == k)

def Group.modGang (g : Group) (k : Nat) (f : Gang → Gang) : Group := { g with gangs := mapIf (·.id == k) f g.gangs }

def Group.slice (g : Group) (n : Nat) : Slice := g.slices.getD n Slice.dead

def Group.modSlice (g : Group) (n : Nat) (f : Slice → Slice) : Group := { g with slices := g.slices.alter n f }

/-- Change the slices of a list. -/
def Group.modSlices (g : Group) (ns : List Nat) (f : Slice → Slice) : Group :=
  { g with slices := g.slices.map fun e => if ns.contains e.1 then (e.1, f e.2) else e }

def State.modGang (s : State) (g k : Nat) (f : Gang → Gang) : State := s.modGroup g (·.modGang k f)

/-! ### Lanes, predicates, registers -/

/-- Lane l of a mask over the four lanes of a slice. -/
def maskBit (m : Mask4) (l : Nat) : Bool := m.getLsbD (l % 4)

/-- Whether lane l is active in its slice (R18). -/
def Group.active (g : Group) (l : Nat) : Bool := maskBit (g.slice (l / 4)).active l

/-- Whether lane l is live. -/
def Group.live (g : Group) (l : Nat) : Bool := maskBit (g.slice (l / 4)).live l

/-- The active lanes of some slices, ascending when the slices are; a group has 32 lanes (R12). -/
def Group.activeLanes (g : Group) (ns : List Nat) : List Nat :=
  ns.flatMap fun n => ([4 * n, 4 * n + 1, 4 * n + 2, 4 * n + 3]).filter fun l => decide (l < 32) && g.active l

/-- Predicate p of lane l; p7 reads true (R58). -/
def Group.pred (g : Group) (p : BitVec 3) (l : Nat) : Bool :=
  if p = 7 then true else (g.preds.getD p.toNat 0).getLsbD l

/-- Whether a guard holds in lane l (R246). -/
def Group.guard (g : Group) (gd : Guard) (l : Nat) : Bool := g.pred gd.p l != gd.neg

/-- One bit of a lane mask set to a value. -/
def setLane (m : LaneMask) (l : Nat) (b : Bool) : LaneMask :=
  if b then m ||| BitVec.twoPow 32 l else m &&& ~~~(BitVec.twoPow 32 l)

/-- Write predicate p of lane l; a write of p7 is discarded (R58). -/
def Group.setPred (g : Group) (p : BitVec 3) (l : Nat) (b : Bool) : Group :=
  if p = 7 then g else { g with preds := g.preds.put p.toNat (setLane (g.preds.getD p.toNat 0) l b) }

/-- The key of register n of lane l. -/
def regKey (n l : Nat) : Nat := 32 * n + l

/-- Register n of lane l (R55). A register not carried over PHEND holds a free value until it is written (R29, log 2). -/
def Group.reg (g : Group) (n l : Nat) : Word :=
  match g.regs.look (regKey n l) with
  | some w => w
  | none => match g.undef with
    | none => 0
    | some b => Config.freeWord (b + regKey n l)

/-- Write register n of lane l. -/
def Group.setReg (g : Group) (n l : Nat) (w : Word) : Group := { g with regs := g.regs.put (regKey n l) w }

/-- Write register n in each lane of a list. -/
def Group.setRegs (g : Group) (n : Nat) (ls : List Nat) (f : Nat → Word) : Group :=
  ls.foldl (fun g l => g.setReg n l (f l)) g

/-- Write predicate p in each lane of a list. -/
def Group.setPreds (g : Group) (p : BitVec 3) (ls : List Nat) (f : Nat → Bool) : Group :=
  ls.foldl (fun g l => g.setPred p l (f l)) g

/-- The pair vn:vn+1 of lane l (R56). -/
def Group.pair (g : Group) (n l : Nat) : Dword := g.reg (n + 1) l ++ g.reg n l

/-- Write the pair vn:vn+1 in each lane of a list (R56). -/
def Group.setPairs (g : Group) (n : Nat) (ls : List Nat) (f : Nat → Dword) : Group :=
  (g.setRegs n ls fun l => (f l).truncate 32).setRegs (n + 1) ls fun l => (f l).extractLsb' 32 32

/-! ### Latches and clauses -/

/-- The decoded header of a clause. -/
def Clause.header (c : Clause) : Header := (decodeHeader c.word).getD ⟨0, 1, 0, true⟩

/-- The number of instructions of a clause (R244). -/
def Clause.count (c : Clause) : Nat := c.header.count

/-- The next clause's header, the fall-through address (R245). -/
def Clause.next (c : Clause) : Dword := c.hdr + BitVec.ofNat 64 (8 * (c.count + 1))

/-- The address of the instruction in a slot (R245). -/
def Clause.addr (c : Clause) (slot : Nat) : Dword := c.hdr + BitVec.ofNat 64 (8 + 8 * slot)

/-- A clause that starts: every latch invalid (R59). -/
def Clause.start (hdr word : Dword) (words : List Dword) : Clause := ⟨hdr, word, words, 0, [], 0⟩

/-- Write the latch of the current slot: the executing lanes' values, zero elsewhere; or leave it invalid (R59). -/
def Clause.latch (c : Clause) (v : Option (List Nat × (Nat → Word))) : Clause :=
  let k := c.slot % 8
  match v with
  | none => { c with latOk := c.latOk &&& ~~~(BitVec.twoPow 8 k) }
  | some (ls, f) =>
    { c with
      latOk := c.latOk ||| BitVec.twoPow 8 k
      lats := ls.foldl (fun t l => t.put (32 * k + l) (f l)) (c.lats.filter fun e => e.1 / 32 != k) }

/-- A source operand in lane l (R246). -/
def Group.src (g : Group) (c : Clause) (a : Src) (l : Nat) : Word :=
  match a with
  | .reg n => g.reg n.toNat l
  | .lat k => c.lats.getD (32 * k.toNat + l) 0

/-- Whether a source may be read: below the budget, or a valid latch (R55, R59). -/
def Group.srcOk (g : Group) (c : Clause) (a : Src) : Bool :=
  match a with
  | .reg n => decide (n.toNat < g.budget)
  | .lat k => c.latOk.getLsbD k.toNat

/-! ### Signatures and retirement -/

/-- The update of one instruction word (R202). -/
def sigStep (op : Nat) (sg : Word) : Word := sg.rotateLeft 7 ^^^ BitVec.ofNat 32 (op * 0x9E3779B1)

/-- The token of a popped entry and of RCVPUSH (R202). -/
def popToken : Word := 0xBB67AE85
def pushToken : Word := 0x6A09E667

/-- A slice's signature after an issue: the word's own update if it has one, then its tokens (R202). -/
def Slice.sign (frozen : Bool) (op : Option Nat) (extra : Word) (sl : Slice) : Slice :=
  let own := match op with
    | some o => sigStep o sl.sig ^^^ extra
    | none => sl.sig
  { sl with
    sig := if frozen then sl.sig else if sl.tokens % 2 = 1 then own ^^^ popToken else own
    tokens := 0 }

/-- Count one retired word: at the group, or with the speculative words of a fence (R61, R129, R177). -/
def Group.countWord (g : Group) (k : Gang) : Group :=
  match k.fence with
  | none => { g with lclock := g.lclock + 1, dclock := g.dclock + 1 }
  | some f => g.modGang k.id fun k => { k with fence := some { f with words := f.words + 1 } }

/-- Leave a clause: give up the port unless the switch-permitted bit is clear (R171). -/
def Gang.leaveClause (k : Gang) (now : Nat) : Gang :=
  let keep := match k.clause with
    | some c => !c.header.sw
    | none => false
  { k with clause := none, since := now, forced := none, emitted := 0, emitLeft := [], emitReads := []
           port := if keep then k.port else none }

/-- What one retired word does besides its own effect: the count, the signatures, the latch, and the advance to the next
slot or the next clause; a branch has set the program counters itself (R59, R61, R202, R245). -/
def Group.retire (g : Group) (kid now : Nat) (op : Option Nat) (extra : Word) (branched : Bool)
    (lat : Option (List Nat × (Nat → Word))) : Group :=
  match g.gang kid with
  | none => g
  | some k =>
    let g := (g.countWord k).modSlices k.slices (Slice.sign g.inHandler op extra)
    let g := { g with det := { g.det with granted := if g.det.granted == some kid then none else g.det.granted } }
    match k.clause with
    | none => g
    | some c =>
      if branched then g.modGang kid (·.leaveClause now)
      else if c.slot + 1 = c.count then
        (g.modSlices k.slices fun sl => { sl with pc := c.next, popDone := false }).modGang kid fun k =>
          { k.leaveClause now with origin := none }
      else
        (g.modSlices k.slices fun sl => { sl with pc := c.addr (c.slot + 1), popDone := false }).modGang kid fun k =>
          { k with clause := some { c.latch lat with slot := c.slot + 1 }, emitted := 0, emitLeft := [], emitReads := [] }

/-! ### The reconvergence stack -/

/-- The lowest resume address among some lanes of a slice. -/
def Slice.lowestResume (sl : Slice) (m : Mask4) : Dword :=
  let rs := ([0, 1, 2, 3].filter fun l => m.getLsbD l).map fun l => sl.resume.getD l 0
  match argmin BitVec.toNat rs with
  | some x => x
  | none => 0

/-- The lanes of a mask that satisfy a test. -/
def maskOf (p : Nat → Bool) : Mask4 :=
  BitVec.ofNat 4 (b2n (p 0) + 2 * b2n (p 1) + 4 * b2n (p 2) + 8 * b2n (p 3))

/-- The arrival rule (R20); true when a popped entry's masks differ. The number bounds the entries looked at. -/
def Slice.arrive : Nat → Slice → Slice × Bool
  | 0, sl => (sl, false)
  | n + 1, sl =>
    match sl.stack with
    | [] => (sl, false)
    | e :: rest =>
      if sl.active ≠ 0 then (sl, false)
      else
        let parked := e.pending &&& ~~~sl.active
        if parked ≠ 0 then
          let x := sl.lowestResume parked
          let run := maskOf fun l => parked.getLsbD l && sl.resume.getD l 0 == x
          ({ sl with active := run, pc := x, popDone := false
                     resume := sl.resume.filter fun r => !run.getLsbD r.1 }, false)
        else if e.waiting ≠ e.saved then (sl, true)
        else
          let sl := { sl with active := e.waiting, pc := e.addr, stack := rest, tokens := sl.tokens + 1 }
          if e.waiting ≠ 0 then ({ sl with popDone := true }, false) else Slice.arrive n sl

/-- Apply the arrival rule to the whole stack. -/
def Slice.settle (sl : Slice) : Slice × Bool := sl.arrive (sl.stack.length + 1)

/-- The pop flag (R19): the active lanes arrive at entry 1 when it stands at this clause's header. -/
def Slice.popFlag (hdr : Dword) (sl : Slice) : Slice × Bool :=
  if sl.popDone then (sl, false)
  else
    match sl.stack with
    | [] => (sl, false)
    | e :: rest =>
      if e.addr = hdr then
        { sl with
          stack := { e with waiting := e.waiting ||| sl.active, pending := e.pending &&& ~~~sl.active } :: rest
          active := 0 }.settle
      else (sl, false)

/-- The stack signature: the reconvergence addresses from entry 1 down (R23). -/
def Slice.stackSig (sl : Slice) : List Dword := sl.stack.map (·.addr)

/-- Lanes leave every entry of the stack, as at EXIT, and stop being live and active (R19). -/
def Slice.endLanes (sl : Slice) (m : Mask4) : Slice :=
  { sl with
    live := sl.live &&& ~~~m
    active := sl.active &&& ~~~m
    resume := sl.resume.filter fun r => !m.getLsbD r.1
    stack := sl.stack.map fun e =>
      { e with waiting := e.waiting &&& ~~~m, pending := e.pending &&& ~~~m, saved := e.saved &&& ~~~m } }

/-- Divide a gang: the slices that stay keep the clause; the others form gangs by program counter; dead slices leave.
The gang keeps its name for the slices that stay, or else for the first address (R15). -/
def Group.split (g : Group) (kid : Nat) (stay : List Nat) : Group :=
  match g.gang kid with
  | none => g
  | some k =>
    let live := k.slices.filter fun n => (g.slice n).live != 0
    let stay := live.filter stay.contains
    let gone := live.filter fun n => !stay.contains n
    let pcs := nodup (gone.map fun n => (g.slice n).pc.toNat)
    let part (p : Nat) := gone.filter fun n => (g.slice n).pc.toNat == p
    let bare (id : Nat) (ns : List Nat) : Gang :=
      { k with id := id, slices := ns, wait := .no, clause := none, port := none, forced := none,
               walking := none, emitted := 0, emitLeft := [], emitReads := [] }
    let news (ps : List Nat) : List Gang :=
      (List.range ps.length).zip ps |>.map fun e => bare (g.nextGang + e.1) (part e.2)
    let others := g.gangs.filter (·.id != kid)
    match stay, pcs with
    | [], [] => { g with gangs := others }
    | [], p :: ps =>
      { g with gangs := (others ++ [{ bare kid (part p) with port := k.port }]) ++ news ps
               nextGang := g.nextGang + ps.length }
    | _, _ =>
      { g with gangs := (others ++ [{ k with slices := stay }]) ++ news pcs, nextGang := g.nextGang + pcs.length }

/-- Raise float flags in %fstat, or with a fence's speculative flags (R62, R129). -/
def Group.raise (g : Group) (kid : Nat) (fl : Word) : Group :=
  match (g.gang kid).bind (·.fence) with
  | none => { g with fstat := g.fstat ||| fl }
  | some f => g.modGang kid fun k => { k with fence := some { f with flags := f.flags ||| fl } }

/-- Scoreboard N of a slice. -/
def Slice.sbOf (sl : Slice) (n : Nat) : Nat := sl.sb.getD n 0

/-- Raise a scoreboard in some slices (R60). -/
def Group.sbUp (g : Group) (ns : List Nat) (n : Nat) : Group :=
  g.modSlices ns fun sl => { sl with sb := sl.sb.put n (sl.sbOf n + 1) }

/-- Lower a scoreboard in some slices (R60). -/
def Group.sbDown (g : Group) (ns : List Nat) (n : Nat) : Group :=
  g.modSlices ns fun sl => { sl with sb := sl.sb.put n (sl.sbOf n - 1) }

end Sys2Proof.Machine
end

