-- ==== Sys2Proof/Machine/Flags.lean ====
section
/-! DEFINITION. The flags of %fstat and the count of malformed units (R62, R80). -/
namespace Sys2Proof.Machine

/-- The flag bits of %fstat (R62). -/
def flNv : Word := 1
def flDz : Word := 2
def flOf : Word := 4
def flUf : Word := 8
def flNx : Word := 16
def flSat : Word := 32

/-- A flag set when a condition holds. -/
def flagIf (b : Bool) (f : Word) : Word := if b then f else 0

/-- Add to mcount, saturating at 0xFFFF (R62). -/
def countMalformed (fstat : Word) (n : Nat) : Word :=
  let m := min 0xFFFF (fstat.toNat / 2 ^ 16 + n)
  BitVec.ofNat 32 (m * 2 ^ 16 + fstat.toNat % 2 ^ 16)

/-- Add to mcount for a gang: at the group, or with the speculative flags of its fence (R62, R129). -/
def Group.malformed (g : Group) (kid n : Nat) : Group :=
  if n = 0 then g
  else
    match (g.gang kid).bind (·.fence) with
    | none => { g with fstat := countMalformed g.fstat n }
    | some f => g.modGang kid fun k => { k with fence := some { f with flags := countMalformed f.flags n } }

/-- Commit a fence's speculative flags and malformed units (R62, R129). -/
def commitFlags (fstat flags : Word) : Word := countMalformed (fstat ||| (flags &&& 0x3F)) (flags.toNat / 2 ^ 16)

/-- Bits 15..6 of %fstat read zero (R62). -/
def fstatWrite (v : Word) : Word := v &&& 0xFFFF003F

end Sys2Proof.Machine
end

