-- ==== Sys2Proof/Machine/Num.lean ====
section
/-! DEFINITION. Number formats: values, the one rounding function, conversion, the arithmetic of the VALU and the bounds
(R66 to R86). A finite value is a sign, a natural number and a power of two, so every operation is exact until it rounds. -/
namespace Sys2Proof.Machine

/-- A number as an operand presents it. -/
inductive FVal where
  | nan (sig : Bool)
  | inf (neg : Bool)
  /-- (-1)^neg × m × 2^e -/
  | fin (neg : Bool) (m : Nat) (e : Int)
deriving DecidableEq, Repr

/-- The float formats (R68). -/
inductive FF where
  | f32 | f16 | b16 | f8e4 | f8e5
deriving DecidableEq, Repr

def FF.m : FF → Nat | .f32 => 23 | .f16 => 10 | .b16 => 7 | .f8e4 => 3 | .f8e5 => 2
def FF.ebits : FF → Nat | .f32 => 8 | .f16 => 5 | .b16 => 8 | .f8e4 => 4 | .f8e5 => 5
def FF.bias : FF → Nat | .f32 => 127 | .f16 => 15 | .b16 => 127 | .f8e4 => 7 | .f8e5 => 15
/-- The largest finite code without sign (R68). -/
def FF.largest : FF → Nat | .f32 => 0x7F7FFFFF | .f16 => 0x7BFF | .b16 => 0x7F7F | .f8e4 => 0x7E | .f8e5 => 0x7B
/-- The canonical NaN (R70). -/
def FF.canon : FF → Nat | .f32 => 0x7FC00000 | .f16 => 0x7E00 | .b16 => 0x7FC0 | .f8e4 => 0x7F | .f8e5 => 0x7E
def FF.hasInf : FF → Bool | .f8e4 => false | _ => true
def FF.width (f : FF) : Nat := f.m + f.ebits + 1
def FF.signBit (f : FF) : Nat := 2 ^ (f.m + f.ebits)
/-- The infinity's code without sign (R69). -/
def FF.infCode (f : FF) : Nat := (2 ^ f.ebits - 1) * 2 ^ f.m
/-- emin - p + 1: the exponent of the smallest subnormal (R68). -/
def FF.tiny (f : FF) : Int := 1 - (f.bias : Int) - f.m

/-- The value of a code (R68, R69). -/
def FF.decode (f : FF) (code : Nat) : FVal :=
  let c := code % 2 ^ f.width
  let neg := decide (f.signBit ≤ c)
  let ex := c / 2 ^ f.m % 2 ^ f.ebits
  let mt := c % 2 ^ f.m
  if ex = 2 ^ f.ebits - 1 ∧ (f.hasInf = true ∨ mt = 2 ^ f.m - 1) then
    if f.hasInf then (if mt = 0 then .inf neg else .nan (decide (mt < 2 ^ (f.m - 1)))) else .nan false
  else if ex = 0 then .fin neg mt f.tiny
  else .fin neg (2 ^ f.m + mt) (f.tiny + (ex - 1))

/-- A code with its sign. -/
def FF.sign (f : FF) (neg : Bool) (c : Nat) : Nat := if neg then f.signBit + c else c

/-- The result of rounding a magnitude onto a format's grid with no upper limit: its code, and whether it was inexact (R74). -/
structure Rounded where
  c : Nat
  nx : Bool
deriving DecidableEq, Repr

/-- Whether a remainder rounds the magnitude up. -/
def roundsUp (rm : Rnd) (neg odd : Bool) (r half : Nat) (sticky : Bool) : Bool :=
  match rm with
  | .rn => decide (half < r) || (r == half && (sticky || odd))
  | .rz => false
  | .ru => !neg && (r != 0 || sticky)
  | .rd => neg && (r != 0 || sticky)

/-- Round m × 2^e, or a value just above it when sticky, onto the grid (R74). With sticky, m has at least two bits more than
the format keeps. -/
def FF.round (f : FF) (rm : Rnd) (neg : Bool) (m : Nat) (e : Int) (sticky : Bool) : Rounded :=
  if m = 0 then ⟨0, sticky⟩
  else
    let top : Int := e + (Nat.log2 m : Int)
    let q : Int := max (top - f.m) f.tiny
    let d := q - e
    let (n, nx) :=
      if d ≤ 0 then (m * 2 ^ (-d).toNat, sticky)
      else
        let k := d.toNat
        let r := m % 2 ^ k
        let n := m / 2 ^ k
        (if roundsUp rm neg (n % 2 == 1) r (2 ^ (k - 1)) sticky then n + 1 else n, r != 0 || sticky)
    ⟨if n < 2 ^ f.m then n else (q - f.tiny + 1).toNat * 2 ^ f.m + (n - 2 ^ f.m), nx⟩

/-- Whether a rounded magnitude has overflowed, and whether it is tiny (R74). -/
def FF.exceeds (f : FF) (r : Rounded) : Bool := decide (f.largest < r.c)
def FF.isTiny (f : FF) (r : Rounded) : Bool := r.c != 0 && decide (r.c < 2 ^ f.m)

/-- The result of a VALU float operation: RN, overflow to infinity (R75, R80). -/
def FF.finish (f : FF) (neg : Bool) (m : Nat) (e : Int) (sticky : Bool) : Nat × Word :=
  let r := f.round .rn neg m e sticky
  if f.exceeds r then (f.sign neg f.infCode, flOf ||| flNx)
  else (f.sign neg r.c, flagIf (f.isTiny r && r.nx) flUf ||| flagIf r.nx flNx)

/-- A signalling operand raises nv (R70). -/
def FVal.nvOf : FVal → Word
  | .nan sig => flagIf sig flNv
  | _ => 0

/-- A finite value as a signed integer in units of 2^q, q at or below its exponent. -/
def toUnits (neg : Bool) (m : Nat) (e q : Int) : Int :=
  let v : Int := m * 2 ^ (e - q).toNat
  if neg then -v else v

/-- The exact sum of two finite values, with R75's sign of zero. -/
def addExact (n1 : Bool) (m1 : Nat) (e1 : Int) (n2 : Bool) (m2 : Nat) (e2 : Int) : Bool × Nat × Int :=
  let q := min e1 e2
  let s := toUnits n1 m1 e1 q + toUnits n2 m2 e2 q
  (if s = 0 then n1 && n2 else decide (s < 0), s.natAbs, q)

/-- a + b (R75). -/
def FF.add (f : FF) (a b : FVal) : Nat × Word :=
  let nv := a.nvOf ||| b.nvOf
  match a, b with
  | .nan _, _ | _, .nan _ => (f.canon, nv)
  | .inf x, .inf y => if x = y then (f.sign x f.infCode, 0) else (f.canon, flNv)
  | .inf x, _ | _, .inf x => (f.sign x f.infCode, 0)
  | .fin n1 m1 e1, .fin n2 m2 e2 =>
    let (n, m, e) := addExact n1 m1 e1 n2 m2 e2
    f.finish n m e false

/-- a × b (R75, R319). -/
def FF.mul (f : FF) (a b : FVal) : Nat × Word :=
  let nv := a.nvOf ||| b.nvOf
  match a, b with
  | .nan _, _ | _, .nan _ => (f.canon, nv)
  | .inf x, .inf y => (f.sign (x != y) f.infCode, 0)
  | .inf x, .fin y m _ | .fin y m _, .inf x => if m = 0 then (f.canon, flNv) else (f.sign (x != y) f.infCode, 0)
  | .fin n1 m1 e1, .fin n2 m2 e2 => f.finish (n1 != n2) (m1 * m2) (e1 + e2) false

/-- Whether a product is 0 × ∞. -/
def zeroTimesInf : FVal → FVal → Bool
  | .inf _, .fin _ m _ | .fin _ m _, .inf _ => m == 0
  | _, _ => false

/-- a × b + c, one rounding; 0 × ∞ is invalid even when c is NaN (R75, R319). -/
def FF.fma (f : FF) (a b c : FVal) : Nat × Word :=
  let nv := a.nvOf ||| b.nvOf ||| c.nvOf ||| flagIf (zeroTimesInf a b) flNv
  if zeroTimesInf a b then (f.canon, nv)
  else
    match a, b, c with
    | .nan _, _, _ | _, .nan _, _ | _, _, .nan _ => (f.canon, nv)
    | .fin n1 m1 e1, .fin n2 m2 e2, .fin n3 m3 e3 =>
      let (n, m, e) := addExact (n1 != n2) (m1 * m2) (e1 + e2) n3 m3 e3
      f.finish n m e false
    | .fin .., .fin .., .inf z => (f.sign z f.infCode, 0)
    | .inf x, .inf y, z | .inf x, .fin y _ _, z | .fin y _ _, .inf x, z =>
      match z with
      | .inf w => if w = (x != y) then (f.sign w f.infCode, 0) else (f.canon, flNv)
      | _ => (f.sign (x != y) f.infCode, 0)

/-- The order of FMIN and FMAX on non-NaN codes: −0 below +0 (R82). -/
def FF.key (f : FF) (code : Nat) : Int :=
  let c := code % 2 ^ f.width
  if f.signBit ≤ c then -((c - f.signBit : Nat) : Int) - 1 else c

/-- FMIN and FMAX (R82). -/
def FF.minmax (f : FF) (isMax : Bool) (a b : Nat) : Nat × Word :=
  let va := f.decode a
  let vb := f.decode b
  let nv := va.nvOf ||| vb.nvOf
  match va, vb with
  | .nan _, .nan _ => (f.canon, nv)
  | .nan _, _ => (b % 2 ^ f.width, nv)
  | _, .nan _ => (a % 2 ^ f.width, nv)
  | _, _ =>
    let less := decide (f.key a ≤ f.key b)
    (if less != isMax then a % 2 ^ f.width else b % 2 ^ f.width, 0)

/-- The relation of two values: none when unordered (R321). -/
def cmpVal (a b : FVal) : Option Ordering :=
  match a, b with
  | .nan _, _ | _, .nan _ => none
  | .inf x, .inf y => some (if x = y then .eq else if x then .lt else .gt)
  | .inf x, _ => some (if x then .lt else .gt)
  | _, .inf y => some (if y then .gt else .lt)
  | .fin n1 m1 e1, .fin n2 m2 e2 =>
    let q := min e1 e2
    some (compare (toUnits n1 m1 e1 q) (toUnits n2 m2 e2 q))

/-- FCMP's conditions (R321). -/
def fccHolds (cc : FCc) (r : Option Ordering) : Bool :=
  match cc, r with
  | .eq, some .eq => true
  | .ne, some .eq => false
  | .ne, _ => true
  | .lt, some .lt => true
  | .le, some .lt | .le, some .eq => true
  | .gt, some .gt => true
  | .ge, some .gt | .ge, some .eq => true
  | .un, none => true
  | _, _ => false

/-- FCLS's class number (R71). -/
def FF.cls (f : FF) (code : Nat) : Nat :=
  match f.decode code with
  | .inf true => 0
  | .inf false => 7
  | .nan true => 8
  | .nan false => 9
  | .fin neg m _ =>
    if m = 0 then (if neg then 3 else 4)
    else if m < 2 ^ f.m then (if neg then 2 else 5)
    else if neg then 1 else 6

/-! ### The correctly rounded functions (R81) -/

/-- The integer square root, one bit at a time. -/
def isqrtGo (n : Nat) : Nat → Nat → Nat
  | 0, r => r
  | k + 1, r => if (r + 2 ^ k) * (r + 2 ^ k) ≤ n then isqrtGo n k (r + 2 ^ k) else isqrtGo n k r

def isqrt (n : Nat) : Nat := isqrtGo n (Nat.log2 n / 2 + 1) 0

/-- FRCP (R81). -/
def FF.rcp (f : FF) (a : FVal) : Nat × Word :=
  match a with
  | .nan _ => (f.canon, a.nvOf)
  | .inf n => (f.sign n 0, 0)
  | .fin n m e =>
    if m = 0 then (f.sign n f.infCode, flDz)
    else
      let k := Nat.log2 m + 64
      f.finish n (2 ^ k / m) (-(k : Int) - e) (2 ^ k % m != 0)

/-- m × 2^e with an even exponent. -/
def evenExp (m : Nat) (e : Int) : Nat × Int := if e % 2 = 0 then (m, e) else (2 * m, e - 1)

/-- FSQRT (R81). -/
def FF.sqrt (f : FF) (a : FVal) : Nat × Word :=
  match a with
  | .nan _ => (f.canon, a.nvOf)
  | .inf n => if n then (f.canon, flNv) else (f.infCode, 0)
  | .fin n m e =>
    if m = 0 then (f.sign n 0, 0)
    else if n then (f.canon, flNv)
    else
      let (m, e) := evenExp m e
      let r := isqrt (m * 2 ^ 128)
      f.finish false r (e / 2 - 64) (r * r != m * 2 ^ 128)

/-- FRSQ (R81). -/
def FF.rsq (f : FF) (a : FVal) : Nat × Word :=
  match a with
  | .nan _ => (f.canon, a.nvOf)
  | .inf n => if n then (f.canon, flNv) else (0, 0)
  | .fin n m e =>
    if m = 0 then (f.sign n f.infCode, flDz)
    else if n then (f.canon, flNv)
    else
      let (m, e) := evenExp m e
      let r := isqrt (2 ^ 256 / m)
      f.finish false r (-128 - e / 2) (r * r * m != 2 ^ 256)

/-- Fraction bits of the series. -/
def seriesBits : Nat := 256

/-- ⌊ln 2 × 2^256⌋. -/
def ln2Fix : Nat := 0xb17217f7d1cf79abc9e3b39803f2f6af40f343267298b62d8a0d175b8baafa2b

/-- The exponential series of t / 2^256, t below 2^256: the sum of the terms from term k on. -/
def expSeries (t : Nat) : Nat → Nat → Nat → Nat
  | 0, _, _ => 0
  | n + 1, k, term => term + expSeries t n (k + 1) (term * t / 2 ^ seriesBits / (k + 1))

/-- A lower bound of 2^(x / 2^256) × 2^256, for x below 2^256; the value lies less than 2^10 above (log 9). -/
def exp2Fix (x : Nat) : Nat :=
  expSeries (x * ln2Fix / 2 ^ seriesBits) 80 0 (2 ^ seriesBits)

/-- The atanh series: z + z^3/3 + z^5/5 + …, z a fraction of 2^256, zz its square. -/
def atanhSeries (zz : Nat) : Nat → Nat → Nat → Nat
  | 0, _, _ => 0
  | n + 1, k, p => p / (2 * k + 1) + atanhSeries zz n (k + 1) (p * zz / 2 ^ seriesBits)

/-- A lower bound of log2(m / 2^l) × 2^256 for 2^l ≤ m < 2^(l+1); the value lies less than 2^10 above (log 9). -/
def log2Fix (m l : Nat) : Nat :=
  let z := (m - 2 ^ l) * 2 ^ seriesBits / (m + 2 ^ l)
  let a := atanhSeries (z * z / 2 ^ seriesBits) 110 0 z
  2 * a * 2 ^ seriesBits / (ln2Fix + 1)

/-- Round a value known to lie in (lo, lo + 2^10) × 2^e. Both ends round alike but for a value within that distance of a
rounding boundary; there a free bit decides (log 9). -/
def FF.finishBetween (f : FF) (neg : Bool) (lo : Nat) (e : Int) : Nat × Word :=
  let a := f.finish neg lo e true
  let b := f.finish neg (lo + 2 ^ 10) e true
  if a = b then a else if Config.freeBit lo then a else b

/-- FEXP2 (R81). -/
def FF.exp2 (f : FF) (a : FVal) : Nat × Word :=
  match a with
  | .nan _ => (f.canon, a.nvOf)
  | .inf n => if n then (0, 0) else (f.infCode, 0)
  | .fin n m e =>
    if m = 0 then f.finish false 1 0 false
    else if decide (10 ≤ e + (Nat.log2 m : Int)) then f.finish false 1 (if n then -4096 else 4096) false
    else
      let x : Int := if decide (0 ≤ e) then toUnits n m e 0 * 2 ^ seriesBits
        else (if n then -1 else 1) * ((m * 2 ^ seriesBits / 2 ^ (-e).toNat : Nat) : Int)
      let i := x / 2 ^ seriesBits
      let fr := (x % 2 ^ seriesBits).toNat
      if fr = 0 then f.finish false 1 i false
      else f.finishBetween false (exp2Fix fr) (i - seriesBits)

/-- FLOG2 (R81). -/
def FF.log2 (f : FF) (a : FVal) : Nat × Word :=
  match a with
  | .nan _ => (f.canon, a.nvOf)
  | .inf n => if n then (f.canon, flNv) else (f.infCode, 0)
  | .fin n m e =>
    if m = 0 then (f.sign true f.infCode, flDz)
    else if n then (f.canon, flNv)
    else
      let l := Nat.log2 m
      let i : Int := e + l
      if m = 2 ^ l then f.finish (decide (i < 0)) i.natAbs 0 false
      else
        let t : Int := i * 2 ^ seriesBits + (log2Fix m l : Nat)
        if 0 ≤ t then f.finishBetween false t.toNat (-(seriesBits : Int))
        else f.finishBetween true (t.natAbs - 2 ^ 10) (-(seriesBits : Int))

/-! ### Conversion (R76 to R79) -/

/-- The float format of a code, if it is one. -/
def fmtFloat : Fmt → Option FF
  | .f16 => some .f16 | .b16 => some .b16 | .f8e4 => some .f8e4 | .f8e5 => some .f8e5 | .f32 => some .f32
  | _ => none

/-- The width of a format in bits; four elements for an I4X unit (R66). -/
def fmtWidth : Fmt → Nat
  | .f16 | .b16 | .i4x | .n16 => 16
  | .f8e4 | .f8e5 | .i8 | .n8 => 8
  | .f32 | .i32 | .n32 => 32

/-- The range of an integer format (R72). -/
def fmtRange : Fmt → Int × Int
  | .i8 => (-128, 127)
  | .i32 => (-2147483648, 2147483647)
  | .n8 => (0, 255)
  | .n16 => (0, 65535)
  | .n32 => (0, 4294967295)
  | _ => (-7, 7)

/-- The value of a code of a format that is not I4X (R67, R68, R72). -/
def fmtValue (f : Fmt) (code : Nat) : FVal :=
  match fmtFloat f with
  | some ff => ff.decode code
  | none =>
    let c := code % 2 ^ fmtWidth f
    if (fmtRange f).1 < 0 && decide (2 ^ (fmtWidth f - 1) ≤ c) then .fin true (2 ^ fmtWidth f - c) 0 else .fin false c 0

/-- Round a finite value to an integer (R74): the magnitude. -/
def roundInt (rm : Rnd) (neg : Bool) (m : Nat) (e : Int) : Nat :=
  if 0 ≤ e then m * 2 ^ e.toNat
  else
    let k := (-e).toNat
    let n := m / 2 ^ k
    if roundsUp rm neg (n % 2 == 1) (m % 2 ^ k) (2 ^ (k - 1)) false then n + 1 else n

/-- Whether a finite value is an integer. -/
def isInt (m : Nat) (e : Int) : Bool := decide (0 ≤ e) || m % 2 ^ (-e).toNat == 0

/-- Why a conversion under TRAP traps (R76, R77). -/
inductive CvtTrap where
  | invalid | overflow
deriving DecidableEq, Repr

/-- What an overflow delivers (R77). -/
def cvtOverflow (dst : Fmt) (pol : Pol) (rm : Rnd) (neg : Bool) : Except CvtTrap (Nat × Word) :=
  match fmtFloat dst with
  | some f =>
    let big := f.sign neg f.largest
    match pol with
    | .trap => .error .overflow
    | .nan => .ok (f.canon, flOf ||| flNx)
    | .sat => .ok (big, flOf ||| flSat ||| flNx)
    | .inf =>
      if !f.hasInf then .ok (big, flOf ||| flSat ||| flNx)
      else
        let toInf := match rm with
          | .rn => true
          | .rz => false
          | .ru => !neg
          | .rd => neg
        if toInf then .ok (f.sign neg f.infCode, flOf ||| flNx) else .ok (big, flOf ||| flSat ||| flNx)
  | none =>
    match pol with
    | .trap => .error .overflow
    | .nan => .ok (0, flNv)
    | _ =>
      let lim := if neg then (fmtRange dst).1 else (fmtRange dst).2
      .ok ((lim % 2 ^ fmtWidth dst).toNat, flSat ||| flNx)

/-- The one conversion function (R76). A quiet NaN whose payload or sign is another becomes the canonical one also in its own format, as R70
and R76 have it; R79 calls that conversion the identity (log 82). -/
def cvt (x : FVal) (dst : Fmt) (rm : Rnd) (pol : Pol) : Except CvtTrap (Nat × Word) :=
  match x with
  | .nan sig =>
    match fmtFloat dst with
    | some f => .ok (f.canon, flagIf sig flNv)
    | none => if pol = .trap then .error .invalid else .ok (0, flNv)
  | .inf neg =>
    match fmtFloat dst with
    | some f => if f.hasInf then .ok (f.sign neg f.infCode, 0) else cvtOverflow dst pol rm neg
    | none => cvtOverflow dst pol rm neg
  | .fin neg m e =>
    match fmtFloat dst with
    | some f =>
      let r := f.round rm neg m e false
      if f.exceeds r then cvtOverflow dst pol rm neg
      else .ok (f.sign neg r.c, flagIf (f.isTiny r && r.nx) flUf ||| flagIf r.nx flNx)
    | none =>
      let n := roundInt rm neg m e
      let v : Int := if neg then -(n : Int) else n
      if n = 0 then .ok (0, flagIf (neg || m != 0) flNx)
      else if decide ((fmtRange dst).1 ≤ v) && decide (v ≤ (fmtRange dst).2) then
        .ok ((v % 2 ^ fmtWidth dst).toNat, flagIf (!isInt m e) flNx)
      else cvtOverflow dst pol rm neg

/-! ### I4X units (R83, R84) -/

/-- A nibble's value in −7 to 7. -/
def nibble (n : Nat) : FVal := if n % 16 < 8 then .fin false (n % 16) 0 else .fin true (16 - n % 16) 0

/-- A decoded unit: its four elements, or malformed (R83). -/
def decodeUnit (u : Nat) : Option (List FVal) :=
  let nib := fun i => u / 2 ^ (4 * i) % 16
  let z : FVal := .fin false 0 0
  let out := FF.decode .f8e4 (u / 256)
  if nib 0 = 8 ∧ nib 1 = 8 then none
  else if nib 0 = 8 then some [out, nibble (nib 1), z, z]
  else if nib 1 = 8 then some [nibble (nib 0), out, z, z]
  else if nib 2 = 8 ∨ nib 3 = 8 then none
  else some [nibble (nib 0), nibble (nib 1), nibble (nib 2), nibble (nib 3)]

/-- The integer nearest an operand, ties to even; none stands for an infinity; a NaN counts 0 (R84). -/
def quantInt : FVal → Option Int
  | .nan _ => some 0
  | .inf _ => none
  | .fin neg m e => some (let n : Int := roundInt .rn neg m e; if neg then -n else n)

/-- The magnitude of e[i] for the outlier test; an infinity is larger than every integer. -/
def quantMag (x : FVal) : Nat := match quantInt x with | some i => i.natAbs | none => 2 ^ 400

/-- A clamped nibble and its flags (R84). -/
def packNibble (x : FVal) : Nat × Word :=
  match x with
  | .nan _ => (0, flNv)
  | .inf neg => (if neg then 9 else 7, flSat ||| flNx)
  | .fin neg m e =>
    let n := roundInt .rn neg m e
    let c := min n 7
    let lost := !isInt m e || decide (7 < n) || (neg && m == 0)
    ((if neg then (16 - c) % 16 else c), flagIf (decide (7 < n)) flSat ||| flagIf lost flNx)

/-- Whether an operand given up loses a non-zero element (R84); a NaN sets nv instead. -/
def givenUp (x : FVal) : Word :=
  match x with
  | .nan _ => flNv
  | .inf _ => flNx
  | .fin _ m _ => flagIf (m != 0) flNx

/-- QPACK's unit from four exact values, its flags, and whether an element was clamped or a non-zero one given up (R84, R303). -/
def packUnit (x0 x1 x2 x3 : FVal) : Nat × Word × Bool :=
  let e0 := quantMag x0
  let e1 := quantMag x1
  if 7 < e0 ∨ 7 < e1 then
    let first := decide (e1 ≤ e0)
    let (xo, xn) := if first then (x0, x1) else (x1, x0)
    let (o, fo) := match cvt xo .f8e4 .rn .sat with | .ok r => r | .error _ => (0, 0)
    let (n, fn) := packNibble xn
    let nibs := if first then 8 + 16 * n else n + 16 * 8
    let lost := (givenUp x2 ||| givenUp x3) &&& flNx != 0
    (o * 256 + nibs, fo ||| fn ||| givenUp x2 ||| givenUp x3, lost || (fn ||| fo) &&& flSat != 0)
  else
    let (n0, f0) := packNibble x0
    let (n1, f1) := packNibble x1
    let (n2, f2) := packNibble x2
    let (n3, f3) := packNibble x3
    let fl := f0 ||| f1 ||| f2 ||| f3
    (n0 + 16 * n1 + 256 * n2 + 4096 * n3, fl, fl &&& flSat != 0)

/-! ### Bounds (R73, R85) -/

/-- A bound: a dyadic number m × 2^e, or unbounded. -/
abbrev Bnd := Option (Nat × Int)

/-- The bound that a BND16 pattern denotes (R85). -/
def Bnd.ofCode (c : Nat) : Bnd :=
  if c % 65536 < 0x7F80 then
    match FF.decode .b16 (c % 65536) with
    | .fin _ m e => some (m, e)
    | _ => none
  else none

/-- RUB16 of a bound (R85). -/
def Bnd.code : Bnd → Nat
  | none => 0x7F80
  | some (m, e) =>
    let r := FF.round .b16 .ru false m e false
    if FF.largest .b16 < r.c then 0x7F80 else r.c

/-- The exact sum of two bounds. -/
def Bnd.add : Bnd → Bnd → Bnd
  | some (m1, e1), some (m2, e2) =>
    let q := min e1 e2
    some (m1 * 2 ^ (e1 - q).toNat + m2 * 2 ^ (e2 - q).toNat, q)
  | _, _ => none

/-- Comparison of bounds: unbounded is the largest. -/
def Bnd.le : Bnd → Bnd → Bool
  | _, none => true
  | none, some _ => false
  | some (m1, e1), some (m2, e2) =>
    let q := min e1 e2
    decide (m1 * 2 ^ (e1 - q).toNat ≤ m2 * 2 ^ (e2 - q).toNat)

def Bnd.max (a b : Bnd) : Bnd := if Bnd.le a b then b else a

/-- ulp_w of a value (R73). -/
def FF.ulp (f : FF) (x : FVal) : Bnd :=
  match x with
  | .fin _ m e =>
    if m = 0 then some (1, f.tiny) else some (1, Max.max (e + (Nat.log2 m : Int) - f.m) f.tiny)
  | _ => none

/-- Half of a bound. -/
def Bnd.half (b : Bnd) : Bnd := b.map fun p => (p.1, p.2 - 1)

/-- half_ulp_w (R73). -/
def FF.halfUlp (f : FF) (x : FVal) : Bnd := Bnd.half (f.ulp x)

/-- half_ulp_F32X of a pair: half of max(2^-24 × ulp_32(hi), 2^-149) (R73). -/
def halfUlpX (hi : FVal) : Bnd :=
  match FF.ulp .f32 hi with
  | some (m, e) => Bnd.half (Bnd.max (some (m, e - 24)) (some (1, -149)))
  | none => none

end Sys2Proof.Machine
end

