-- ==== Sys2Proof/Machine/Home.lean ====
section
/-! DEFINITION. Home slices, leases, recalls and translation: how bytes of device memory are read and written in the global
order (R111, R112, R119, R123, R124, R132, R134) and how a virtual address finds them (R114 to R117, R226). -/
namespace Sys2Proof.Machine

/-! ### Where an address lives -/

/-- The line of a physical address: 256 bytes (R107). -/
def lineOf (pa : Nat) : Nat := pa / 256

/-- The home slice of a physical address (R111). -/
def homeSlice (pa : Nat) : Nat :=
  Nat.xor (Nat.xor (Nat.xor (Nat.xor (bits pa 16 8) (bits pa 25 17)) (bits pa 34 26)) (bits pa 43 35)) (bits pa 51 44)

/-- The set within its home slice (R111). -/
def homeSet (pa : Nat) : Nat := bits pa 24 17

/-- The channel of a physical address (R113). -/
def channelOf (pa : Nat) : Nat :=
  Nat.xor (Nat.xor (Nat.xor (Nat.xor (bits pa 19 12) (bits pa 27 20)) (bits pa 35 28)) (bits pa 43 36)) (bits pa 51 44)

/-- The migration whose source page holds a physical address (R119). -/
def State.migrationOf (s : State) (pa : Nat) : Option Migration :=
  s.migrations.find? fun m => m.p ≤ pa && pa < m.p + m.size

/-- Where a physical address is served from: an access to P is redirected to Q once the leaf has been switched (R119). -/
def State.served (s : State) (pa : Nat) : Nat :=
  match s.migrationOf pa with
  | some m => if m.switched then m.q + (pa - m.p) else pa
  | none => pa

/-- Writes to the page are held at the home slice while it is being copied (R119). -/
def State.lockedFor (s : State) (pa : Nat) : Bool :=
  match s.migrationOf pa with
  | some m => !m.switched
  | none => false

/-- Whether the tag of a request is live: its context is alive with its generation and not dead (R198, R199). -/
def State.tagLive (s : State) (ctx gen : Nat) : Bool :=
  let x := s.ctx ctx
  x.alive && !x.dead && x.gen == gen

/-! ### Directory states (R112) -/

/-- The states of a line in its directory. -/
inductive Moesi where
  | modified | owned | exclusive | shared | invalid
deriving DecidableEq, Repr

/-- A line's MOESI state, from its owner, the owner's dirty sectors and its sharers (R112, log 86). -/
def State.moesi (s : State) (line : Nat) : Moesi :=
  let d := s.line line
  match d.owner with
  | none => if d.sharers = 0 then .invalid else .shared
  | some c =>
    let others := d.sharers &&& ~~~(BitVec.twoPow 72 (c / 4)) != 0
    let dirty := match (s.core c).l1.look line with | some l => l.dirty != 0 | none => false
    if dirty then (if others then .owned else .modified) else if others then .shared else .exclusive

/-! ### Recalls -/

/-- The data of sector i of an L1 line, as a number. -/
def L1Line.sector (l : L1Line) (i : Nat) : Nat := (l.data.extractLsb' (512 * i) 512).toNat

/-- Write the dirty sectors of an L1 line back to memory (R110). -/
def writeBack (m : List Host.Cell) (line : Nat) (l : L1Line) : List Host.Cell :=
  [0, 1, 2, 3].foldl (fun m i => if l.dirty.getLsbD i then Mem.writeN m (256 * line + 64 * i) 64 (l.sector i) else m) m

/-- Recall an owned copy: its dirty sectors are written back and it stays as a leased copy (R123). -/
def State.recallOwner (s : State) (line : Nat) : State :=
  match (s.line line).owner with
  | none => s
  | some c =>
    let s := match (s.core c).l1.look line with
      | none => s
      | some l =>
        { (s.modCore c fun k => { k with l1 := k.l1.put line { l with owned := 0, dirty := 0 } }) with
          mem := writeBack s.mem line l }
    s.modLine line fun d => { d with owner := none }

/-- The part of a table that a rollback takes back: the gang's entries as the snapshot has them, the others as they stand. -/
def mixTab {α : Type} (mine : Nat → Bool) (old now : Tab α) : Tab α :=
  old.foldl (fun (t : Tab α) (e : Nat × α) => if mine e.1 then t.put e.1 e.2 else t) (now.filter fun e => !mine e.1)

/-- Drop one reference of an issue record; it is freed when none is left (R192). -/
def Core.unref (k : Core) (tag : Option Nat) : Core :=
  match tag with
  | none => k
  | some t =>
    match k.issueRecs.look t with
    | none => k
    | some r => if r.refs ≤ 1 then { k with issueRecs := k.issueRecs.del t }
                else { k with issueRecs := k.issueRecs.put t { r with refs := r.refs - 1 } }

/-- Restore what a rollback discards, for the slices and lanes of a gang; counters stand as operations issued before the fence
have left them (R129). -/
def Group.rollBack (g : Group) (k : Gang) (f : Fence) : Group :=
  let lanes := k.slices.flatMap fun n => [4 * n, 4 * n + 1, 4 * n + 2, 4 * n + 3]
  let mask : LaneMask := lanes.foldl (fun m l => m ||| BitVec.twoPow 32 l) 0
  let mix := fun (p : Nat) => (g.preds.getD p 0 &&& ~~~mask) ||| (f.snap.preds.getD p 0 &&& mask)
  let old := f.snap.slices.map fun (e : Nat × Slice) => (e.1, { e.2 with sb := (g.slice e.1).sb })
  { g with
    slices := mixTab (fun n => k.slices.contains n) old g.slices
    regs := mixTab (fun key => lanes.contains (key % 32)) f.snap.regs g.regs
    preds := [0, 1, 2, 3, 4, 5, 6].foldl (fun (t : Tab LaneMask) p => t.put p (mix p)) g.preds
    rets := mixTab (fun n => lanes.contains n) f.snap.rets g.rets
    rand := mixTab (fun n => lanes.contains n) f.snap.rand g.rand }

/-- One operation of each name: the requests of one operation on the host port share its name. -/
def oneEach (os : List Op) : List Op := os.foldl (fun acc o => if acc.any (·.id == o.id) then acc else acc ++ [o]) []

/-- Roll a gang back to the instruction after its fence: its state is restored and the loads it issued since are forgotten;
after two rollbacks it does not speculate again (R129). -/
def State.rollBack (s : State) (gid : Nat) (k : Gang) (f : Fence) : State :=
  let core := match (s.group gid).bind fun g => s.team g.team with
    | some t => t.core
    | none => 0
  let mine := fun (o : Op) => o.grp == gid && o.gang == k.id && decide (f.start ≤ o.id)
  let c := s.core core
  let gone := oneEach ((c.rq ++ c.wk ++ c.replies ++ c.yq.map (·.op)).filter mine)
  let s := s.modCore core fun c => gone.foldl (fun (c : Core) o => c.unref o.tag) { c with
    rq := c.rq.filter fun o => !mine o
    replies := c.replies.filter fun o => !mine o
    wk := c.wk.filter fun o => !mine o
    yq := c.yq.filter fun y => !mine y.op }
  s.modGroup gid fun g =>
    let g := (g.rollBack k f).modGang k.id fun k =>
      { k with clause := f.snap.clause, wait := .no, walking := none
               fence := some { f with tries := f.tries + 1, reads := [], flags := 0, words := 0, tiles := [], soiled := false } }
    gone.foldl (fun (g : Group) o => match o.sb with | some n => g.sbDown o.slices n | none => g) g

/-- A recall or invalidation reaches a line: gangs that read it speculatively roll back (R129). -/
def State.invalidateFences (s : State) (line : Nat) : State :=
  s.groups.foldl (fun (s : State) (e : Nat × Group) =>
    e.2.gangs.foldl (fun (s : State) (k : Gang) =>
      match k.fence with
      | some f => if f.reads.any (fun r => r.1 == line) then s.rollBack e.1 k f else s
      | none => s) s) s

/-- Recall a line from every sharer cluster: each core of the quad writes owned dirty sectors back and discards its copy,
lease open or not (R112, R134). -/
def State.recallSharers (s : State) (line : Nat) : State :=
  let s := s.recallOwner line
  let sh := (s.line line).sharers
  let s := { s with cores := s.cores.map fun (e : Nat × Core) =>
    if (sh.getLsbD (e.1 / 4) : Bool) then (e.1, { e.2 with l1 := e.2.l1.del line }) else e }
  (s.modLine line (fun d => { d with sharers := 0 })).invalidateFences line

/-! ### The L2 (R111, R112, R120) -/

/-- The key of the set in which a line's home holds it. -/
def l2Key (line : Nat) : Nat := 256 * homeSlice (256 * line) + homeSet (256 * line)

/-- Ways of a set that lines which are not pinned may take: 16, less one for each pinned line (R120). -/
def State.l2Ways (s : State) (key : Nat) : Nat :=
  16 - (s.dir.filter fun (e : Nat × DirEntry) => e.2.pinned.isSome && l2Key e.1 == key).length

/-- A line leaves the L2: it is recalled from its sharers, and its lease state goes (R112, R129). When it comes back its write time is the
lease end that it had (log 87). -/
def State.evictL2 (s : State) (line : Nat) : State :=
  (s.recallSharers line).modLine line fun d => { d with wts := d.rts }

/-- A line's home brings it into the L2; the least recently used line of a full set makes room (R111, log 87). A pinned line stands there
for good (R120). -/
def State.fetchL2 (s : State) (line : Nat) : State :=
  if (s.line line).pinned.isSome then s
  else
    let key := l2Key line
    let ls := line :: (s.l2.getD key []).filter (· != line)
    let n := s.l2Ways key
    let s := { s with l2 := s.l2.put key (ls.take n) }
    (ls.drop n).foldl (fun s l => s.evictL2 l) s

/-! ### Reads and writes at the home -/

/-- Read n bytes in the global order, recalling owned copies of the lines they lie in (R123, R135). -/
def State.homeRead (s : State) (pa n : Nat) : State × Nat :=
  let pa := s.served pa
  let s := (List.range (lineOf (pa + n - 1) + 1 - lineOf pa)).foldl (fun (s : State) i =>
    (s.fetchL2 (lineOf pa + i)).recallOwner (lineOf pa + i)) s
  (s, Mem.readN s.mem pa n)

/-- A read by a core that its home serves takes its place in the order as an ordinary load does: the lease end moves beyond it and the
core's logical time is not before the write read (R123, R130, R132). -/
def State.placeRead (s : State) (core pa : Nat) : State :=
  let line := lineOf (s.served pa)
  let pts := (s.core core).pts
  (s.modLine line fun d => { d with rts := max d.rts (pts + 4) }).modCore core fun k =>
    { k with pts := max pts (s.line line).wts }

/-- The last byte of a range, and the first byte of each of its lines. -/
def placesOf (pa n : Nat) : List Nat :=
  (List.range (lineOf (pa + n - 1) + 1 - lineOf pa)).map fun i => if i = 0 then pa else 256 * (lineOf pa + i)

/-- Read n bytes for a core, as loads of it (R123). -/
def State.coreRead (s : State) (core pa n : Nat) : State × Nat :=
  let (s, v) := s.homeRead pa n
  ((placesOf pa n).foldl (fun (s : State) a => s.placeRead core a) s, v)

/-- The largest write time of a line (for placing a read). -/
def State.wtsOf (s : State) (pa : Nat) : Nat := (s.line (lineOf (s.served pa))).wts

/-- The timestamp of a write at a home (R124). -/
def State.writeTs (s : State) (line pts : Nat) : Nat := max pts ((s.line line).rts + 1)

/-- A line that the host holds over CXL.mem is snooped before a core takes it or writes it: it is ordered as though the host had written
it back at that moment, with the bytes that the device holds (R134, R222, log 88). -/
def State.snoopHost (s : State) (line : Nat) : State :=
  if !(s.line line).hostHeld then s
  else
    let s := s.recallSharers line
    let ts := s.writeTs line (s.dev.agents.getD 288 0)
    let s := s.modLine line fun d => { d with wts := ts, rts := ts, hostHeld := false }
    { s with dev := { s.dev with agents := s.dev.agents.put 288 ts } }

/-- A home makes a line ready for a write there: it stands in the L2, and no core and no host holds it (R111, R123, R222). -/
def State.homeReady (s : State) (line : Nat) : State := ((s.fetchL2 line).recallOwner line).snoopHost line

/-- Apply a write of n bytes within one line at its home, at the timestamp of R124. -/
def State.homeStore (s : State) (pa n v pts : Nat) : State × Nat :=
  let pa := s.served pa
  let line := lineOf pa
  let s := s.homeReady line
  let ts := s.writeTs line pts
  ({ s.modLine line (fun d => { d with wts := ts, rts := ts }) with mem := Mem.writeN s.mem pa n v }, ts)

/-- A bool for whether two byte ranges meet. -/
def overlap (a n b m : Nat) : Bool := decide (a < b + m) && decide (b < a + n)

/-- Whether a monitor's compare holds on a value (R132, R159, R341). -/
def Cond.holds (c : Cond) (v : Nat) : Bool :=
  match c with
  | .eq x => v == x
  | .ne x => v != x
  | .atMost0 => v == 0 || 2 ^ 63 ≤ v

/-- The value BCBWAIT delivers: the signed word saturated to I32 (R159). -/
def satI32 (v : Nat) : Word :=
  let i : Int := if v < 2 ^ 63 then v else (v : Int) - 2 ^ 64
  if i < -(2 ^ 31) then 0x80000000 else if 2 ^ 31 ≤ i then 0x7FFFFFFF else BitVec.ofInt 32 i

/-- The lanes of a mask, ascending. -/
def lanesOf (m : LaneMask) : List Nat := (List.range 32).filter m.getLsbD

/-- Whether the team of a group is off its core: its issue records have gone with it (R385). -/
def State.parkedOf (s : State) (gid : Nat) : Option Nat :=
  match (s.group gid).bind fun g => (s.team g.team).map fun t => (g.team, t.residence) with
  | some (tid, r) => if r == .swappedOut then some tid else none
  | none => none

/-- A group's reference to an issue record is given up: at its core, or with its team where that has been swapped out (R192, R385). -/
def State.unrefFor (s : State) (gid core : Nat) (tag : Option Nat) : State :=
  match s.parkedOf gid, tag with
  | some tid, some n => s.modTeam tid fun t => { t with parkedRecs := t.parkedRecs.del n }
  | _, _ => s.modCore core fun k => k.unref tag

/-- An issue record of a group (R192). -/
def State.recordFor (s : State) (gid core : Nat) (tag : Option Nat) : Option IssueRec :=
  match s.parkedOf gid, tag with
  | some tid, some n => (s.team tid).bind fun t => t.parkedRecs.look n
  | _, _ => tag.bind (s.core core).issueRecs.look

/-- End the wait of an MWAIT or BCBWAIT with the value of the write that satisfied it: the destination is written and the
instruction retires at that moment; its read is placed directly after the write (R132, R159, R341). -/
def State.endMonitor (s : State) (m : Monitor) (v ts : Nat) : State :=
  let s := { s with monitors := s.monitors.filter (·.id != m.id) }
  let ls := lanesOf m.lanes
  let s := s.modGroup m.grp fun g =>
    let ls := ls.filter g.active
    let g := match m.cond with
      | .atMost0 => g.setRegs m.d ls fun _ => satI32 v
      | _ => if m.len = 8 then g.setPairs m.d ls fun _ => BitVec.ofNat 64 v
             else g.setRegs m.d ls fun _ => BitVec.ofNat 32 v
    let op := match m.cond with
      | .atMost0 => 0x294
      | _ => 0x08C
    let g := g.modGang m.gang fun k => { k with wait := .no, since := s.cycle }
    g.retire m.gang s.cycle (some op) 0 false none
  (s.unrefFor m.grp m.core m.tag).modCore m.core fun k => { k with pts := max k.pts ts }

/-- Evaluate the monitors of a written range (R132): the first write under which a compare holds ends the wait. -/
def State.fireMonitors (s : State) (pa n ts : Nat) : State :=
  let hits := s.monitors.filter fun m =>
    !m.polling && overlap (s.served m.pa) m.len pa n && m.cond.holds (Mem.readN s.mem (s.served m.pa) m.len)
  hits.foldl (fun s m => s.endMonitor m (Mem.readN s.mem (s.served m.pa) m.len) ts) s

/-- A write at its home with the monitors it satisfies (R124, R132). -/
def State.homeWrite (s : State) (pa n v pts : Nat) : State × Nat :=
  let (s, ts) := s.homeStore pa n v pts
  (s.fireMonitors (s.served pa) n ts, ts)

/-- A further application at a home, at the timestamp of one just made (R133), with the monitors it satisfies. -/
def State.homeAgain (s : State) (pa n v ts : Nat) : State :=
  let pa := s.served pa
  { s with mem := Mem.writeN s.mem pa n v }.fireMonitors pa n ts

/-- Write n bytes at their homes, line by line in ascending order, at most `fuel` lines; returns the largest timestamp. -/
def State.homeWriteLines (s : State) (pts : Nat) : Nat → Nat → Nat → Nat → State × Nat
  | 0, _, _, _ => (s, pts)
  | fuel + 1, pa, n, v =>
    if n = 0 then (s, pts)
    else
      let m := min n (256 - pa % 256)
      let (s, t) := s.homeWrite pa m (v % 2 ^ (8 * m)) pts
      let (s, ts) := State.homeWriteLines s pts fuel (pa + m) (n - m) (v / 2 ^ (8 * m))
      (s, max t ts)

/-- Write n bytes at their homes; returns the largest timestamp. -/
def State.homeWriteRange (s : State) (pa n v pts : Nat) : State × Nat :=
  s.homeWriteLines pts (n / 256 + 2) pa n v

/-- Whether a line holds a monitor: its home then grants no exclusive ownership (R132). -/
def State.monitored (s : State) (line : Nat) : Bool :=
  s.monitors.any fun m => !m.polling && lineOf (s.served m.pa) == line

/-- Monitor entries in use at a home slice (R132). -/
def State.monitorsAt (s : State) (slice : Nat) : Nat :=
  (s.monitors.filter fun m => !m.polling && homeSlice m.pa == slice).length

/-! ### L1 copies -/

/-- The bytes of a memory line as one value. -/
def lineData (m : List Host.Cell) (line : Nat) : BitVec 2048 := BitVec.ofNat 2048 (Mem.readN m (256 * line) 256)

/-- The replacement bits of a set after a use of a way: each of the three nodes above it points away from it (log 8). -/
def plruUse (b : BitVec 7) (way : Nat) : BitVec 7 :=
  let put := fun (b : BitVec 7) (i : Nat) (on : Bool) => if on then b ||| BitVec.twoPow 7 i else b &&& ~~~(BitVec.twoPow 7 i)
  put (put (put b 0 (way / 4 % 2 == 0)) (1 + way / 4 % 2) (way / 2 % 2 == 0)) (3 + way / 2 % 4) (way % 2 == 0)

/-- The way that the replacement bits point to. -/
def plruVictim (b : BitVec 7) : Nat :=
  let i := b2n (b.getLsbD 0)
  let j := b2n (b.getLsbD (1 + i))
  4 * i + 2 * j + b2n (b.getLsbD (3 + 2 * i + j))

/-- A core uses a line of its L1. -/
def Core.useLine (k : Core) (line : Nat) : Core :=
  match k.l1.look line with
  | none => k
  | some l => { k with plru := k.plru.put (line % 128) (plruUse (k.plru.getD (line % 128) 0) l.way) }

/-- Drop a line from a core's L1, written back (R110). -/
def State.dropLine (s : State) (c line : Nat) : State :=
  match (s.core c).l1.look line with
  | none => s
  | some l =>
    let own := (s.line line).owner == some c
    let s := { s.modCore c (fun k => { k with l1 := k.l1.del line }) with mem := writeBack s.mem line l }
    if own then s.modLine line fun d => { d with owner := none } else s

/-- A core serves a context, for a launch (R206). -/
def State.serve (s : State) (core ctx launch : Nat) : State :=
  if (s.core core).served.contains (ctx, launch) then s
  else s.modCore core fun k => { k with served := k.served ++ [(ctx, launch)] }

/-- A way for a line in its set of a core's L1: its own, the lowest free one, or the one that pseudo-LRU replacement gives up, whose line
leaves (R110). Which of the 128 sets a line takes the spec does not say: the model's choice is the line's number modulo 128 (log 8). -/
def State.wayFor (s : State) (c line : Nat) : State × Nat :=
  let k := s.core c
  match k.l1.look line with
  | some l => (s, l.way)
  | none =>
    let mates := k.l1.filter fun e => e.1 % 128 == line % 128
    match (List.range 8).find? fun w => !mates.any fun e => e.2.way == w with
    | some w => (s, w)
    | none =>
      let w := plruVictim (k.plru.getD (line % 128) 0)
      match mates.find? fun e => e.2.way == w with
      | some e => (s.dropLine c e.1, w)
      | none => (s, w)

/-- The mask of 64-byte sectors that bytes a to a+n-1 of a line touch. -/
def sectorsOf (a n : Nat) : Mask4 := maskOf fun i => overlap (a % 256) n (64 * i) 64

/-- n bytes at a physical address out of an L1 copy. -/
def L1Line.read (l : L1Line) (pa n : Nat) : Nat := (l.data.toNat / 2 ^ (8 * (pa % 256))) % 2 ^ (8 * n)

/-- Change n bytes of an L1 copy. -/
def L1Line.write (l : L1Line) (pa n v : Nat) : L1Line :=
  let m := BitVec.ofNat 2048 ((2 ^ (8 * n) - 1) * 2 ^ (8 * (pa % 256)))
  { l with data := (l.data &&& ~~~m) ||| (BitVec.ofNat 2048 (v * 2 ^ (8 * (pa % 256))) &&& m) }

/-- Pieces of an operation that still wait, merged ones included. -/
def Op.waiting (o : Op) : List Piece := o.pieces.filter (·.got.isNone)

/-- Whether two pieces are one lane's accesses to a common byte. -/
def Piece.clash (p q : Piece) : Bool := p.lane == q.lane && overlap p.pa p.len q.pa q.len

/-- Stores. -/
def OpKind.isStore : OpKind → Bool
  | .store | .stb | .pop .. => true
  | _ => false

/-- Whether a piece clashes with an earlier access of its lane to device memory that is still to be performed (R127). -/
def Core.clashes (k : Core) (o : Op) (p : Piece) : Bool :=
  (k.rq ++ k.wk).any fun e => decide (e.id < o.id) && e.grp == o.grp && e.port.isNone && e.waiting.any p.clash

/-- Whether a piece must wait: the request of its line holds an access of some lane that clashes with an earlier one of that lane. The
accesses of one instruction to a line go together, so that the highest lane's byte is the last (R107, R127). -/
def Core.held (k : Core) (o : Op) (p : Piece) : Bool :=
  o.waiting.any fun q => lineOf q.pa == lineOf p.pa && k.clashes o q

/-- Whether a weak store must reach its home after an earlier one of the core to a common byte: a copy in the L1 has shown both, and no lane
may read the later value first and the older one afterwards (R127, log 96). -/
def Core.shownBefore (k : Core) (o : Op) (p : Piece) : Bool :=
  p.shown && k.wk.any fun e => decide (e.id < o.id) && e.kind.isStore
    && e.waiting.any fun q => q.shown && overlap q.pa q.len p.pa p.len

/-- The bytes of a core's weak stores to a line that have still to reach its home, on a copy of it, in the order of their issue; those of a
store that waits for an earlier access of its lane are not there yet (R127). -/
def Core.weakOver (k : Core) (served : Nat → Nat) (line : Nat) (l : L1Line) : L1Line :=
  (k.wk.filter (·.kind.isStore)).foldl (fun (l : L1Line) o =>
    o.pieces.foldl (fun (l : L1Line) p =>
      if p.got.isNone && !k.held o p && lineOf (served p.pa) == line then l.write (served p.pa) p.len p.val else l) l) l

/-- The weak stores whose bytes a copy of a line now shows. -/
def Core.markShown (k : Core) (served : Nat → Nat) (line : Nat) : Core :=
  { k with wk := mapIf (fun (o : Op) => o.kind.isStore) (fun o => { o with
      pieces := mapIf (fun (p : Piece) => p.got.isNone && !k.held o p && lineOf (served p.pa) == line)
        (fun p => { p with shown := true }) o.pieces }) k.wk }

/-- Fill sectors of a copy from the home's bytes where the copy does not hold them. -/
def L1Line.fill (l : L1Line) (m : List Host.Cell) (line : Nat) (want : Mask4) : L1Line :=
  let l' := [0, 1, 2, 3].foldl (fun (l : L1Line) i =>
    if want.getLsbD i && !l.valid.getLsbD i then l.write (64 * i) 64 (Mem.readN m (256 * line + 64 * i) 64) else l) l
  { l' with valid := l.valid ||| want }

/-- The copy of a line that a core goes on from: the one it has, where it owns the line or the copy's write time is still the line's;
otherwise an empty one. -/
def State.copyOf (s : State) (c line way : Nat) : L1Line :=
  let d := s.line line
  let bare : L1Line := ⟨d.wts, d.rts, 0, 0, 0, 0, way⟩
  match (s.core c).l1.look line with
  | some l => if d.owner == some c || l.wts == d.wts then { l with way := way } else bare
  | none => bare

/-- Put a copy with some more sectors into a core's L1; on a copy that the core does not own its own weak stores stand on top. -/
def State.putCopy (s : State) (c line : Nat) (want : Mask4) (l : L1Line) : State :=
  let l := (l.fill s.mem line want)
  if (s.line line).owner == some c then s.modCore c fun k => ({ k with l1 := k.l1.put line l }).useLine line
  else
    s.modCore c fun k =>
      (({ k with l1 := k.l1.put line (k.weakOver s.served line l) }).markShown s.served line).useLine line

/-- Serve a load request at the home and fill the copy: recall a copy that another core owns, extend the lease by 4 beyond the
requester's pts, deliver data, or a renewal when the copy's write time is the line's (R123). -/
def State.grantLease (s : State) (c line : Nat) (want : Mask4) : State :=
  let s := s.fetchL2 line
  let s := if (s.line line).owner == some c then s else s.recallOwner line
  let pts := (s.core c).pts
  let rts := max (s.line line).rts (pts + 4)
  let s := s.modLine line fun d => { d with rts := rts, sharers := d.sharers ||| BitVec.twoPow 72 (c / 4) }
  let (s, way) := s.wayFor c line
  let wts := (s.line line).wts
  (s.putCopy c line want { (s.copyOf c line way) with wts := wts, rts := rts }).modCore c fun k => { k with pts := max k.pts wts }

/-- Whether a load of sectors hits: all valid, and the core's pts within the lease (R123). -/
def State.l1Hit (s : State) (c line : Nat) (want : Mask4) : Bool :=
  match (s.core c).l1.look line with
  | none => false
  | some l => l.valid &&& want == want && decide ((s.core c).pts ≤ l.rts)

/-- Take exclusive ownership of sectors of a line for a core: another owner's copy is recalled and a host that holds the line is snooped;
sharers keep their copies (R110, R124, R222). -/
def State.takeOwnership (s : State) (c line : Nat) (want : Mask4) : State :=
  let s := s.fetchL2 line
  let s := if (s.line line).owner == some c then s else s.recallOwner line
  let s := s.snoopHost line
  let (s, way) := s.wayFor c line
  let l := s.copyOf c line way
  let l := { l with owned := l.owned ||| want }
  (s.modLine line fun d => { d with owner := some c, sharers := d.sharers ||| BitVec.twoPow 72 (c / 4) }).putCopy c line want l

/-- Whether a core owns some sectors of a line (R110). -/
def State.ownsSectors (s : State) (c line : Nat) (want : Mask4) : Bool :=
  (s.line line).owner == some c && (match (s.core c).l1.look line with | some l => l.owned &&& want == want | none => false)

/-- Whether a weak store of a core to a line has still to be applied. -/
def State.weakOn (s : State) (core line : Nat) : Bool :=
  (s.core core).wk.any fun o => o.kind.isStore && o.pieces.any fun p => p.got.isNone && lineOf (s.served p.pa) == line

/-- An ordinary store of a core within one line (R124): after exclusive ownership of its sectors, in its L1, at max(pts, rts + 1). A line that
holds a monitor is written at its home (R132), and so is one to which a weak store of the core has still to be applied: the core keeps no
dirty copy of it (R110, R127). -/
def State.ownedStore (s : State) (c pa n v : Nat) : State × Nat :=
  let pa := s.served pa
  let line := lineOf pa
  if s.monitored line || s.weakOn c line then
    let (s, ts) := s.homeWrite pa n v (s.core c).pts
    (s.modCore c fun k => { k with pts := max k.pts ts, l1 := k.l1.del line }, ts)
  else
    let want := sectorsOf pa n
    let s := if s.ownsSectors c line want then s.modCore c (·.useLine line) else s.takeOwnership c line want
    let ts := s.writeTs line (s.core c).pts
    let s := s.modLine line fun d => { d with wts := ts, rts := ts }
    (s.modCore c fun k => { k with
      pts := max k.pts ts
      l1 := k.l1.alter line fun l =>
        { (l.write pa n v) with wts := ts, rts := ts, dirty := l.dirty ||| sectorsOf pa n } }, ts)

/-! ### Translation -/

/-- The outcome of a walk (R116). -/
inductive WalkRes where
  | ok (e : TlbEntry)
  | notMapped
  | badEntry
  /-- an entry lies in an uncorrectable sector: its physical address (R201) -/
  | poisoned (pa : Nat)
deriving DecidableEq, Repr

/-- Lowest virtual address bit, index width and table bytes of a level (R114). -/
def levelLow (n : Nat) : Nat := match n with | 0 => 16 | 1 => 21 | 2 => 30 | 3 => 34 | _ => 45
def levelBits (n : Nat) : Nat := match n with | 0 => 5 | 1 => 9 | 2 => 4 | 3 => 11 | _ => 12
def tableBytes (n : Nat) : Nat := 8 * 2 ^ levelBits n

/-- The record field of a context (R163). -/
def Ctx.field (x : Ctx) (hi lo : Nat) : Nat := bits x.record.toNat hi lo
def Ctx.root (x : Ctx) : Nat := x.field 63 0
def Ctx.qbase (x : Ctx) : Nat := x.field 127 64
def Ctx.qlog (x : Ctx) : Nat := x.field 167 160
def Ctx.det (x : Ctx) : Bool := bit x.record.toNat 168
def Ctx.maint (x : Ctx) : Bool := bit x.record.toNat 169
def Ctx.conf (x : Ctx) : Bool := bit x.record.toNat 170
def Ctx.pmax (x : Ctx) : Nat := x.field 172 171
def Ctx.save (x : Ctx) : Nat := x.field 255 192
def Ctx.trap (x : Ctx) : Nat := x.field 319 256
def Ctx.rpool (x : Ctx) : Nat := x.field 383 320
def Ctx.rpages (x : Ctx) : Nat := x.field 399 384

/-- Whether a range lies inside a confidential context's private range (R226). -/
def Ctx.covers (x : Ctx) (a n : Nat) : Bool := decide (x.base ≤ a) && decide (a + n ≤ x.base + x.size)

/-- Whether a device page touches the private range of another, confidential context (R226). -/
def State.trespass (s : State) (ctx a n : Nat) : Bool :=
  s.ctxs.any fun e => e.1 != ctx && e.2.conf && (e.2.alive || e.2.zeroing) && overlap e.2.base e.2.size a n

/-- The address field of a table entry, bits 51..6 in place (R115). -/
def entryAddr (e : Nat) : Nat := bits e 51 6 * 64

/-- One level of a walk: what an entry of a level-n table says (R115, R116, R226). -/
def readEntry (s : State) (ctx va n e : Nat) : Except WalkRes (WalkRes ⊕ Nat) :=
  let x := s.ctx ctx
  let a := entryAddr e
  if !bit e 0 then .error .notMapped
  else if bits e 63 52 != 0 || bit e 5 then .error .badEntry
  else if bit e 1 then
    let size := 2 ^ levelLow n
    let host := bit e 4
    if n == 4 || a % size != 0 || (!host && decide (2 ^ 40 ≤ a)) then .error .badEntry
    else if !host && x.conf && !x.covers a size then .error .badEntry
    else if !host && s.trespass ctx a size then .error .badEntry
    else .ok (.inl (.ok ⟨ctx, va / size * size, size, a, host, bit e 3, bit e 2⟩))
  else if n == 0 || bits e 4 2 != 0 || a % tableBytes (n - 1) != 0 || decide (2 ^ 40 ≤ a) then .error .badEntry
  else if x.conf && !x.covers a (tableBytes (n - 1)) then .error .badEntry
  else .ok (.inr a)

/-- Whether a physical address lies in an uncorrectable sector (R120, R201). -/
def State.bad (s : State) (pa : Nat) : Bool := s.dev.poison.contains (s.served pa / 64)

/-- An error that no group consumes is logged (R109, R201). -/
def State.logUnconsumed (s : State) (pa : Nat) : State :=
  { s with dev := { s.dev with unconsumed := s.dev.unconsumed ++ [s.served pa / 64] } }

/-- Walk the tables of levels below n+1, reading each entry coherently (R114, R116). -/
def walkTables (s : State) (ctx va : Nat) : Nat → Nat → State × WalkRes × List WalkEntry
  | n, table =>
    let i := bits va (levelLow n + levelBits n - 1) (levelLow n)
    let (s, e) := s.homeRead (table + 8 * i) 8
    if s.bad (table + 8 * i) then (s, .poisoned (table + 8 * i), [])
    else match readEntry s ctx va n e with
    | .error r => (s, r, [])
    | .ok (.inl r) => (s, r, [])
    | .ok (.inr a) =>
      match n with
      | 0 => (s, .badEntry, [])
      | m + 1 =>
        let (s, r, ws) := walkTables s ctx va m a
        (s, r, ⟨ctx, m, va / 2 ^ (levelLow m + levelBits m), a⟩ :: ws)

/-- Walk from the root (R114). -/
def State.walkRoot (s : State) (ctx va : Nat) : State × WalkRes × List WalkEntry :=
  let x := s.ctx ctx
  if x.conf && !x.covers x.root (tableBytes 4) then (s, .badEntry, [])
  else walkTables s ctx va 4 x.root

/-- The TLB entry that maps a virtual address of a context. -/
def tlbFind (es : List TlbEntry) (ctx va : Nat) : Option TlbEntry :=
  es.find? fun e => e.ctx == ctx && decide (e.va ≤ va) && decide (va < e.va + e.size)

/-- Add a translation, the newest first, within a capacity (R117, log 8). -/
def tlbAdd (es : List TlbEntry) (e : TlbEntry) (cap : Nat) : List TlbEntry := (e :: es).take cap

/-- Add a translation to a quad's L2 TLB: 512 sets, chosen by the page's number, of 8 ways, the newest first (R117, log 8). -/
def tlbAddL2 (es : List TlbEntry) (e : TlbEntry) : List TlbEntry :=
  let set := fun (x : TlbEntry) => x.va / 65536 % 512
  let mates := (es.filter fun x => set x == set e && !(x.ctx == e.ctx && x.va == e.va)).take 7
  e :: (mates ++ es.filter fun x => set x != set e)

/-- The deepest cached table for an address (R117). -/
def walkcFind (ws : List WalkEntry) (ctx va : Nat) : Option WalkEntry :=
  let mine := ws.filter fun w => w.ctx == ctx && w.prefx == va / 2 ^ (levelLow w.level + levelBits w.level)
  argmin (·.level) mine

/-- A page walk for a core: the quad's L2 TLB, else its walk cache and the tables; the TLBs and the cache are filled (R117). -/
def State.pageWalkFor (s : State) (core ctx va : Nat) : State × WalkRes :=
  let q := core / 4
  match tlbFind (s.quad q).tlb ctx va with
  | some e => (s.modCore core fun k => { k with tlb := tlbAdd k.tlb e 96 }, .ok e)
  | none =>
    let (s, r, ws) := match walkcFind (s.quad q).walkc ctx va with
      | some w => walkTables s ctx va w.level w.table
      | none => s.walkRoot ctx va
    let s := s.modQuad q fun k => { k with walkc := (ws ++ k.walkc).take 256 }
    match r with
    | .ok e =>
      ((s.modQuad q fun k => { k with tlb := tlbAddL2 k.tlb e }).modCore core fun k =>
        { k with tlb := tlbAdd k.tlb e 96 }, .ok e)
    | r => (s, r)

/-- What a translated access meets. -/
inductive Access where
  | ok (pa : Nat)
  /-- the L1 TLB misses -/
  | miss
  /-- a class H cause -/
  | fault (cause : Nat)
  /-- the walk met an uncorrectable sector: its physical address (R201) -/
  | poisoned (pa : Nat)
deriving DecidableEq, Repr

/-- Whether a virtual address is canonical and in the program's half (R104). -/
def canonical (va : Nat) : Bool := decide (va < 2 ^ 56)

/-- The permission checks on a leaf (R106, R116). -/
def TlbEntry.check (e : TlbEntry) (va : Nat) (host write : Bool) : Access :=
  if e.host != host then .fault 0x03 else if write && !e.w then .fault 0x03 else .ok (e.pa + (va - e.va))

/-- One access of a core through its L1 TLB (R104, R106, R116). -/
def State.translate (s : State) (core ctx va size : Nat) (host write : Bool) : Access :=
  if va % size != 0 || !canonical va then .fault 0x03
  else
    match tlbFind (s.core core).tlb ctx va with
    | none => .miss
    | some e => e.check va host write

/-- An access that walks at once when the TLB misses: engines. -/
def State.translateNow (s : State) (core ctx va : Nat) (host write : Bool) : State × Access :=
  if !canonical va then (s, .fault 0x03)
  else
    match tlbFind (s.core core).tlb ctx va with
    | some e => (s, e.check va host write)
    | none =>
      match s.pageWalkFor core ctx va with
      | (s, .ok e) => (s, e.check va host write)
      | (s, .notMapped) => (s, .fault 0x01)
      | (s, .badEntry) => (s, .fault 0x02)
      | (s, .poisoned pa) => (s, .poisoned pa)

/-- Distaff's own access to a context's .G memory: a walk of the tables as they stand. -/
def State.distTranslate (s : State) (ctx va : Nat) (write : Bool) : State × Option Nat :=
  if !canonical va then (s, none)
  else
    match s.walkRoot ctx va with
    | (s, .ok e, _) => (s, match e.check va false write with | .ok pa => some pa | _ => none)
    | (s, .poisoned pa, _) => (s.logUnconsumed pa, none)
    | (s, _, _) => (s, none)

/-- The addresses of the sectors that a range touches. -/
def sectorAddrs (pa n : Nat) : List Nat :=
  if n = 0 then [] else (List.range ((pa + n - 1) / 64 + 1 - pa / 64)).map fun i => 64 * (pa / 64 + i)

/-- Whether a migration holds a write of an agent: its page is being copied, or it holds an earlier posted write of the same port or link
(R119, R134). -/
def Migration.holds (m : Migration) (agent pa : Nat) : Bool :=
  !m.switched && ((decide (m.p ≤ pa) && decide (pa < m.p + m.size)) || (agent != 305 && m.held.any (·.2.2.2 == agent)))

/-- A write of Distaff (agent 305), the host port (288) or a link (289 + k) at its homes, at the agent's logical time, every sharer's copy
recalled first for the host port and the links; on a page that is being copied its home holds it until the switch (R119, R134). -/
def State.agentWrite (s : State) (agent pa n v : Nat) : State :=
  match s.migrations.findIdx? fun m => m.holds agent pa with
  | some i => { s with migrations := s.migrations.modify i fun m => { m with held := m.held ++ [(pa, n, v, agent)] } }
  | none =>
    let s := if agent = 305 then s else (placesOf (s.served pa) n).foldl (fun (s : State) a => s.recallSharers (lineOf a)) s
    let (s, ts) := s.homeWriteRange pa n v (s.dev.agents.getD agent 0)
    { s with dev := { s.dev with agents := s.dev.agents.put agent ts } }

/-- What an agent reads where migrations hold writes of its own: they stand before the read (R119, R134). -/
def State.overHeld (s : State) (agent pa n v : Nat) : Nat :=
  let mine := s.migrations.flatMap fun m => m.held.filter fun h => h.2.2.2 == agent && overlap h.1 h.2.1 pa n
  if mine.isEmpty then v
  else
    Mem.readN (mine.foldl (fun t h => Mem.writeN t h.1 h.2.1 h.2.2.1) (Mem.writeN [] pa n v)) pa n

/-- A read of the host port or a link: it is placed at the later of the agent's logical time and the write read, and no later write is placed
before it (R122, R135). -/
def State.agentRead (s : State) (agent pa n : Nat) : State × Nat :=
  let (s, v) := s.homeRead pa n
  let v := s.overHeld agent pa n v
  let t := (placesOf pa n).foldl (fun t a => max t (s.wtsOf a)) (s.dev.agents.getD agent 0)
  let s := (placesOf pa n).foldl (fun (s : State) a => s.modLine (lineOf (s.served a)) fun d => { d with rts := max d.rts t }) s
  ({ s with dev := { s.dev with agents := s.dev.agents.put agent t } }, v)

/-- Distaff, agent number 305, reads n bytes of a context's .G memory that lie in one page (R122). An uncorrectable sector cannot be read: the error is logged (R201). -/
def State.distRead (s : State) (ctx va n : Nat) : State × Option Nat :=
  match s.distTranslate ctx va false with
  | (s, some pa) =>
    let (s, v) := s.agentRead 305 pa n
    match (sectorAddrs pa n).find? s.bad with
    | some b => (s.logUnconsumed b, none)
    | none => (s, some v)
  | (s, none) => (s, none)

/-- Distaff writes n bytes of a context's .G memory that lie in one page, with ordinary stores placed after everything that
was placed before them: at logical time `pts` of the management core's agent number 305 (log 1). -/
def State.distWrite (s : State) (ctx va n v : Nat) : State × Bool :=
  match s.distTranslate ctx va true with
  | (s, some pa) => (s.agentWrite 305 pa n v, true)
  | (s, none) => (s, false)

/-! ### Scratchpad -/

/-- Whether a range lies inside a window (R63). -/
def Team.inWindow (t : Team) (off n : Nat) : Bool := decide (off + n ≤ t.window)

/-- Whether tile t is on the engine side (R63). -/
def Team.engineSide (t : Team) (tile : Nat) : Bool := t.owner.getLsbD tile

/-- The tiles that a range touches. -/
def tilesOf (off n : Nat) : List Nat :=
  if n = 0 then [] else (List.range ((off + n - 1) / 4096 + 1 - off / 4096)).map (· + off / 4096)

/-- Set some tiles to a side. -/
def Team.setOwner (t : Team) (tiles : List Nat) (engine : Bool) : Team :=
  { t with owner := tiles.foldl (fun o n =>
      if engine then o ||| BitVec.twoPow 512 n else o &&& ~~~(BitVec.twoPow 512 n)) t.owner }

/-- Write n bytes of a team's scratchpad. -/
def Team.spadWrite (t : Team) (off n v : Nat) : Team := { t with spad := Mem.writeN t.spad off n v }

/-- Read n bytes of a team's scratchpad. -/
def Team.spadRead (t : Team) (off n : Nat) : Nat := Mem.readN t.spad off n

end Sys2Proof.Machine
end

