-- ==== Sys2Proof/Machine/Operands.lean ====
section
/-! DEFINITION. Operand forms: which registers and latches an instruction names (R246, R255 to R260), its opcode and its place
in the classes that deterministic mode and speculation distinguish, and the addresses its operands form (R104). -/
namespace Sys2Proof.Machine

/-- The opcode in bits 63..54 of an instruction's word (R246). -/
def opcodeOf (i : Instr) : Nat :=
  match encodeRaw i with
  | some r => r.op.toNat
  | none => 0

/-- Whether the instruction carries the pop flag (R253). -/
def popFlagOf : Instr → Bool
  | .nop rc _ | .bra rc .. | .braPop rc .. | .jmp rc _ | .call rc .. | .ret rc _ | .exit rc _ | .rcvpush rc _
  | .rcvdrop rc _ | .regang rc | .regangAll rc | .bar rc .. | .phwait rc .. | .phflip rc .. | .phend rc _
  | .emit rc .. | .sigchk rc _ => rc
  | .brm o => o.rc
  | _ => false

/-- A special register's width in registers (R61). -/
def srWide (n : Nat) : Bool := [0x08, 0x09, 0x0E, 0x0F, 0x40, 0x41].contains n

/-- How many registers a value of a size takes. -/
def regsOf (sz : Size) : Nat := match sz with | .b8 => 2 | .b16 => 4 | _ => 1

/-- Bytes of a size (R256). -/
def bytesOf (sz : Size) : Nat := match sz with | .b1 => 1 | .b2 => 2 | .b4 => 4 | .b8 => 8 | .b16 => 16

/-- A source of some registers' length, as a block. -/
def srcBlock (a : Src) (n : Nat) : List (Nat × Nat) :=
  match a with
  | .reg r => [(r.toNat, n)]
  | .lat _ => []

/-- Registers that a base names in a space (R104). -/
def baseBlock (sp : Space) (a : Src) : List (Nat × Nat) :=
  srcBlock a (match sp with | .g | .y => 2 | .s | .c => 1)

/-- The register blocks an instruction names, destinations included: first register and length. All must lie below the
budget (R25, R55, R56). -/
def blocksOf : Instr → List (Nat × Nat)
  | .iadd o | .isub o | .shl o | .imin o _ | .imax o _ | .shr o _ | .sel o _ | .fadd o _ | .fmul o _
  | .fmin o _ | .fmax o _ => (o.d.toNat, 1) :: (srcBlock o.a 1 ++ srcBlock o.b 1)
  | .imul o k _ => (o.d.toNat, if k = .wide then 2 else 1) :: (srcBlock o.a 1 ++ srcBlock o.b 1)
  | .qpack o c => (o.d.toNat, 1) :: (c.toNat, 2) :: (srcBlock o.a 1 ++ srcBlock o.b 1)
  | .imad o | .lop3 o _ | .shf o _ | .bfx o _ | .bfi o | .prmt o | .ffma o _ =>
    (o.d.toNat, 1) :: (srcBlock o.a 1 ++ srcBlock o.b 1 ++ srcBlock o.c 1)
  | .iabs o | .popc o | .clz o | .brev o | .mov o | .fcls o _ | .frcp o _ | .frsq o _ | .fsqrt o _ | .fexp2 o _
  | .flog2 o _ | .cvt o .. | .qunpk o _ => (o.d.toNat, 1) :: srcBlock o.a 1
  | .icmp o .. | .fcmp o .. => srcBlock o.a 1 ++ srcBlock o.b 1
  | .movi _ d .. | .movs _ d .. | .ldc _ d .. => [(d.toNat, 1)]
  | .plop _ => []
  | .rand _ d k _ => [(d.toNat, 2), (k.toNat, 2)]
  | .ld o => (o.d.toNat, regsOf o.size) :: baseBlock o.space o.base
  | .st o => baseBlock o.space o.base ++ srcBlock o.data (regsOf o.size)
  | .ldb o => [(o.d.toNat, regsOf o.size + 1), (o.base.toNat, 2), (2 * o.plane2.toNat, 2)]
  | .stb o => [(2 * o.data2.toNat, regsOf o.size + 1), (o.base.toNat, 2), (2 * o.plane2.toNat, 2)]
  | .atom o =>
    let n := (if o.w8 then 2 else 1) * (if o.op = .cas then 2 else 1)
    (2 * o.d2.toNat, if o.w8 then 2 else 1) :: (2 * o.b2.toNat, n) :: baseBlock o.space (.reg o.base)
  | .ared o => baseBlock o.space o.base ++ srcBlock o.data (if o.w8 then 2 else 1)
  | .amaxp o => (o.d.toNat, 1) :: (baseBlock o.space o.base ++ srcBlock o.v 1)
  | .mwait o => (o.d.toNat, if o.w8 then 2 else 1) :: (o.base.toNat, 2) :: srcBlock o.x (if o.w8 then 2 else 1)
  | .pref o | .cflush o => [(o.base.toNat, 2)]
  | .shfl o => (o.d.toNat, 1) :: (srcBlock o.a 1 ++ srcBlock o.b 1)
  | .vote .bal d _ _ => [(d.toNat, 1)]
  | .vote .. => []
  | .gred d a .. | .gscan d a .. | .matchv d a _ => (d.toNat, 1) :: srcBlock a 1
  | .mma o => (o.a.toNat, 1) :: (srcBlock o.f 1 ++ srcBlock o.q 1)
  | .bset d _ w _ => (d.toNat, 1) :: srcBlock w 1
  | .bsetFree d w _ => (d.toNat, 1) :: srcBlock w 1
  | .accopen o => srcBlock o.vf 1
  | .accld o => srcBlock o.base 1
  | .accst o => srcBlock o.base 1
  | .bndthr _ t _ => [(t.toNat, 1)]
  | .bndrd _ d .. => [(d.toNat, 1)]
  | .mqrun r .. => [(r.toNat, 1)]
  | .cpy o => [(o.vg.toNat, 2), (o.vp.toNat, 2)] ++ (match o.bcb with | some c => [(c.toNat, 2)] | none => [])
  | .gath d .. | .scat d .. | .nzscan d .. => srcBlock d 1
  | .ownE t c _ | .ownT t c _ => srcBlock t 1 ++ srcBlock c 1
  | .relent d k p _ _ | .relsealRec d k p _ _ => (d.toNat, 1) :: (srcBlock k 1 ++ srcBlock p 1)
  | .relsealSeal d .. | .relsealFree d .. | .relstat d .. => [(d.toNat, 1)]
  | .relgrp d o .. => (d.toNat, 1) :: srcBlock o 1
  | .reljoin d j .. => (d.toNat, 1) :: srcBlock j 1
  | .relmrg d m .. => (d.toNat, 1) :: srcBlock m 1
  | .bar _ _ _ d => [(d.toNat, 1)]
  | .phwait _ b p .. => srcBlock b 1 ++ srcBlock p 1
  | .phflip _ b .. => srcBlock b 1
  | .bcbarm a n .. => (a.toNat, 2) :: srcBlock n 1
  | .bcbwait d a _ => [(d.toNat, 1), (a.toNat, 2)]
  | .emit _ n r _ => (r.toNat, 2) :: srcBlock n 1
  | .srget d n _ => [(d.toNat, if srWide n.toNat then 2 else 1)]
  | .srset n a _ => srcBlock a (if srWide n.toNat then 2 else 1)
  | .tlbinv a b _ => [(a.toNat, 2), (b.toNat, 2)]
  | .pqpop d a .. => [(d.toNat, 1), (a.toNat, 2)]
  | .ctxkill a _ | .tstabt a _ => srcBlock a 1
  | .cstateRead d a b _ | .cstateReserve d a b _ | .cstateRelease d a b _ | .cdrain d a b _ =>
    (d.toNat, 1) :: (srcBlock a 1 ++ srcBlock b 1)
  | .cretire d a _ => (d.toNat, 1) :: srcBlock a 1
  | .wearrdSelf d f _ => (d.toNat, 2) :: srcBlock f 1
  | .wearrd d a f _ => (d.toNat, 2) :: (srcBlock a 1 ++ srcBlock f 1)
  | .tstrun a w _ => (w.toNat, 2) :: srcBlock a 1
  | _ => []

/-- The register blocks that an instruction writes. -/
def destsOf : Instr → List (Nat × Nat)
  | .imul o k _ => if o.nw then [] else [(o.d.toNat, if k = .wide then 2 else 1)]
  | .iadd o | .isub o | .shl o | .imin o _ | .imax o _ | .shr o _ | .sel o _ | .fadd o _ | .fmul o _
  | .fmin o _ | .fmax o _ | .qpack o _ => if o.nw then [] else [(o.d.toNat, 1)]
  | .imad o | .lop3 o _ | .shf o _ | .bfx o _ | .bfi o | .prmt o | .ffma o _ => if o.nw then [] else [(o.d.toNat, 1)]
  | .iabs o | .popc o | .clz o | .brev o | .mov o | .fcls o _ | .frcp o _ | .frsq o _ | .fsqrt o _ | .fexp2 o _
  | .flog2 o _ | .cvt o .. | .qunpk o _ => if o.nw then [] else [(o.d.toNat, 1)]
  | .movi nw d .. | .movs nw d .. | .ldc nw d .. => if nw then [] else [(d.toNat, 1)]
  | .rand nw d .. => if nw then [] else [(d.toNat, 2)]
  | .ld o => [(o.d.toNat, regsOf o.size)]
  | .ldb o => [(o.d.toNat, regsOf o.size + 1)]
  | .atom o => [(2 * o.d2.toNat, if o.w8 then 2 else 1)]
  | .amaxp o => if o.nw then [] else [(o.d.toNat, 1)]
  | .mwait o => [(o.d.toNat, if o.w8 then 2 else 1)]
  | .shfl o => [(o.d.toNat, 1)]
  | .vote .bal d _ _ | .gred d .. | .gscan d .. | .matchv d .. | .bset d .. | .bsetFree d .. | .bndrd _ d ..
  | .relent d .. | .relsealSeal d .. | .relsealRec d .. | .relsealFree d .. | .relgrp d .. | .reljoin d .. | .relmrg d ..
  | .relstat d .. | .bar _ _ _ d | .bcbwait d .. | .pqpop d .. | .cstateRead d .. | .cstateReserve d ..
  | .cstateRelease d .. | .cdrain d .. | .cretire d .. => [(d.toNat, 1)]
  | .bndthr _ t _ => [(t.toNat, 1)]
  | .wearrdSelf d .. | .wearrd d .. => [(d.toNat, 2)]
  | .srget d n _ => [(d.toNat, if srWide n.toNat then 2 else 1)]
  | _ => []

/-- Registers per K-group of a B quarter (R140). -/
def spanRegs (fmt : Nat) : Nat := if fmt = 4 ∨ fmt = 5 then 8 else 16

/-- The sources an instruction names, in the order A, B, C. -/
def srcsOf : Instr → List Src
  | .iadd o | .isub o | .shl o | .imin o _ | .imax o _ | .shr o _ | .sel o _ | .fadd o _ | .fmul o _
  | .fmin o _ | .fmax o _ | .imul o _ _ | .qpack o _ => [o.a, o.b]
  | .imad o | .lop3 o _ | .shf o _ | .bfx o _ | .bfi o | .prmt o | .ffma o _ => [o.a, o.b, o.c]
  | .iabs o | .popc o | .clz o | .brev o | .mov o | .fcls o _ | .frcp o _ | .frsq o _ | .fsqrt o _ | .fexp2 o _
  | .flog2 o _ | .cvt o .. | .qunpk o _ => [o.a]
  | .icmp o .. | .fcmp o .. => [o.a, o.b]
  | .rand _ _ k _ => [.reg k]
  | .ld o => [o.base]
  | .st o => [o.base, o.data]
  | .ldb o => [.reg o.base, .reg ((o.plane2 ++ (0 : BitVec 1)).setWidth 10)]
  | .stb o => [.reg o.base, .reg ((o.data2 ++ (0 : BitVec 1)).setWidth 10)]
  | .atom o => [.reg o.base, .reg ((o.b2 ++ (0 : BitVec 1)).setWidth 10)]
  | .ared o => [o.base, o.data]
  | .amaxp o => [o.base, o.v]
  | .mwait o => [.reg o.base, o.x]
  | .pref o | .cflush o => [.reg o.base]
  | .shfl o => [o.a, o.b]
  | .gred _ a .. | .gscan _ a .. | .matchv _ a _ => [a]
  | .mma o => [.reg o.a, o.f, o.q]
  | .bset _ b w _ => [.reg b, w]
  | .bsetFree _ w _ => [w]
  | .accopen o => [o.vf]
  | .accld o => [o.base]
  | .accst o => [o.base]
  | .bndthr _ t _ => [.reg t]
  | .mqrun r .. => [.reg r]
  | .cpy o => [.reg o.vg, .reg o.vp]
  | .gath d .. | .scat d .. | .nzscan d .. => [d]
  | .ownE t c _ | .ownT t c _ => [t, c]
  | .relent _ k p _ _ | .relsealRec _ k p _ _ => [k, p]
  | .relgrp _ o .. => [o]
  | .reljoin _ j .. => [j]
  | .relmrg _ m .. => [m]
  | .phwait _ b p .. => [b, p]
  | .phflip _ b .. => [b]
  | .bcbarm a n .. => [.reg a, n]
  | .bcbwait _ a _ => [.reg a]
  | .emit _ n r _ => [n, .reg r]
  | .srset _ a _ => [a]
  | .tlbinv a b _ => [.reg a, .reg b]
  | .pqpop _ a .. => [.reg a]
  | .ctxkill a _ | .tstabt a _ | .cretire _ a _ => [a]
  | .cstateRead _ a b _ | .cstateReserve _ a b _ | .cstateRelease _ a b _ | .cdrain _ a b _ => [a, b]
  | .wearrdSelf _ f _ => [f]
  | .wearrd _ a f _ => [a, f]
  | .tstrun a w _ => [a, .reg w]
  | _ => []

/-- Sources A and B that are pairs, for issue and stop records (R186, R192). -/
def wideA : Instr → Bool
  | .ld o => o.space == .g || o.space == .y
  | .st o => o.space == .g || o.space == .y
  | .atom o => o.space == .g || o.space == .y
  | .ared o => o.space == .g || o.space == .y
  | .amaxp o => o.space == .g || o.space == .y
  | .ldb _ | .stb _ | .mwait _ | .pref _ | .cflush _ | .cpy _ | .bcbarm .. | .bcbwait .. | .tlbinv .. | .pqpop .. | .rand .. => true
  | .srset n _ _ => srWide n.toNat
  | _ => false

def wideB : Instr → Bool
  | .st o => o.size == .b8 || o.size == .b16
  | .atom o => o.w8
  | .ared o => o.w8
  | .mwait o => o.w8
  | .ldb _ | .stb _ | .cpy _ | .emit .. | .tlbinv .. | .tstrun .. => true
  | _ => false

/-- The operands in the fields of source A (bits 42..32) and source B (bits 31..21), where the instruction reads them as sources (R247). -/
def operandA : Instr → Option Src
  | .accopen _ | .bsetFree .. | .wearrdSelf .. => none
  | i => (srcsOf i)[0]?

def operandB : Instr → Option Src
  | .accopen o => some o.vf
  | .bsetFree _ w _ => some w
  | .wearrdSelf _ f _ => some f
  | i => (srcsOf i)[1]?

/-- The guarding predicate; always true where the word has none (R246, R261). -/
def guardOf : Instr → Guard
  | .iadd o | .isub o | .shl o | .imin o _ | .imax o _ | .shr o _ | .sel o _ | .fadd o _ | .fmul o _
  | .fmin o _ | .fmax o _ | .imul o _ _ | .qpack o _ => o.g
  | .imad o | .lop3 o _ | .shf o _ | .bfx o _ | .bfi o | .prmt o | .ffma o _ => o.g
  | .iabs o | .popc o | .clz o | .brev o | .mov o | .fcls o _ | .frcp o _ | .frsq o _ | .fsqrt o _ | .fexp2 o _
  | .flog2 o _ | .cvt o .. | .qunpk o _ => o.g
  | .icmp o .. | .fcmp o .. => o.g
  | .plop o => o.g
  | .movi _ _ _ g | .movs _ _ _ g | .rand _ _ _ g | .ldc _ _ _ g => g
  | .ld o => o.g | .st o => o.g | .ldb o => o.g | .stb o => o.g | .atom o => o.g | .ared o => o.g
  | .amaxp o => o.g | .mwait o => o.g | .pref o | .cflush o => o.g | .shfl o => o.g
  | .vote _ _ _ g | .gred _ _ _ _ g | .gscan _ _ _ _ _ g | .matchv _ _ g => g
  | .mma o => o.g | .accld o => o.g | .accst o => o.g | .cpy o => o.g
  | .bset _ _ _ g | .bsetFree _ _ g | .accz _ _ g | .accmov _ _ g | .bndthr _ _ g | .bndrd _ _ _ g | .mqrun _ _ g
  | .gath _ _ g | .scat _ _ g | .nzscan _ _ g | .ownE _ _ g | .ownT _ _ g | .relent _ _ _ _ g | .relsealSeal _ _ g
  | .relsealRec _ _ _ _ g | .relsealFree _ _ g | .relgrp _ _ _ g | .reljoin _ _ _ _ g | .relmrg _ _ _ g | .relstat _ _ g
  | .nop _ g | .bra _ _ g | .braPop _ _ _ g | .call _ _ g | .ret _ g | .exit _ g | .yield _ _ g | .phwait _ _ _ _ g
  | .phflip _ _ _ g | .bcbarm _ _ _ g | .bcbwait _ _ g | .emit _ _ _ g | .trap _ g | .srget _ _ g | .srset _ _ g
  | .flushp _ g | .tlbinv _ _ g | .pqpop _ _ _ _ g | .ctxkill _ g | .cstateRead _ _ _ g | .cstateReserve _ _ _ g
  | .cstateRelease _ _ _ g | .cdrain _ _ _ g | .cretire _ _ g | .wearrdSelf _ _ g | .wearrd _ _ _ g | .tstrun _ _ g
  | .tstabt _ g => g
  | _ => ⟨false, 7⟩

/-- Synchronising operations of deterministic mode (R180). -/
def isSync : Instr → Bool
  | .atom _ | .ared _ | .amaxp _ | .mwait _ | .bar .. | .phwait .. | .phflip .. | .bcbarm .. | .bcbwait .. | .ownE ..
  | .ownT .. | .cpy _ | .gath .. | .scat .. | .nzscan .. | .mqrun .. | .bset .. | .bsetFree .. | .emit .. | .relent ..
  | .relsealSeal .. | .relsealRec .. | .relsealFree .. | .relgrp .. | .reljoin .. | .relmrg .. | .relstat .. | .pqpop ..
  | .cstateRead .. | .cstateReserve .. | .cstateRelease .. | .cdrain .. | .cretire .. | .tstrun .. | .tstabt .. => true
  | _ => false

/-- What a gang may issue past an incomplete fence: loads and VALU, XFER and CTL instructions but those that could act
outside its own registers (R129). A store to scratchpad is a store. -/
def speculable (i : Instr) : Bool :=
  match i with
  | .ld _ | .ldb _ | .ldc .. | .pref _ => true
  | .bar .. | .phwait .. | .phflip .. | .bcbarm .. | .bcbwait .. | .emit .. | .yield .. | .exit .. | .phend .. | .regang _
  | .regangAll _ => false
  | i => let c := opcodeOf i / 128; c == 0 || c == 2 || c == 5

/-- The value of a source in a lane, as a number; a pair where the operand is wide. -/
def srcVal (g : Group) (c : Clause) (a : Src) (wide : Bool) (l : Nat) : Nat :=
  if wide then
    match a with
    | .reg n => (g.pair n.toNat l).toNat
    | .lat _ => (g.src c a l).toNat
  else (g.src c a l).toNat

/-- The address a lane forms: base + sext(offset), 64 bits for .G and .Y, 32 bits for .S and .C (R104). -/
def addrOf (g : Group) (c : Clause) (sp : Space) (base : Src) (off : BitVec 11) (l : Nat) : Nat :=
  match sp with
  | .g | .y => (srcVal g c base true l + sext64 off.toNat 11) % 2 ^ 64
  | .s | .c => (srcVal g c base false l + sext64 off.toNat 11) % 2 ^ 32

/-- n registers of a lane from a source, as one number. -/
def dataOf (g : Group) (c : Clause) (a : Src) (n l : Nat) : Nat :=
  match a with
  | .lat _ => (g.src c a l).toNat
  | .reg r => (List.range n).foldl (fun v i => v + (g.reg (r.toNat + i) l).toNat * 2 ^ (32 * i)) 0

/-- The sources that are checked as operands: the first register of BSET's span is checked with the span, as B set misuse (R140, R262). -/
def checkedSrcs : Instr → List Src
  | .bset _ _ w _ => [w]
  | i => srcsOf i

/-- Whether every register an instruction names lies below the budget and every latch it reads is valid (R55, R59). -/
def operandsOk (g : Group) (c : Clause) (i : Instr) : Bool :=
  (blocksOf i).all (fun b => decide (b.1 + b.2 ≤ g.budget)) && (checkedSrcs i).all (g.srcOk c)

/-- The scoreboard that an instruction names and raises (R60). YIELD only waits for the one it names (R161). -/
def sbNamed : Instr → Option (BitVec 3)
  | .ld o => some o.sb
  | .st o => o.sb
  | .ldb o => some o.sb
  | .stb o => o.sb
  | .atom o => some o.sb
  | .ared o => some o.sb
  | .amaxp o => some o.sb
  | .mma o => some o.sb
  | .accld o => some o.sb
  | .accst o => some o.sb
  | .cpy o => some o.sb
  | .mqrun _ sb _ | .gath _ sb _ | .scat _ sb _ | .nzscan _ sb _ | .relmrg _ _ sb _ | .bcbarm _ _ sb _ | .flushp sb _
  | .pqpop _ _ _ sb _ => some sb
  | _ => none

/-- The source that gives the .S offset of an instruction's descriptor, and its bytes. -/
def descOf : Instr → Option (Src × Nat)
  | .relent _ _ p _ _ | .relsealRec _ _ p _ _ => some (p, 64)
  | .relgrp _ o _ _ => some (o, 64)
  | .reljoin _ j _ _ _ => some (j, 32)
  | .relmrg _ m _ _ => some (m, 64)
  | .gath d _ _ | .scat d _ _ | .nzscan d _ _ => some (d, 32)
  | .mqrun r _ _ => some (.reg r, 64)
  | _ => none

/-- Whether an instruction writes its latch (R59): it has a register or predicate result, which does not come with a scoreboard or at the
end of a wait. -/
def hasLatch (i : Instr) : Bool :=
  match i with
  | .mwait _ | .bcbwait .. => false
  | .ldc .. | .vote .. => true
  | i => (sbNamed i).isNone && (opcodeOf i / 128 == 0 || !(destsOf i).isEmpty)

end Sys2Proof.Machine
end

