-- ==== Sys2Proof/Machine/Ops.lean ====
section
/-! DEFINITION. The named operations that meanings share: notices and host events, completion records, the end of groups, teams
and contexts, halting faults, trap entry and return, contained faults (R176, R182 to R199, R225), and `issue`, which wraps one
instruction's own effect in everything that issuing a word does (R19, R57, R59, R129, R178, R187, R202). -/
namespace Sys2Proof.Machine

/-! ### Wear counts, notices, events -/

/-- A core's wear record; its number and magic are fixed (R208). -/
def State.wear (s : State) (c : Nat) : Wear := s.dev.wear.getD c Wear.fresh

def State.modWear (s : State) (c : Nat) (f : Wear → Wear) : State :=
  { s with dev := { s.dev with wear := s.dev.wear.put c (f (s.wear c)) } }

/-- Power-on time of the device, in the 10 s intervals of the monitors: the longest of any core (R200, R205). -/
def State.powered (s : State) : Nat := s.dev.wear.foldl (fun n e => max n e.2.hours) 0

/-- A gated quad, or one in retention, gets its clock back before a core of it takes work; at the slowest step that runs, from which POWER_CAP
raises it (R217, log 105). -/
def State.wakeQuad (s : State) (q : Nat) : State :=
  if 6 ≤ (s.dev.islands.getD q 0).toNat then { s with dev := { s.dev with islands := s.dev.islands.put q 5 } } else s

/-- One more in a 16-bit bin of `stops`, saturating (R208). -/
def State.countStop (s : State) (c bin : Nat) : State :=
  s.modWear c fun w => { w with stops := w.stops.put bin (min 0xFFFF (w.stops.getD bin 0 + 1)) }

/-- One more in a bin of `errs` (R208). -/
def State.countErr (s : State) (c bin : Nat) : State :=
  s.modWear c fun w => { w with errs := w.errs.put bin (w.errs.getD bin 0 + 1) }

/-- The bin of a cause (R208). -/
def stopBin (cause : Nat) : Nat :=
  if 1 ≤ cause && cause ≤ 9 then cause - 1 else if 0x40 ≤ cause then 10 + (cause - 0x40) else 9

/-- Post a notice, or hold it while 256 wait (R176). -/
def State.postNotice (s : State) (kind ctx : Nat) (arg : BitVec 128) : State :=
  let n : Notice := ⟨kind, ctx, s.dev.nseq, s.cycle, arg⟩
  let d := { s.dev with nseq := s.dev.nseq + 1 }
  if s.dev.queue.length < 256 && s.dev.heldNotices.isEmpty then { s with dev := { d with queue := d.queue ++ [n] } }
  else { s with dev := { d with heldNotices := d.heldNotices ++ [n] } }

/-- Whether a vector is masked: bit 0 of its control word (R220, log 95). -/
def Device.masked (d : Device) (n : Nat) : Bool := (d.msix.getD n 0).getLsbD 96

/-- Signal on MSI-X vector 0 of the PF; where it is masked, its pending bit is set (R220, R225). -/
def Device.signal (d : Device) : Device :=
  if d.masked 0 then { d with msixPend := if d.msixPend.contains 0 then d.msixPend else d.msixPend ++ [0] }
  else { d with signals := d.signals + 1 }

/-- Deliver held events while the ring has room (R225, log 11). -/
def Device.deliver (d : Device) : Nat → Device
  | 0 => d
  | n + 1 =>
    match d.ring with
    | none => d
    | some (_, k) =>
      if 2 ^ k + d.ringTaken ≤ d.ringNext then d
      else
        match d.heldEvents with
        | e :: es =>
          Device.deliver (Device.signal { d with heldEvents := es, delivered := d.delivered ++ [e], ringNext := d.ringNext + 1 }) n
        | [] =>
          if d.lostEvents = 0 then d
          else
            Device.deliver (Device.signal { d with lostEvents := 0, delivered := d.delivered ++ [⟨7, 0, d.lostEvents⟩]
                                                   ringNext := d.ringNext + 1 }) n

/-- Deliver the events of a device that are due, each with its 32 bytes in the host's memory (R225). -/
def State.deliverEvents (s : State) (d : Device) : State :=
  let d' := d.deliver (d.heldEvents.length + 1)
  match d.ring with
  | none => { s with dev := d' }
  | some (a, k) =>
    let new := d'.delivered.drop d.delivered.length
    { s with
      dev := d'
      host := ((List.range new.length).zip new).foldl (fun m (e : Nat × Event) =>
        Mem.writeN m (a + 32 * ((d.ringNext + e.1) % 2 ^ k)) 32 (Config.eventBytes e.2.kind e.2.ctx e.2.arg).toNat) s.host }

/-- An event arises: written to the ring in order, or held, or counted while 4,096 are held; kinds 2 to 4 go to flash too
(R225). -/
def State.postEvent (s : State) (kind ctx arg : Nat) : State :=
  let e : Event := ⟨kind, ctx, arg⟩
  let d := s.dev
  let d := if kind == 2 || kind == 3 || kind == 4 then { d with flash := { d.flash with events := d.flash.events ++ [e] } } else d
  let d := if d.heldEvents.length < 4096 then { d with heldEvents := d.heldEvents ++ [e] }
           else { d with lostEvents := d.lostEvents + 1 }
  s.deliverEvents d

/-- The host takes events out of its ring, and room frees (R225, log 11). -/
def State.hostTakes (s : State) (n : Nat) : State :=
  s.deliverEvents { s.dev with ringTaken := min s.dev.ringNext (s.dev.ringTaken + n) }

/-! ### The view of the issuing gang -/

/-- The issuing gang and what it belongs to. -/
structure View where
  gid : Nat
  kid : Nat
  g : Group
  k : Gang
  c : Clause
  t : Team
  l : Launch
  x : Ctx

/-- A team as a group sees it: in deterministic mode the tiles of an engine operation whose completion the group has observed are
thread-side for it before they are so for the others (R180). -/
def State.ownView (s : State) (gid : Nat) (g : Group) (t : Team) : Team :=
  if !(s.ctx g.ctx).det then t
  else
    let back := (s.core t.core).ops.filter fun o => o.grp == gid && o.isOver && !g.det.unseen.contains o.id
    t.setOwner (back.flatMap (·.tiles)) false

/-- The issuing gang, if State.focus names one that is in a clause. -/
def State.view (s : State) : Option View :=
  match s.focus with
  | none => none
  | some (gid, kid) =>
    match s.group gid with
    | none => none
    | some g =>
      match g.gang kid, s.team g.team, s.launch g.launch with
      | some k, some t, some l =>
        match k.clause with
        | none => none
        | some c => some ⟨gid, kid, g, k, c, s.ownView gid g t, l, s.ctx g.ctx⟩
      | _, _, _ => none

/-- The active lanes of the issuing gang (R17, R18). -/
def View.active (v : View) : List Nat := v.g.activeLanes v.k.slices

/-- The lanes that execute: active, with a true predicate (R57). -/
def View.lanes (v : View) (gd : Guard) : List Nat := v.active.filter (v.g.guard gd)

/-- A source's value in a lane. -/
def View.src (v : View) (a : Src) (l : Nat) : Word := v.g.src v.c a l

/-- The kernel's first clause and one past the end of its code (R265). -/
def Launch.codeBase (l : Launch) : Nat := bits l.record.toNat 191 128 + 256
def Launch.codeEnd (l : Launch) : Nat := l.codeBase + bits l.kernel.toNat 223 192

/-! ### Fetching a word of code -/

/-- The outcome of fetching one word of code. -/
inductive Fetched where
  | word (w : Dword)
  /-- the L1 TLB misses -/
  | miss
  /-- the page may not be fetched from (R116) -/
  | noExec
  /-- a class H cause and its address -/
  | halt (cause addr : Nat)
  /-- the word lies in an uncorrectable sector: its physical address (R201) -/
  | poisoned (pa : Nat)
deriving DecidableEq, Repr

/-- Where a word of code of a context lies, or why a core cannot fetch it (R116). -/
def State.codeAt (s : State) (core ctx a : Nat) : Except Fetched Nat :=
  if a % 8 != 0 || !canonical a then .error (.halt 0x03 a)
  else
    match tlbFind (s.core core).tlb ctx a with
    | none => .error .miss
    | some e =>
      if e.host then .error (.halt 0x03 a)
      else if !e.x then .error .noExec
      else .ok (e.pa + (a - e.va))

/-- A core fetches eight bytes of code for a launch: the word that its instruction cache holds, or the word in memory, which the cache then
holds (R264, log 90). -/
def State.fetch (s : State) (core lid ctx a : Nat) : State × Fetched :=
  match s.codeAt core ctx a with
  | .error f => (s, f)
  | .ok pa =>
    match (s.core core).icache.find? fun e => e.1 == lid && e.2.1 == a with
    | some e => (s, .word e.2.2)
    | none =>
      let (s, v) := s.homeRead pa 8
      if s.bad pa then (s, .poisoned pa)
      else
        let w := BitVec.ofNat 64 v
        (s.modCore core fun k => { k with icache := (k.icache.drop (k.icache.length - 8191)) ++ [(lid, a, w)] }, .word w)

/-- A gang's program counter (R15). -/
def Group.pcOf (g : Group) (k : Gang) : Dword := (g.slice (k.slices.headD 0)).pc

/-! ### Scoreboards, scratchpad, tiles -/

/-- Whether every scoreboard that a wait mask marks is zero in every slice of a gang (R60). -/
def Group.sbClear (g : Group) (k : Gang) (mask : BitVec 8) : Bool :=
  k.slices.all fun n => (List.range 8).all fun b => !mask.getLsbD b || (g.slice n).sbOf b == 0

/-- Whether a gang at a clause boundary has its wait mask satisfied; a header that cannot be read yet holds nothing up. -/
def State.maskClear (s : State) (g : Group) (t : Team) (k : Gang) : Bool :=
  (match k.alsoWait with
    | some n => k.slices.all fun m => (g.slice m).sbOf n == 0
    | none => true) &&
  match (s.fetch t.core g.launch g.ctx (g.pcOf k).toNat).2 with
  | .word w => (match decodeHeader w with
    | some h => g.sbClear k h.wait
    | none => true)
  | _ => true


/-- Gangs yielded on a scoreboard that has fallen to zero in all their slices resume at their label (R161). -/
def Group.wakeYields (g : Group) (now : Nat) : Group :=
  g.gangs.foldl (fun (g : Group) (k : Gang) =>
    match k.wait with
    | .yield label sb =>
      if k.slices.all fun n => (g.slice n).sbOf sb == 0 then
        (g.modSlices k.slices fun sl => { sl with pc := label, popDone := false }).modGang k.id fun k =>
          { k with wait := .no, since := now }
      else g
    | _ => g) g

/-- A scoreboard has fallen: gangs at a clause boundary whose wait mask it clears become ready now (R171). -/
def State.readyNow (s : State) (old new : Group) (t : Team) : Group :=
  { new with gangs := mapIf (fun (k : Gang) =>
      k.clause.isNone && k.wait == .no && !s.maskClear old t k && s.maskClear new t k) (fun k => { k with since := s.cycle }) new.gangs }

/-- A completion lowers its scoreboard in the slices that issued it (R60, R161, R171). -/
def State.sbDone (s : State) (gid : Nat) (ns : List Nat) (n : Nat) : State :=
  s.modGroup gid fun g =>
    let g' := (g.sbDown ns n).wakeYields s.cycle
    match s.team g.team with
    | some t => s.readyNow g g' t
    | none => g'

/-- The store that ends a PHWAIT retires it (R348); in deterministic mode only commits look (R180). -/
def State.wakePhwaits (s : State) (tid off n : Nat) (spad : List Host.Cell) : State :=
  s.groups.foldl (fun (s : State) (e : Nat × Group) =>
    if e.2.team != tid || (s.ctx e.2.ctx).det then s
    else e.2.gangs.foldl (fun (s : State) (k : Gang) =>
      match k.wait with
      | .phwait o par =>
        if overlap o 4 off n && ((Mem.read spad o).getLsbD 0 == par) then
          s.modGroup e.1 fun g =>
            (g.modGang k.id fun k => { k with wait := .no, since := s.cycle }).retire k.id s.cycle (some 0x291) 0 false none
        else s
      | _ => s) s) s

/-- Write n bytes of a team's scratchpad at the core's pts; PHWAITs that the write satisfies end (R126, R348). -/
def State.spadStore (s : State) (tid off n v : Nat) : State :=
  match s.team tid with
  | none => s
  | some t => (s.modTeam tid fun t => t.spadWrite off n v).wakePhwaits tid off n (Mem.writeN t.spad off n v)

/-- A run that has read a tile becomes impure when the tile's owner bit flips; what a gang has read past its fence counts once that is
confirmed (R99, R129). -/
def Group.tileFlipped (g : Group) (tiles : List Nat) : Group :=
  let g := { g with gangs := g.gangs.map fun (k : Gang) =>
    match k.fence with
    | some f => if f.tiles.any tiles.contains then { k with fence := some { f with soiled := true } } else k
    | none => k }
  match g.run with
  | none => g
  | some r => if r.tiles.any tiles.contains then { g with run := some { r with pure := false } } else g

/-- Set tiles of a team to a side; the groups of the team that see the flip now are those that a test names (R63, R99, R180). -/
def State.flipTilesFor (s : State) (tid : Nat) (tiles : List Nat) (engine : Bool) (sees : Nat → Bool) : State :=
  match s.team tid with
  | none => s
  | some t =>
    let changed := tiles.filter fun n => t.engineSide n != engine
    let s := s.modTeam tid fun t => t.setOwner tiles engine
    { s with groups := s.groups.map fun (e : Nat × Group) =>
        if e.2.team == tid && sees e.1 then (e.1, e.2.tileFlipped changed) else e }

/-- Set tiles of a team to a side (R63, R99, R156). -/
def State.flipTiles (s : State) (tid : Nat) (tiles : List Nat) (engine : Bool) : State :=
  s.flipTilesFor tid tiles engine fun _ => true

/-- An instruction whose effect a replay would repeat makes the group's open run impure (R99). -/
def Group.impure (g : Group) : Group :=
  { g with run := g.run.map fun r => { r with pure := false } }

/-- The group reads tiles of scratchpad during an open run (R99). -/
def Group.readTiles (g : Group) (tiles : List Nat) : Group :=
  { g with run := g.run.map fun r => { r with tiles := nodup (r.tiles ++ tiles) } }

/-- A gang reads tiles: one that speculates past a fence has read them only once its fence has completed (R99, R129). -/
def Group.gangReads (g : Group) (kid : Nat) (tiles : List Nat) : Group :=
  match (g.gang kid).bind (·.fence) with
  | some _ => g.modGang kid fun k => { k with fence := k.fence.map fun f => { f with tiles := nodup (f.tiles ++ tiles) } }
  | none => g.readTiles tiles

/-! ### Stop records and the save area -/

/-- The 64 bytes of a stop record (R186). -/
def Report.bits (r : Report) (mapno : Nat) : Nat :=
  r.addr % 2 ^ 64 * 2 ^ 448 + r.aux % 2 ^ 64 * 2 ^ 384 + r.serial.toNat * 2 ^ 352 + r.team % 2 ^ 32 * 2 ^ 320
    + r.clause.toNat * 2 ^ 256 + r.islot % 16 * 2 ^ 252 + r.gslot % 32 * 2 ^ 247 + r.group % 32 * 2 ^ 242
    + r.core % 512 * 2 ^ 233 + r.tag % 256 * 2 ^ 225 + b2n r.exited * 2 ^ 224 + b2n r.precise * 2 ^ 223
    + r.cls % 4 * 2 ^ 221 + r.cause % 256 * 2 ^ 213 + r.engine % 32 * 2 ^ 208 + r.slices % 256 * 2 ^ 200
    + r.opa.toNat * 2 ^ 128 + r.opb.toNat * 2 ^ 64 + mapno % 2 ^ 32 * 2 ^ 32 + 0x53544F50

/-- The header's first 32 bytes (R185). -/
def Ctx.header (x : Ctx) : Nat :=
  x.cseq % 2 ^ 64 * 2 ^ 192 + x.tseq % 2 ^ 64 * 2 ^ 128 + x.hseq % 2 ^ 64 * 2 ^ 64 + x.nrec % 2 ^ 12 * 2 ^ 20
    + x.first % 256 * 2 ^ 12 + b2n x.halted

/-- The number of an engine in a stop record (R186). -/
def engineCode : Engine → Nat
  | .issue => 0 | .mem => 1 | .async => 2 | .relation => 3 | .matrix => 4

/-- The slices of a gang as the mask of a stop record. -/
def sliceMask (ns : List Nat) : Nat := ns.foldl (fun m n => Nat.lor m (2 ^ n)) 0

/-- The report of an instruction of the issuing gang (R186). -/
def View.report (v : View) (i : Instr) (cls cause addr aux : Nat) : Report :=
  let lane := v.active.headD 0
  let val := fun (x : Option Src) (wide : Bool) =>
    match x with
    | some a => BitVec.ofNat 64 (srcVal v.g v.c a wide lane)
    | none => 0
  { cls := cls, cause := cause, addr := addr, aux := aux, serial := v.g.serial, team := v.t.index, clause := v.c.hdr,
    islot := v.c.slot, gslot := v.g.slot, group := v.g.index, core := v.t.core, tag := 0xFF, exited := false,
    precise := true, engine := 0, slices := sliceMask v.k.slices, opa := val (operandA i) (wideA i),
    opb := val (operandB i) (wideB i) }

/-- The report of a tagged operation, from its issue record (R192, R194). -/
def IssueRec.report (r : IssueRec) (core tag cls cause addr aux engine : Nat) : Report :=
  { cls := cls, cause := cause, addr := addr, aux := aux, serial := r.serial, team := r.team, clause := r.clause,
    islot := r.islot, gslot := r.gslot, group := r.group, core := core, tag := tag, exited := r.ghost, precise := true,
    engine := engine, slices := 0, opa := r.opa, opb := r.opb }

/-! ### Completion records -/

/-- A queue entry's completion record is written, upper half first; a done address that does not serve posts event 8 (R166). -/
def State.writeCompletion (s : State) (c : Nat) (e : QEntry) : State :=
  let done := bits e.record.toNat 479 416
  let low := 2 ^ 63 + e.teams % 2 ^ 32 * 2 ^ 8 + (e.status.getD 0) % 256
  if done = 0 then s
  else if done % 16 != 0 then s.postEvent 8 c e.index
  else
    match s.distWrite c (done + 8) 8 (e.wu % 2 ^ 64) with
    | (s, false) => s.postEvent 8 c e.index
    | (s, true) => (s.distWrite c done 8 low).1

/-- The first entry of a queue whose record is still to be written, if it has finished (R166). -/
def Ctx.deliverable (x : Ctx) : Option QEntry :=
  match x.entries.find? (!·.done) with
  | some e => if e.status.isSome then some e else none
  | none => none

/-- Write the completion record of the oldest finished entry, in queue order (R166). -/
def State.completeNext (s : State) (c : Nat) : State :=
  match (s.ctx c).deliverable with
  | none => s
  | some e =>
    (s.writeCompletion c e).modCtx c fun x => { x with entries := mapIf (fun (f : QEntry) => f.index == e.index) (fun f => { f with done := true }) x.entries }

/-- Write every completion record that is due. -/
def State.completeAll (s : State) (c : Nat) : Nat → State
  | 0 => s
  | n + 1 => if (s.ctx c).deliverable.isSome then State.completeAll (s.completeNext c) c n else s

/-- An entry finishes with a status and a number of teams (R166). -/
def State.finishEntry (s : State) (c index status teams : Nat) : State :=
  let fin := mapIf (fun (e : QEntry) => e.index == index && e.status.isNone) fun e =>
    { e with status := some status, teams := teams }
  s.modCtx c fun x => { x with entries := fin x.entries }

/-! ### Barriers -/

/-- A group's part in one of its two barriers. -/
def Group.part (g : Group) (clu : Bool) : BarPart := if clu then g.barClu else g.barTeam

def Group.setPart (g : Group) (clu : Bool) (p : BarPart) : Group :=
  if clu then { g with barClu := p } else { g with barTeam := p }

/-- The groups of a barrier's scope: a team's, or those of a cluster's teams (R26, R298). -/
def State.scope (s : State) (clu : Bool) (scope : Nat) : List (Nat × Group) :=
  s.groups.filter fun (e : Nat × Group) =>
    if clu then (match s.team e.2.team with | some t => t.cluster == scope | none => false) else e.2.team == scope

/-- The waits of a barrier's phase end: the pending arrival is consumed and its status returned, 1 when a group of the scope
has ended by a contained fault since the last wait that returned 0 or 1, else 0 (R298). -/
def Group.passBarrier (g : Group) (clu : Bool) (phase now : Nat) : Group :=
  let p := g.part clu
  let mine := g.gangs.filter fun k => match k.wait with | .barrier b ph _ => b == clu && ph == phase | _ => false
  if mine.isEmpty then g
  else
    let st : Word := if p.abandoned then 1 else 0
    let g := g.setPart clu { p with pending := false, abandoned := false }
    mine.foldl (fun (g : Group) (k : Gang) =>
      match k.wait with
      | .barrier _ _ d =>
        let ls := g.activeLanes k.slices
        ((g.setRegs d ls fun _ => st).modGang k.id fun k => { k with wait := .no, since := now }).retire k.id now
          (some 0x290) 0 false (some (ls, fun _ => st))
      | _ => g) g

/-- A barrier's current phase. -/
def State.barPhase (s : State) (clu : Bool) (scope : Nat) : Nat :=
  if clu then (match s.cluster scope with | some c => c.barPhase | none => 0)
  else (match s.team scope with | some t => t.barPhase | none => 0)

/-- Whether a group counts as arrived at a barrier's phase: it has arrived there, and if it has ended a phase since, the next one has
executed a BAR of the barrier (R26, R29, R298). -/
def BarPart.counts (p : BarPart) (phase : Nat) : Bool := p.last == some phase && !p.uncounted

/-- What the end of a cluster barrier's wait hands on: the cores' logical time at the arrivals (R299). -/
def State.barOrder (s : State) (clu : Bool) (scope core : Nat) : State :=
  if clu then
    match s.cluster scope with
    | some c => s.modCore core fun k => { k with pts := max k.pts c.barTs }
    | none => s
  else s

/-- The waits of a group at a barrier's phase end (R298, R299). -/
def State.passBarrier (s : State) (clu : Bool) (scope gid phase : Nat) : State :=
  match s.group gid with
  | none => s
  | some g =>
    let core := match s.team g.team with | some t => t.core | none => 0
    (s.barOrder clu scope core).modGroup gid fun g => g.passBarrier clu phase s.cycle

/-- A phase completes when every group of the scope that has not exited has arrived at it (R26, R298). In deterministic mode the
waits of groups other than the one that arrived end at a later commit (R180). -/
def State.checkBarrier (s : State) (clu : Bool) (scope : Nat) (me : Option Nat) : State :=
  let gs := s.scope clu scope
  let ph := s.barPhase clu scope
  if gs.isEmpty || !(gs.all fun e => (e.2.part clu).counts ph) then s
  else
    let s := if clu then s.modCluster scope fun c => { c with barPhase := ph + 1 }
             else s.modTeam scope fun t => { t with barPhase := ph + 1 }
    gs.foldl (fun (s : State) e =>
      if (s.ctx e.2.ctx).det && me != some e.1 then s else s.passBarrier clu scope e.1 ph) s

/-! ### The end of groups, teams, launches and contexts -/

/-- Every request at a quad matrix engine. -/
def State.mtxEntries (s : State) : List ResEntry := s.quads.flatMap fun (e : Nat × Quad) => e.2.table

/-- Whether a request's team stands on its core: that of a team that has been swapped out waits for its resumption (R162). -/
def State.entryHome (s : State) (e : ResEntry) : Bool :=
  match s.team e.team with
  | some t => t.residence != .swappedOut
  | none => true

/-- Whether an MMA naming a set in which the group holds a quarter is pending in the quad's table (R141). -/
def State.setsPending (s : State) (gid core : Nat) : Bool :=
  let q := s.quad (core / 4)
  q.sets.any fun b => (b.quarters.any fun e => e.2.grp == gid) &&
    q.table.any fun r => r.launch == b.launch && r.set == b.id

/-- The groups of a team, those between phases included. -/
def State.groupsOf (s : State) (tid : Nat) : List (Nat × Group) := s.groups.filter fun (e : Nat × Group) => e.2.team == tid

/-- Whether a group holds a quarter of a B set of its core's quad. -/
def State.holdsQuarter (s : State) (gid core : Nat) : Bool :=
  (s.quad (core / 4)).sets.any fun b => b.quarters.any fun e => e.2.grp == gid

/-- Whether a team may not be taken off its core: a group of it holds a quarter, or is in a PMOFF region (R141, R168, R197). -/
def State.pinned (s : State) (tid : Nat) (t : Team) : Bool :=
  (s.groupsOf tid).any fun e => e.2.pmoff.isSome || s.holdsQuarter e.1 t.core

/-- Free the quarters that a group holds; a set without quarters is no longer declared (R141). -/
def State.freeQuarters (s : State) (gid core : Nat) : State :=
  s.modQuad (core / 4) fun q => { q with
    sets := (q.sets.map fun b => { b with quarters := b.quarters.filter fun e => e.2.grp != gid }).filter fun b =>
      !b.quarters.isEmpty }

/-- Gangs that wait for a pool page look again (R172). -/
def State.wakeEmits (s : State) (c : Nat) : State :=
  let wake := mapIf (fun (k : Gang) => k.wait == .emit) fun k => { k with wait := .no, since := s.cycle }
  { s with groups := s.groups.map fun (e : Nat × Group) =>
      if e.2.ctx == c then (e.1, { e.2 with gangs := wake e.2.gangs }) else e }

/-- A closed node whose buffers and launches are gone frees its number and completes its kind 2 record (R174). -/
def State.closeNode (s : State) (c n : Nat) : State :=
  match (s.ctx c).nodes.look n with
  | none => s
  | some nd =>
    match nd.closing with
    | none => s
    | some idx =>
      let busy := s.launches.any fun (e : Nat × Launch) =>
        e.2.ctx == c && !e.2.complete && (match e.2.node with | some (m, _) => m == n | none => false)
      if busy || !nd.bufs.isEmpty then s
      else (s.modCtx c fun x => { x with nodes := x.nodes.del n }).finishEntry c idx 0 0

/-- A launch completes when every team of its grid has retired (R31, R173). -/
def State.finishLaunch (s : State) (lid : Nat) : State :=
  match s.launch lid with
  | none => s
  | some l =>
    if l.complete || l.retired < l.n then s
    else
      let s := s.modLaunch lid fun l => { l with complete := true }
      match l.node with
      | some (n, _, page, _, _) =>
        ((s.modCtx l.ctx fun x => { x with pages := x.pages.filter (· != page) }).wakeEmits l.ctx).closeNode l.ctx n
      | none =>
        let charge := mapIf (fun (e : QEntry) => e.index == l.index) fun e => { e with wu := l.wu }
        (s.modCtx l.ctx fun x => { x with entries := charge x.entries }).finishEntry l.ctx l.index 0 l.n

/-- Cores of a cluster by its shape (R27). -/
def shapeCores (shape : Nat) : Nat := match shape with | 1 => 4 | 2 => 8 | 3 => 8 | 4 => 12 | 5 => 12 | _ => 1

/-- Teams of a full cluster (R27). -/
def Launch.perCluster (l : Launch) : Nat :=
  let shape := bits l.record.toNat 342 339
  if shape = 0 then 1 else shapeCores shape * (bits l.record.toNat 347 343 + 1)

/-- Whether a cluster has teams that have still to be bound. -/
def State.unboundTeams (s : State) (cl : Nat) : Bool :=
  match s.cluster cl with
  | none => false
  | some c => match s.launch c.launch with
    | some l => decide (l.next < min l.n ((c.index + 1) * l.perCluster))
    | none => false

/-- A team retires when all its groups have retired and its spawn queue is empty; its handles return to IDLE, and the
cluster's when its last team retires (R31, R35). -/
def State.retireTeam (s : State) (tid : Nat) : State :=
  match s.team tid with
  | none => s
  | some t =>
    if t.residence == .retired || !t.spawns.isEmpty || s.groups.any (fun (e : Nat × Group) => e.2.team == tid) then s
    else
      let s := s.modTeam tid fun t => { t with residence := .retired, handles := [], serials := [] }
      let rest := s.teams.any fun (e : Nat × Team) => e.2.cluster == t.cluster && e.2.residence != .retired
      let rest := rest || s.unboundTeams t.cluster
      let s := if rest then s else s.modCluster t.cluster fun c => { c with handles := [], reserved := false }
      (s.modLaunch t.launch fun l => { l with retired := l.retired + 1 }).finishLaunch t.launch

/-- Issue records become ghosts (R193). -/
def ghostsOf (recs : Tab IssueRec) (tags : List Nat) : Tab IssueRec :=
  recs.map fun (e : Nat × IssueRec) => if tags.contains e.1 then (e.1, { e.2 with ghost := true }) else e

/-- The tags under which a group has requests and operations outstanding on a core (R192). -/
def State.tagsOf (s : State) (gid core : Nat) : List Nat :=
  let k := s.core core
  ((k.rq ++ k.wk ++ k.replies ++ k.probes ++ k.yq.map (·.op)).filter (·.grp == gid)).filterMap (·.tag)
    ++ (k.ops.filter fun o => o.grp == gid && !o.isOver).filterMap (·.tag)
    ++ (s.mtxEntries.filter (·.grp == gid)).filterMap (·.tag)

/-- The live issue records of a group become ghosts, on its core or with its team (R193, R385). -/
def State.ghost (s : State) (gid core : Nat) : State :=
  match s.parkedOf gid with
  | none => s.modCore core fun k => { k with issueRecs := ghostsOf k.issueRecs (s.tagsOf gid core) }
  | some tid => s.modTeam tid fun t => { t with
      parkedRecs := ghostsOf t.parkedRecs (((t.parked.filter fun o => o.grp == gid && !o.isOver).filterMap (·.tag))
        ++ (s.mtxEntries.filter (·.grp == gid)).filterMap (·.tag)) }

/-- The issue record under which a gang waits in a RELGRP or a RELJOIN. -/
def Wait.tag (w : Wait) : Option Nat :=
  match w with
  | .relgrp _ tag _ _ _ => some tag
  | .reljoin _ _ tag _ _ _ => some tag
  | _ => none

/-- What a group waits for is dropped when it ends, monitors and RELGRP or RELJOIN waits, and their issue records are freed (R192, R193). -/
def State.dropWaits (s : State) (gid core : Nat) (g : Group) : State :=
  let s := (g.gangs.filterMap (·.wait.tag)).foldl (fun (s : State) t => s.unrefFor gid core (some t)) s
  let s := (s.monitors.filter (·.grp == gid)).foldl (fun (s : State) m => s.unrefFor gid m.core m.tag) s
  { s with monitors := s.monitors.filter (·.grp != gid) }

/-- The group gives up its quarters, registers and slot; barriers stop counting it (R26, R31, R141, R318). -/
def State.releaseGroup (s : State) (gid : Nat) : State :=
  match s.group gid with
  | none => s
  | some g =>
    match s.team g.team with
    | none => { s with groups := s.groups.del gid }
    | some t =>
      let s := s.freeQuarters gid t.core
      let s := { s with groups := s.groups.del gid, monitors := s.monitors.filter (·.grp != gid) }
      let s := (s.checkBarrier false g.team none).checkBarrier true t.cluster none
      s.retireTeam g.team

/-- The log bytes of an engine operation's writes (R180). -/
def EngOp.logBytes (o : EngOp) : List LogByte :=
  let of := fun (spad : Bool) (w : Nat × Nat × Nat) =>
    (List.range w.2.1).map fun i => (⟨spad, w.1 + i, BitVec.ofNat 8 (w.2.2 / 2 ^ (8 * i))⟩ : LogByte)
  o.out.flatMap (of true) ++ o.gout.flatMap (of false)

/-- A group's exit in deterministic mode ends its quantum. The writes of its engine operations that nothing has observed end its log, which
the commit applies once they have run, and the group gives up its slot then (R178, R180, log 94). -/
def State.endDet (s : State) (gid : Nat) : State :=
  s.modGroup gid fun g => { g with det := { g.det with ended := true, granted := none } }

/-- The group ends: what it waits for is dropped, its issue records become ghosts, its region closes, its open run is discarded, and it
gives up its slot once no MMA that names its quarters is pending (R31, R141, R193, R195, R197, R318). A discarded run leaves no widened
range, and MMAs of the group still pending take their slots as physical ones (R100, log 85). -/
def State.endGroup (s : State) (gid : Nat) : State :=
  match s.group gid with
  | none => s
  | some g =>
    let core := match s.team g.team with | some t => t.core | none => 0
    let s := (s.dropWaits gid core g).ghost gid core
    let s := s.modGroup gid fun g =>
      { g with pmoff := none, run := none, record := none, gangs := [], inHandler := false, stage := .exiting
               slices := g.slices.map fun (e : Nat × Slice) => (e.1, (e.2.endLanes 0xF)) }
    if (s.ctx g.ctx).det then s.endDet gid
    else if s.setsPending gid core then s
    else s.releaseGroup gid

/-- Abort a context's tests and release its reservations (R279). -/
def State.releaseTests (s : State) (c : Nat) : State :=
  let mine := s.dev.tests.filter fun t => t.ctx == c && !t.aborting
  let s := mine.foldl (fun (s : State) t => s.countErr t.core 7) s
  { s with dev := { s.dev with
      tests := s.dev.tests.filter fun t => t.ctx != c
      resv := s.dev.resv.filter fun e => e.2 != c } }

/-- Entries published in a queue and not yet consumed finish with status 7 too (R166, R198). -/
def State.killPublished (s : State) (c : Nat) : Nat → State
  | 0 => s
  | n + 1 =>
    let x := s.ctx c
    match s.distRead c (x.qbase + 256 + 128 * (x.head % 2 ^ x.qlog)) 128 with
    | (s, none) => s
    | (s, some r) =>
      if r % 2 ^ 32 != (x.head + 1) % 2 ^ 32 then s
      else
        State.killPublished (s.modCtx c fun x => { x with
          head := x.head + 1
          entries := x.entries ++ [⟨x.head, BitVec.ofNat 1024 r, none, some 7, 0, 0, false, 0⟩] }) c n

/-- The tags of what a context's death drops on a core: engine operations, MMAs, monitors, and waits of its gangs (R192, R198). -/
def State.deadTags (s : State) (c core : Nat) : List Nat :=
  let home := fun (gid : Nat) => match (s.group gid).bind fun g => s.team g.team with
    | some t => t.core == core && t.residence == .resident
    | none => false
  nodup (((s.core core).ops.filter fun o => o.ctx == c && !o.isOver).filterMap (·.tag)
    ++ (s.mtxEntries.filter fun e => e.ctx == c && e.core == core && s.entryHome e).filterMap (·.tag)
    ++ (s.monitors.filter fun m => m.ctx == c && home m.grp).filterMap (·.tag)
    ++ (s.groups.filter fun (e : Nat × Group) => e.2.ctx == c && home e.1).flatMap fun e => e.2.gangs.filterMap (·.wait.tag))

/-- A context dies (R198, R199, R226, R279): its bit in %ctxdead is set, its engines stop without records, every entry not yet
completed finishes with status 7 in queue order, and its slots, populations, B sets, monitors and translations are freed.
Requests that bear its tag stay where they are until they drain. -/
def State.contextDeath (s : State) (c : Nat) : State :=
  let x := s.ctx c
  if !x.alive || x.dead then s
  else
    let boundOf := fun (e : QEntry) => match e.launch.bind s.launch with | some l => l.bound | none => 0
    let wuOf := fun (e : QEntry) => match e.launch.bind s.launch with | some l => l.wu | none => e.wu
    let s := s.modCtx c fun x => { x with
      alive := false, dead := true, line := none, halted := false, serving := [], reports := []
      nodes := [], pages := [], zeroing := x.conf
      entries := x.entries.map fun e =>
        if e.done || e.status.isSome then e else { e with status := some 7, teams := boundOf e, wu := wuOf e } }
    let s := s.killPublished c (2 ^ x.qlog)
    let s := s.completeAll c ((s.ctx c).entries.length)
    let mine := fun (lid : Nat) => match s.launch lid with | some l => l.ctx == c | none => false
    let gone := fun (gid : Nat) => match s.group gid with | some g => g.ctx == c | none => false
    let s' := { s with
      groups := s.groups.filter fun (e : Nat × Group) => e.2.ctx != c
      monitors := s.monitors.filter (·.ctx != c)
      teams := s.teams.filter fun (e : Nat × Team) => !mine e.2.launch
      clusters := s.clusters.filter fun (e : Nat × Cluster) => !mine e.2.launch
      launches := s.launches.filter fun (e : Nat × Launch) => e.2.ctx != c
      focus := match s.focus with | some (g, k) => if gone g then none else some (g, k) | none => none
      cores := s.cores.map fun (e : Nat × Core) => (e.1, { (s.deadTags c e.1).foldl (fun (k : Core) t => k.unref (some t)) e.2 with
        tlb := e.2.tlb.filter (·.ctx != c), walks := e.2.walks.filter (·.ctx != c), ops := e.2.ops.filter (·.ctx != c)
        phaseQ := e.2.phaseQ.filter fun g => !gone g })
      quads := s.quads.map fun (e : Nat × Quad) => (e.1, { e.2 with
        sets := e.2.sets.filter fun b => !mine b.launch
        table := e.2.table.filter (·.ctx != c), tlb := e.2.tlb.filter (·.ctx != c)
        walkc := e.2.walkc.filter (·.ctx != c) }) }
    s'.releaseTests c

/-! ### Halting faults (R187) -/

/-- The engines that serve a context at the rise of its halt line (R187). -/
def State.serving (s : State) (c : Nat) : List (Nat × Engine) :=
  let bound := (s.groups.filter fun (e : Nat × Group) => e.2.ctx == c).filterMap fun e =>
    match s.team e.2.team with
    | some t => if t.residence == .resident then some t.core else none
    | none => none
  let busy := (s.cores.filter fun (e : Nat × Core) =>
    e.2.rq.any (·.ctx == c) || e.2.wk.any (·.ctx == c) || e.2.replies.any (·.ctx == c) || e.2.yq.any (·.op.ctx == c)
      || e.2.probes.any (·.ctx == c) || e.2.ops.any (·.ctx == c)).map (·.1)
  let tagged := (s.mtxEntries.filter fun e => e.ctx == c && s.entryHome e).map (·.core)
  let quads := (s.quads.filter fun (e : Nat × Quad) => e.2.table.any (·.ctx == c)).map (·.1)
  (nodup (bound ++ busy ++ tagged)).flatMap (fun k => [(k, .issue), (k, .mem), (k, .async), (k, .relation)])
    ++ quads.map fun q => (q, .matrix)

/-- An engine detects a class H cause: the halt line rises, or the engine adds its own report to a halt in progress. -/
def State.raiseHalt (s : State) (c : Nat) (eng : Engine) (r : Report) : State :=
  let x := s.ctx c
  let r := { r with cls := 1, engine := engineCode eng }
  let s := s.countStop r.core (stopBin r.cause)
  match x.line with
  | none =>
    let sv := s.serving c
    let sv := if sv.contains (r.core, eng) then sv else sv ++ [(r.core, eng)]
    s.modCtx c fun x => { x with line := some r.cause, first := r.cause, serving := sv, reports := [r], nrec := 0 }
  | some _ =>
    if x.reports.any fun q => q.core == r.core && q.engine == r.engine then s
    else s.modCtx c fun x => { x with reports := x.reports ++ [r] }

/-- The issuing gang holds a precise halting fault and stops at the faulting instruction. -/
def State.haltGang (s : State) (v : View) (i : Instr) (cause addr : Nat) : State :=
  (s.modGang v.gid v.kid fun k => { k with wait := .stopped, port := none, walking := none }).raiseHalt v.g.ctx .issue
    (v.report i 1 cause addr 0)

/-- The gang gives up its port and waits. -/
def State.park (s : State) (gid kid : Nat) (w : Wait) : State :=
  s.modGang gid kid fun k => { k with wait := w, port := none }

/-! ### Rings of the save area -/

/-- Write 64 bytes and the header into the save area; a write that cannot be completed makes the context dead (R184, R185). -/
def State.saveRecord (s : State) (c off : Nat) (r : Report) (f : Ctx → Ctx) : State :=
  match s.distWrite c ((s.ctx c).save + off) 64 (r.bits s.dev.mapno) with
  | (s, false) => (s.countStop r.core 8).contextDeath c
  | (s, true) =>
    let s := s.modCtx c f
    match s.distWrite c (s.ctx c).save 32 (s.ctx c).header with
    | (s, false) => (s.countStop r.core 8).contextDeath c
    | (s, true) => s

/-! ### Contained faults (R195) -/

/-- Whether a group can still consume an error: it is there and has not ended (R194, R201). -/
def State.present (s : State) (gid : Nat) : Bool :=
  match s.group gid with
  | some g => g.stage != .exiting
  | none => false

/-- A contained fault: the record, the end of the group, and the abandoned marks of the other groups of its scopes. -/
def State.containedFault (s : State) (gid : Nat) (r : Report) : State :=
  match s.group gid with
  | none => s
  | some g =>
    if (s.ctx g.ctx).line.isSome || g.stage == .exiting then s
    else
      let r := { r with cls := 3 }
      let s := s.countStop r.core (stopBin r.cause)
      let s := s.saveRecord g.ctx (0x1C000 + 64 * ((s.ctx g.ctx).cseq % 256)) r fun x => { x with cseq := x.cseq + 1 }
      let clu := match s.team g.team with | some t => t.cluster | none => 0
      let mark := fun (b : Bool) (s : State) (e : Nat × Group) =>
        if e.1 == gid then s else s.modGroup e.1 fun g => g.setPart b { g.part b with abandoned := true }
      let s := (s.scope false g.team).foldl (mark false) s
      let s := (s.scope true clu).foldl (mark true) s
      s.endGroup gid

/-! ### Trap entry and return (R189 to R191) -/

/-- Where a trapped slice resumes: the instruction after the trapping one, whose latch holds a value or is invalid. -/
def Clause.after (c : Clause) (lat : Option (List Nat × (Nat → Word))) : Dword × Option Clause :=
  if c.slot + 1 = c.count then (c.next, none)
  else (c.addr (c.slot + 1), some { c.latch lat with slot := c.slot + 1 })

/-- The latch of an instruction that has trapped: as valid as its word makes it (R263), in each lane a free value, since the rules give
the trapped instruction no result (log 72). -/
def trappedLatch (i : Instr) (free : Nat) : Option (List Nat × (Nat → Word)) :=
  if hasLatch i then some (List.range 32, fun l => Config.freeWord (free + l)) else none

/-- %trapinfo (R190). -/
def trapInfo (cause islot slices ring : Nat) : Word :=
  BitVec.ofNat 32 (2 * 2 ^ 30 + cause % 256 * 2 ^ 22 + islot % 16 * 2 ^ 18 + slices % 256 * 2 ^ 10 + ring % 256)

/-- Enter the handler (R189, steps 1 and 4 to 6); the tokens of entries that the trapping word's pop flag has popped are applied (R202). -/
def Group.enterHandler (g : Group) (k : Gang) (c : Clause) (lat : Option (List Nat × (Nat → Word))) (cause ring handler now : Nat) :
    Group :=
  let (pc, rest) := c.after lat
  let g := { g with trapinfo := trapInfo cause c.slot (sliceMask k.slices) ring, inHandler := true }
  let g := g.modSlices k.slices fun sl =>
    { sl.sign false none 0 with
      trap := some ⟨pc, sl.active, g.preds, rest, sl.stack.length⟩, pc := BitVec.ofNat 64 handler, popDone := false }
  g.modGang k.id fun k => { k with wait := .no, clause := none, port := none, since := now, origin := none, walking := none }

/-- A class T cause of a gang of a group (R189, R191): the one way in which traps are taken. -/
def State.takeTrap (s : State) (v : View) (i : Instr) (cause aux : Nat) : State :=
  let r := v.report i 2 cause 0 aux
  if v.k.slices.any fun n => (v.g.slice n).trap.isSome then s.haltGang v i 0x08 0
  else if v.x.line.isSome then s.park v.gid v.kid .stopped
  else if v.g.inHandler then s.modGang v.gid v.kid fun k => { k with wait := .trapHeld, port := none }
  else if v.x.trap = 0 then s.containedFault v.gid r
  else
    let ring := v.x.tseq % 256
    let s := s.countStop v.t.core (stopBin cause)
    let s := s.saveRecord v.g.ctx (0x18000 + 64 * ring) r fun x => { x with tseq := x.tseq + 1 }
    { s.modGroup v.gid fun g => g.enterHandler v.k v.c (trappedLatch i s.free) cause ring v.x.trap s.cycle with free := s.free + 32 }

/-- The in-handler flag clears when no live slice runs the handler any more; gangs that waited for it go on (R189, R190). -/
def Group.leaveHandler (g : Group) (now : Nat) : Group :=
  if g.inHandler && !(g.slices.any fun (e : Nat × Slice) => e.2.trap.isSome && e.2.live != 0) then
    { g with inHandler := false
             gangs := mapIf (fun k => k.wait == .trapHeld) (fun k => { k with wait := .no, since := now }) g.gangs }
  else g

/-- Return a gang's slices from the handler (R190, R366): program counter, active mask, predicates, latches and slot as saved. -/
def Group.returnFromTrap (g : Group) (k : Gang) (now : Nat) : Group :=
  let lanes := k.slices.flatMap fun n => [4 * n, 4 * n + 1, 4 * n + 2, 4 * n + 3]
  let save := (k.slices.filterMap fun n => (g.slice n).trap).head?
  match save with
  | none => g
  | some sv =>
    let mask : LaneMask := lanes.foldl (fun m l => m ||| BitVec.twoPow 32 l) 0
    let mix := fun (p : Nat) => (g.preds.getD p 0 &&& ~~~mask) ||| (sv.preds.getD p 0 &&& mask)
    let g := { g with preds := [0, 1, 2, 3, 4, 5, 6].foldl (fun (t : Tab LaneMask) p => t.put p (mix p)) g.preds }
    let g := g.modSlices k.slices fun sl =>
      match sl.trap with
      | some t => { sl with pc := t.pc, active := t.active &&& sl.live, trap := none, popDone := false }
      | none => sl
    (g.modGang k.id fun k => { k with clause := sv.clause, port := none, since := now, wait := .no, origin := none }).leaveHandler now

/-! ### REGANG windows (R23) -/

/-- Whether a gang runs the trap handler (R189). -/
def Group.inside (g : Group) (k : Gang) : Bool := k.slices.any fun n => (g.slice n).trap.isSome

/-- Whether a gang is parked in a REGANG's window: slices that run the handler and slices that do not share none (R23, R362). -/
def Group.inWindow (g : Group) (all : Bool) (addr : Dword) (inH : Bool) (k : Gang) : Bool :=
  k.wait == .regang all addr && g.inside k == inH

/-- Whether a gang at a wait counts as waiting for a plain REGANG's window at an address. -/
def Wait.counts (w : Wait) (addr : Dword) : Bool :=
  match w with
  | .no | .stopped => false
  | .regang all a => !(a == addr && !all)
  | .round _ => false
  | _ => true

/-- Merge the gangs parked in a window by stack signature; they go on after the REGANG (R23). -/
def Group.closeWindow (g : Group) (all : Bool) (addr : Dword) (inH : Bool) (now : Nat) : Group :=
  let here := g.gangs.filter (g.inWindow all addr inH)
  let ns := sortBy (· ≤ ·) (here.flatMap (·.slices))
  let sigs := ns.foldl (fun (acc : List (List Dword)) n =>
    let sg := (g.slice n).stackSig
    if acc.contains sg then acc else acc ++ [sg]) []
  let g := here.foldl (fun (g : Group) (k : Gang) =>
    (g.modGang k.id fun k => { k with wait := .no }).retire k.id now (some 0x28A) 0 false none) g
  match here.head? with
  | none => g
  | some k0 =>
    let mine := fun (k : Gang) (key : Nat) => k.slices.contains (key % 32 / 4)
    let lats := here.foldl (fun (t : Tab Word) (k : Gang) =>
      match k.clause with
      | some c => (c.lats.filter fun e => mine k e.1).foldl (fun (t : Tab Word) e => t.put e.1 e.2) t
      | none => t) []
    let clause := ((g.gang k0.id).bind (·.clause)).map fun c => { c with lats := lats }
    let made := (List.range sigs.length).zip sigs |>.map fun e =>
      { k0 with id := g.nextGang + e.1, slices := ns.filter (fun n => (g.slice n).stackSig == e.2), wait := .no
                clause := clause, port := none, since := now, forced := none, origin := none }
    { g with gangs := (g.gangs.filter fun k => !(here.any (·.id == k.id))) ++ made, nextGang := g.nextGang + sigs.length }

/-- Close every window whose condition holds: a plain one when every live slice that is not waiting has arrived, a .ALL one when
every live slice has; inside the handler only slices of the handler count (R23, R362). -/
def Group.closeWindows (g : Group) (now : Nat) : Group :=
  g.gangs.foldl (fun (g : Group) (k0 : Gang) =>
    match g.gang k0.id with
    | none => g
    | some k =>
      match k.wait with
      | .regang all addr =>
        let inH := g.inside k
        let others := g.gangs.filter fun j => !g.inWindow all addr inH j && (g.inside j == inH || (all && !inH))
        let done := if all then others.isEmpty else others.all fun j => j.wait.counts addr
        if done then g.closeWindow all addr inH now else g
      | _ => g) g

/-- Swap-out of the group is a waiting state: no live slice is left that a plain window waits for, and all of them close (R23). -/
def Group.closePlain (g : Group) (now : Nat) : Group :=
  g.gangs.foldl (fun (g : Group) (k0 : Gang) =>
    match g.gang k0.id with
    | none => g
    | some k =>
      match k.wait with
      | .regang false addr => g.closeWindow false addr (g.inside k) now
      | _ => g) g

/-! ### Issue -/

/-- What an instruction's own effect comes to. -/
inductive Res where
  /-- it completes; the value its latch takes, if it has one -/
  | ok (s : State) (lat : Option (List Nat × (Nat → Word)))
  /-- it completes as a branch: the program counters are set -/
  | branch (s : State)
  /-- a class H cause and its address -/
  | halt (cause addr : Nat)
  /-- a class T cause and its aux -/
  | trap (cause aux : Nat)
  /-- a class C cause, its address and its aux -/
  | contained (cause addr aux : Nat)
  /-- it does not complete now: it waits or stalls and has done what the state says, or it has retired by itself -/
  | hold (s : State)

/-! ### ACCLD and ACCST in flight (R287, R288, R291) -/

/-- Whether an ACCST of a team that has not completed writes some of a range of its scratchpad: later accesses wait for it. -/
def Core.storing (k : Core) (tid : Nat) (ps : List (Nat × Nat)) : Bool :=
  k.replies.any fun o => o.kind == .accst && o.d == tid
    && o.pieces.any fun q => ps.any fun p => overlap q.va q.len p.1 p.2

/-- Whether an ACCLD or an ACCST of a team is in flight on some tiles: an instruction that gives them to an engine waits for it. -/
def Core.moving (k : Core) (tid : Nat) (tiles : List Nat) : Bool :=
  k.replies.any fun o => o.d == tid && (match o.kind with | .accld _ | .accst => true | _ => false)
    && o.pieces.any fun p => (tilesOf p.va p.len).any tiles.contains

/-- The bytes of scratchpad that an instruction reads as its descriptor. -/
def View.descRange (v : View) (i : Instr) : List (Nat × Nat) :=
  match descOf i, (v.active.filter (v.g.guard (guardOf i))).head? with
  | some (a, n), some l => [((v.src a l).toNat, n)]
  | _, _ => []

/-- The opcode that an instruction's word adds to the signatures; SIGCHK and SRSET to %sigreg add none (R202, R372, R374). -/
def signOp (i : Instr) : Option Nat :=
  match i with
  | .sigchk .. => none
  | .srset n _ _ => if n = 0x0D then none else some (opcodeOf i)
  | i => some (opcodeOf i)

/-- The extra token of RCVPUSH (R202). -/
def extraOf (i : Instr) : Word := match i with | .rcvpush .. => pushToken | _ => 0

/-- The pop flag of slot 0 (R19, R253): what each slice of the gang becomes. -/
def View.popped (v : View) : List (Nat × Slice × Bool) :=
  v.k.slices.map fun n => (n, (v.g.slice n).popFlag v.c.hdr)

/-- Whether a slice that the pop flag has acted on executes the instruction in this issue. -/
def staysAt (hdr : Dword) (before after : Slice) : Bool :=
  after.active != 0 && ((after.pc == before.pc && after.stack == before.stack) || (after.popDone && after.pc == hdr))

/-- Apply the pop flag: slices that do not execute the instruction leave the gang, their tokens applied (R19, R20, R202). -/
def Group.applyPop (g : Group) (kid : Nat) (c : Clause) (ps : List (Nat × Slice × Bool)) : Group × List Nat :=
  let stay := (ps.filter fun p => staysAt c.hdr (g.slice p.1) p.2.1).map (·.1)
  let g := ps.foldl (fun (g : Group) p =>
    if stay.contains p.1 then g.modSlice p.1 fun _ => { p.2.1 with pc := c.addr 0, popDone := true }
    else g.modSlice p.1 fun _ => p.2.1.sign g.inHandler none 0) g
  (g.split kid stay, stay)

/-- Deterministic mode: whether the issuing gang must wait for the round: its quantum has ended, or a commit is in progress (R178, R180). -/
def View.roundHolds (v : View) (i : Instr) : Bool :=
  v.x.det && v.g.det.granted != some v.kid &&
    (v.l.grants.isSome || v.g.det.ended || isSync i || decide (4096 * (v.l.round + 1) ≤ v.g.dclock.toNat))

/-- Speculation: whether the issuing gang must wait for its fence (R129). -/
def View.fenceHolds (v : View) (i : Instr) : Bool :=
  match v.k.fence with
  | none => false
  | some f => decide (2 ≤ f.tries) || !speculable i

/-- Whether a wait is at any rendezvous. -/
def Wait.meeting (w : Wait) : Bool := match w with | .rendezvous .. => true | _ => false

/-- When the last gang that could still come has ended, a parked gang executes its instruction again and finds the rendezvous
complete, or divergent (R285). -/
def Group.meetAgain (g : Group) (now : Nat) : Group :=
  match g.gangs with
  | [] => g
  | k :: _ =>
    if g.gangs.all fun k => k.wait.meeting then g.modGang k.id fun k => { k with wait := .no, since := now } else g

/-- In deterministic mode a group observes the completions of its engine operations under some scoreboards: their writes enter its
log, and the flips of their tiles take effect for it (R99, R180). -/
def State.observe (s : State) (gid core : Nat) (sbs : List Nat) : State :=
  match s.group gid with
  | none => s
  | some g =>
    let seen := (s.core core).ops.filter fun o => o.grp == gid && o.isOver && g.det.unseen.contains o.id && sbs.contains o.sb
    if seen.isEmpty then s
    else
      s.modGroup gid fun g => { g with det := { g.det with
        log := g.det.log ++ seen.flatMap EngOp.logBytes
        unseen := g.det.unseen.filter fun id => !(seen.any (·.id == id)) } }.tileFlipped (seen.flatMap EngOp.tiles)

/-- Windows of the group close if its last arrival has come; a rendezvous that waits for nobody is met. -/
def State.closeWindows (s : State) (gid : Nat) : State :=
  s.modGroup gid fun g => (g.closeWindows s.cycle).meetAgain s.cycle

/-- A granted synchronising operation that waits has been executed: its grant is over (R178, R180). -/
def Group.ungrant (g : Group) (kid : Nat) : Group :=
  match g.gang kid with
  | none => g
  | some k =>
    if k.wait != .no && g.det.granted == some kid then { g with det := { g.det with granted := none } } else g

/-- A granted operation that has trapped instead: its grant is over. -/
def Group.ungrantTrapped (g : Group) (kid : Nat) : Group :=
  match g.gang kid with
  | none => g
  | some k =>
    if k.clause.isNone && g.det.granted == some kid then { g with det := { g.det with granted := none } } else g

/-- Finish an issue (R57, R59, R183, R202). While a fence is speculative, faults are held and the gang does not divide. -/
def State.finish (s0 s : State) (v : View) (i : Instr) (r : Res) : State :=
  match r with
  | .ok s lat =>
    (s.modGroup v.gid fun g => g.retire v.kid s.cycle (signOp i) (extraOf i) false lat).closeWindows v.gid
  | .branch s =>
    let s' := s.modGroup v.gid fun g =>
      ((g.retire v.kid s.cycle (signOp i) (extraOf i) true none).modGang v.kid fun k =>
        { k with origin := some (v.c.hdr, v.c.slot) }).split v.kid []
    let whole := match s'.group v.gid with
      | some g => g.gangs.length == v.g.gangs.length
      | none => false
    if v.k.fence.isSome && !whole then s0
    else if (match s'.group v.gid with | some g => g.gangs.isEmpty | none => false) then s'.endGroup v.gid
    else s'.closeWindows v.gid
  | .halt cause addr => if v.k.fence.isSome then s0 else s.haltGang v i cause addr
  | .trap cause aux =>
    if v.k.fence.isSome then s0
    else ((s.takeTrap v i cause aux).modGroup v.gid fun g => g.ungrantTrapped v.kid).closeWindows v.gid
  | .contained cause addr aux =>
    if v.k.fence.isSome then s0
    else if v.x.line.isSome then s.park v.gid v.kid .stopped
    else
      let s := if cause = 0x41 then s.countErr v.t.core 4 else s
      s.containedFault v.gid (v.report i 3 cause addr aux)
  | .hold s => (s.modGroup v.gid fun g => g.ungrant v.kid).closeWindows v.gid

/-- The instruction proper, after the pop flag. -/
def State.run (s0 s : State) (i : Instr) (body : View → State → Res) : State :=
  match s.view with
  | none => s
  | some v => s0.finish s v i (body v s)

/-- The handle that an instruction names, by its place in the state. -/
def View.href (v : View) (h : Hnd) : HRef := if h.clu then .cluster v.t.cluster h.n.toNat else .team v.g.team h.n.toNat

/-- A handle; one that no table lists is IDLE. -/
def State.handle (s : State) (h : HRef) : Handle :=
  match h with
  | .team t n => (match s.team t with | some t => t.handles.getD n Handle.fresh | none => Handle.fresh)
  | .cluster c n => (match s.cluster c with | some c => c.handles.getD n Handle.fresh | none => Handle.fresh)

/-- Columns of a relation descriptor, and the register of one (R36). -/
def relNcol (d : Nat) : Nat := bits d 133 130
def colReg (d c : Nat) : Nat := bits d (169 + 16 * c) (160 + 16 * c)

/-- The column registers that a RELGRP on a live population writes at its end (R44). -/
def View.relCols (v : View) (s : State) (i : Instr) : List (Nat × Nat) :=
  match i with
  | .relgrp _ _ h _ =>
    let x := s.handle (v.href h)
    if x.live then (List.range (relNcol x.desc.toNat)).map fun c => (colReg x.desc.toNat c, 1) else []
  | _ => []

/-- Whether the instruction writes a register of a span that its group holds as a quarter of a B set while an MMA that names the
set is pending: it waits at issue (R141). -/
def State.spanHeld (s : State) (v : View) (i : Instr) : Bool :=
  let q := s.quad (v.t.core / 4)
  q.sets.any fun b =>
    (b.quarters.any fun e => e.2.grp == v.gid &&
      (destsOf i ++ v.relCols s i).any fun d => overlap d.1 d.2 e.2.vb (b.kg * spanRegs b.bfmt))
    && q.table.any fun r => r.launch == b.launch && r.set == b.id

/-- Whether raising a scoreboard would take a counter above 63: the gang stalls (R60). -/
def View.sbFull (v : View) (n : BitVec 3) : Bool := v.k.slices.any fun m => decide (63 ≤ (v.g.slice m).sbOf n.toNat)

/-- One issue of an instruction by the gang of a view. -/
def State.issueIn (s : State) (v : View) (i : Instr) (body : View → State → Res) : State :=
  if !v.x.alive || v.x.halted then s
  else if v.roundHolds i then
    (s.park v.gid v.kid (.round (isSync i))).modGroup v.gid fun g => { g with det := { g.det with ended := true } }
  else if v.fenceHolds i then s
  else if v.g.overrun then
    (s.modGroup v.gid fun g => { g with overrun := false, pmoff := none }).haltGang v i 0x07 0
  else if !operandsOk v.g v.c i then s.finish s v i (.halt 0x04 0)
  else if s.spanHeld v i then s
  else if (sbNamed i).any v.sbFull then s
  else if (s.core v.t.core).storing v.g.team (v.descRange i) then s
  else if popFlagOf i && v.c.slot == 0 && v.k.slices.any (fun n => (v.g.slice n).popFlag v.c.hdr != (v.g.slice n, false)) then
    let ps := v.popped
    if v.k.fence.isSome then s
    else if ps.any fun p => p.2.2 then s.finish s v i (.contained 0x41 0 0)
    else
      let (g, stay) := v.g.applyPop v.kid v.c ps
      let s := s.modGroup v.gid fun _ => g
      if stay.isEmpty then s.closeWindows v.gid else s.run s i body
  else s.run s i body

/-- Issue an instruction: everything about a word but its own effect. With no issuing gang there is nothing to act in. -/
def issue (i : Instr) (s : State) (body : View → State → Res) : Host.Outcome State Fault Refusal :=
  match s.view with
  | none => .fault .noIssuingGang
  | some v => .next (s.issueIn v i body)

/-! ### Tags and operations -/

/-- A free index of the issue record table (R192). -/
def Core.freeTag (k : Core) : Option Nat := (List.range 255).find? fun t => (k.issueRecs.look t).isNone

/-- Open an issue record for the issuing instruction; none when the table is full (R192). -/
def State.openTag (s : State) (v : View) (i : Instr) (refs : Nat) : Option (State × Nat) :=
  match (s.core v.t.core).freeTag with
  | none => none
  | some t =>
    let r := v.report i 0 0 0 0
    let rec_ : IssueRec :=
      ⟨r.opa, r.opb, v.c.hdr, v.g.serial, refs, v.c.slot, v.g.slot, false, v.t.index, v.g.index⟩
    some (s.modCore v.t.core fun k => { k with issueRecs := k.issueRecs.put t rec_ }, t)

/-- Raise a scoreboard of the issuing gang (R60). -/
def State.sbRaise (s : State) (v : View) (n : BitVec 3) : State := s.modGroup v.gid fun g => g.sbUp v.k.slices n.toNat

/-- The .S access checks, in R333's order: the window (class H), then the owner bit (class T). -/
def Team.spadCheck (t : Team) (off n : Nat) : Option (Bool × Nat) :=
  if !t.inWindow off n then some (true, 0x03)
  else if (tilesOf off n).any t.engineSide then some (false, 0x2C)
  else none

end Sys2Proof.Machine
end

