-- ==== Sys2Proof/Machine/Issue.lean ====
section
/-! DEFINITION. How a gang comes to issue: the choice of a port, the fetch of headers and words, and the checks that a word
passes before its meaning runs (R15, R33, R60, R116, R171, R191, R244, R245, R262 to R264, R386). -/
namespace Sys2Proof.Machine

/-! ### Fetch -/

/-- Fetch n words from an address on, up to the first that cannot be fetched. -/
def State.fetchAll (s : State) (core lid ctx : Nat) : Nat → Nat → State × Except (Nat × Fetched) (List Dword)
  | 0, _ => (s, .ok [])
  | n + 1, a =>
    match s.fetch core lid ctx a with
    | (s, .word w) =>
      (match State.fetchAll s core lid ctx n (a + 8) with
        | (s, .ok ws) => (s, .ok (w :: ws))
        | (s, .error e) => (s, .error e))
    | (s, f) => (s, .error (a, f))

/-- Whether a gang runs the trap handler (R190). -/
def Group.handling (g : Group) (k : Gang) : Bool := k.slices.any fun n => (g.slice n).trap.isSome

/-- The report of a fetch by a gang (R186): no operands. -/
def Group.fetchReport (g : Group) (t : Team) (k : Gang) (cls cause addr : Nat) (clause : Dword) (slot : Nat) : Report :=
  { cls := cls, cause := cause, addr := addr, aux := 0, serial := g.serial, team := t.index, clause := clause
    islot := slot, gslot := g.slot, group := g.index, core := t.core, tag := 0xFF, exited := false, precise := true
    engine := 0, slices := sliceMask k.slices, opa := 0, opb := 0 }

/-- A halting fault of a fetch: the gang stops where it stands. A gang that speculates past a fence holds the fault (R129). -/
def State.fetchHalt (s : State) (gid : Nat) (g : Group) (t : Team) (k : Gang) (cause addr : Nat) (clause : Dword)
    (slot : Nat) : State :=
  if k.fence.isSome then s
  else
    (s.modGang gid k.id fun k => { k with wait := .stopped, port := none, walking := none }).raiseHalt g.ctx .issue
      (g.fetchReport t k 1 cause addr clause slot)

/-- A protection fault for a page without x: reported at the branch or call that reached it (R116). -/
def State.fetchNoExec (s : State) (gid : Nat) (g : Group) (t : Team) (k : Gang) (a : Nat) (clause : Dword) (slot : Nat) :
    State :=
  match k.origin with
  | some (h, n) => s.fetchHalt gid g t k 0x03 a h n
  | none => s.fetchHalt gid g t k 0x03 a clause slot

/-- A gang that fetches from an uncorrectable sector, or through a table in one, takes a contained fault (R201). -/
def State.fetchPoison (s : State) (gid : Nat) (g : Group) (t : Team) (k : Gang) (a pa : Nat) (clause : Dword) (slot : Nat) : State :=
  if k.fence.isSome then s
  else
    (s.modGang gid k.id fun k => { k with walking := none }).containedFault gid
      { g.fetchReport t k 3 0x40 a clause slot with aux := s.served pa / 64 }

/-- Ask for a walk for a gang, unless 16 instructions of the core wait already (R109). -/
def State.askWalk (s : State) (core gid kid ctx va : Nat) (fetch : Bool) : State :=
  if 16 ≤ (s.core core).walks.length then s
  else
    (s.modCore core fun c => { c with walks := c.walks ++ [⟨gid, kid, ctx, va, fetch⟩] }).modGang gid kid fun k =>
      { k with walking := some va }

/-! ### Readiness and choice -/

/-- What becomes of a gang that cannot fetch a word of the clause at an address: it waits for a walk, or faults at the clause address
(R116, R264). -/
def State.fetchFails (s : State) (gid : Nat) (g : Group) (t : Team) (k : Gang) (clause : Dword) (slot a : Nat) (f : Fetched) : State :=
  match f with
  | .word _ => s
  | .miss => s.askWalk t.core gid k.id g.ctx a true
  | .noExec => s.fetchNoExec gid g t k a clause slot
  | .halt c ad => s.fetchHalt gid g t k c ad clause slot
  | .poisoned pa => s.fetchPoison gid g t k a pa clause slot

/-- Whether a clause lies inside the kernel's code (R262, R265). -/
def Launch.holdsCode (l : Launch) (a n : Nat) : Bool := decide (l.codeBase ≤ a) && decide (a + n ≤ l.codeEnd)

/-- Whether a gang waits for the host's answer to a page request of one of its accesses (R221). -/
def State.awaitsPage (s : State) (g : Group) (t : Team) (k : Gang) : Bool :=
  !s.dev.priPages.isEmpty && (s.core t.core).yq.any fun y =>
    y.ats && y.op.gang == k.id && (s.group y.op.grp).any (fun h => h.team == g.team && h.serial == g.serial)
      && y.op.pieces.any fun p => s.dev.priPages.contains (y.op.ctx, p.pa / 4096)

/-- Whether a gang is ready for its next clause, or to go on with one that it waited inside (R171, R386). A request for pre-emption does not
stop a team that may not be taken off its core (R141, R197). -/
def State.ready (s : State) (g : Group) (t : Team) (k : Gang) : Bool :=
  let x := s.ctx g.ctx
  g.stage == .running && t.residence == .resident && x.alive && !x.halted && k.wait == .no && k.walking.isNone
    && !k.slices.isEmpty && !s.awaitsPage g t k
    && (match k.clause with
      | some _ => true
      | none => x.line.isNone && (!t.stopping || s.pinned g.team t) && s.maskClear g t k)

/-- A ready gang as the choice of a port sees it. -/
structure Ready where
  gid : Nat
  kid : Nat
  forced : Option Nat
  prio : Nat
  since : Nat
  slot : Nat
  low : Nat
deriving DecidableEq, Repr

/-- Whether one ready gang goes before another (R171). -/
def Ready.before (a b : Ready) : Bool :=
  match a.forced, b.forced with
  | some x, some y => if x == y then decide (a.gid < b.gid) else decide (x < y)
  | some _, none => true
  | none, some _ => false
  | none, none =>
    if a.prio != b.prio then decide (b.prio < a.prio)
    else if a.since != b.since then decide (a.since < b.since)
    else if a.slot != b.slot then decide (a.slot < b.slot)
    else decide (a.low < b.low)

/-- The ready gangs of a core that hold no port. -/
def State.readyGangs (s : State) (core : Nat) : List Ready :=
  s.groups.flatMap fun (e : Nat × Group) =>
    match s.team e.2.team, s.launch e.2.launch with
    | some t, some l =>
      if t.core == core then
        (e.2.gangs.filter fun k => k.port.isNone && s.ready e.2 t k).map fun k =>
          ⟨e.1, k.id, k.forced, bits l.record.toNat 37 36, k.since, e.2.slot, k.slices.headD 0⟩
      else []
    | _, _ => []

/-- The first of a list by an order. -/
def pickReady : List Ready → Option Ready
  | [] => none
  | r :: rs =>
    match pickReady rs with
    | none => some r
    | some q => if q.before r then some q else some r

/-- The gang that holds a port of a core. -/
def State.holder (s : State) (core port : Nat) : Option (Nat × Group × Team × Gang) :=
  (s.groups.flatMap fun (e : Nat × Group) =>
    match s.team e.2.team with
    | some t =>
      if t.core == core then (e.2.gangs.filter fun k => k.port == some port).map fun k => (e.1, e.2, t, k) else []
    | none => []).head?

/-! ### Beginning a clause -/

/-- A gang on a port enters a clause whose header and words have been fetched; in deterministic mode it observes what the wait mask has waited
for (R180). -/
def State.enterClause (s : State) (port gid : Nat) (g : Group) (t : Team) (k : Gang) (pc w : Dword) (ws : List Dword) (h : Header) :
    State :=
  let s := (s.serve t.core g.ctx g.launch).modGang gid k.id fun k =>
    { k with port := some port, forced := none, clause := some (Clause.start pc w ws), alsoWait := none }
  let s := s.modGroup gid fun g => g.modSlices k.slices fun sl => { sl with pc := pc + 8 }
  let waited := (List.range 8).filter fun n => h.wait.getLsbD n || k.alsoWait == some n
  if (s.ctx g.ctx).det then s.observe gid t.core waited else s

/-- The record of an operand error of an MMA, as its group takes it at a clause boundary. It names the MMA by what its issue record says, and not
the clause that would begin here (R118, R186). How aux holds a slot and a cell R186 does not say: the model's choice is slot * 2^16 + cell
(log 56). -/
def OperandError.report (e : OperandError) (r : Report) : Report :=
  { r with
    aux := e.slot * 2 ^ 16 + e.cell, tag := e.tag, clause := e.clause, islot := e.islot, opa := e.opa, opb := e.opb, precise := false }

/-- A gang takes a port and begins its next clause, or goes on with the clause it waited inside (R171, R386). The core fetches every word of
the clause before slot 0 (R263, R264). -/
def State.beginClause (s : State) (port gid kid : Nat) : State :=
  match s.group gid with
  | none => s
  | some g =>
    match g.gang kid, s.team g.team, s.launch g.launch with
    | some k, some t, some l =>
      let pc := g.pcOf k
      if k.clause.isSome then s.modGang gid kid fun k => { k with port := some port, forced := none }
      else
        match g.operandError with
        | some e =>
          (s.modGroup gid fun g => { g with operandError := none }).containedFault gid (e.report (g.fetchReport t k 3 0x43 0 pc 0))
        | none =>
          if !g.handling k && !l.holdsCode pc.toNat 8 then s.fetchHalt gid g t k 0x04 0 pc 0
          else
            match s.fetch t.core g.launch g.ctx pc.toNat with
            | (s, .word w) =>
              (match decodeHeader w with
              | none => s.fetchHalt gid g t k 0x04 0 pc 0
              | some h =>
                if !g.handling k && !l.holdsCode pc.toNat (8 * (h.count + 1)) then s.fetchHalt gid g t k 0x04 0 pc 0
                else
                  match s.fetchAll t.core g.launch g.ctx h.count (pc.toNat + 8) with
                  | (s, .error (a, f)) => s.fetchFails gid g t k pc 0 a f
                  | (s, .ok ws) => s.enterClause port gid g t k pc w ws h)
            | (s, f) => s.fetchFails gid g t k pc 0 pc.toNat f
    | _, _, _ => s

/-- A port chooses (R171). -/
def State.choose (s : State) (core port : Nat) : State :=
  match pickReady (s.readyGangs core) with
  | none => s
  | some r => s.beginClause port r.gid r.kid

/-- CLAUSE_ISSUE: a port of a core begins a clause of one gang (R171). -/
def State.clauseIssue (s : State) (core port : Nat) : State :=
  if 4 ≤ port then s
  else
    match s.holder core port with
    | none => s.choose core port
    | some (gid, g, t, k) =>
      if k.clause.isSome then s
      else if s.ready g t k && !(s.readyGangs core).any (fun r => r.forced.isSome) then s.beginClause port gid k.id
      else (s.modGang gid k.id fun k => { k with port := none }).choose core port

/-- GANG_FORCED: a ready gang has held no port for 256 cycles (R33, R171). -/
def State.gangForced (s : State) (gid kid : Nat) : State :=
  match s.group gid with
  | none => s
  | some g =>
    match g.gang kid, s.team g.team with
    | some k, some t =>
      if k.port.isNone && k.forced.isNone && s.ready g t k && decide (k.since + 256 ≤ s.cycle) then
        s.modGang gid kid fun k => { k with forced := some s.cycle }
      else s
    | _, _ => s

/-! ### One instruction of a clause -/

/-- The word in the current slot of a clause, checked against the header (R245, R262). -/
def wordOf (c : Clause) (w : Dword) : Option Instr :=
  if wordClass w != c.header.cls then none
  else
    match decode w with
    | .error _ => none
    | .ok i => if i.endsClause && c.slot + 1 != c.count then none else some i

/-- The form of a CSTATE as its lowest executing lane's operation selects it (log 10). -/
def resolve (i : Instr) (s : State) : Instr :=
  match i, s.view with
  | .cstateRead d a b g, some v =>
    match (v.lanes g).head? with
    | none => i
    | some l =>
      let op := (v.src b l).toNat
      if op = 1 then .cstateReserve d a b g else if op = 2 then .cstateRelease d a b g else i
  | _, _ => i

/-- A clause whose words are to be fetched again, after its context has been halted, fetches them (R188, R264). -/
def State.refetch (s : State) (gid : Nat) (g : Group) (t : Team) (k : Gang) (c : Clause) : State × Option (List Dword) :=
  if !c.words.isEmpty then (s, some c.words)
  else
    match s.fetchAll t.core g.launch g.ctx c.count (c.addr 0).toNat with
    | (s, .ok ws) => (s.modGang gid k.id fun k => { k with clause := some { c with words := ws } }, some ws)
    | (s, .error (a, f)) => (s.fetchFails gid g t k c.hdr c.slot a f, none)

/-- The instruction that the gang holding a port issues next becomes the focus, or the state shows why it does not issue. -/
def State.fetchNext (s : State) (core port : Nat) : State × Option Instr :=
  match s.holder core port with
  | none => (s, none)
  | some (gid, g, t, k) =>
    match k.clause with
    | none => (s, none)
    | some c =>
      if k.walking.isSome || (s.ctx g.ctx).halted || s.awaitsPage g t k then (s, none)
      else
        match s.refetch gid g t k c with
        | (s, none) => (s, none)
        | (s, some ws) =>
          match wordOf c (ws.getD c.slot 0) with
          | none => (s.fetchHalt gid g t k 0x04 0 c.hdr c.slot, none)
          | some i =>
            let s' := { s with focus := some (gid, k.id) }
            if s'.view.isNone then (s, none) else (s', some (resolve i s'))

/-- A core's instruction cache, or its constant cache, gives up the word at a position (R105, R264). -/
def State.loseWord (s : State) (core : Nat) (code : Bool) (n : Nat) : State :=
  s.modCore core fun k =>
    if code then { k with icache := dropAt k.icache n } else { k with ccache := dropAt k.ccache n }

/-! ### Clocks -/

/-- Whether clocks run: bring-up is over and has found its images, and the device has not tripped since (R209, R218, R229). -/
def State.clocked (s : State) : Bool := s.dev.boot == 6 && !s.dev.tripped

/-- The events that come to pass all the same: resets, the loss of power, and reads of the host port, which a device whose bring-up has failed
answers with its status word (R229). -/
def unclocked (t : Turn) : Bool :=
  match t with
  | .event .coldReset => true
  | .event .warmReset => true
  | .event .powerLoss => true
  | .event (.hostPeerRead ..) => true
  | _ => false

/-- The state as a turn finds it: a cycle has passed, while clocks run (R61). -/
def State.passCycle (s : State) (n : Nat) : State := if s.clocked then { s with cycle := s.cycle + n } else s

/-- The meaning of CLAUSE_ISSUE. -/
def execClauseIssue (core port : Nat) (s : State) : Host.Outcome State Fault Refusal := .next (s.clauseIssue core port)

/-- The meaning of GANG_FORCED. -/
def execGangForced (gid kid : Nat) (s : State) : Host.Outcome State Fault Refusal := .next (s.gangForced gid kid)

end Sys2Proof.Machine
end

