-- ==== Sys2Proof/Machine/Valu.lean ====
section
/-! DEFINITION. VALU: integer, bitwise, shift, move and predicate instructions (R302, R306, R312, R327 to R329, R336, R339,
R350, R352, R355, R368, R369, R371). -/
namespace Sys2Proof.Machine

/-- Write a value to register d in each executing lane unless .NW; the latch takes it (R57, R59). -/
def View.put (v : View) (s : State) (nw : Bool) (d : BitVec 10) (ls : List Nat) (f : Nat → Word) : Res :=
  .ok (if nw then s else s.modGroup v.gid fun g => g.setRegs d.toNat ls f) (some (ls, f))

/-- Write a truth value to predicate pd in each executing lane unless .NW; the latch takes 1 or 0 (R58). -/
def View.putPred (v : View) (s : State) (nw : Bool) (pd : BitVec 3) (ls : List Nat) (f : Nat → Bool) : Res :=
  .ok (if nw then s else s.modGroup v.gid fun g => g.setPreds pd ls f) (some (ls, fun l => if f l then 1 else 0))

def View.map1 (v : View) (s : State) (o : V1) (f : Word → Word) : Res :=
  v.put s o.nw o.d (v.lanes o.g) fun l => f (v.src o.a l)

def View.map2 (v : View) (s : State) (o : V2) (f : Word → Word → Word) : Res :=
  v.put s o.nw o.d (v.lanes o.g) fun l => f (v.src o.a l) (v.src o.b l)

def View.map3 (v : View) (s : State) (o : V3) (f : Word → Word → Word → Word) : Res :=
  v.put s o.nw o.d (v.lanes o.g) fun l => f (v.src o.a l) (v.src o.b l) (v.src o.c l)

/-! ### The functions of a lane -/

/-- A word as a number of its type (R72). -/
def intOf (ty : IntTy) (a : Word) : Int := match ty with | .i32 => a.toInt | .n32 => a.toNat

/-- IMIN, IMAX (R327). -/
def minOf (ty : IntTy) (a b : Word) : Word := if intOf ty a ≤ intOf ty b then a else b
def maxOf (ty : IntTy) (a b : Word) : Word := if intOf ty a ≤ intOf ty b then b else a

/-- IABS (R327). -/
def absOf (a : Word) : Word := if a.msb then -a else a

/-- ICMP's relations (R328). -/
def iccHolds (cc : ICc) (ty : IntTy) (a b : Word) : Bool :=
  match cc with
  | .eq => a == b
  | .ne => a != b
  | .lt => decide (intOf ty a < intOf ty b)
  | .le => decide (intOf ty a ≤ intOf ty b)
  | .gt => decide (intOf ty b < intOf ty a)
  | .ge => decide (intOf ty b ≤ intOf ty a)

/-- IMUL's exact product mod 2^64 (R329). -/
def product (ty : IntTy) (a b : Word) : Dword := BitVec.ofInt 64 (intOf ty a * intOf ty b)

/-- One bit of a truth table, a selecting the lowest bit of the index (R249). -/
def tableBit (tbl : BitVec 8) (a b c : Bool) : Bool := tbl.getLsbD (b2n a + 2 * b2n b + 4 * b2n c)

/-- A word from its bits. -/
def wordOfBits (f : Nat → Bool) : Word :=
  BitVec.ofNat 32 ((List.range 32).foldl (fun n i => n + b2n (f i) * 2 ^ i) 0)

/-- LOP3 (R336). -/
def lop3Of (tbl : BitVec 8) (a b c : Word) : Word :=
  wordOfBits fun i => tableBit tbl (a.getLsbD i) (b.getLsbD i) (c.getLsbD i)

/-- SHL, SHR (R371). -/
def shlOf (a b : Word) : Word := a <<< (b.toNat % 32)
def shrOf (arith : Bool) (a b : Word) : Word := if arith then a.sshiftRight (b.toNat % 32) else a >>> (b.toNat % 32)

/-- SHF on the pair b:a (R369). -/
def shfOf (right : Bool) (a b c : Word) : Word :=
  let x : Dword := b ++ a
  if right then (x >>> (c.toNat % 32)).truncate 32 else (x <<< (c.toNat % 32)).extractLsb' 32 32

/-- POPC (R352). -/
def popcOf (a : Word) : Word := BitVec.ofNat 32 ((List.range 32).filter a.getLsbD).length

/-- CLZ (R312). -/
def clzOf (a : Word) : Word := if a = 0 then 32 else BitVec.ofNat 32 (31 - Nat.log2 a.toNat)

/-- BREV (R306). -/
def brevOf (a : Word) : Word := wordOfBits fun i => a.getLsbD (31 - i)

/-- BFX (R302). -/
def bfxOf (ty : IntTy) (a b c : Word) : Word :=
  let pos := b.toNat % 256
  let wd := c.toNat % 256
  if wd = 0 ∨ 32 ≤ pos then 0
  else
    let v := min wd (32 - pos)
    let fx := a.toNat / 2 ^ pos % 2 ^ v
    match ty with
    | .n32 => BitVec.ofNat 32 fx
    | .i32 => if bit fx (v - 1) then BitVec.ofNat 32 (fx + (2 ^ 32 - 2 ^ v)) else BitVec.ofNat 32 fx

/-- BFI over the destination's old value (R302). -/
def bfiOf (old a b c : Word) : Word :=
  let pos := b.toNat % 256
  let wd := c.toNat % 256
  if wd = 0 ∨ 32 ≤ pos then old
  else
    let mask : Word := BitVec.ofNat 32 ((2 ^ min wd (32 - pos) - 1) * 2 ^ pos)
    (old &&& ~~~mask) ||| ((a <<< pos) &&& mask)

/-- One byte of PRMT's result (R355). -/
def prmtByte (x : Dword) (c : Word) (i : Nat) : Nat :=
  let y := bits x.toNat (8 * bits c.toNat (3 * i + 2) (3 * i) + 7) (8 * bits c.toNat (3 * i + 2) (3 * i))
  match bits c.toNat (12 + 2 * i + 1) (12 + 2 * i) with
  | 0 => y
  | 1 => 0
  | 2 => 0xFF
  | _ => if 128 ≤ y then 0xFF else 0

/-- PRMT (R355). -/
def prmtOf (a b c : Word) : Word :=
  let x : Dword := b ++ a
  BitVec.ofNat 32 (prmtByte x c 0 + 2 ^ 8 * prmtByte x c 1 + 2 ^ 16 * prmtByte x c 2 + 2 ^ 24 * prmtByte x c 3)

/-- MOVI's value (R339). -/
def moviOf : MoviImm → Word
  | .short v => v.signExtend 32
  | .long v => v

/-! ### Special registers of numbers 0 to 7 (R61) -/

/-- The logical core of a physical core: its quad's place in the map (R9, R61). -/
def State.logicalCore (s : State) (core : Nat) : Nat :=
  match findPos (fun q => q == some (core / 4)) s.dev.map with
  | some q => 4 * q + core % 4
  | none => 0

/-- A special register of number 0 to 7, as a lane reads it (R61). -/
def View.special (v : View) (s : State) (num l : Nat) : Word :=
  let log := s.logicalCore v.t.core
  match num with
  | 0 => BitVec.ofNat 32 l
  | 1 => BitVec.ofNat 32 (l / 4)
  | 2 => BitVec.ofNat 32 v.g.index
  | 3 => BitVec.ofNat 32 v.t.index
  | 4 => BitVec.ofNat 32 (v.t.core * 2 ^ 16 + log)
  | 5 => BitVec.ofNat 32 (v.l.mapno % 2 ^ 16 * 2 ^ 16 + v.t.core / 4 * 2 ^ 8 + log / 4)
  | 6 => BitVec.ofNat 32 (match s.cluster v.t.cluster with | some c => c.index | none => 0)
  | _ => BitVec.ofNat 32 v.g.ctx

/-! ### Meanings -/

def execIadd (o : V2) (s : State) : Host.Outcome State Fault Refusal := issue (.iadd o) s fun v s => v.map2 s o (· + ·)

def execIsub (o : V2) (s : State) : Host.Outcome State Fault Refusal := issue (.isub o) s fun v s => v.map2 s o (· - ·)

/-- IMUL; .WIDE writes a pair and its latch takes the low word (R329). -/
def execImul (o : V2) (k : MulKind) (ty : IntTy) (s : State) : Host.Outcome State Fault Refusal :=
  issue (.imul o k ty) s fun v s =>
    match k with
    | .lo => v.map2 s o fun a b => (product ty a b).truncate 32
    | .hi => v.map2 s o fun a b => (product ty a b).extractLsb' 32 32
    | .wide =>
      let ls := v.lanes o.g
      let p := fun l => product ty (v.src o.a l) (v.src o.b l)
      .ok (if o.nw then s else s.modGroup v.gid fun g => g.setPairs o.d.toNat ls p) (some (ls, fun l => (p l).truncate 32))

def execImad (o : V3) (s : State) : Host.Outcome State Fault Refusal :=
  issue (.imad o) s fun v s => v.map3 s o fun a b c => a * b + c

def execImin (o : V2) (ty : IntTy) (s : State) : Host.Outcome State Fault Refusal :=
  issue (.imin o ty) s fun v s => v.map2 s o (minOf ty)

def execImax (o : V2) (ty : IntTy) (s : State) : Host.Outcome State Fault Refusal :=
  issue (.imax o ty) s fun v s => v.map2 s o (maxOf ty)

def execIabs (o : V1) (s : State) : Host.Outcome State Fault Refusal := issue (.iabs o) s fun v s => v.map1 s o absOf

def execIcmp (o : VP2) (cc : ICc) (ty : IntTy) (s : State) : Host.Outcome State Fault Refusal :=
  issue (.icmp o cc ty) s fun v s =>
    v.putPred s o.nw o.pd (v.lanes o.g) fun l => iccHolds cc ty (v.src o.a l) (v.src o.b l)

def execLop3 (o : V3) (tbl : BitVec 8) (s : State) : Host.Outcome State Fault Refusal :=
  issue (.lop3 o tbl) s fun v s => v.map3 s o (lop3Of tbl)

def execShl (o : V2) (s : State) : Host.Outcome State Fault Refusal := issue (.shl o) s fun v s => v.map2 s o shlOf

def execShr (o : V2) (arith : Bool) (s : State) : Host.Outcome State Fault Refusal :=
  issue (.shr o arith) s fun v s => v.map2 s o (shrOf arith)

def execShf (o : V3) (right : Bool) (s : State) : Host.Outcome State Fault Refusal :=
  issue (.shf o right) s fun v s => v.map3 s o (shfOf right)

def execPopc (o : V1) (s : State) : Host.Outcome State Fault Refusal := issue (.popc o) s fun v s => v.map1 s o popcOf

def execClz (o : V1) (s : State) : Host.Outcome State Fault Refusal := issue (.clz o) s fun v s => v.map1 s o clzOf

def execBrev (o : V1) (s : State) : Host.Outcome State Fault Refusal := issue (.brev o) s fun v s => v.map1 s o brevOf

def execBfx (o : V3) (ty : IntTy) (s : State) : Host.Outcome State Fault Refusal :=
  issue (.bfx o ty) s fun v s => v.map3 s o (bfxOf ty)

def execBfi (o : V3) (s : State) : Host.Outcome State Fault Refusal :=
  issue (.bfi o) s fun v s =>
    v.put s o.nw o.d (v.lanes o.g) fun l => bfiOf (v.g.reg o.d.toNat l) (v.src o.a l) (v.src o.b l) (v.src o.c l)

def execPrmt (o : V3) (s : State) : Host.Outcome State Fault Refusal := issue (.prmt o) s fun v s => v.map3 s o prmtOf

def execSel (o : V2) (pc : BitVec 3) (s : State) : Host.Outcome State Fault Refusal :=
  issue (.sel o pc) s fun v s =>
    v.put s o.nw o.d (v.lanes o.g) fun l => if v.g.pred pc l then v.src o.a l else v.src o.b l

def execMov (o : V1) (s : State) : Host.Outcome State Fault Refusal := issue (.mov o) s fun v s => v.map1 s o id

def execMovi (nw : Bool) (d : BitVec 10) (imm : MoviImm) (gd : Guard) (s : State) : Host.Outcome State Fault Refusal :=
  issue (.movi nw d imm gd) s fun v s => v.put s nw d (v.lanes gd) fun _ => moviOf imm

def execMovs (nw : Bool) (d : BitVec 10) (num : BitVec 3) (gd : Guard) (s : State) : Host.Outcome State Fault Refusal :=
  issue (.movs nw d num gd) s fun v s => v.put s nw d (v.lanes gd) fun l => v.special s num.toNat l

def execPlop (o : PlopOp) (s : State) : Host.Outcome State Fault Refusal :=
  issue (.plop o) s fun v s =>
    v.putPred s o.nw o.pd (v.lanes o.g) fun l => tableBit o.tbl (v.g.pred o.pa l) (v.g.pred o.pb l) (v.g.pred o.pc l)

end Sys2Proof.Machine
end

