-- ==== Sys2Proof/Machine/Float.lean ====
section
/-! DEFINITION. VALU: float instructions, conversion, I4X units and random streams (R316, R319 to R321, R323, R356 to R359). -/
namespace Sys2Proof.Machine

/-- The float format of a form (R255). -/
def formFF : FForm → FF | .f32 => .f32 | .f16x2 => .f16 | .b16x2 => .b16

/-- Apply a function to a word's one or two elements; the flags of both are ORed (R67). -/
def packed (fm : FForm) (f : Nat → Nat × Word) : Word × Word :=
  match fm with
  | .f32 => let (r, fl) := f 0; (BitVec.ofNat 32 r, fl)
  | _ =>
    let (r0, f0) := f 0
    let (r1, f1) := f 1
    (BitVec.ofNat 32 (r0 + 2 ^ 16 * r1), f0 ||| f1)

/-- Element e of a word as a code (R67). -/
def element (fm : FForm) (a : Word) (e : Nat) : Nat :=
  match fm with
  | .f32 => a.toNat
  | _ => a.toNat / 2 ^ (16 * e) % 2 ^ 16

/-- The operations on codes, per word. -/
def addF (fm : FForm) (a b : Word) : Word × Word :=
  packed fm fun e => (formFF fm).add ((formFF fm).decode (element fm a e)) ((formFF fm).decode (element fm b e))
def mulF (fm : FForm) (a b : Word) : Word × Word :=
  packed fm fun e => (formFF fm).mul ((formFF fm).decode (element fm a e)) ((formFF fm).decode (element fm b e))
def fmaF (fm : FForm) (a b c : Word) : Word × Word :=
  packed fm fun e => (formFF fm).fma ((formFF fm).decode (element fm a e)) ((formFF fm).decode (element fm b e))
    ((formFF fm).decode (element fm c e))
def minmaxF (fm : FForm) (isMax : Bool) (a b : Word) : Word × Word :=
  packed fm fun e => (formFF fm).minmax isMax (element fm a e) (element fm b e)
def unaryF (fm : FForm) (f : FF → FVal → Nat × Word) (a : Word) : Word × Word :=
  packed fm fun e => f (formFF fm) ((formFF fm).decode (element fm a e))

/-- Results and flags of the executing lanes: the flags are ORed into %fstat and the results are written (R57, R62, R80). -/
def View.putF (v : View) (s : State) (nw : Bool) (d : BitVec 10) (ls : List Nat) (f : Nat → Word × Word) : Res :=
  let fl := ls.foldl (fun a l => a ||| (f l).2) 0
  v.put (s.modGroup v.gid (·.raise v.kid fl)) nw d ls fun l => (f l).1

def View.float1 (v : View) (s : State) (o : V1) (f : Word → Word × Word) : Res :=
  v.putF s o.nw o.d (v.lanes o.g) fun l => f (v.src o.a l)

def View.float2 (v : View) (s : State) (o : V2) (f : Word → Word → Word × Word) : Res :=
  v.putF s o.nw o.d (v.lanes o.g) fun l => f (v.src o.a l) (v.src o.b l)

def execFadd (o : V2) (fm : FForm) (s : State) : Host.Outcome State Fault Refusal :=
  issue (.fadd o fm) s fun v s => v.float2 s o (addF fm)

def execFmul (o : V2) (fm : FForm) (s : State) : Host.Outcome State Fault Refusal :=
  issue (.fmul o fm) s fun v s => v.float2 s o (mulF fm)

def execFfma (o : V3) (fm : FForm) (s : State) : Host.Outcome State Fault Refusal :=
  issue (.ffma o fm) s fun v s =>
    v.putF s o.nw o.d (v.lanes o.g) fun l => fmaF fm (v.src o.a l) (v.src o.b l) (v.src o.c l)

def execFmin (o : V2) (fm : FForm) (s : State) : Host.Outcome State Fault Refusal :=
  issue (.fmin o fm) s fun v s => v.float2 s o (minmaxF fm false)

def execFmax (o : V2) (fm : FForm) (s : State) : Host.Outcome State Fault Refusal :=
  issue (.fmax o fm) s fun v s => v.float2 s o (minmaxF fm true)

/-- FCMP of two words: the relation in every element, and the flags (R321). -/
def fcmpOf (fm : FForm) (cc : FCc) (a b : Word) : Bool × Word :=
  let one := fun (e : Nat) =>
    let x := (formFF fm).decode (element fm a e)
    let y := (formFF fm).decode (element fm b e)
    (fccHolds cc (cmpVal x y), x.nvOf ||| y.nvOf)
  match fm with
  | .f32 => one 0
  | _ => ((one 0).1 && (one 1).1, (one 0).2 ||| (one 1).2)

def execFcmp (o : VP2) (cc : FCc) (fm : FForm) (s : State) : Host.Outcome State Fault Refusal :=
  issue (.fcmp o cc fm) s fun v s =>
    let ls := v.lanes o.g
    let r := fun l => fcmpOf fm cc (v.src o.a l) (v.src o.b l)
    let fl := ls.foldl (fun a l => a ||| (r l).2) 0
    v.putPred (s.modGroup v.gid (·.raise v.kid fl)) o.nw o.pd ls fun l => (r l).1

def execFcls (o : V1) (fm : FForm) (s : State) : Host.Outcome State Fault Refusal :=
  issue (.fcls o fm) s fun v s => v.map1 s o fun a => (packed fm fun e => ((formFF fm).cls (element fm a e), 0)).1

def execFrcp (o : V1) (fm : FForm) (s : State) : Host.Outcome State Fault Refusal :=
  issue (.frcp o fm) s fun v s => v.float1 s o (unaryF fm FF.rcp)

def execFrsq (o : V1) (fm : FForm) (s : State) : Host.Outcome State Fault Refusal :=
  issue (.frsq o fm) s fun v s => v.float1 s o (unaryF fm FF.rsq)

def execFsqrt (o : V1) (fm : FForm) (s : State) : Host.Outcome State Fault Refusal :=
  issue (.fsqrt o fm) s fun v s => v.float1 s o (unaryF fm FF.sqrt)

def execFexp2 (o : V1) (fm : FForm) (s : State) : Host.Outcome State Fault Refusal :=
  issue (.fexp2 o fm) s fun v s => v.float1 s o (unaryF fm FF.exp2)

def execFlog2 (o : V1) (fm : FForm) (s : State) : Host.Outcome State Fault Refusal :=
  issue (.flog2 o fm) s fun v s => v.float1 s o (unaryF fm FF.log2)

/-- The class T cause of a conversion that traps (R183). -/
def CvtTrap.cause : CvtTrap → Nat | .overflow => 0x28 | .invalid => 0x29

/-- A conversion's result and flags; zero where it traps. -/
def cvtOk : Except CvtTrap (Nat × Word) → Word × Word
  | .ok (r, fl) => (BitVec.ofNat 32 r, fl)
  | .error _ => (0, 0)

/-- The first trap among some lanes (R77: any lane that would trap stops them all; the lowest names the cause, log 13). -/
def firstTrap (ls : List Nat) (f : Nat → Except CvtTrap (Nat × Word)) : Option CvtTrap :=
  (ls.filterMap fun l => match f l with | .error t => some t | .ok _ => none).head?

def execCvt (o : V1) (dst src : Fmt) (pol : Pol) (rm : Rnd) (s : State) : Host.Outcome State Fault Refusal :=
  issue (.cvt o dst src pol rm) s fun v s =>
    let ls := v.lanes o.g
    let r := fun l => cvt (fmtValue src (v.src o.a l).toNat) dst rm pol
    match firstTrap ls r with
    | some t => .trap t.cause 0
    | none => v.putF s o.nw o.d ls fun l => cvtOk (r l)

def execQpack (o : V2) (c : BitVec 10) (s : State) : Host.Outcome State Fault Refusal :=
  issue (.qpack o c) s fun v s =>
    let f := fun (w : Word) => FF.decode .f32 w.toNat
    v.putF s o.nw o.d (v.lanes o.g) fun l =>
      let (u, fl, _) := packUnit (f (v.src o.a l)) (f (v.src o.b l)) (f (v.g.reg c.toNat l)) (f (v.g.reg (c.toNat + 1) l))
      (BitVec.ofNat 32 u, fl)

/-- An element of a unit as F32: exact (R357). -/
def unitF32 (x : FVal) : Word := (cvtOk (cvt x .f32 .rn .sat)).1

def execQunpk (o : V1) (e : BitVec 2) (s : State) : Host.Outcome State Fault Refusal :=
  issue (.qunpk o e) s fun v s =>
    let ls := v.lanes o.g
    let bad := ls.filter fun l => (decodeUnit ((v.src o.a l).toNat % 2 ^ 16)).isNone
    v.put (s.modGroup v.gid (·.malformed v.kid bad.length)) o.nw o.d ls fun l =>
      match decodeUnit ((v.src o.a l).toNat % 2 ^ 16) with
      | none => 0
      | some es => match es[e.toNat]? with
        | some x => unitF32 x
        | none => 0

/-- The rank of a lane (R14, R34, R173). -/
def Group.rank (g : Group) (l : Nat) : Nat := g.rank0 + l

/-- RAND's number from a key, a rank and a stream counter (R359). -/
def randOf (key : Dword) (rank k : Nat) : Dword :=
  let x := key ^^^ BitVec.ofNat 64 (rank % 2 ^ 24 * 2 ^ 40 + k)
  let z := x ^^^ (x >>> 30)
  let z := z * 0xBF58476D1CE4E5B9
  let z := z ^^^ (z >>> 27)
  let z := z * 0x94D049BB133111EB
  z ^^^ (z >>> 31)

def execRand (nw : Bool) (d k : BitVec 10) (gd : Guard) (s : State) : Host.Outcome State Fault Refusal :=
  issue (.rand nw d k gd) s fun v s =>
    let ls := v.lanes gd
    let ctr := fun l => v.g.rand.getD l 0
    if ls.any fun l => decide (2 ^ 40 ≤ ctr l) then .trap 0x2A 0
    else
      let z := fun l => randOf (v.g.pair k.toNat l) (v.g.rank l) (ctr l)
      .ok (s.modGroup v.gid fun g =>
          let g := if nw then g else g.setPairs d.toNat ls z
          { g with rand := ls.foldl (fun (t : Tab Nat) l => t.put l (ctr l + 1)) g.rand })
        (some (ls, fun l => (z l).truncate 32))

end Sys2Proof.Machine
end

