-- ==== Sys2Proof/Machine/Xfer.lean ====
section
/-! DEFINITION. XFER: shuffles, votes, group reductions, scans and matches (R326, R337, R370, R382). -/
namespace Sys2Proof.Machine

/-- The source lane of a SHFL, if it is in range (R370). -/
def shflSource (m : ShflMode) (l : Nat) (b : Word) : Option Nat :=
  match m with
  | .abs => if b.toNat ≤ 31 then some b.toNat else none
  | .rel =>
    let j : Int := l + b.toInt
    if 0 ≤ j ∧ j ≤ 31 then some j.toNat else none
  | .rot => some ((l + b.toNat) % 32)
  | .bfly => let j := (BitVec.ofNat 32 l ^^^ b).toNat; if j ≤ 31 then some j else none

/-- The valid source lane of a SHFL: in range and active in the issuing gang (R370). -/
def View.shflFrom (v : View) (o : ShflArgs) (l : Nat) : Option Nat :=
  match shflSource o.mode l (v.src o.b l) with
  | some j => if v.active.contains j then some j else none
  | none => none

def execShfl (o : ShflArgs) (s : State) : Host.Outcome State Fault Refusal :=
  issue (.shfl o) s fun v s =>
    let ls := v.lanes o.g
    let r := fun l => v.src o.a ((v.shflFrom o l).getD l)
    .ok (s.modGroup v.gid fun g => (g.setRegs o.d.toNat ls r).setPreds o.pv ls fun l => (v.shflFrom o l).isSome)
      (some (ls, r))

def execVote (k : VoteKind) (d : BitVec 10) (pa : BitVec 3) (gd : Guard) (s : State) : Host.Outcome State Fault Refusal :=
  issue (.vote k d pa gd) s fun v s =>
    let ls := v.lanes gd
    match k with
    | .all => v.putPred s false (d.truncate 3) ls fun _ => ls.all (v.g.pred pa)
    | .any => v.putPred s false (d.truncate 3) ls fun _ => ls.any (v.g.pred pa)
    | .bal => v.put s false d ls fun _ => wordOfBits fun l => ls.contains l && v.g.pred pa l

/-- The float form of a reduction type. -/
def redForm : RedTy → Option FForm
  | .f32 => some .f32 | .f16x2 => some .f16x2 | .b16x2 => some .b16x2 | _ => none

/-- The identity of a reduction (R82). -/
def redIdentity (op : RedOp) (ty : RedTy) : Word :=
  match op, ty with
  | .add, .i32 | .add, .n32 => 0
  | .add, .f32 => 0x80000000
  | .add, _ => 0x80008000
  | .min, .i32 => 0x7FFFFFFF
  | .min, .n32 => 0xFFFFFFFF
  | .min, .f32 => 0x7F800000
  | .min, .f16x2 => 0x7C007C00
  | .min, .b16x2 => 0x7F807F80
  | .max, .i32 => 0x80000000
  | .max, .n32 => 0
  | .max, .f32 => 0xFF800000
  | .max, .f16x2 => 0xFC00FC00
  | .max, .b16x2 => 0xFF80FF80
  | .and, _ => 0xFFFFFFFF
  | .or, _ | .xor, _ => 0

/-- A reduction's operation and its flags (R326). -/
def redApply (op : RedOp) (ty : RedTy) (a b : Word) : Word × Word :=
  match redForm ty with
  | some fm =>
    match op with
    | .add => addF fm a b
    | .min => minmaxF fm false a b
    | .max => minmaxF fm true a b
    | _ => (a, 0)
  | none =>
    let it : IntTy := if ty = .i32 then .i32 else .n32
    match op with
    | .add => (a + b, 0)
    | .min => (minOf it a b, 0)
    | .max => (maxOf it a b, 0)
    | .and => (a &&& b, 0)
    | .or => (a ||| b, 0)
    | .xor => (a ^^^ b, 0)

/-- Combine two values with their flags. -/
def redJoin (op : RedOp) (ty : RedTy) (a b : Word × Word) : Word × Word :=
  let r := redApply op ty a.1 b.1
  (r.1, a.2 ||| b.2 ||| r.2)

/-- The fixed tree over lane numbers: the node of 2^k lanes from lo (R326). -/
def redNode (op : RedOp) (ty : RedTy) (x : Nat → Word) : Nat → Nat → Word × Word
  | 0, lo => (x lo, 0)
  | k + 1, lo => redJoin op ty (redNode op ty x k lo) (redNode op ty x k (lo + 2 ^ k))

/-- The value of a scan over [0, m): aligned blocks, the largest first (R326). -/
def scanOver (op : RedOp) (ty : RedTy) (x : Nat → Word) (m : Nat) : Word × Word :=
  let r := [5, 4, 3, 2, 1, 0].foldl (fun (acc : Option (Word × Word) × Nat) k =>
    if bit m k then
      let n := redNode op ty x k acc.2
      (some (match acc.1 with | none => n | some a => redJoin op ty a n), acc.2 + 2 ^ k)
    else acc) (none, 0)
  match r.1 with
  | some v => v
  | none => (redIdentity op ty, 0)

/-- What each lane contributes (R326). -/
def View.contribution (v : View) (a : Src) (op : RedOp) (ty : RedTy) (ls : List Nat) (l : Nat) : Word :=
  if ls.contains l then v.src a l else redIdentity op ty

def execGred (d : BitVec 10) (a : Src) (op : RedOp) (ty : RedTy) (gd : Guard) (s : State) : Host.Outcome State Fault Refusal :=
  issue (.gred d a op ty gd) s fun v s =>
    let ls := v.lanes gd
    let r := redNode op ty (v.contribution a op ty ls) 5 0
    v.putF s false d ls fun _ => r

def execGscan (d : BitVec 10) (a : Src) (exc : Bool) (op : RedOp) (ty : RedTy) (gd : Guard) (s : State) :
    Host.Outcome State Fault Refusal :=
  issue (.gscan d a exc op ty gd) s fun v s =>
    let ls := v.lanes gd
    v.putF s false d ls fun l => scanOver op ty (v.contribution a op ty ls) (if exc then l else l + 1)

def execMatchv (d : BitVec 10) (a : Src) (gd : Guard) (s : State) : Host.Outcome State Fault Refusal :=
  issue (.matchv d a gd) s fun v s =>
    let ls := v.lanes gd
    v.put s false d ls fun l => wordOfBits fun k => ls.contains k && v.src a k == v.src a l

end Sys2Proof.Machine
end

