-- ==== Sys2Proof/Machine/Access.lean ====
section
/-! DEFINITION. Memory operations of threads: address checks, the read-modify-write functions, operations in flight and their
completion (R103 to R109, R122 to R128, R133, R160, R192, R199, R231, R294). -/
namespace Sys2Proof.Machine

/-! ### Read-modify-write functions -/

/-- A value of width w as a signed integer. -/
def signed (w v : Nat) : Int := if v % 2 ^ w < 2 ^ (w - 1) then (v % 2 ^ w : Nat) else ((v % 2 ^ w : Nat) : Int) - 2 ^ w

/-- The new value of an ATOM or ARED (R294). -/
def atomNew (op : AtomOp) (t w8 : Bool) (o x cmp : Nat) : Nat :=
  let w := if w8 then 64 else 32
  match op with
  | .add => if t then (FF.add .f32 (FF.decode .f32 o) (FF.decode .f32 x)).1 else (o + x) % 2 ^ w
  | .and => Nat.land o x
  | .or => Nat.lor o x
  | .xor => Nat.xor o x
  | .min => if t then (if signed w o ≤ signed w x then o else x) else min o x
  | .max => if t then (if signed w o ≤ signed w x then x else o) else max o x
  | .swap => x
  | .cas => if o = cmp then x else o

/-- AMAXP's comparison key (R160). -/
def amaxKey (w : Nat) : Nat :=
  let sc := w / 2 ^ 16 % 2 ^ 16
  let m := if 0x7C00 < sc % 2 ^ 15 then 0 else if sc < 2 ^ 15 then 2 ^ 15 + sc else 0xFFFF - sc
  m * 2 ^ 16 + (0xFFFF - w % 2 ^ 16)

/-- AMAXP's new word (R160). -/
def amaxNew (o v : Nat) : Nat := if amaxKey o < amaxKey v then v else o

/-- The new value that an operation's piece makes of an old one. -/
def OpKind.apply (k : OpKind) (o : Nat) (p : Piece) : Nat :=
  match k with
  | .atom op t w8 => atomNew op t w8 o p.val p.cmp
  | .ared op t w8 _ => atomNew op t w8 o p.val p.cmp
  | .amaxp _ => amaxNew o p.val
  | .bcbarm => (o + p.val) % 2 ^ 64
  | _ => p.val

/-- Read-modify-writes: performed at a home, acknowledged, in core order (R124). -/
def OpKind.isAtomic : OpKind → Bool
  | .atom .. | .ared .. | .amaxp _ | .bcbarm => true
  | _ => false

/-- Monitors' first reads, which their homes serve. -/
def OpKind.isMonitor : OpKind → Bool
  | .mwait .. | .bcbwait => true
  | _ => false

/-! ### Checks (R104 to R106, R109, R116, R333) -/

/-- The outcome of checking every lane of an instruction. -/
inductive Check where
  | ok (ps : List Piece)
  | miss (va : Nat)
  | halt (cause addr : Nat)
  | trap (cause : Nat)
deriving DecidableEq, Repr

/-- The route of a peer's aperture: none for an address of the host (R231). -/
def apertureDest (pa : Nat) : Option Nat := if bits pa 51 48 = 15 then some (bits pa 47 44) else none

/-- Whether a .Y address may be reached: a peer needs a route, bits 43..40 zero and a context that is not confidential. -/
def State.sysOk (s : State) (ctx pa : Nat) : Bool :=
  match apertureDest pa with
  | none => true
  | some d => (s.dev.routes.look d).isSome && !(s.ctx ctx).conf && bits pa 43 40 == 0

/-- Translate every piece; the first fault of the lowest lane, else the first miss, else the physical addresses (R109). -/
def State.transAll (s : State) (core ctx : Nat) (host write : Bool) : List Piece → Check
  | [] => .ok []
  | p :: ps =>
    let here := s.translate core ctx p.va p.len host write
    match here, s.transAll core ctx host write ps with
    | .fault c, _ => .halt c p.va
    | .poisoned _, _ => .miss p.va
    | _, .halt c a => .halt c a
    | .miss, _ => .miss p.va
    | .ok _, .miss va => .miss va
    | .ok pa, .ok qs => if host && !s.sysOk ctx pa then .halt 0x03 p.va else .ok ({ p with pa := pa } :: qs)
    | .ok _, .trap c => .trap c

/-- Where the pieces of an access that translate lie. -/
def State.transGood (s : State) (core ctx : Nat) (ps : List Piece) : List Nat :=
  ps.filterMap fun p => match s.translate core ctx p.va p.len false false with | .ok pa => some pa | _ => none

/-- A scratchpad access: class H first, then the owner bits (R63, R333). -/
def Team.checkSpad (t : Team) (ps : List Piece) : Check :=
  match ps.find? fun p => p.va % p.len != 0 || !t.inWindow p.va p.len with
  | some p => .halt 0x03 p.va
  | none => if ps.any fun p => (tilesOf p.va p.len).any t.engineSide then .trap 0x2C else .ok ps

/-- Where a launch's constant bank begins, and its bytes (R105, R165). -/
def Launch.bankBase (l : Launch) : Nat := bits l.record.toNat 255 192
def Launch.bankSize (l : Launch) : Nat := 256 * bits l.record.toNat 271 256

def Launch.checkBank (l : Launch) (ps : List Piece) : Check :=
  match ps.find? fun p => p.va % p.len != 0 || decide (l.bankSize < p.va + p.len) with
  | some p => .halt 0x03 p.va
  | none => .ok ps

/-- Check every lane of an access in a space. -/
def View.check (v : View) (s : State) (sp : Space) (write : Bool) (ps : List Piece) : Check :=
  match sp with
  | .g => s.transAll v.t.core v.g.ctx false write ps
  | .y => s.transAll v.t.core v.g.ctx true write ps
  | .s => v.t.checkSpad ps
  | .c => v.l.checkBank ps

/-- A piece: one lane's access at an address. -/
def piece (lane stage va len val : Nat) : Piece := ⟨lane, stage, va, 0, len, val, 0, none, false, false, false⟩

/-! ### Miss-status entries (R108) -/

/-- The sectors that pieces touch. -/
def sectorsTouched (ps : List Piece) : List Nat := nodup (ps.map fun p => p.pa / 64)

/-- The sectors of device memory for which a core holds an entry. -/
def Core.inFlight (k : Core) : List Nat := sectorsTouched (((k.rq ++ k.wk).flatMap Op.waiting).filter (·.entry))

/-- The sectors on the host port and the links for which it holds one. -/
def Core.inFlightY (k : Core) : List Nat :=
  sectorsTouched ((k.rq.filter (·.port.isSome)).flatMap Op.waiting ++ k.yq.flatMap fun y => y.op.waiting)

/-- Entries in use on a core. -/
def Core.entries (k : Core) : Nat := k.inFlight.length + k.inFlightY.length

/-- Whether an instruction that needs entries for some pieces of device memory must wait: a sector already in flight is joined (R108). -/
def Core.noRoom (k : Core) (ps : List Piece) : Bool :=
  let flying := k.inFlight
  decide (2048 < k.entries + ((sectorsTouched ps).filter fun x => !flying.contains x).length)

/-- The same for requests on the host port (R106, R108). -/
def Core.noRoomY (k : Core) (ps : List Piece) : Bool :=
  let flying := k.inFlightY
  decide (2048 < k.entries + ((sectorsTouched ps).filter fun x => !flying.contains x).length)

/-- Mark the pieces that take an entry. -/
def takeEntries (needs : Piece → Bool) (ps : List Piece) : List Piece := ps.map fun p => { p with entry := needs p }

/-! ### Operations in flight -/

/-- Whether an operation's float adds may merge (R133). -/
def OpKind.merges : OpKind → Bool
  | .ared .add t _ mrg => t && mrg
  | _ => false

/-- Whether a lower lane's read-modify-write of the same address is on its way merged into another request: the lane waits for it, but for
float adds with .MRG, which return nothing and have no order (R133, R296). -/
def Op.behind (o : Op) (p : Piece) : Bool :=
  !o.kind.merges && o.pieces.any fun q => q.merged && q.got.isNone && q.pa == p.pa && decide (q.lane < p.lane)

/-- The pieces that may be performed next: those of the lowest stage; all of them when the access is weak (R334, R377). -/
def Op.nextPieces (o : Op) (weak : Bool) : List Piece :=
  let ps := o.pieces.filter fun p => p.got.isNone && !p.merged && !o.behind p
  match argmin (·.stage) ps with
  | none => []
  | some q => ps.filter fun p => weak || p.stage == q.stage

/-- Whether an operation is among a core's weak ones. -/
def Core.isWeak (k : Core) (o : Op) : Bool := k.wk.any (·.id == o.id)

/-- Record what a piece read. -/
def Op.perform (o : Op) (p : Piece) (v ts : Nat) : Op :=
  { o with
    pieces := mapIf (fun (q : Piece) => q.lane == p.lane && q.stage == p.stage) (fun q => { q with got := some v }) o.pieces
    ts := max o.ts ts }

/-- Whether every piece is done. -/
def Op.done (o : Op) : Bool := o.pieces.all (·.got.isSome)

/-- Replace an operation in its core's queues. -/
def State.setOp (s : State) (core : Nat) (o : Op) : State :=
  s.modCore core fun k => { k with
    rq := mapIf (fun (q : Op) => q.id == o.id) (fun _ => o) k.rq
    wk := mapIf (fun (q : Op) => q.id == o.id) (fun _ => o) k.wk }

/-- Remove an operation from its core's queues. -/
def State.dropOp (s : State) (core id : Nat) : State :=
  s.modCore core fun k => { k with
    rq := k.rq.filter (·.id != id)
    wk := k.wk.filter (·.id != id)
    replies := k.replies.filter (·.id != id)
    yq := k.yq.filter (·.op.id != id) }

/-- Fences that await an operation take its acknowledgement (R128). -/
def State.acked (s : State) (o : Op) : State :=
  s.modGroup o.grp fun g => { g with
    gangs := g.gangs.map fun k =>
      match k.fence with
      | some f =>
        if f.awaits.contains o.id then
          { k with fence := some { f with awaits := f.awaits.filter (· != o.id), ts := max f.ts o.ts } }
        else k
      | none => k }

/-- The words that a completed load or atomic writes: register and value, for one piece. -/
def Op.words (o : Op) (p : Piece) : List (Nat × Word) :=
  let v := p.got.getD 0
  let part := fun (i : Nat) => (o.d + i, BitVec.ofNat 32 (v / 2 ^ (32 * i)))
  let many := fun (n : Nat) => (List.range n).map part
  match o.kind with
  | .load sx =>
    if p.len ≤ 2 then [(o.d, BitVec.ofNat 32 (if sx then sext64 v (8 * p.len) else v))] else many (p.len / 4)
  | .ldb =>
    if p.stage = 0 then
      let two := o.pieces.any fun q => q.stage == 1 && q.len == 8
      [(o.d + (if two then 2 else 1), BitVec.ofNat 32 v)]
    else if p.len ≤ 4 then [(o.d, BitVec.ofNat 32 v)] else many 2
  | .atom _ _ w8 => many (if w8 then 2 else 1)
  | .amaxp nw => if nw then [] else many 1
  | _ => []

/-- Write arriving words to registers; a gang that speculates past a later fence has them in its snapshot too (R129). -/
def Group.arriveReg (g : Group) (n l : Nat) (w : Word) : Group :=
  let g := g.setReg n l w
  { g with gangs := g.gangs.map fun k =>
      match k.fence with
      | some f => { k with fence := some { f with snap := { f.snap with regs := f.snap.regs.put (regKey n l) w } } }
      | none => k }

/-- Write arriving words of a load that a gang issued past its fence: a rollback takes them back (R129). -/
def Group.arriveLate (g : Group) (n l : Nat) (w : Word) : Group := g.setReg n l w

/-- One byte of a word replaced by another word's. -/
def putByte (old new : Word) (i : Nat) : Word :=
  let m : Word := 0xFF#32 <<< (8 * i)
  (old &&& ~~~m) ||| (new &&& m)

/-- The fence past which an operation was issued, if its gang still speculates. -/
def Group.pastFence (g : Group) (o : Op) : Option Fence :=
  match (g.gang o.gang).bind (·.fence) with
  | some f => if f.start ≤ o.id then some f else none
  | none => none

/-- Write one arriving word of an operation. -/
def Group.arriveWord (g : Group) (o : Op) (n l : Nat) (w : Word) : Group :=
  if (g.pastFence o).isSome then g.arriveLate n l w else g.arriveReg n l w

/-- What a PQPOP returns is written as it completes (R279, R353). -/
def Group.givePop (g : Group) (o : Op) : Group :=
  match o.kind with
  | .pop d ls w => ((List.range 32).filter fun l => ls.getLsbD l).foldl (fun (g : Group) l => g.arriveWord o d l w) g
  | _ => g

/-- Deliver an operation's words. -/
def Group.deliver (g : Group) (o : Op) : Group :=
  o.pieces.foldl (fun (g : Group) p => (o.words p).foldl (fun (g : Group) e => g.arriveWord o e.1 p.lane e.2) g) g

/-- Deliver some bytes of an operation's destinations ahead of the rest (R238). -/
def Group.deliverPart (g : Group) (o : Op) (part : List (Nat × Nat)) : Group :=
  part.foldl (fun (g : Group) b =>
    (o.pieces.filter fun p => p.lane == b.1).foldl (fun (g : Group) p =>
      ((o.words p).filter fun e => e.1 == o.d + b.2 / 4).foldl (fun (g : Group) e =>
        g.arriveWord o e.1 p.lane (putByte (g.reg e.1 p.lane) e.2 (b.2 % 4))) g) g) g

/-- An operation completes: its scoreboard falls, its issue record loses a reference, fences take note, and a PQPOP gives what it returns (R60, R128,
R192, R279). The acknowledgement of a store that names a scoreboard raises the core's logical time (R375). -/
def State.completeOp (s : State) (core : Nat) (o : Op) : State :=
  let s := (s.dropOp core o.id).modCore core fun k => { k.unref o.tag with
    seen := max k.seen o.ts
    pts := if o.kind.isStore && o.sb.isSome then max k.pts o.ts else k.pts }
  let s := match o.sb with
    | some n => s.sbDone o.grp o.slices n
    | none => s
  let s := match o.kind with
    | .pop .. => s.modGroup o.grp fun g => g.givePop o
    | _ => s
  s.acked o

/-- The report of the memory engine's contained fault under a group's tag (R194, R201). -/
def State.tagReport (s : State) (gid core : Nat) (tag : Option Nat) (slices : List Nat) (cause addr aux : Nat) : Report :=
  match s.recordFor gid core tag with
  | some r => { r.report core (tag.getD 0xFF) 3 cause addr aux 1 with slices := sliceMask slices }
  | none =>
    { cls := 3, cause := cause, addr := addr, aux := aux, serial := 0, team := 0, clause := 0, islot := 0, gslot := 0
      group := 0, core := core, tag := 0xFF, exited := false, precise := false, engine := 1
      slices := sliceMask slices, opa := 0, opb := 0 }

/-- The report of an operation. -/
def State.opReport (s : State) (core : Nat) (o : Op) (cause addr aux : Nat) : Report :=
  s.tagReport o.grp core o.tag o.slices cause addr aux

/-! ### Serving pieces locally (R110, R123, R124) -/

/-- The line an address is served at (R119). -/
def State.lineAt (s : State) (pa : Nat) : Nat := lineOf (s.served pa)

/-- Read a piece out of the core's L1 copy, under its lease; a poisoned sector is noted (R120, R123). -/
def State.readL1 (s : State) (core : Nat) (o : Op) (p : Piece) : State × Op :=
  let line := s.lineAt p.pa
  match (s.core core).l1.look line with
  | none => (s, o)
  | some l =>
    let o := o.perform p (l.read p.pa p.len) (max (s.core core).pts l.wts)
    let o := if s.bad p.pa then { o with poison := some (o.poison.getD p.va) } else o
    let s := s.modCore core fun k => { k with pts := max k.pts l.wts }.useLine line
    let s := s.modGang o.grp o.gang fun k =>
      match k.fence with
      | some f => if f.start ≤ o.id then { k with fence := some { f with reads := f.reads ++ [(line, l.wts)] } } else k
      | none => k
    (s.setOp core o, o)

/-- Whether a store of the core needs no request: it owns the sectors, neither a monitor nor a migration holds the line, and no weak store of
the core to the line has still to be applied (R108, R127). -/
def State.ownsFor (s : State) (core pa n : Nat) : Bool :=
  s.ownsSectors core (s.lineAt pa) (sectorsOf (s.served pa) n) && !s.monitored (s.lineAt pa) && !s.weakOn core (s.lineAt pa)
    && !s.lockedFor pa

/-- Store a piece under ownership (R124). -/
def State.storeL1 (s : State) (core : Nat) (o : Op) (p : Piece) : State × Op :=
  let (s, ts) := s.ownedStore core p.pa p.len p.val
  let o := o.perform p 0 ts
  (s.setOp core o, o)

/-- Perform the pieces of an operation that its core can serve by itself. -/
def State.serveLocal (s : State) (core : Nat) (o : Op) : State × Op :=
  (o.nextPieces ((s.core core).isWeak o)).foldl (fun (acc : State × Op) p =>
    let (s, o) := acc
    if (s.core core).held o p || (s.core core).shownBefore o p then acc
    else
      match o.kind with
      | .load _ | .ldb =>
        if s.l1Hit core (s.lineAt p.pa) (sectorsOf p.pa p.len) then s.readL1 core o p else acc
      | .store | .stb | .pop .. => if s.tagLive o.ctx o.gen && s.ownsFor core p.pa p.len then s.storeL1 core o p else acc
      | _ => acc) (s, o)

/-- An operation whose pieces are all done leaves the queue: a load waits for its reply, a store completes, an atomic stays
until it is acknowledged; a PQPOP's store has been acknowledged, and its reply brings what it returns. -/
def State.settleOp (s : State) (core : Nat) (o : Op) : State :=
  if !o.done then s
  else
    match o.kind with
    | .store | .stb => s.completeOp core o
    | .pop .. =>
      ((s.dropOp core o.id).modCore core fun k => { k with
        seen := max k.seen o.ts, pts := max k.pts o.ts, replies := k.replies ++ [{ o with ready := true }] }).acked o
    | .load _ | .ldb =>
      (s.dropOp core o.id).modCore core fun k => { k with replies := k.replies ++ [{ o with ready := true }] }
    | k => if k.isAtomic then s.setOp core { o with ready := true } else s

/-! ### The host port and the links -/

/-- The parts of an operation that go as requests of their own: one per 64-byte sector, or one per lane for atomics (R106, R107). -/
def Op.parts (o : Op) : List Op :=
  if o.kind.isAtomic then o.pieces.map fun p => { o with pieces := [p] }
  else (sectorsTouched o.pieces).map fun x => { o with pieces := o.pieces.filter fun p => p.pa / 64 == x }

/-- Whether the device holds an ATS translation of a page of a context for an access (R221). -/
def State.atsHolds (s : State) (ctx page : Nat) (write : Bool) : Bool :=
  s.dev.atsPages.any fun e => e.1 == ctx && e.2.1 == page && (e.2.2 || !write)

/-- A request on the host port or on the link of its route (R231, R232); it waits for a translation where ATS is enabled and none that
grants the access is held (R221), and a confidential context's bears the T bit (R226). -/
def State.request (s : State) (o : Op) (write : Bool) : YOp :=
  let link := (o.pieces.head?.bind fun p => apertureDest p.pa).bind s.dev.routes.look
  let held := o.pieces.all fun p => s.atsHolds o.ctx (p.pa / 4096) (write || o.kind.isAtomic)
  ⟨o, write, link, (s.ctx o.ctx).ats && link.isNone && !held, s.nextUid, (s.ctx o.ctx).conf && link.isNone⟩

/-- Non-posted requests outstanding on the host port, or on their way to it: at most 4,096 (R220). -/
def State.portFull (s : State) (more : Nat) : Bool :=
  decide (4096 < (s.cores.flatMap fun (e : Nat × Core) => e.2.yq.filter fun y => !y.write && y.link.isNone).length
    + (s.cores.flatMap fun (e : Nat × Core) => (e.2.rq.filter (·.port == some false)).flatMap Op.parts).length + more)

/-- The agent whose logical time a request on the host port or a link takes part in (R124, log 97). -/
def YOp.agent (y : YOp) : Nat := match y.link with | some k => 289 + k | none => 288

/-- A write that the host port or a link accepts takes its place: the agent's logical time is not before the core's (R122, log 97). -/
def State.placeWriteY (s : State) (core agent : Nat) : State :=
  { s with dev := { s.dev with agents := s.dev.agents.put agent (max (s.dev.agents.getD agent 0) (s.core core).pts) } }

/-- A read or an atomic that returns takes its place: the core's logical time is not before the agent's (R122, log 97). -/
def State.placeReadY (s : State) (core agent : Nat) : State :=
  s.modCore core fun k => { k with pts := max k.pts (s.dev.agents.getD agent 0) }

/-- Fences of narrower scope than .SYS await no more of a write that the host port or a link has accepted (R128). -/
def State.acceptedY (s : State) (o : Op) : State :=
  s.modGroup o.grp fun g => { g with
    gangs := g.gangs.map fun k =>
      match k.fence with
      | some f => if f.scope == .sys then k else { k with fence := some { f with awaits := f.awaits.filter (· != o.id) } }
      | none => k }

/-- The host port and the links accept an operation that is at the head of its core's queue. A write has its place then, and its
scoreboard falls (R137, R375). -/
def State.acceptY (s : State) (core : Nat) (o : Op) (write : Bool) : State :=
  let o' := { o with port := none, sb := if write then none else o.sb }
  let ys := o'.parts.map fun o => s.request o write
  let s := s.fresh.1.modCore core fun k => { k with rq := k.rq.filter (·.id != o.id), yq := k.yq ++ ys }
  if !write then s
  else
    let s := (ys.foldl (fun (s : State) y => s.placeWriteY core y.agent) s).acceptedY o
    match o.sb with
    | some n => s.sbDone o.grp o.slices n
    | none => s

/-! ### Core order (R122) -/

/-- Whether an operation must wait for an earlier request of its context on the host port or a link that has no place yet: a read, an
atomic, or one that waits for a translation (R122, R221). -/
def Core.stuck (k : Core) (o : Op) : Bool :=
  k.yq.any fun y => y.op.ctx == o.ctx && decide (y.op.id < o.id) && (!y.write || y.ats)

/-- The operation of a core that takes its place next (R122). -/
def Core.head (k : Core) : Option Op := k.rq.find? fun o => !k.stuck o

/-- Serve the head of a core's queue as far as the core can by itself (R122: in core order), twice per stage at most. -/
def State.advance (s : State) (core : Nat) : Nat → State
  | 0 => s
  | n + 1 =>
    match (s.core core).head with
    | none => s
    | some o =>
      match o.port with
      | some write => State.advance (s.acceptY core o write) core n
      | none =>
        let (s', o') := s.serveLocal core o
        if o' = o && !o.done then s'
        else
          let s'' := s'.settleOp core o'
          if o.done && o.kind.isAtomic then s'' else State.advance s'' core n

/-- Serve what a core can after something has changed. -/
def State.advanceCore (s : State) (core : Nat) : State := s.advance core (3 * (s.core core).rq.length + 3)

/-! ### Issuing an operation -/

/-- The operation of an instruction. -/
def View.op (v : View) (id : Nat) (tag : Option Nat) (sb : Option (BitVec 3)) (kind : OpKind) (d : Nat) (ps : List Piece)
    (pts : Nat) : Op where
  port := none
  id := id
  ctx := v.g.ctx
  gen := v.x.gen
  grp := v.gid
  gang := v.kid
  slices := v.k.slices
  tag := tag
  sb := sb.map (·.toNat)
  kind := kind
  d := d
  pieces := ps
  pts := pts
  ts := 0
  poison := none
  ready := false

/-- Take a tag and raise a scoreboard where the instruction names one; none while no tag is free (R60, R192). -/
def State.queueUp (s : State) (v : View) (i : Instr) (sb : Option (BitVec 3)) : Option (State × Option Nat) :=
  match sb with
  | none => some (s, none)
  | some n =>
    (s.openTag v i 1).map fun e => (e.1.sbRaise v n, some e.2)

/-- Put a finished load, or an operation done at issue, where its reply comes from. -/
def State.replyLater (s : State) (core : Nat) (o : Op) : State :=
  s.modCore core fun k => { k with replies := k.replies ++ [{ o with ready := true }] }

/-- Queue an ordinary operation in core order and serve what the core can (R122). -/
def State.enqueue (s : State) (core : Nat) (o : Op) : State :=
  (s.modCore core fun k => { k with rq := k.rq ++ [o] }).advanceCore core

/-- A weak store updates a copy already present in its core's L1; an owned copy is written back first. Bytes of the core's weak stores that
were issued later, and that the copy has shown, stay on top (R127). -/
def State.weakUpdate (s : State) (core : Nat) (o : Op) (p : Piece) : State :=
  let line := s.lineAt p.pa
  let s := if (s.line line).owner == some core then s.recallOwner line else s
  s.modCore core fun k =>
    let later := (k.wk.filter fun e => e.kind.isStore && decide (o.id < e.id)).flatMap fun e =>
      e.waiting.filter fun q => q.shown && s.lineAt q.pa == line
    { k with l1 := k.l1.alter line fun l =>
        later.foldl (fun (l : L1Line) q => l.write q.pa q.len q.val) (l.write p.pa p.len p.val) }

/-- Queue a weak operation. A load is served by the core's own L1 when the sector is present. A store updates the copy there at once, or, where
it waits for an earlier access of its lane to a byte, when it is applied (R127). -/
def State.enqueueWeak (s : State) (core : Nat) (o : Op) : State :=
  let s := s.modCore core fun k => { k with wk := k.wk ++ [o] }
  if o.kind.isStore then
    let here := fun (s : State) (p : Piece) => !(s.core core).held o p && ((s.core core).l1.look (s.lineAt p.pa)).isSome
    let s := (o.pieces.filter (here s)).foldl (fun (s : State) p => s.weakUpdate core o p) s
    let o' := { o with pieces := mapIf (here s) (fun p => { p with shown := true }) o.pieces }
    (s.setOp core o').settleOp core o'
  else
    let (s, o) := s.serveLocal core o
    s.settleOp core o

/-- Queue an access of .Y in core order: the host port and the links accept it as it becomes the head (R122, R137). An operation without a
request is done. -/
def State.enqueueY (s : State) (core : Nat) (o : Op) (write : Bool) : State :=
  if o.pieces.isEmpty then (if write then s.completeOp core o else s.replyLater core o)
  else s.enqueue core { o with port := some write }

/-- Overlay a group's store log on bytes read from committed memory (R179). -/
def overlayLog (log : List LogByte) (spad : Bool) (a n v : Nat) : Nat :=
  (List.range n).foldl (fun acc i =>
    let b := log.foldl (fun (cur : Nat) e => if e.spad == spad && e.addr == a + i then e.val.toNat else cur) (v / 2 ^ (8 * i) % 256)
    acc + b * 2 ^ (8 * i)) 0

/-- Log a store's bytes, little-endian (R179). -/
def logBytes (spad : Bool) (a n v : Nat) : List LogByte :=
  (List.range n).map fun i => ⟨spad, a + i, BitVec.ofNat 8 (v / 2 ^ (8 * i))⟩

/-- A piece's value at issue, for the spaces that answer at once and for deterministic mode. -/
def View.readNow (v : View) (s : State) (sp : Space) (p : Piece) : Nat :=
  match sp with
  | .s =>
    let x := v.t.spadRead p.va p.len
    if v.x.det then overlayLog v.g.det.log true p.va p.len x else x
  | .c => 0
  | _ =>
    let x := (s.homeRead p.pa p.len).2
    if v.x.det then overlayLog v.g.det.log false (s.served p.pa) p.len x else x

/-- Whether a piece's sector is poisoned. -/
def State.poisoned (s : State) (p : Piece) : Bool := s.bad p.pa

/-! ### Failing sectors (R109, R120) -/

/-- The page that a retirement request names: the device page of some translation that holds the address, else its 64 KiB (log 89). -/
def State.pageOf (s : State) (pa : Nat) : Nat :=
  match (s.cores.flatMap fun (e : Nat × Core) => e.2.tlb).find? fun e => !e.host && decide (e.pa ≤ pa) && decide (pa < e.pa + e.size) with
  | some e => e.pa
  | none => pa / 2 ^ 16 * 2 ^ 16

/-- A failing sector's line is pinned into way 14 or 15 of its set, on record in flash; a third line of one set asks the host to retire the
page (R120). -/
def State.pinLine (s : State) (pa : Nat) : State :=
  let line := lineOf pa
  if (s.line line).pinned.isSome then s
  else
    let used := (s.dir.filter fun (e : Nat × DirEntry) => e.2.pinned.isSome && l2Key e.1 == l2Key line).length
    if 2 ≤ used then s.postEvent 2 0 (s.pageOf pa)
    else
      let s := s.modLine line fun d => { d with pinned := some (14 + used) }
      let key := l2Key line
      let ls := (s.l2.getD key []).filter (· != line)
      let s := (ls.drop (s.l2Ways key)).foldl (fun s l => s.evictL2 l) { s with l2 := s.l2.put key (ls.take (s.l2Ways key)) }
      { s with dev := { s.dev with flash := { s.dev.flash with pins := nodup (s.dev.flash.pins ++ [line]) } } }

/-- Errors that a load would have met, had it not faulted: logged as unconsumed, their sectors queued for repair (R109). -/
def State.loseErrors (s : State) (pas : List Nat) : State :=
  (pas.filter s.bad).foldl (fun (s : State) pa => (s.logUnconsumed pa).pinLine (s.served pa)) s

/-! ### The constant cache (R103, R105) -/

/-- Where a byte of a launch's constant bank lies. -/
def Launch.bankAt (l : Launch) (off : Nat) : Nat := l.bank.getD (off / 256) 0 + off % 256

/-- An aligned word of a launch's constant bank: as the core's constant cache holds it, or as it stands in memory, whose word the cache of
16 KiB then holds (R103, R105); and its physical address where the sector is uncorrectable (R109). -/
def State.constWord (s : State) (core lid : Nat) (l : Launch) (off : Nat) : State × Word × Option Nat :=
  match (s.core core).ccache.find? fun e => e.1 == lid && e.2.1 == off with
  | some e => (s, e.2.2, none)
  | none =>
    let a := l.bankAt off
    let (s, v) := s.homeRead a 4
    if s.bad a then (s, 0, some a)
    else
      let w := BitVec.ofNat 32 v
      (s.modCore core fun k => { k with ccache := (k.ccache.drop (k.ccache.length - 4095)) ++ [(lid, off, w)] }, w, none)

/-- n bytes of the constant bank, word by word. -/
def State.constRead (s : State) (core lid : Nat) (l : Launch) (off n : Nat) : State × Nat × Option Nat :=
  if n < 4 then
    let (s, w, b) := s.constWord core lid l (off / 4 * 4)
    (s, w.toNat / 2 ^ (8 * (off % 4)) % 2 ^ (8 * n), b)
  else
    (List.range (n / 4)).foldl (fun (acc : State × Nat × Option Nat) i =>
      let (s, w, b) := acc.1.constWord core lid l (off + 4 * i)
      (s, acc.2.1 + w.toNat * 2 ^ (32 * i), acc.2.2.or b)) (s, 0, none)

end Sys2Proof.Machine
end

