-- ==== Sys2Proof/Machine/MemOps.lean ====
section
/-! DEFINITION. MEM: loads, stores, bound loads and stores, constants, atomics, monitors, fences, prefetch and flush (R293 to R297,
R311, R322, R331 to R335, R341, R342, R354, R375 to R377). -/
namespace Sys2Proof.Machine

/-! ### Loads -/

/-- Whether a load waits at issue: for miss-status entries, for the host port, or for an ACCST to the bytes that it reads (R108, R220,
R291). -/
def View.loadWaits (v : View) (s : State) (sp : Space) (miss ps : List Piece) : Bool :=
  let k := s.core v.t.core
  match sp with
  | .g => k.noRoom miss
  | .y => k.noRoomY ps || s.portFull (sectorsTouched ps).length
  | .s => k.storing v.g.team (ps.map fun p => (p.va, p.len))
  | .c => false

/-- A load of the constant bank, through the constant cache (R105). -/
def View.constLoad (v : View) (s : State) (o : Op) : State :=
  let ps := o.pieces.map fun p => { p with va := v.l.bankBase + p.va, pa := v.l.bankAt p.va }
  let (s, o) := ps.foldl (fun (acc : State × Op) p =>
    let (s, x, bad) := acc.1.constRead v.t.core v.g.launch v.l (p.va - v.l.bankBase) p.len
    let o := acc.2.perform p x 0
    (s, if bad.isSome then { o with poison := some (o.poison.getD p.va) } else o)) (s, { o with pieces := ps })
  s.replyLater v.t.core o

/-- An operation with every piece read at issue. -/
def View.readAll (v : View) (s : State) (sp : Space) (o : Op) : Op :=
  o.pieces.foldl (fun (o : Op) p => o.perform p (v.readNow s sp p) 0) o

/-- A load after its checks: a tag and a scoreboard are taken and the operation is placed as its space gives (R332). -/
def View.startLoad (v : View) (s : State) (i : Instr) (sp : Space) (wk : Bool) (sb : BitVec 3) (kind : OpKind) (d : Nat)
    (ps : List Piece) : Res :=
  let core := v.t.core
  let needs := fun (p : Piece) => sp == .g && !v.x.det && !s.l1Hit core (s.lineAt p.pa) (sectorsOf p.pa p.len)
  if v.loadWaits s sp (ps.filter needs) ps then .hold s
  else
    match s.queueUp v i (some sb) with
    | none => .hold s
    | some (s, tag) =>
      let o := v.op s.nextUid tag (some sb) kind d (takeEntries needs ps) 0
      let s := s.fresh.1
      match sp with
      | .y => .ok (s.enqueueY core o false) none
      | .c => .ok (v.constLoad s o) none
      | .s =>
        let s := s.modGroup v.gid (·.gangReads v.kid (ps.flatMap fun p => tilesOf p.va p.len))
        .ok (s.replyLater core (v.readAll s .s o)) none
      | .g =>
        if v.x.det then .ok (s.replyLater core { v.readAll s .g o with poison := (ps.find? s.poisoned).map (·.va) }) none
        else .ok (if wk then s.enqueueWeak core o else s.enqueue core o) none

/-- The accesses of an LD. -/
def View.ldPieces (v : View) (o : LdOp) : List Piece :=
  (v.lanes o.g).map fun l => piece l 0 (addrOf v.g v.c o.space o.base o.off l) (bytesOf o.size) 0

/-- The accesses of an LDB: the bound at the plane address first, then the data (R334). -/
def View.ldbPieces (v : View) (o : LdbOp) : List Piece :=
  (v.lanes o.g).flatMap fun l =>
    [piece l 0 (v.g.pair (2 * o.plane2.toNat) l).toNat 2 0,
     piece l 1 (addrOf v.g v.c .g (.reg o.base) o.off l) (bytesOf o.size) 0]

/-- The uncorrectable errors that a load of .G meets in the lanes that translate, when it faults in another (R109). -/
def View.lostErrors (v : View) (s : State) (i : Instr) : List Nat :=
  let ps := match i with
    | .ld o => if o.space = .g then v.ldPieces o else []
    | .ldb o => v.ldbPieces o
    | _ => []
  (s.transGood v.t.core v.g.ctx ps).filter s.bad

/-- Any load (R331, R333, R334). -/
def View.load (v : View) (s : State) (i : Instr) (sp : Space) (wk : Bool) (sb : BitVec 3) (kind : OpKind) (d : Nat)
    (ps : List Piece) : Res :=
  match v.check s sp false ps with
  | .halt c a =>
    let lost := v.lostErrors s i
    if lost.isEmpty || v.k.fence.isSome then .halt c a else .hold ((s.loseErrors lost).haltGang v i c a)
  | .trap c => .trap c 0
  | .miss va => .hold (s.askWalk v.t.core v.gid v.kid v.g.ctx va false)
  | .ok ps => v.startLoad s i sp wk sb kind d ps

def execLd (o : LdOp) (s : State) : Host.Outcome State Fault Refusal :=
  issue (.ld o) s fun v s =>
    v.load s (.ld o) o.space o.wk o.sb (.load o.sx) o.d.toNat (v.ldPieces o)

/-- LDB (R334). -/
def execLdb (o : LdbOp) (s : State) : Host.Outcome State Fault Refusal :=
  issue (.ldb o) s fun v s =>
    v.load s (.ldb o) .g o.wk o.sb .ldb o.d.toNat (v.ldbPieces o)

/-- LDC: a word of the constant bank, within its slot, through the constant cache (R105, R335). -/
def execLdc (nw : Bool) (d : BitVec 10) (off : BitVec 22) (gd : Guard) (s : State) : Host.Outcome State Fault Refusal :=
  issue (.ldc nw d off gd) s fun v s =>
    if v.l.bankSize < off.toNat + 4 then .halt 0x03 off.toNat
    else
      match s.constWord v.t.core v.g.launch v.l off.toNat with
      | (s, w, none) => v.put s nw d (v.lanes gd) fun _ => w
      | (s, _, some pa) => .contained 0x40 (v.l.bankBase + off.toNat) (s.served pa / 64)

/-! ### Stores -/

/-- The entries of the store log that a store takes: one for each sector it writes (R179). -/
def logEntries (sp : Space) (ps : List Piece) : Nat :=
  (nodup (ps.map fun p => (if sp == .s then p.va else p.pa) / 64)).length

/-- The bytes that a store logs, lane by lane, highest lane last (R107, R179). -/
def State.logOf (s : State) (sp : Space) (ps : List Piece) : List LogByte :=
  ps.flatMap fun p => if sp == .s then logBytes true p.va p.len p.val else logBytes false (s.served p.pa) p.len p.val

/-- A store in deterministic mode: into the group's log, or the quantum ends (R178, R179). -/
def View.storeLogged (v : View) (s : State) (sp : Space) (ps : List Piece) : Res :=
  let n := logEntries sp ps
  if 512 < v.g.det.used + n then
    .hold ((s.park v.gid v.kid (.round false)).modGroup v.gid fun g => { g with det := { g.det with ended := true } })
  else
    .ok (s.modGroup v.gid fun g =>
      { (if sp == .s || ps.isEmpty then g else g.impure) with det := { g.det with log := g.det.log ++ s.logOf sp ps, used := g.det.used + n } }) none

/-- A store after its checks (R375). -/
def View.startStore (v : View) (s : State) (i : Instr) (sp : Space) (wk : Bool) (sb : Option (BitVec 3)) (kind : OpKind)
    (ps : List Piece) : Res :=
  let core := v.t.core
  if v.x.det && sp != .y then v.storeLogged s sp ps
  else if sp == .s then
    if (s.core core).storing v.g.team (ps.map fun p => (p.va, p.len)) then .hold s
    else .ok (ps.foldl (fun (s : State) p => s.spadStore v.g.team p.va p.len p.val) s) none
  else
    let needs := fun (p : Piece) => sp == .g && (wk || !s.ownsFor core p.pa p.len)
    if (if sp == .y then (s.core core).noRoomY ps else (s.core core).noRoom (ps.filter needs)) then .hold s
    else
      match s.queueUp v i sb with
      | none => .hold s
      | some (s, tag) =>
        let o := v.op s.nextUid tag sb kind 0 (takeEntries needs ps) (s.core core).pts
        let s := if ps.isEmpty then s.fresh.1 else s.fresh.1.modGroup v.gid (·.impure)
        if sp == .y then .ok (s.enqueueY core o true) none
        else if wk then .ok (s.enqueueWeak core o) none
        else .ok (s.enqueue core o) none

/-- Any store (R375 to R377). -/
def View.store (v : View) (s : State) (i : Instr) (sp : Space) (wk : Bool) (sb : Option (BitVec 3)) (kind : OpKind)
    (ps : List Piece) : Res :=
  match v.check s sp true ps with
  | .halt c a => .halt c a
  | .trap c => .trap c 0
  | .miss va => .hold (s.askWalk v.t.core v.gid v.kid v.g.ctx va false)
  | .ok ps => v.startStore s i sp wk sb kind ps

def execSt (o : StOp) (s : State) : Host.Outcome State Fault Refusal :=
  issue (.st o) s fun v s =>
    v.store s (.st o) o.space o.wk o.sb .store
      ((v.lanes o.g).map fun l =>
        piece l 0 (addrOf v.g v.c o.space o.base o.off l) (bytesOf o.size)
          (dataOf v.g v.c o.data (regsOf o.size) l % 2 ^ (8 * bytesOf o.size)))

/-- STB: the data first, then the bound at the plane address (R377). -/
def execStb (o : StbOp) (s : State) : Host.Outcome State Fault Refusal :=
  issue (.stb o) s fun v s =>
    let b := 2 * o.data2.toNat
    v.store s (.stb o) .g o.wk o.sb .stb
      ((v.lanes o.g).flatMap fun l =>
        [piece l 0 (addrOf v.g v.c .g (.reg o.base) o.off l) (bytesOf o.size)
            (dataOf v.g v.c (.reg (BitVec.ofNat 10 b)) (regsOf o.size) l % 2 ^ (8 * bytesOf o.size)),
         piece l 1 (v.g.pair (2 * o.plane2.toNat) l).toNat 2 ((v.g.reg (b + regsOf o.size) l).toNat % 2 ^ 16)])

/-! ### Atomics -/

/-- Apply pieces to scratchpad, in ascending lane order, and record what each read (R126, R296). -/
def State.atomSpad (s : State) (tid : Nat) (o : Op) (ps : List Piece) : State × Op :=
  ps.foldl (fun (acc : State × Op) p =>
    let old := match acc.1.team tid with
      | some t => t.spadRead p.va p.len
      | none => 0
    (acc.1.spadStore tid p.va p.len (o.kind.apply old p), acc.2.perform p old 0)) (s, o)

/-- Apply pieces at their homes at once: deterministic mode, where one synchronising operation runs at a time (R180). -/
def State.atomHome (s : State) (core : Nat) (o : Op) (ps : List Piece) : State × Op :=
  ps.foldl (fun (acc : State × Op) p =>
    let (s, old) := acc.1.homeRead p.pa p.len
    let (s, ts) := s.homeWrite p.pa p.len (o.kind.apply old p) (s.core core).pts
    (s.modCore core fun k => { k with pts := max k.pts ts }, acc.2.perform p old ts)) (s, o)

/-- An atomic after its checks (R293 to R296). -/
def View.startAtomic (v : View) (s : State) (i : Instr) (sp : Space) (sb : BitVec 3) (kind : OpKind) (d : Nat)
    (ps : List Piece) : Res :=
  let core := v.t.core
  let needs := fun (_ : Piece) => sp == .g && !v.x.det
  if v.loadWaits s sp (ps.filter needs) ps || (v.x.det && sp == .g && ps.any fun p => s.lockedFor p.pa) then .hold s
  else
    match s.queueUp v i (some sb) with
    | none => .hold s
    | some (s, tag) =>
      let o := v.op s.nextUid tag (some sb) kind d (takeEntries needs ps) 0
      let s := if ps.isEmpty then s.fresh.1 else s.fresh.1.modGroup v.gid (·.impure)
      if sp == .y then .ok (s.enqueueY core o false) none
      else if sp == .s then
        let (s, o) := s.atomSpad v.g.team o ps
        .ok (s.replyLater core o) none
      else if v.x.det then
        let bad := ps.find? s.poisoned
        let (s, o) := s.atomHome core o ps
        .ok (s.replyLater core { o with poison := bad.map (·.va) }) none
      else .ok (s.enqueue core o) none

/-- Any atomic; on .Y only integer add, swap and compare-and-swap of ATOM are carried (R106, R297). -/
def View.atomic (v : View) (s : State) (i : Instr) (sp : Space) (sb : BitVec 3) (kind : OpKind) (d : Nat) (ps : List Piece) :
    Res :=
  let carried := match kind with
    | .atom .add t _ => !t
    | .atom .swap _ _ | .atom .cas _ _ => true
    | _ => false
  if sp == .y && !carried then .trap 0x2D 0
  else
    match v.check s sp true ps with
    | .halt c a => .halt c a
    | .trap c => .trap c 0
    | .miss va => .hold (s.askWalk v.t.core v.gid v.kid v.g.ctx va false)
    | .ok ps => v.startAtomic s i sp sb kind d ps

def execAtom (o : AtomArgs) (s : State) : Host.Outcome State Fault Refusal :=
  issue (.atom o) s fun v s =>
    let b := 2 * o.b2.toNat
    let n := if o.w8 then 2 else 1
    v.atomic s (.atom o) o.space o.sb (.atom o.op o.t o.w8) (2 * o.d2.toNat)
      ((v.lanes o.g).map fun l =>
        { piece l 0 (addrOf v.g v.c o.space (.reg o.base) o.off l) (4 * n) (dataOf v.g v.c (.reg (BitVec.ofNat 10 b)) n l) with
          cmp := dataOf v.g v.c (.reg (BitVec.ofNat 10 (b + n))) n l })

def execAred (o : AredArgs) (s : State) : Host.Outcome State Fault Refusal :=
  issue (.ared o) s fun v s =>
    let n := if o.w8 then 2 else 1
    v.atomic s (.ared o) o.space o.sb (.ared o.op o.t o.w8 o.mrg) 0
      ((v.lanes o.g).map fun l => piece l 0 (addrOf v.g v.c o.space o.base o.off l) (4 * n) (dataOf v.g v.c o.data n l))

def execAmaxp (o : AmaxpArgs) (s : State) : Host.Outcome State Fault Refusal :=
  issue (.amaxp o) s fun v s =>
    v.atomic s (.amaxp o) o.space o.sb (.amaxp o.nw) o.d.toNat
      ((v.lanes o.g).map fun l => piece l 0 (addrOf v.g v.c o.space o.base o.off l) 4 (v.src o.v l).toNat)

/-! ### Monitors -/

/-- A lane mask as a number. -/
def lanesMask (ls : List Nat) : Nat := ls.foldl (fun m l => Nat.lor m (2 ^ l)) 0

/-- The condition that a monitoring operation waits for. -/
def Op.cond (o : Op) (x : Nat) : Cond :=
  match o.kind with
  | .mwait true _ => .ne x
  | .mwait false _ => .eq x
  | _ => .atMost0

/-- The monitor of a monitoring operation. -/
def Op.monitor (o : Op) (core : Nat) (p : Piece) (polling : Bool) (now : Nat) : Monitor where
  id := o.id
  ctx := o.ctx
  grp := o.grp
  gang := o.gang
  core := core
  va := p.va
  pa := p.pa
  len := p.len
  cond := o.cond p.cmp
  d := o.d
  lanes := BitVec.ofNat 32 p.val
  tag := o.tag
  polling := polling
  polled := now

/-- The first read of a monitoring operation has returned a value at the home: the wait ends, or a monitor is registered, or the
home's entries are full and the gang polls (R132, R159, R341). In deterministic mode the compare is examined again at each
commit (R180). -/
def State.watch (s : State) (core : Nat) (o : Op) (p : Piece) (v : Nat) (det : Bool) : State :=
  let m := o.monitor core p (det || decide (256 ≤ s.monitorsAt (homeSlice p.pa))) s.cycle
  if m.cond.holds v then s.endMonitor m v (s.wtsOf p.pa)
  else { s.recallSharers (s.lineAt p.pa) with monitors := s.monitors ++ [m] }

/-- Start a monitoring operation: its read takes its place in core order, and the gang waits (R132, R341). -/
def View.startWatch (v : View) (s : State) (i : Instr) (kind : OpKind) (d : Nat) (w : Wait) (p : Piece) : Res :=
  let core := v.t.core
  if (s.core core).noRoom [p] then .hold s
  else if v.x.det && s.poisoned p then .contained 0x40 p.va (s.served p.pa / 64)
  else
    match s.openTag v i 1 with
    | none => .hold s
    | some (s, tag) =>
      let o := v.op s.nextUid (some tag) none kind d (takeEntries (fun _ => !v.x.det) [p]) 0
      let s := s.fresh.1.park v.gid v.kid w
      if !v.x.det then .hold (s.enqueue core o)
      else
        let (s, x) := s.coreRead core p.pa p.len
        .hold (s.watch core o p x true)

/-- MWAIT, once per gang, at the address of the lowest executing lane (R341, R342). -/
def execMwait (o : MwaitArgs) (s : State) : Host.Outcome State Fault Refusal :=
  issue (.mwait o) s fun v s =>
    match v.lanes o.g with
    | [] => .ok s none
    | l :: ls =>
      if o.isY then .trap 0x2D 0
      else
        let n := if o.w8 then 2 else 1
        let p := { piece l 0 (addrOf v.g v.c .g (.reg o.base) o.off l) (4 * n) (lanesMask (l :: ls)) with
                   cmp := dataOf v.g v.c o.x n l }
        match v.check s .g false [p] with
        | .halt c a => .halt c a
        | .trap c => .trap c 0
        | .miss va => .hold (s.askWalk v.t.core v.gid v.kid v.g.ctx va false)
        | .ok ps => v.startWatch s (.mwait o) (.mwait o.ne o.w8) o.d.toNat (.mwait s.nextUid) (ps.headD p)

/-! ### Fences, prefetch, flush -/

/-- The operations that a fence of a gang awaits (R128): the weak ones of its slices and their writes to scratchpad, every ordinary one that
its core issued before, since an access of the gang may follow any of them in the global order (R122), the reads and atomics of its slices on
the host port and the links, and for .SYS the writes there too (log 26). -/
def View.fenceAwaits (v : View) (s : State) (sc : FenceScope) : List Nat :=
  let k := s.core v.t.core
  let mine := fun (o : Op) => o.grp == v.gid && o.slices.any v.k.slices.contains
  (k.rq ++ k.wk.filter mine ++ k.replies.filter fun o => o.kind == .accst && mine o).map (·.id)
    ++ nodup ((k.yq.filter fun y => (sc == .sys || !y.write) && mine y.op).map (·.op.id))

/-- What a rollback would restore. -/
def Group.snap (g : Group) (k : Gang) : Snap := ⟨g.slices, g.regs, g.undef, g.preds, g.rets, g.rand, k.clause⟩

/-- FENCE (R128, R129, R322): complete at once, with the core's logical time at what has been acknowledged to it, or incomplete and speculated
past. -/
def execFence (sc : FenceScope) (s : State) : Host.Outcome State Fault Refusal :=
  issue (.fence sc) s fun v s =>
    let aw := v.fenceAwaits s sc
    if v.x.det then .ok s none
    else if aw.isEmpty then .ok (s.modCore v.t.core fun k => { k with pts := max k.pts k.seen }) none
    else
      let s := s.modGroup v.gid fun g =>
        let g := g.retire v.kid s.cycle (some (opcodeOf (.fence sc))) 0 false none
        g.modGang v.kid fun k =>
          { k with fence := some ⟨sc, 0, g.snap k, s.nextUid, [], aw, 0, 0, 0, [], false⟩ }
      .hold s

/-- Where PREF and CFLUSH find a lane's byte: the tables are walked at once where the L1 TLB misses; none where it does not translate, is not
canonical or lies in a host page (R311, R354, log 18). -/
def State.quietAddr (s : State) (core ctx va : Nat) : State × Option Nat :=
  match s.translate core ctx va 1 false false with
  | .ok pa => (s, some pa)
  | .miss =>
    (match s.pageWalkFor core ctx va with
    | (s, .ok e) => (s, match e.check va false false with | .ok pa => some pa | _ => none)
    | (s, .poisoned pa) => (s.logUnconsumed pa, none)
    | (s, _) => (s, none))
  | _ => (s, none)

/-- PREF of one byte: the sector is fetched into the L1 with a lease, where it is not present; the core's logical time stands. An uncorrectable
error is consumed by nobody (R201, R354). -/
def State.prefetch (s : State) (core pa : Nat) : State :=
  let line := s.lineAt pa
  if s.l1Hit core line (sectorsOf pa 1) || (s.core core).inFlight.contains (pa / 64) || (s.core core).noRoom [{ piece 0 0 0 1 0 with pa := pa }] then s
  else
    let pts := (s.core core).pts
    let s := (s.grantLease core line (sectorsOf pa 1)).modCore core fun k => { k with pts := pts }
    if s.bad pa then s.logUnconsumed pa else s

/-- A change for the byte of each executing lane that translates. -/
def View.quietly (v : View) (s : State) (o : AddrOp) (f : State → Nat → State) : State :=
  (v.lanes o.g).foldl (fun (s : State) l =>
    match s.quietAddr v.t.core v.g.ctx (addrOf v.g v.c .g (.reg o.base) o.off l) with
    | (s, some pa) => f s pa
    | (s, none) => s) s

def execPref (o : AddrOp) (s : State) : Host.Outcome State Fault Refusal :=
  issue (.pref o) s fun v s => .ok (v.quietly s o fun s pa => s.prefetch v.t.core pa) none

/-- CFLUSH: the line leaves the core's L1, dirty sectors written back (R311). -/
def execCflush (o : AddrOp) (s : State) : Host.Outcome State Fault Refusal :=
  issue (.cflush o) s fun v s => .ok (v.quietly s o fun s pa => s.dropLine v.t.core (s.lineAt pa)) none

end Sys2Proof.Machine
end

