-- ==== Sys2Proof/Machine/Acc.lean ====
section
/-! DEFINITION. Accumulator slots: how their bytes read, where a logical slot lies, the sums of a K-group and the bound cells
(R64, R83, R87 to R97, R142, R284). -/
namespace Sys2Proof.Machine

/-! ### Format words (R89, R90) -/

/-- A format word's fields; the scales are signed. -/
structure FWord where
  sb : Int
  sa : Int
  t : Nat
  esc : Nat
  bmode : Nat
  acc : Nat
  bfmt : Nat
  afmt : Nat
deriving DecidableEq, Repr

/-- The fields of a format word (R89). -/
def fword (w : Word) : FWord where
  sb := (w.extractLsb' 26 6).toInt
  sa := (w.extractLsb' 20 6).toInt
  t := (w.extractLsb' 14 6).toNat
  esc := (w.extractLsb' 12 2).toNat
  bmode := (w.extractLsb' 10 2).toNat
  acc := (w.extractLsb' 8 2).toNat
  bfmt := (w.extractLsb' 4 4).toNat
  afmt := (w.extractLsb' 0 4).toNat

/-- Whether a format word is legal (R90): format codes 2 and 3 are the F8 formats, 5 is I8. -/
def FWord.legal (d : FWord) : Bool :=
  let f8 := fun (c : Nat) => c == 2 || c == 3
  (d.afmt == d.bfmt && [0, 1, 4, 5].contains d.afmt || f8 d.afmt && f8 d.bfmt)
    && (d.afmt != 5 || d.acc == 0) && (d.bmode != 0 || d.esc == 0) && d.esc != 3 && d.bmode != 3 && d.acc != 3

/-- Columns of a slot under a word's accumulator format (R144). -/
def FWord.cols (d : FWord) : Nat := if d.acc = 0 then 64 else 128

/-- Slots that a row block of N columns takes (R144). -/
def FWord.nb (d : FWord) (n : Nat) : Nat := (n + d.cols - 1) / d.cols

/-- Elements of a K-group of a format code (R87). -/
def kgSize (fmt : Nat) : Nat := if fmt = 2 ∨ fmt = 3 ∨ fmt = 4 then 16 else 8

/-- Registers of an A row of depth k (R142). -/
def rowRegs (fmt k : Nat) : Nat := if fmt = 4 then k / 8 else if fmt ≤ 1 then k / 2 else k / 4

/-! ### Elements of operands (R83, R142) -/

/-- An operand element, and whether it is an integer one (R87). -/
abbrev Elem := FVal × Bool

/-- Zero, as an element of a format (R139). -/
def zeroElem (fmt : Nat) : Elem := (.fin false 0 0, fmt == 4 || fmt == 5)

/-- Element i of an I4X unit; an outlier is no integer element (R83, R87). -/
def unitElem (u i : Nat) : Elem :=
  match decodeUnit u with
  | none => (.fin false 0 0, true)
  | some xs => (xs.getD i (.fin false 0 0), !(u / 16 ^ i % 16 == 8))

/-- The value of a code of a format; for I4X, element k mod 4 of the unit. -/
def elemOf (fmt code k : Nat) : Elem :=
  match fmt with
  | 0 => (FF.decode .f16 code, false)
  | 1 => (FF.decode .b16 code, false)
  | 2 => (FF.decode .f8e4 code, false)
  | 3 => (FF.decode .f8e5 code, false)
  | 4 => unitElem (code % 2 ^ 16) (k % 4)
  | _ => (fmtValue .i8 code, true)

/-- The position and width in bits of the code that holds element k of a packed row (R142). -/
def elemAt (fmt k : Nat) : Nat × Nat := if fmt = 4 then (16 * (k / 4), 16) else if fmt ≤ 1 then (16 * k, 16) else (8 * k, 8)

/-- Element k of a packed row. -/
def rowElem (fmt row k : Nat) : Elem :=
  let (p, w) := elemAt fmt k
  elemOf fmt (row / 2 ^ p % 2 ^ w) k

/-- Registers of a row as one number, the lowest register in the low bits. -/
def packRow (ws : List Word) : Nat := ws.foldr (fun w n => w.toNat + 2 ^ 32 * n) 0

/-- Malformed units among the first n units of a packed I4X row (R83). -/
def badUnits (row n : Nat) : Nat :=
  ((List.range n).filter fun u => (decodeUnit (row / 2 ^ (16 * u) % 2 ^ 16)).isNone).length

/-! ### Sums (R75, R87) -/

/-- The exact sum of two values: a NaN or ∞ − ∞ gives NaN, else an infinity dominates. -/
def FVal.sum (a b : FVal) : FVal :=
  match a, b with
  | .nan _, _ | _, .nan _ => .nan false
  | .inf x, .inf y => if x = y then .inf x else .nan false
  | .inf x, _ | _, .inf x => .inf x
  | .fin n1 m1 e1, .fin n2 m2 e2 =>
    let (n, m, e) := addExact n1 m1 e1 n2 m2 e2
    .fin n m e

/-- The negation of a value. -/
def FVal.neg : FVal → FVal
  | .nan s => .nan s
  | .inf n => .inf (!n)
  | .fin n m e => .fin (!n) m e

/-- An exact product; a zero product of two integer elements is +0 (R87). -/
def mulElem (x y : Elem) : FVal :=
  match x.1, y.1 with
  | .nan _, _ | _, .nan _ => .nan false
  | .inf a, .inf b => .inf (a != b)
  | .inf a, .fin n m _ | .fin n m _, .inf a => if m = 0 then .nan false else .inf (a != n)
  | .fin n1 m1 e1, .fin n2 m2 e2 =>
    if m1 * m2 = 0 then .fin (!(x.2 && y.2) && (n1 != n2)) 0 0 else .fin (n1 != n2) (m1 * m2) (e1 + e2)

/-- A value times a power of two. -/
def FVal.scale (x : FVal) (s : Int) : FVal :=
  match x with
  | .fin n m e => .fin n m (e + s)
  | x => x

/-- The exact sum of some values; the first decides the sign that a sum of zeros starts with. -/
def sumAll : List FVal → FVal
  | [] => .fin false 0 0
  | x :: xs => xs.foldl FVal.sum x

/-- The exact sum of a K-group's products: k from lo on, n of them (R87). -/
def dotGroup (a b : Nat → Elem) (lo n : Nat) (scale : Int) : FVal :=
  (sumAll ((List.range n).map fun i => mulElem (a (lo + i)) (b (lo + i)))).scale scale

/-- RN into a format, with the flags of the rounding; an overflow gives an infinity (R80, R87). -/
def FF.rnFlags (f : FF) (v : FVal) : Nat × Word :=
  match v with
  | .nan _ => (f.canon, 0)
  | .inf n => (f.sign n f.infCode, 0)
  | .fin n m e => f.finish n m e false

/-- RN into a format (R87). -/
def FF.rn (f : FF) (v : FVal) : Nat := (f.rnFlags v).1

/-- Whether a value is a NaN. -/
def FVal.isNan : FVal → Bool
  | .nan _ => true
  | _ => false

/-- Whether a product of a K-group is invalid: a signalling NaN among its operands, or 0 × ∞ (R70, R80). -/
def badProduct (x y : Elem) : Bool := (x.1.nvOf ||| y.1.nvOf) != 0 || zeroTimesInf x.1 y.1

/-- Whether two values are infinities of opposite signs. -/
def FVal.opposes (x y : FVal) : Bool :=
  match x, y with
  | .inf a, .inf b => a != b
  | _, _ => false

/-- The invalid flag of a K-group's step: a signalling NaN or a 0 × ∞ among its operands, or ∞ − ∞, be it among the group's products, whatever
else is added to them, or between their sum and the accumulator (R70, R80, R87, log 92). -/
def stepNv (c : FVal) (a b : Nat → Elem) (lo n : Nat) : Word :=
  let es := (List.range n).map fun i => (a (lo + i), b (lo + i))
  let ps := es.map fun e => mulElem e.1 e.2
  flagIf (c.nvOf != 0 || es.any (fun e => badProduct e.1 e.2) || ps.contains (.inf false) && ps.contains (.inf true)
    || c.opposes (sumAll ps)) flNv

/-- The flags of an F32X update of v to the pair w, lo: those of hi when it has overflowed, otherwise whether the pair is exact (R80, R97,
log 92). -/
def pairFlags (v w : FVal) (lo : Nat) (fl : Word) : Word :=
  match w, (w.sum (FF.decode .f32 lo)).sum v.neg with
  | .fin .., .fin _ 0 _ => 0
  | .fin .., _ => (fl &&& flUf) ||| flNx
  | _, _ => fl

/-! ### Where a slot lies (R96, R284) -/

/-- A slot as an instruction names it: a physical slot, or logical slot `i` of a run or a widened range. `fmt` is the opening
format or the shape tag (0 F32, 1 F16, 2 B16) and `width` what the run has reached. -/
structure Lay where
  logical : Bool
  f : Nat
  i : Nat
  fmt : Nat
  width : Nat
deriving DecidableEq, Repr

/-- The opening format of a run. -/
def Run.fmt (r : Run) : Nat := (fword r.word).acc

/-- The layout of a slot that a group names (R284): its own open run, a widened range, or the physical slot by its tag. A slot of a widened
range's reserve, for which R96 gives no logical slot, is the physical one (log 83). -/
def Team.lay (t : Team) (run : Option Run) (s : Nat) : Lay :=
  let wide := fun () =>
    match t.widened.find? fun w => decide (w.f ≤ s) && decide (s < w.f + w.n) with
    | some w => (⟨true, w.f, s - w.f, w.fmt, w.width⟩ : Lay)
    | none => ⟨false, s, 0, t.tags.getD s 0, 0⟩
  match run with
  | some r => if r.f ≤ s && decide (s < r.f + r.n) then ⟨true, r.f, s - r.f, r.fmt, r.width⟩ else wide ()
  | none => wide ()

/-- Whether the slot is at F32X. -/
def Lay.x (l : Lay) : Bool := l.width == 2

/-- The format of an element's word (R64, R96): F32 for both halves of F32X. -/
def Lay.ff (l : Lay) : FF :=
  if l.width != 0 || l.fmt == 0 then .f32 else if l.fmt == 1 then .f16 else .b16

/-- Columns of the slot (R291). -/
def Lay.cols (l : Lay) : Nat := if l.fmt = 0 then 64 else 128

/-- Segments of 64 columns. -/
def Lay.segs (l : Lay) : Nat := l.cols / 64

/-- The physical slots of column segment g: the one that holds the values (hi at F32X), and lo at F32X (R96). -/
def Lay.phys (l : Lay) (g : Nat) : Nat × Option Nat :=
  match l.width, l.fmt with
  | 0, _ => (l.f + l.i, none)
  | 1, _ => (l.f + 2 * l.i + g, none)
  | _, 0 => (l.f + 2 * l.i, some (l.f + 2 * l.i + 1))
  | _, _ => (l.f + 4 * l.i + 2 * g, some (l.f + 4 * l.i + 2 * g + 1))

/-- Every physical slot of the slot. -/
def Lay.slots (l : Lay) : List Nat :=
  nodup ((List.range l.segs).flatMap fun g => (l.phys g).1 :: (l.phys g).2.toList)

/-- The offset of an element in its physical slot (R64). -/
def Lay.at_ (l : Lay) (r c : Nat) : Nat :=
  if l.ff == .f32 then 256 * r + 4 * (c % 64) else 256 * r + 2 * c

/-- The address of a cell among the team's cells (R64): one cell per row in an F32 shape, two otherwise. -/
def Lay.cellAt (l : Lay) (r g : Nat) : Nat :=
  64 * (l.phys g).1 + (if l.ff == .f32 then 2 * r else 2 * (2 * r + g))

/-- The stored code of an element, hi at F32X. -/
def Team.accCode (t : Team) (l : Lay) (r c : Nat) : Nat :=
  Mem.readN t.acc (4096 * (l.phys (c / 64)).1 + l.at_ r c) (l.ff.width / 8)

/-- An element's exact value: hi + lo at F32X when hi is finite (R86, R97). -/
def Team.accRead (t : Team) (l : Lay) (r c : Nat) : FVal :=
  let hi := l.ff.decode (t.accCode l r c)
  match (l.phys (c / 64)).2, hi with
  | some lo, .fin .. => hi.sum (FF.decode .f32 (Mem.readN t.acc (4096 * lo + l.at_ r c) 4))
  | _, _ => hi

/-- Write bytes of an accumulator slot. -/
def Team.accPut (t : Team) (slot off n v : Nat) : Team := { t with acc := Mem.writeN t.acc (4096 * slot + off) n v }

/-- Round an exact value into an element: RNacc, or R97's pair; answers the value that its cell's term looks at, and the flags. -/
def Team.accWrite (t : Team) (l : Lay) (r c : Nat) (v : FVal) : Team × FVal × Word :=
  let (hi, lo) := l.phys (c / 64)
  let (code, fl) := l.ff.rnFlags v
  let w := l.ff.decode code
  let t := t.accPut hi (l.at_ r c) (l.ff.width / 8) code
  match lo with
  | none => (t, w, fl)
  | some lo =>
    let rest := match w with | .fin .. => FF.rn .f32 (v.sum w.neg) | _ => 0
    (t.accPut lo (l.at_ r c) 4 rest, w, pairFlags v w rest fl)

/-- Half an ulp of a stored value, in the slot's format (R73, R91, R97). -/
def Lay.halfUlp (l : Lay) (v : FVal) : Bnd := if l.x then halfUlpX v else l.ff.halfUlp v

/-- A cell (R64). -/
def Team.cell (t : Team) (l : Lay) (r g : Nat) : Nat := Mem.readN t.cells (l.cellAt r g) 2

/-- Write a cell. -/
def Team.setCell (t : Team) (l : Lay) (r g v : Nat) : Team := { t with cells := Mem.writeN t.cells (l.cellAt r g) 2 v }

/-- Set a physical slot to +0 with its cells 0 (R91). -/
def Team.zeroSlot (t : Team) (s : Nat) : Team :=
  { t with acc := Mem.clear t.acc (4096 * s) 4096, cells := Mem.clear t.cells (64 * s) 64 }

/-- Set the shape tag of a slot; an unlisted tag is F32, whose shape has no cells in bytes 32 to 63 (R64, R284). -/
def Team.setTag (t : Team) (s fmt : Nat) : Team :=
  if fmt = 0 then { t with tags := t.tags.del s, cells := Mem.clear t.cells (64 * s + 32) 32 }
  else { t with tags := t.tags.put s fmt }

/-- Bytes of bound cells that a slot's shape has (R64). -/
def Team.cellBytes (t : Team) (s : Nat) : Nat := if (t.tags.look s).isNone then 32 else 64

/-- Copy a physical slot with its cells and tag (R289). -/
def Team.copySlot (t : Team) (src dst : Nat) : Team :=
  { t with acc := Mem.writeN t.acc (4096 * dst) 4096 (Mem.readN t.acc (4096 * src) 4096)
           cells := Mem.writeN t.cells (64 * dst) 64 (Mem.readN t.cells (64 * src) 64)
           tags := (t.setTag dst (t.tags.getD src 0)).tags }

/-! ### One row of a multiply-accumulate (R87, R91, R92) -/

/-- Apply one K-group to the columns of a cell, and then to the cell, with the flags raised (R80). Each column goes with its j in N. -/
def Team.macStep (t : Team) (d : FWord) (l : Lay) (r g : Nat) (cols : List (Nat × Nat)) (a : Nat → Elem)
    (b : Nat → Nat → Elem) (kg : Nat) : Team × Word :=
  let n := kgSize d.afmt
  let (t, h, fl) := cols.foldl (fun (acc : Team × Bnd × Word) (c : Nat × Nat) =>
    let old := acc.1.accRead l r c.1
    let v := old.sum (dotGroup a (fun k => b k c.2) (n * kg) n (d.sa + d.sb))
    let nv := if v.isNan then stepNv old a (fun k => b k c.2) (n * kg) n else 0
    let (t, w, fl) := acc.1.accWrite l r c.1 v
    (t, Bnd.max acc.2.1 (l.halfUlp w), acc.2.2 ||| nv ||| fl)) (t, some (0, 0), 0)
  (t.setCell l r g (if d.bmode = 0 then 0x7F80 else Bnd.code (Bnd.add (Bnd.ofCode (t.cell l r g)) h)), fl)

/-- A magnitude as a bound; an infinity or a NaN is unbounded. -/
def magBnd : FVal → Bnd
  | .fin _ m e => some (m, e)
  | _ => none

/-- The product of two bounds (R85: an unbounded operand gives an unbounded result). -/
def Bnd.mul : Bnd → Bnd → Bnd
  | some (m1, e1), some (m2, e2) => some (m1 * m2, e1 + e2)
  | _, _ => none

/-- The A-row term of R91: the row's bound times the largest column sum of |b|. -/
def aTerm (d : FWord) (cols : List (Nat × Nat)) (b : Nat → Nat → Elem) (depth ba : Nat) : Bnd :=
  let col := fun (j : Nat) => (List.range depth).foldl (fun (s : Bnd) k => Bnd.add s (magBnd (b k j).1)) (some (0, 0))
  let top := cols.foldl (fun (m : Bnd) c => Bnd.max m (col c.2)) (some (0, 0))
  Bnd.mul (Bnd.mul (Bnd.ofCode ba) top) (some (1, d.sa + d.sb))

/-- The columns of N that fall in segment g of the x-th slot, each as (column of the slot, j). -/
def segCols (d : FWord) (n x g : Nat) : List (Nat × Nat) :=
  (((List.range d.cols).map fun c => (c, d.cols * x + c)).filter fun c => c.1 / 64 == g && decide (c.2 < n))

/-- The shape tags of the slots that an MMA writes outside a run: those of the slot it names, or, in a widened range, of the physical slots
that hold it (R284). -/
def Team.macTag (t : Team) (run : Option Run) (d : FWord) (slot : Nat) : Team :=
  let l := t.lay run slot
  let inRun := match run with | some r => decide (r.f ≤ slot) && decide (slot < r.f + r.n) | none => false
  if inRun then t else if l.logical then l.slots.foldl (fun (t : Team) n => t.setTag n d.acc) t else t.setTag slot d.acc

/-- Some K-groups of one row of a multiply-accumulate, in ascending k for each cell of the row's slots, and after the last of all of them the
A-row term; and the flags raised. A column that the named slot does not have is not written (log 20). -/
def Team.macSpan (t : Team) (run : Option Run) (d : FWord) (base r n lo hi groups : Nat) (a : Nat → Elem) (b : Nat → Nat → Elem)
    (ba : Nat) : Team × Word :=
  (List.range (d.nb n)).foldl (fun (acc : Team × Word) x =>
    let t := acc.1.macTag run d (base + x)
    let l := t.lay run (base + x)
    (List.range l.segs).foldl (fun (acc : Team × Word) g =>
      let cols := segCols d n x g
      if cols.isEmpty then acc
      else
        let (t, fl) := ((List.range hi).drop lo).foldl (fun (acc : Team × Word) kg =>
          let (t, fl) := acc.1.macStep d l r g cols a b kg
          (t, acc.2 ||| fl)) acc
        if d.bmode = 2 && hi == groups then
          (t.setCell l r g (Bnd.code (Bnd.add (Bnd.ofCode (t.cell l r g)) (aTerm d cols b (groups * kgSize d.afmt) ba))), fl)
        else (t, fl)) (t, acc.2)) (t, 0)

/-- One row of a multiply-accumulate, all its K-groups. -/
def Team.macRow (t : Team) (run : Option Run) (d : FWord) (base r n groups : Nat) (a : Nat → Elem) (b : Nat → Nat → Elem)
    (ba : Nat) : Team × Word :=
  t.macSpan run d base r n 0 groups groups a b ba

/-- Some rows of a multiply-accumulate, each by its own step, with the flags of all. -/
def Team.macRows {α : Type} (t : Team) (rows : List α) (f : Team → α → Team × Word) : Team × Word :=
  rows.foldl (fun (acc : Team × Word) r =>
    let (t, fl) := f acc.1 r
    (t, acc.2 ||| fl)) (t, 0)

/-! ### Thresholds (R93) and conversion terms (R94) -/

/-- The largest |c| over a cell's columns: a NaN counts 0, an infinity is the largest. -/
def Team.largest (t : Team) (l : Lay) (r g : Nat) : Bnd :=
  (List.range 64).foldl (fun (m : Bnd) c =>
    match t.accRead l r (64 * g + c) with
    | .nan _ => m
    | .inf _ => none
    | .fin _ x e => Bnd.max m (some (x, e))) (some (0, 0))

/-- Whether a cell exceeds its threshold (R93). -/
def Team.exceeds (t : Team) (l : Lay) (r g th : Nat) : Bool :=
  if th = 0 then false
  else
    match Bnd.ofCode (t.cell l r g) with
    | none => true
    | some b => !Bnd.le (some b) (Bnd.mul (some (1, -(th : Int))) (t.largest l r g))

/-- One element under R76 for a target that is not I4X: code, flags, its ulp term (R94; unbounded when it saturated). -/
def cvtTerm (x : FVal) (dst : Fmt) (rm : Rnd) (pol : Pol) : Except CvtTrap (Nat × Word × Bnd) :=
  match cvt x dst rm pol with
  | .error e => .error e
  | .ok (y, fl) =>
    let u : Bnd := match fmtFloat dst with | some f => f.ulp (f.decode y) | none => some (1, 0)
    .ok (y, fl, if fl &&& flSat != 0 then none else if rm = .rn then Bnd.half u else u)

/-- One I4X unit of four elements: code, flags, the term of its elements (R84, R94, R303). -/
def unitTerm (xs : List FVal) : Nat × Word × Bnd :=
  let z : FVal := .fin false 0 0
  let (u, fl, lost) := packUnit (xs.getD 0 z) (xs.getD 1 z) (xs.getD 2 z) (xs.getD 3 z)
  let ulp := fun (i : Nat) => if u / 16 ^ i % 16 == 8 then FF.ulp .f8e4 (FF.decode .f8e4 (u / 256)) else some (1, 0)
  let out := u % 16 == 8 || u / 16 % 16 == 8
  let us := if out then [ulp 0, ulp 1] else [some (1, 0)]
  (u, fl, if lost then none else Bnd.half (us.foldl Bnd.max (some (0, 0))))

/-- One row segment converted: the codes, the flags, the largest term; or the trap of its first element that traps. -/
def Team.segConvert (t : Team) (l : Lay) (r g : Nat) (dst : Fmt) (rm : Rnd) (pol : Pol) :
    Except CvtTrap (List Nat × Word × Bnd) :=
  if dst = .i4x then
    .ok ((List.range 16).foldl (fun (acc : List Nat × Word × Bnd) u =>
      let (c, fl, b) := unitTerm ((List.range 4).map fun i => t.accRead l r (64 * g + 4 * u + i))
      (acc.1 ++ [c], acc.2.1 ||| fl, Bnd.max acc.2.2 b)) ([], 0, some (0, 0)))
  else
    (List.range 64).foldl (fun (acc : Except CvtTrap (List Nat × Word × Bnd)) c =>
      match acc, cvtTerm (t.accRead l r (64 * g + c)) dst rm pol with
      | .error e, _ => .error e
      | .ok _, .error e => .error e
      | .ok (cs, fs, m), .ok (y, fl, b) => .ok (cs ++ [y], fs ||| fl, Bnd.max m b)) (.ok ([], 0, some (0, 0)))

/-- Whether a conversion adds a term (R94): not to the slot's own format, nor to F32 from F16 or B16. -/
def Lay.needsTerm (l : Lay) (dst : Fmt) : Bool :=
  match fmtFloat dst with
  | some f => l.x || (f != l.ff && !(f == .f32))
  | none => true

end Sys2Proof.Machine
end

