-- ==== Sys2Proof/Machine/Rendez.lean ====
section
/-! DEFINITION. Group instructions: the rendezvous of a group's slices, what ends it, and a trap taken at one (R285, R286, R347). -/
namespace Sys2Proof.Machine

/-- What a slice that executes a group instruction finds. -/
inductive Meet where
  /-- others have still to come -/
  | wait
  /-- every live slice is parked at a group instruction, and not at one address -/
  | diverge
  /-- every live slice has come -/
  | all
deriving DecidableEq, Repr

/-- Whether a wait is at the rendezvous of an address. -/
def Wait.at_ (w : Wait) (addr : Dword) : Bool := match w with | .rendezvous a _ => a == addr | _ => false

/-- The address of the issuing instruction. -/
def View.here (v : View) : Dword := v.c.addr v.c.slot

/-- Whether the issuing gang is the last to come (R285). -/
def View.meet (v : View) : Meet :=
  let others := v.g.gangs.filter (·.id != v.kid)
  if others.all fun k => k.wait.at_ v.here then .all
  else if others.all fun k => k.wait.meeting then .diverge
  else .wait

/-- Park the issuing gang at the rendezvous. -/
def View.comeTo (v : View) (s : State) (bar : Bool) : State := s.park v.gid v.kid (.rendezvous v.here bar)

/-- The gangs of a group that are parked at an address, and the issuing one. -/
def View.party (v : View) : List Gang := v.g.gangs.filter fun k => k.id == v.kid || k.wait.at_ v.here

/-- Complete the instruction in every gang of the party but the issuing one: each continues in the gang in which it came. -/
def View.freeParty (v : View) (s : State) (i : Instr) (lat : Gang → Option (List Nat × (Nat → Word))) : State :=
  s.modGroup v.gid fun g =>
    (v.party.filter (·.id != v.kid)).foldl (fun (g : Group) (k : Gang) =>
      (g.modGang k.id fun k => { k with wait := .no, since := s.cycle }).retire k.id s.cycle (signOp i) (extraOf i) false (lat k)) g

/-- The gang of a group's lowest live slice. -/
def Group.lowest (g : Group) : Option Gang := argmin (fun k => k.slices.headD 32) g.gangs

/-- Move a gang past its instruction without retiring it, to wait until the handler has returned (R286). The tokens of the entries that its
word's pop flag has taken off the stack follow now, for the word has no update of its own (R202). -/
def Group.passOver (g : Group) (k : Gang) : Group :=
  match k.clause with
  | none => g
  | some c =>
    let (pc, rest) := c.after none
    (g.modSlices k.slices fun sl => { sl.sign g.inHandler none 0 with pc := pc, popDone := false }).modGang k.id fun k =>
      { k with clause := rest, wait := .trapHeld, port := none }

/-- A trap at a group instruction goes to the gang of the lowest live slice; the others wait until RTT and then go on after it. A
trap that is not delivered now leaves the others parked (R187, R189, R286). -/
def View.meetTrap (v : View) (s : State) (i : Instr) (cause aux : Nat) : State :=
  let s := v.comeTo s false
  match s.group v.gid with
  | none => s
  | some g =>
    match g.lowest with
    | none => s
    | some low =>
      let s' := { s with focus := some (v.gid, low.id) }
      match s'.view with
      | none => s
      | some w =>
        let enters := w.x.line.isNone && !g.inHandler && w.x.trap != 0
        let s' := if enters then
            s'.modGroup v.gid fun g => (g.gangs.filter fun k => k.id != low.id).foldl (fun (g : Group) k => g.passOver k) g
          else s'
        { s'.takeTrap w i cause aux with focus := s.focus }

end Sys2Proof.Machine
end

