-- ==== Sys2Proof/Machine/Mtx.lean ====
section
/-! DEFINITION. MTX: B sets, MMA, runs and the slot instructions (R95 to R99, R138 to R147, R284 to R292, R303, R304, R308, R338). -/
namespace Sys2Proof.Machine

/-! ### What is pending -/

/-- A command of an MQRUN ring (R150). -/
structure MqCmd where
  op : Nat
  slot : Nat
  kg : Nat
  ncols : Nat
  bstride : Nat
  astride : Nat
  rows : Nat
  boff : Nat
  aoff : Nat
  word : Word
  /-- no reserved bit is set -/
  clean : Bool
deriving DecidableEq, Repr

/-- The command of 64 bytes (R150); counts are given in full. -/
def mqCmd (v : Nat) : MqCmd where
  op := bits v 191 184
  slot := bits v 183 175
  kg := bits v 174 169 + 1
  ncols := bits v 168 160 + 1
  bstride := bits v 159 144
  astride := bits v 143 128
  rows := bits v 127 122 + 1
  boff := bits v 95 64
  aoff := bits v 63 32
  word := BitVec.ofNat 32 v
  clean := bits v 511 192 == 0 && bits v 121 96 == 0

/-- The fields of a ring descriptor that an operation read at issue (R149). -/
def EngOp.field (o : EngOp) (hi lo : Nat) : Nat := bits o.data.toNat hi lo

/-- The offset of the i-th command of a ring (R149, R150). -/
def EngOp.cmdOff (o : EngOp) (i : Nat) : Nat := o.field 31 0 + 64 * ((o.field 95 64 + i) % o.field 63 32)

/-- The i-th command of a ring. -/
def EngOp.cmd (o : EngOp) (t : Team) (i : Nat) : MqCmd := mqCmd (t.spadRead (o.cmdOff i) 64)

/-- The slots that a command names. -/
def MqCmd.slots (c : MqCmd) : List Nat :=
  (List.range ((c.rows + 15) / 16 * (fword c.word).nb c.ncols)).map (· + c.slot)

/-- The set of a launch on the quad of a core. -/
def State.bset (s : State) (core launch id : Nat) : Option BSet :=
  (s.quad (core / 4)).sets.find? fun b => b.launch == launch && b.id == id

/-- Columns of a set (R139). -/
def BSet.n (b : BSet) : Nat :=
  128 * b.nq + (match b.quarters.look b.nq with | some q => q.ncol | none => 0) + 1

/-- Whether quarters 0 to nq are declared (R139). -/
def BSet.complete (b : BSet) : Bool := (List.range (b.nq + 1)).all fun q => (b.quarters.look q).isSome

/-- K of a set (R139). -/
def BSet.depth (b : BSet) : Nat := b.kg * kgSize b.bfmt

/-- The set that a request names. -/
def State.setOf (s : State) (e : ResEntry) : Option BSet := s.bset (4 * e.quad) e.launch e.set

/-- The slots that a reservation entry's rows write (R144). -/
def State.entrySlots (s : State) (e : ResEntry) : List Nat :=
  match s.setOf e with
  | none => []
  | some b =>
    let nb := (fword e.word).nb b.n
    nodup (e.rows.flatMap fun r => (List.range nb).map fun x => e.slot + r.lane / 16 * nb + x)

/-- Physical slots of the slots that a group names. -/
def State.physSlots (s : State) (tid gid : Nat) (xs : List Nat) : List Nat :=
  match s.team tid with
  | none => xs
  | some t => nodup (xs.flatMap fun x => (t.lay ((s.group gid).bind (·.run)) x).slots)

/-- A team's scratchpad as an operation reads it: in deterministic mode as it stood at the start (R180). -/
def EngOp.sees (o : EngOp) (t : Team) : Team :=
  match o.still with
  | some (b, w) => { t with spad := b, owner := w }
  | none => t

/-- The physical slots that a request writes. -/
def State.entryPhys (s : State) (e : ResEntry) : List Nat := s.physSlots e.team e.grp (s.entrySlots e)

/-- The physical slots that the commands left of an MQRUN name. -/
def State.ringPhys (s : State) (o : EngOp) : List Nat :=
  match (s.team o.team).map o.sees with
  | some t => (List.range (o.field 127 96 - o.m)).flatMap fun i => s.physSlots o.team o.grp (o.cmd t (o.m + i)).slots
  | none => []

/-- The MMAs and MQRUNs of a group that were issued before a name and are still to be applied to some physical slots: the windows that hold
the requests, and the ring operations (R147, R340). -/
def State.mtxBlocks (s : State) (core gid before : Nat) (slots : List Nat) : List Nat :=
  ((s.mtxEntries.filter fun e =>
      e.grp == gid && decide (e.id < before) && (s.entryPhys e).any slots.contains).map (·.window))
    ++ ((s.core core).ops.filter fun o =>
      o.kind == .mqrun && o.grp == gid && decide (o.id < before) && !o.ran && (s.ringPhys o).any slots.contains).map (·.id)

/-- Whether one of them is not in a window. -/
def State.mtxQueued (s : State) (core gid before : Nat) (window : Option Nat) (slots : List Nat) : Bool :=
  (s.mtxBlocks core gid before slots).any fun n => some n != window

/-- Whether an MTX instruction of a group that was issued before a name is still to be applied to some physical slots: as `mtxQueued`, or
an ACCLD (R147, R284, R340). -/
def State.mtxPending (s : State) (core gid before : Nat) (window : Option Nat) (slots : List Nat) : Bool :=
  s.mtxQueued core gid before window slots
    || (s.core core).replies.any fun o => o.grp == gid && match o.kind with | .accld n => slots.contains n | _ => false

/-- Whether an instruction that names slots must wait at issue. -/
def View.slotsBusy (v : View) (s : State) (xs : List Nat) : Bool :=
  s.mtxPending v.t.core v.gid s.nextUid none (xs ++ s.physSlots v.g.team v.gid xs)

/-- The K-group up to which the engine goes: the last, or, where a pre-emption request has been sent to the team, any from the one reached
on: a free value (R162, log 47). -/
def State.kStop (s : State) (stopping : Bool) (reached groups : Nat) : State × Nat :=
  if stopping then ({ s with free := s.free + 1 }, reached + (Config.freeWord s.free).toNat % (groups - reached + 1)) else (s, groups)

/-! ### Misuse of slots -/

/-- A check's failure: a class H cause (true) or a class T cause. -/
abbrev Stop := Bool × Nat

/-- What a failed check comes to. -/
def stopRes (e : Stop) (addr : Nat) : Res := if e.1 then .halt e.2 addr else .trap e.2 0

/-- The open runs of a team. -/
def State.openRuns (s : State) (tid : Nat) : List Run :=
  (s.groups.filter fun (e : Nat × Group) => e.2.team == tid).filterMap fun e => e.2.run

/-- Whether slots lo to lo + n − 1 meet a run's range, reserve included. -/
def Run.meets (r : Run) (lo n : Nat) : Bool := overlap r.f (r.n + r.r) lo n

/-- Whether they meet a run's reserve. -/
def Run.meetsReserve (r : Run) (lo n : Nat) : Bool := overlap (r.f + r.n) r.r lo n

/-- Whether they meet a widened range (R284). -/
def Team.wide (t : Team) (lo n : Nat) : Bool := t.widened.any fun w => overlap w.f (w.n + w.r) lo n

/-- End the widened state of the ranges that hold one of some slots (R284). -/
def Team.unwiden (t : Team) (lo n : Nat) : Team :=
  { t with widened := t.widened.filter fun w => !overlap w.f (w.n + w.r) lo n }

/-- Slots in the window, and no reserve slot named directly (R64, R95). -/
def View.slotsOk (v : View) (s : State) (lo n : Nat) : Option Stop :=
  if v.t.slots < lo + n then some (true, 0x04)
  else if (s.openRuns v.g.team).any fun r => r.meetsReserve lo n then some (false, 0x27)
  else none

/-- A slot that an MMA names: a logical slot of the group's own run, or in the window and in no open run (R95, R145). -/
def View.mmaSlot (v : View) (s : State) (x : Nat) : Option Stop :=
  let own := match v.g.run with | some r => decide (r.f ≤ x) && decide (x < r.f + r.n) | none => false
  if own then none
  else if v.t.slots ≤ x then some (true, 0x04)
  else if (s.openRuns v.g.team).any fun r => r.meets x 1 then some (false, 0x27)
  else none

/-- Whether a word may be used inside the group's run, or outside one (R95). -/
def runCheck (run : Option Run) (d : FWord) : Option Nat :=
  match run with
  | some r =>
    let o := fword r.word
    if d.acc = o.acc ∧ d.bmode = o.bmode ∧ d.esc = o.esc ∧ d.t = o.t then none else some 0x27
  | none => if d.esc = 0 then none else some 0x22

/-! ### B sets -/

/-- Add a declaration to a quad (R138, R139). -/
def Quad.declare (q : Quad) (launch id bfmt kg nq qi : Nat) (r : Quarter) : Quad :=
  if q.sets.any fun b => b.launch == launch && b.id == id then
    { q with sets := mapIf (fun (b : BSet) => b.launch == launch && b.id == id)
                      (fun b => { b with quarters := b.quarters.put qi r }) q.sets }
  else { q with sets := q.sets ++ [⟨launch, id, bfmt, kg, nq, [(qi, r)]⟩] }

/-- Whether reserved bits of a set word are zero (R139). -/
def setWordClean (w : Nat) : Bool := bits w 31 24 == 0 && !bit w 16 && !bit w 3

/-- BSET (R139, R140, R308). -/
def execBset (d b : BitVec 10) (w : Src) (gd : Guard) (s : State) : Host.Outcome State Fault Refusal :=
  issue (.bset d b w gd) s fun v s =>
    match v.lanes gd with
    | [] => .ok s (some ([], fun _ => 0))
    | l :: ls =>
      let x := (v.src w l).toNat
      let fmt := bits x 23 20
      let kg := bits x 19 17 + 1
      let nq := bits x 7 6
      let qi := bits x 5 4
      let id := bits x 2 0
      let old := s.bset v.t.core v.g.launch id
      let bad := !setWordClean x || decide (5 < fmt) || decide (nq < qi) || decide (64 < kg * kgSize fmt)
        || decide (v.g.budget < b.toNat + kg * spanRegs fmt)
        || match old with
          | some o => o.bfmt != fmt || o.kg != kg || o.nq != nq || (o.quarters.look qi).isSome
          | none => decide (16 ≤ (s.quad (v.t.core / 4)).sets.length)
      if bad then .trap 0x2E 0
      -- a count outside its limits (R139, R157, log 99)
      else if 127 < bits x 15 8 then .trap 0x2F 0
      else
        let s := s.modQuad (v.t.core / 4) fun q => q.declare v.g.launch id fmt kg nq qi ⟨v.gid, b.toNat, bits x 15 8⟩
        let val : Word := match s.bset v.t.core v.g.launch id with
          | some o => BitVec.ofNat 32 (o.quarters.foldl (fun n e => n + 2 ^ e.1) 0 + 16 * b2n o.complete)
          | none => 0
        v.put s false d (l :: ls) fun _ => val

/-- BSET.FREE (R139, R308): waits while an MMA that names the set is pending. -/
def execBsetFree (d : BitVec 10) (w : Src) (gd : Guard) (s : State) : Host.Outcome State Fault Refusal :=
  issue (.bsetFree d w gd) s fun v s =>
    match v.lanes gd with
    | [] => .ok s (some ([], fun _ => 0))
    | l :: ls =>
      let x := (v.src w l).toNat
      let id := bits x 2 0
      let q := s.quad (v.t.core / 4)
      if !setWordClean x then .trap 0x2E 0
      else if q.table.any fun e => e.launch == v.g.launch && e.set == id then .hold s
      else
        let s := s.modQuad (v.t.core / 4) fun q =>
          { q with sets := q.sets.filter fun b => !(b.launch == v.g.launch && b.id == id) }
        v.put s false d (l :: ls) fun _ => 0

/-! ### MMA -/

/-- The quarters of a gang that issue, each with its executing lanes (R142). -/
def quartersOf (ls : List Nat) : List (List Nat) :=
  ([0, 1, 2, 3].map fun q => ls.filter fun l => l / 8 == q).filter fun xs => !xs.isEmpty

/-- The vote, the legality and the run check of a quarter, and its set (R90, R95, R145). -/
def View.mmaWord (v : View) (s : State) (o : MmaArgs) (ls : List Nat) : Except Stop (FWord × BSet) :=
  let w := v.src o.f (ls.headD 0)
  let d := fword w
  if ls.any fun l => v.src o.f l != w then .error (false, 0x21)
  else if !d.legal then .error (false, 0x22)
  else
    match runCheck v.g.run d with
    | some c => .error (false, c)
    | none =>
      match s.bset v.t.core v.g.launch o.set.toNat with
      | none => .error (false, 0x2E)
      | some b =>
        if !b.complete then .error (false, 0x2E) else if d.bfmt != b.bfmt then .error (false, 0x22) else .ok (d, b)

/-- The first of some checks to fail. -/
def firstStop : List (Option Stop) → Option Stop
  | [] => none
  | some e :: _ => some e
  | none :: es => firstStop es

/-- The registers and the slots of a quarter (R142, R145). -/
def View.mmaPlace (v : View) (s : State) (o : MmaArgs) (ls : List Nat) (d : FWord) (b : BSet) : Option Stop :=
  if v.g.budget < o.a.toNat + rowRegs d.afmt b.depth then some (true, 0x04)
  else
    let nb := d.nb b.n
    firstStop ((nodup (ls.flatMap fun l => (List.range nb).map fun x => o.slot.toNat + l / 16 * nb + x)).map (v.mmaSlot s))

/-- Every check of every quarter, the words first (R338). -/
def View.mmaCheck (v : View) (s : State) (o : MmaArgs) (qs : List (List Nat)) : Except Stop (List (List Nat × FWord × BSet)) :=
  let ws := qs.map fun ls => (ls, v.mmaWord s o ls)
  match ws.findSome? fun e => match e.2 with | .error c => some c | .ok _ => none with
  | some c => .error c
  | none =>
    let ok := ws.filterMap fun e => match e.2 with | .ok (d, b) => some (e.1, d, b) | .error _ => none
    match firstStop (ok.map fun e => v.mmaPlace s o e.1 e.2.1 e.2.2) with
    | some c => .error c
    | none => .ok ok

/-- The window that a request joins: an open one for its set and word with fewer than eight requests of its core; or a new one (R146). -/
def State.joinWindow (s : State) (e : ResEntry) : State × Nat :=
  let q := s.quad e.quad
  let fits := fun (x : Window) => x.isOpen && x.launch == e.launch && x.set == e.set && x.word == e.word
    && decide ((q.table.filter fun r => r.window == x.id && r.core == e.core).length < 8)
  match q.windows.find? fits with
  | some x => (s, x.id)
  | none =>
    let id := s.nextUid
    (s.fresh.1.modQuad e.quad fun q => { q with windows := q.windows ++ [⟨id, e.launch, e.set, e.word, true⟩] }, id)

/-- Put a quarter's request into the reservation table (R144). -/
def View.request (v : View) (o : MmaArgs) (mma : Nat) (tag : Option Nat) (s : State) (e : List Nat × FWord × BSet)
    (lead : Bool) : State :=
  let (ls, d, b) := e
  let w := v.src o.f (ls.headD 0)
  let n := rowRegs d.afmt b.depth
  let rows := ls.map fun l =>
    ({ lane := l, regs := (List.range n).map (fun i => v.g.reg (o.a.toNat + i) l)
       bound := (v.src o.q l).truncate 16 } : ARow)
  let (s, id) := s.fresh
  let ent : ResEntry :=
    { id := id, mma := mma, ctx := v.g.ctx, launch := v.g.launch, grp := v.gid, team := v.g.team, core := v.t.core
      slices := v.k.slices, tag := tag, sb := o.sb.toNat, set := o.set.toNat, slot := o.slot.toNat, word := w, rows := rows
      window := 0, skipped := 0, forced := false, lead := lead, quad := v.t.core / 4, kdone := 0 }
  let (s, win) := s.joinWindow ent
  s.modQuad (v.t.core / 4) fun q => { q with table := q.table ++ [{ ent with window := win }] }

/-- MMA (R142 to R146, R338). -/
def execMma (o : MmaArgs) (s : State) : Host.Outcome State Fault Refusal :=
  issue (.mma o) s fun v s =>
    match quartersOf (v.lanes o.g) with
    | [] => .ok s none
    | qs =>
      match v.mmaCheck s o qs with
      | .error e => stopRes e 0
      | .ok es =>
        if 64 < (s.quad (v.t.core / 4)).table.length + es.length then .hold s
        else
          match s.queueUp v (.mma o) (some o.sb) with
          | none => .hold s
          | some (s, tag) =>
            let mma := s.nextUid
            let s := s.fresh.1
            .ok (((List.range es.length).zip es).foldl (fun (s : State) e => v.request o mma tag s e.2 (e.1 == 0)) s) none

/-! ### Runs -/

/-- The format words of every active lane of the arriving slices (R290). -/
def View.partyWords (v : View) (a : Src) : List Word :=
  v.party.flatMap fun k =>
    match k.clause with
    | some c => (v.g.activeLanes k.slices).map fun l => v.g.src c a l
    | none => []

/-- The slots of a run as ACCOPEN leaves them (R290). -/
def Team.openRun (t : Team) (f n r fmt : Nat) (snap : Bool) : Team :=
  let t := t.unwiden f (n + r)
  let t := (List.range n).foldl (fun (t : Team) i =>
    (if snap then t else t.zeroSlot (f + i)).setTag (f + i) fmt) t
  if snap then (List.range n).foldl (fun (t : Team) i => t.copySlot (f + i) (f + r + i)) t else t

/-- ACCOPEN's effect, once for the whole group (R290). -/
def View.openRun (v : View) (s : State) (i : Instr) (o : AccopenArgs) (w : Word) : State :=
  let f := o.f.toNat
  let n := o.n1.toNat + 1
  let r := o.r.toNat
  let s := s.modTeam v.g.team fun t => t.openRun f n r (fword w).acc o.snap
  let s := s.modGroup v.gid fun g => { g with
    run := some ⟨f, n, r, o.snap, w, 0, true, v.c.next, []⟩, accw := 0 }
  let s := v.freeParty s i fun _ => none
  s.modGroup v.gid fun g =>
    let g := g.retire v.kid s.cycle (signOp i) 0 false none
    { g with slices := g.slices.map fun (e : Nat × Slice) =>
        (e.1, { e.2 with sigOpen := e.2.sig, stackOpen := e.2.stackSig }) }

/-- ACCOPEN (R95, R285, R290). -/
def execAccopen (o : AccopenArgs) (s : State) : Host.Outcome State Fault Refusal :=
  issue (.accopen o) s fun v s =>
    match v.meet with
    | .wait => .hold (v.comeTo s false)
    | .diverge => .halt 0x05 0
    | .all =>
      let ws := v.partyWords o.vf
      let w := ws.headD 0
      let f := o.f.toNat
      let n := o.n1.toNat + 1
      let r := o.r.toNat
      if ws.any (· != w) then .hold (v.meetTrap s (.accopen o) 0x21 0)
      else if !(fword w).legal then .hold (v.meetTrap s (.accopen o) 0x22 0)
      else if v.t.slots < f + n + r then .halt 0x04 0
      else if v.g.run.isSome || (o.snap && decide (r < n)) || (s.openRuns v.g.team).any (fun q => q.meets f (n + r)) then
        .hold (v.meetTrap s (.accopen o) 0x27 0)
      else if v.slotsBusy s ((List.range (n + r)).map (· + f)) then .hold s
      else .hold (v.openRun s (.accopen o) o w)

/-- The cells of a run that exceed its threshold, any of them (R93, R97). -/
def Team.runExceeds (t : Team) (r : Run) : Bool :=
  (List.range r.n).any fun i =>
    let l := t.lay (some r) (r.f + i)
    (List.range 16).any fun row => (List.range l.segs).any fun g => t.exceeds l row g (fword r.word).t

/-- The next width of a run and the slots that it takes (R96, R97). -/
def Run.next (r : Run) : Nat × Nat :=
  if r.fmt = 0 then (2, 2 * r.n) else if r.width = 0 then (1, 2 * r.n) else (2, 4 * r.n)

/-- The slots that escalation may use (R96). -/
def Run.room (r : Run) : Nat := if r.snap then r.r else r.n + r.r

/-- Initialise a widened run: zero, or the snapshot converted exactly with its cells copied per segment (R97). -/
def Team.widen (t : Team) (r : Run) (w m : Nat) : Team :=
  let t0 := (List.range m).foldl (fun (t : Team) i => t.zeroSlot (r.f + i)) t
  if !r.snap then t0
  else
    let r' := { r with width := w }
    (List.range r.n).foldl (fun (t : Team) i =>
      let src : Lay := ⟨false, r.f + r.r + i, 0, t.tags.getD (r.f + r.r + i) 0, 0⟩
      let dst := t.lay (some r') (r.f + i)
      (List.range 16).foldl (fun (t : Team) row =>
        let t := (List.range dst.cols).foldl (fun (t : Team) c => (t.accWrite dst row c (t.accRead src row c)).1) t
        (List.range dst.segs).foldl (fun (t : Team) g => t.setCell dst row g (t.cell src row g)) t) t) t0

/-- Close a run: a width above the opening width leaves its range widened (R284, R286). -/
def View.closeRun (v : View) (s : State) (r : Run) : State :=
  let s := s.modGroup v.gid fun g => { g with run := none }
  if r.width = 0 then s
  else s.modTeam v.g.team fun t => { t with widened := t.widened ++ [⟨r.f, r.n, r.r, r.fmt, r.width⟩] }

/-- The aux of a bound trap (R186). -/
def Run.aux (r : Run) : Nat := r.f * 2 ^ 55 + (r.n - 1) * 2 ^ 49 + r.width * 2 ^ 47 + r.fmt * 2 ^ 45

/-- Escalation: the slots are widened, the purity state is cleared, the tiles read included (log 84), and every slice re-enters at the
replay point with its path signature of ACCOPEN (R97, R202, R286). -/
def View.escalate (v : View) (s : State) (r : Run) : State :=
  let (w, m) := r.next
  let s := s.modTeam v.g.team fun t => t.widen r w m
  s.modGroup v.gid fun g =>
    let g := { g with run := some { r with width := w, pure := true, tiles := [] }, accw := BitVec.ofNat 2 w }
    let g := v.party.foldl (fun (g : Group) (k : Gang) =>
      (g.modGang k.id fun k => { k with wait := .no, since := s.cycle }).retire k.id s.cycle none 0 true none) g
    { g with slices := g.slices.map fun (e : Nat × Slice) =>
        if e.2.live = 0 then e else (e.1, { e.2 with pc := r.replay, sig := e.2.sigOpen, tokens := 0, popDone := false }) }

/-- How ACCCLOSE ends a pass (R97). -/
inductive RunEnd where
  | close
  | trap (cause : Nat)
  | escalate
deriving DecidableEq, Repr

/-- What a run comes to at ACCCLOSE (R97). -/
def Team.runEnd (t : Team) (r : Run) : RunEnd :=
  let d := fword r.word
  if d.esc = 0 || !t.runExceeds r then .close
  else if d.esc = 2 then .trap 0x23
  else if r.width = 2 then .trap 0x24
  else if !r.pure then .trap 0x25
  else if r.room < r.next.2 then .trap 0x26
  else .escalate

/-- ACCCLOSE's effect. A trap that cannot be delivered now leaves the run open and the instruction unretired (R187, R189). -/
def View.settleRun (v : View) (s : State) (i : Instr) (r : Run) : State :=
  match v.t.runEnd r with
  | .close =>
    let s := v.freeParty (v.closeRun s r) i fun _ => none
    s.modGroup v.gid fun g => g.retire v.kid s.cycle (signOp i) 0 false none
  | .trap cause =>
    let s := if v.x.line.isNone && !v.g.inHandler then v.closeRun s r else s
    v.meetTrap s i cause r.aux
  | .escalate => v.escalate s r

/-- ACCCLOSE (R97, R285, R286). -/
def execAccclose (s : State) : Host.Outcome State Fault Refusal :=
  issue .accclose s fun v s =>
    match v.meet with
    | .wait => .hold (v.comeTo s false)
    | .diverge => .halt 0x05 0
    | .all =>
      match v.g.run with
      | none => .hold (v.meetTrap s .accclose 0x27 0)
      | some r =>
        if v.g.slices.any fun (e : Nat × Slice) => e.2.live != 0 && e.2.stackSig != e.2.stackOpen then .halt 0x05 0
        else if v.slotsBusy s ((List.range r.n).map (· + r.f)) then .hold s
        else .hold (v.settleRun s .accclose r)

/-! ### Slot instructions -/

/-- ACCZ (R292). -/
def execAccz (slot n1 : BitVec 9) (gd : Guard) (s : State) : Host.Outcome State Fault Refusal :=
  issue (.accz slot n1 gd) s fun v s =>
    let a := slot.toNat
    let n := n1.toNat + 1
    if (v.lanes gd).isEmpty then .ok s none
    else
      match v.slotsOk s a n with
      | some e => stopRes e 0
      | none =>
        if (s.openRuns v.g.team).any fun r => r.meets a n then .trap 0x27 0
        else if v.slotsBusy s ((List.range n).map (· + a)) then .hold s
        else .ok (s.modTeam v.g.team fun t =>
          (List.range n).foldl (fun (t : Team) i => t.zeroSlot (a + i)) (t.unwiden a n)) none

/-- ACCMOV (R289). -/
def execAccmov (dst src : BitVec 9) (gd : Guard) (s : State) : Host.Outcome State Fault Refusal :=
  issue (.accmov dst src gd) s fun v s =>
    let d := dst.toNat
    let c := src.toNat
    if (v.lanes gd).isEmpty then .ok s none
    else if v.t.slots ≤ d || decide (v.t.slots ≤ c) then .halt 0x04 0
    else
      let runs := s.openRuns v.g.team
      let own := match v.g.run with | some r => r.meets c 1 | none => false
      if runs.any (fun r => r.meets d 1 || r.meetsReserve c 1) || own || v.t.wide d 1 || v.t.wide c 1 then .trap 0x27 0
      else if v.slotsBusy s [d, c] then .hold s
      else .ok (if d = c then s else s.modTeam v.g.team fun t => t.copySlot c d) none

/-- The .S range of ACCLD and ACCST (R63, R288). -/
def View.accRange (v : View) (a n align : Nat) : Option Stop :=
  if a % align != 0 || !v.t.inWindow a n then some (true, 0x03)
  else if (tilesOf a n).any v.t.engineSide then some (false, 0x2C)
  else none

/-- ACCLD: read at issue, written to the slot when its reply comes (R287, R288). -/
def execAccld (o : AccldArgs) (s : State) : Host.Outcome State Fault Refusal :=
  issue (.accld o) s fun v s =>
    match v.lanes o.g with
    | [] => .ok s none
    | l :: _ =>
      let a := addrOf v.g v.c .s o.base o.off l
      let n := o.slot.toNat
      if v.t.slots ≤ n then .halt 0x04 0
      else
        match v.accRange a 4160 64 with
        | some e => stopRes e a
        | none =>
          if (s.openRuns v.g.team).any (fun r => r.meets n 1) || v.t.wide n 1 then .trap 0x27 0
          else if v.slotsBusy s [n] || (s.core v.t.core).storing v.g.team [(a, 4160)] then .hold s
          else
            match s.queueUp v (.accld o) (some o.sb) with
            | none => .hold s
            | some (s, tag) =>
              let p := piece l 0 a 4160 0
              let op := (v.op s.nextUid tag (some o.sb) (.accld n) v.g.team [p] 0).perform p (v.readNow s .s p) 0
              let s := s.fresh.1.modGroup v.gid fun g => g.readTiles (tilesOf a 4160)
              .ok (s.replyLater v.t.core op) none

/-- The codes of a slot converted, row by row, with their flags; or the first element's trap (R291). -/
def Team.slotConvert (t : Team) (l : Lay) (dst : Fmt) (rm : Rnd) (pol : Pol) : Except CvtTrap (List Nat × Word) :=
  ((List.range 16).flatMap fun r => (List.range l.segs).map fun g => (r, g)).foldl
    (fun (acc : Except CvtTrap (List Nat × Word)) e =>
      match acc, t.segConvert l e.1 e.2 dst rm pol with
      | .error c, _ => .error c
      | .ok _, .error c => .error c
      | .ok (cs, fl), .ok (ys, f, _) => .ok (cs ++ ys, fl ||| f)) (.ok ([], 0))

/-- Codes of one width as a little-endian number. -/
def packCodes (w : Nat) (cs : List Nat) : Nat := cs.foldr (fun c n => c % 2 ^ w + 2 ^ w * n) 0

/-- ACCST's writes: in deterministic mode into the group's log at issue, otherwise at completion (R179, R291, log 21). -/
def View.startAccst (v : View) (s : State) (o : AccstArgs) (a n data : Nat) (fl : Word) : Res :=
  match s.queueUp v (.accst o) (some o.sb) with
  | none => .hold s
  | some (s, tag) =>
    let s := s.modGroup v.gid fun g => g.raise v.kid fl
    if v.x.det then
      let op := v.op s.nextUid tag (some o.sb) .accst v.g.team [] 0
      let s := s.fresh.1.modGroup v.gid fun g => { g with det := { g.det with log := g.det.log ++ logBytes true a n data } }
      .ok (s.replyLater v.t.core op) none
    else
      let p := piece 0 0 a n data
      let op := (v.op s.nextUid tag (some o.sb) .accst v.g.team [p] 0).perform p 0 0
      .ok (s.fresh.1.replyLater v.t.core op) none

/-- ACCST (R94, R288, R291). -/
def execAccst (o : AccstArgs) (s : State) : Host.Outcome State Fault Refusal :=
  issue (.accst o) s fun v s =>
    match v.lanes o.g with
    | [] => .ok s none
    | l :: _ =>
      let a := addrOf v.g v.c .s o.base o.off l
      let lay := v.t.lay v.g.run o.slot.toNat
      let w := if o.dst = .i4x then 4 else fmtWidth o.dst
      let n := 16 * lay.cols * w / 8
      if v.t.slots ≤ o.slot.toNat then .halt 0x04 0
      else
        match v.accRange a n 16 with
        | some e => stopRes e a
        | none =>
          match v.slotsOk s o.slot.toNat 1 with
          | some e => stopRes e 0
          | none =>
            if v.slotsBusy s [o.slot.toNat] then .hold s
            else
              match v.t.slotConvert lay o.dst o.rm o.pol with
              | .error .overflow => .trap 0x28 0
              | .error .invalid => .trap 0x29 0
              | .ok (cs, fl) => v.startAccst s o a n (packCodes (if o.dst = .i4x then 16 else fmtWidth o.dst) cs) fl

/-- An ACCLD's data reaches its slot, as far as the slot's shape has cells; an ACCST's writes are placed (R64, R287, R291). -/
def State.placeAcc (s : State) (o : Op) : State :=
  match o.kind, o.pieces with
  | .accld n, p :: _ =>
    let v := p.got.getD 0
    s.modTeam o.d fun t => { t with
      acc := Mem.writeN t.acc (4096 * n) 4096 v
      cells := Mem.writeN t.cells (64 * n) (t.cellBytes n) (v / 2 ^ 32768) }
  | .accst, p :: _ => s.spadStore o.d p.va p.len p.val
  | _, _ => s

/-- BNDTHR (R304). -/
def execBndthr (slot : BitVec 9) (t : BitVec 10) (gd : Guard) (s : State) : Host.Outcome State Fault Refusal :=
  issue (.bndthr slot t gd) s fun v s =>
    match v.lanes gd with
    | [] => .ok s (some ([], fun _ => 0))
    | l :: ls =>
      match v.slotsOk s slot.toNat 1 with
      | some e => stopRes e 0
      | none =>
        if v.slotsBusy s [slot.toNat] then .hold s
        else
          let lay := v.t.lay v.g.run slot.toNat
          let th := (v.g.reg t.toNat l).toNat % 64
          let hit := fun (r g : Nat) => decide (g < lay.segs) && v.t.exceeds lay r g th
          let mask := (List.range 16).foldl (fun m r => m + b2n (hit r 0) * 2 ^ (2 * r) + b2n (hit r 1) * 2 ^ (2 * r + 1)) 0
          v.put s false t (l :: ls) fun _ => BitVec.ofNat 32 mask

/-- A cell as BNDRD delivers it (R94, R303). -/
def Team.cellOut (t : Team) (l : Lay) (conv : Option (Fmt × Rnd)) (r g : Nat) : Nat :=
  if l.segs ≤ g then 0
  else
    match conv with
    | none => t.cell l r g
    | some (dst, rm) =>
      if !l.needsTerm dst then t.cell l r g
      else
        match t.segConvert l r g dst rm .sat with
        | .ok (_, _, u) => Bnd.code (Bnd.add (Bnd.ofCode (t.cell l r g)) u)
        | .error _ => 0x7F80

/-- BNDRD (R94, R303). -/
def execBndrd (slot : BitVec 9) (d : BitVec 10) (conv : Option (Fmt × Rnd)) (gd : Guard) (s : State) :
    Host.Outcome State Fault Refusal :=
  issue (.bndrd slot d conv gd) s fun v s =>
    match v.lanes gd with
    | [] => .ok s (some ([], fun _ => 0))
    | ls =>
      match v.slotsOk s slot.toNat 1 with
      | some e => stopRes e 0
      | none =>
        if v.slotsBusy s [slot.toNat] then .hold s
        else
          let lay := v.t.lay v.g.run slot.toNat
          v.put s false d ls fun l => BitVec.ofNat 32 (v.t.cellOut lay conv (l / 2) (l % 2))

end Sys2Proof.Machine
end

