-- ==== Sys2Proof/Machine/Window.lean ====
section
/-! DEFINITION. What the host sees of the device beside its memory: configuration headers (R1), the management window with its command
rings (R223, R224) and the MSI-X structures (R220, R225). Reads and writes of them come by HOST_PEER_READ and HOST_PEER_WRITE, under the
agent numbers given here (log 95). -/
namespace Sys2Proof.Machine

/-- A place that the host port reads and writes, by agent number: BAR0, BAR4 or the configuration header of function f, 0 the physical
function and 1 to 16 the virtual ones. Smaller numbers are the port and the links themselves, with device memory behind them. -/
inductive Place where
  | memory
  | window (f : Nat)
  | msix (f : Nat)
  | config (f : Nat)
deriving DecidableEq, Repr

def placeOf (agent : Nat) : Place :=
  if 320 ≤ agent && agent ≤ 336 then .window (agent - 320)
  else if 352 ≤ agent && agent ≤ 368 then .msix (agent - 352)
  else if 384 ≤ agent && agent ≤ 400 then .config (agent - 384)
  else .memory

/-! ### The management window (R223) -/

/-- Entries of a ring: the PF's, or a VF's. -/
def ringEntries (ring : Nat) : Nat := if ring = 0 then 64 else 8

/-- The offset of a ring's tail, its head following it. -/
def tailAt (ring : Nat) : Nat := if ring = 0 then 0x40 else 0

/-- The offset of a ring's entry. -/
def entryAt (ring i : Nat) : Nat := (if ring = 0 then 0x1000 else 0x100) + 64 * i

def Ring.fresh : Ring := ⟨0, 0, []⟩

def State.ringOf (s : State) (ring : Nat) : Ring := s.dev.rings.getD ring Ring.fresh

def State.setRing (s : State) (ring : Nat) (r : Ring) : State := { s with dev := { s.dev with rings := s.dev.rings.put ring r } }

/-- The status word: map number, replacement request, boot state. -/
def Device.statusWord (d : Device) : Nat := d.mapno % 2 ^ 32 * 2 ^ 32 + b2n d.replacement * 2 ^ 8 + d.boot % 256

/-- BAR0 of a function, byte by byte. -/
def State.window (s : State) (f : Nat) : List Host.Cell :=
  let r := s.ringOf f
  let m := if f = 0 then Mem.writeN [] 0 8 s.dev.statusWord else []
  let m := Mem.writeN (Mem.writeN m (tailAt f) 8 r.tail) (tailAt f + 8) 8 r.head
  (List.range (ringEntries f)).foldl (fun m i => Mem.writeN m (entryAt f i) 64 (r.entries.getD i 0).toNat) m

/-- The host writes in BAR0: a tail or entries; the status word and the head are not its to write. -/
def State.windowWrite (s : State) (f off : Nat) (data : List Byte) : State :=
  let m := Mem.writeBytes (s.window f) off data
  let r := s.ringOf f
  s.setRing f { r with
    tail := Mem.readN m (tailAt f) 8
    entries := (List.range (ringEntries f)).foldl (fun (t : Tab (BitVec 512)) i =>
      t.put i (BitVec.ofNat 512 (Mem.readN m (entryAt f i) 64))) r.entries }

/-! ### MSI-X (R220, R225) -/

/-- Vectors of a function. -/
def vectors (f : Nat) : Nat := if f = 0 then 64 else 4

/-- BAR4 of a function: the table, and from 0x2000 on the pending bits (log 95). -/
def State.msixTable (s : State) (f : Nat) : List Host.Cell :=
  let m := (List.range (vectors f)).foldl (fun m v => Mem.writeN m (16 * v) 16 (s.dev.msix.getD (64 * f + v) 0).toNat) []
  Mem.writeN m 0x2000 8 ((List.range (vectors f)).foldl (fun n v =>
    n + b2n (s.dev.msixPend.contains (64 * f + v)) * 2 ^ v) 0)

/-- Vectors whose pending bit is set and whose mask is not signal. -/
def Device.releaseVectors (d : Device) : Device :=
  let go := d.msixPend.filter fun n => !d.masked n
  { d with msixPend := d.msixPend.filter d.masked, signals := d.signals + (go.filter (· == 0)).length }

/-- The host writes the table; the pending bits are not its to write. -/
def State.msixWrite (s : State) (f off : Nat) (data : List Byte) : State :=
  let m := Mem.writeBytes (s.msixTable f) off data
  let table := (List.range (vectors f)).foldl (fun (t : Tab (BitVec 128)) v =>
    t.put (64 * f + v) (BitVec.ofNat 128 (Mem.readN m (16 * v) 16))) s.dev.msix
  { s with dev := { s.dev with msix := table }.releaseVectors }

/-! ### Configuration headers (R1) -/

/-- What a header says: vendor, device and revision, where PCIe puts them (log 95). -/
def PciHeader.bytes (h : PciHeader) : List Host.Cell :=
  Mem.writeN (Mem.writeN (Mem.writeN [] 0 2 h.vendor.toNat) 2 2 h.device.toNat) 8 1 h.revision.toNat

def Device.header (d : Device) (f : Nat) : PciHeader := if f = 0 then d.pf else d.vf

/-! ### Reads and writes -/

/-- Bytes of a place. -/
def Place.size : Place → Nat
  | .memory => 2 ^ 40
  | .window f => if f = 0 then 0x10000 else 0x1000
  | .msix _ => 0x4000
  | .config _ => 0x1000

/-- A write of a place other than memory. -/
def State.windowsWrite (s : State) (p : Place) (off : Nat) (data : List Byte) : State :=
  match p with
  | .memory | .config _ => s
  | .window f => s.windowWrite f off data
  | .msix f => s.msixWrite f off data

/-- What a place other than memory shows; after a failed bring-up nothing answers but the PF's status word (R229), and without power nothing. -/
def State.shown (s : State) (p : Place) : List Host.Cell :=
  if s.dev.boot != 6 then (if p == .window 0 then Mem.writeN [] 0 8 s.dev.statusWord else [])
  else
    match p with
    | .memory => []
    | .window f => s.window f
    | .msix f => s.msixTable f
    | .config f => (s.dev.header f).bytes

/-- The bytes that a read of a place returns. -/
def State.shownBytes (s : State) (p : Place) (off n : Nat) : List Byte :=
  (List.range n).map fun i => Mem.read (s.shown p) (off + i)

end Sys2Proof.Machine
end

