-- ==== Sys2Proof/Machine/MemEvents.lean ====
section
/-! DEFINITION. Events of the memory system: home slices, replies, routers, monitors, logical time, fences, walks, the host and
peers, the host port (R116, R120, R123 to R137, R200, R201, R226). -/
namespace Sys2Proof.Machine

/-! ### Home slices -/

/-- Lines that operations of a core wait for at a home: of the head of its queue first, then of its weak operations (R122, R127). -/
def State.targets (s : State) (core : Nat) (want : OpKind → Bool) : List (Op × Nat) :=
  let k := s.core core
  ((k.head.toList.filter (·.port.isNone) ++ k.wk).filter fun o => want o.kind).flatMap fun o =>
    (nodup (((o.nextPieces (k.isWeak o)).filter fun p => !k.held o p && !k.shownBefore o p).map fun p => s.lineAt p.pa)).map fun l => (o, l)

/-- Pieces of an operation that a line's home serves next. -/
def State.piecesAt (s : State) (core : Nat) (o : Op) (line : Nat) : List Piece :=
  (o.nextPieces ((s.core core).isWeak o)).filter fun p =>
    s.lineAt p.pa == line && !(s.core core).held o p && !(s.core core).shownBefore o p

/-- 24 hours of power-on time, in the intervals in which it is kept (R200, R205, log 91). -/
def day : Nat := 24 * 360

/-- Sectors become uncorrectable: they stay poisoned until they are written whole or their page is retired (R120, R201). -/
def State.poisonSectors (s : State) (xs : List Nat) : State :=
  { s with dev := { s.dev with poison := nodup (s.dev.poison ++ xs) } }

/-- A correction is counted at the die of the home slice (R200). -/
def State.countDie (s : State) (pa : Nat) : State :=
  let die := homeSlice pa / 128
  { s with dev := { s.dev with dieErrs := s.dev.dieErrs.put die (s.dev.dieErrs.getD die 0 + 1) } }

/-- What the codes found at a home: a DRAM sector corrected for the third time within 24 hours, or uncorrectable, has its line pinned; an
uncorrectable error of a line's directory, lease or monitor state poisons the line's data. The DRAM sectors of a pinned line are not read
again (R120, R200, R201). -/
def State.eccFound (s : State) (pa : Nat) (ecc : Ecc) : State :=
  if (s.line (lineOf pa)).pinned.isSome && (ecc == .corrected || ecc == .uncorrectable) then s
  else match ecc with
  | .clean => s
  | .corrected =>
    let ts := ((s.dev.corrected.getD (pa / 64) []).filter fun t => decide (s.powered < t + day)) ++ [s.powered]
    let s := (s.countDie pa)
    let s := { s with dev := { s.dev with corrected := s.dev.corrected.put (pa / 64) ts } }
    if 3 ≤ ts.length then s.pinLine pa else s
  | .uncorrectable => (s.poisonSectors [pa / 64]).pinLine pa
  | .l2Corrected | .stateCorrected => s.countDie pa
  | .l2Uncorrectable => s.poisonSectors [pa / 64]
  | .stateError => s.poisonSectors ([0, 1, 2, 3].map (· + 4 * lineOf pa))

/-- What routers carry for an operation, or have merged of it, when its tag is dead: its merged contributions are dropped, and those that it
carried for others go on by themselves (R133, R199). -/
def State.unmerge (s : State) (core : Nat) (o : Op) : State :=
  let mine := s.router.filter fun m => m.dst == core && m.dstOp == o.id
  let s := mine.foldl (fun (s : State) m =>
    s.modCore m.src fun k => { k with rq := mapIf (fun (q : Op) => q.id == m.srcOp) (fun q =>
      { q with pieces := mapIf (fun (p : Piece) => p.lane == m.lane) (fun p => { p with merged := false }) q.pieces }) k.rq }) s
  { s with router := s.router.filter fun m => !((m.dst == core && m.dstOp == o.id) || (m.src == core && m.srcOp == o.id)) }

/-- A request that bears a dead tag: reads answer zero, writes are dropped, and so is what routers have merged (R199). -/
def State.serveDead (s : State) (core : Nat) (o : Op) (line : Nat) : State :=
  let s := s.unmerge core o
  let ps := s.piecesAt core o line ++ o.pieces.filter fun p => p.merged && p.got.isNone
  let o := ps.foldl (fun (o : Op) p => o.perform p 0 0) o
  ((s.setOp core o).settleOp core o).advanceCore core

/-- Serve a monitor's first read at its home: an ordinary load (R132, R341). An uncorrectable error is a contained fault; a halt in progress
holds it back, and the instruction executes again at resumption (R187, R342). -/
def State.serveWatch (s : State) (core : Nat) (o : Op) : State :=
  match o.pieces with
  | [] => s.completeOp core o
  | p :: _ =>
    if s.poisoned p then
      if (s.ctx o.ctx).line.isSome then
        ((s.dropOp core o.id).modCore core (·.unref o.tag)).modGang o.grp o.gang fun k => { k with wait := .stopped }
      else (s.containedFault o.grp (s.opReport core o 0x40 p.va (s.served p.pa / 64))).completeOp core o
    else
      let (s, v) := s.coreRead core p.pa p.len
      (s.dropOp core o.id).watch core o p v false

/-- HOME_LOAD_REQUEST: a home serves the k-th line that a core's loads wait for: an owned copy is recalled, the lease extended,
and the pieces are read (R123). -/
def State.homeLoad (s : State) (core : Nat) (k : Option Nat) (ecc : Ecc) : State :=
  match (s.targets core fun q => !q.isStore && !q.isAtomic)[k.getD 0]? with
  | none => s
  | some (o, line) =>
    let s := match (s.piecesAt core o line).head? with
      | some p => s.eccFound (s.served p.pa) ecc
      | none => s
    if !s.tagLive o.ctx o.gen then
      if o.kind.isMonitor then (s.completeOp core o).advanceCore core else s.serveDead core o line
    else if o.kind.isMonitor then (s.serveWatch core o).advanceCore core
    else
      let ps := s.piecesAt core o line
      let want := ps.foldl (fun (m : Mask4) p => m ||| sectorsOf p.pa p.len) 0
      let s := if s.l1Hit core line want then s else s.grantLease core line want
      let (s, o) := ps.foldl (fun (acc : State × Op) p => acc.1.readL1 core acc.2 p) (s, o)
      (s.settleOp core o).advanceCore core

/-- Store the pieces of an ordinary operation under ownership, or those of a weak one at the home with the pts of its issue
(R124, R127). -/
def State.applyStores (s : State) (core : Nat) (weak : Bool) (o : Op) (ps : List Piece) : State × Op :=
  ps.foldl (fun (acc : State × Op) p =>
    if weak then
      let (s, ts) := acc.1.homeWrite p.pa p.len p.val o.pts
      let o := acc.2.perform p 0 ts
      ((s.weakUpdate core o p).setOp core o, o)
    else acc.1.storeL1 core acc.2 p) (s, o)

/-- HOME_STORE_APPLY: a home gives ownership of the k-th line that a core's stores wait for, or applies a weak store; while the
page is being copied it holds them (R119, R124). -/
def State.homeApply (s : State) (core : Nat) (k : Option Nat) : State :=
  match (s.targets core OpKind.isStore)[k.getD 0]? with
  | none => s
  | some (o, line) =>
    if !s.tagLive o.ctx o.gen then s.serveDead core o line
    else
      let ps := s.piecesAt core o line
      let weak := (s.core core).isWeak o
      if ps.any fun p => s.lockedFor p.pa then s
      else
        let (s, o) := s.applyStores core weak o ps
        (s.settleOp core o).advanceCore core

/-- What routers have merged into one piece of an operation. -/
def State.mergedInto (s : State) (core id lane : Nat) : List Merge :=
  s.router.filter fun m => m.dst == core && m.dstOp == id && m.dstLane == lane

/-- The merged pieces that a piece carries: core, operation and piece, nearest first, at most `fuel` deep (R133). -/
def State.carried (s : State) : Nat → Nat → Nat → Piece → List (Nat × Op × Piece)
  | 0, _, _, _ => []
  | fuel + 1, core, id, p =>
    (s.mergedInto core id p.lane).flatMap fun m =>
      match (s.core m.src).rq.find? (·.id == m.srcOp) with
      | none => []
      | some o =>
        match o.pieces.find? fun q => q.lane == m.lane && q.pa == p.pa with
        | none => []
        | some q => (m.src, o, q) :: State.carried s fuel m.src o.id q

/-- Two contributions of float adds combined, where both are there (R133). -/
def sumMaybe (a b : Option Nat) : Option Nat :=
  match a, b with
  | some x, some y => some (atomNew .add true false x y 0)
  | some x, none => some x
  | none, y => y

/-- The contribution of a request of float adds with .MRG: its own value, to which RN32 adds, merge by merge, those of the requests that
routers combined into it. The value of a dead tag is dropped, and what was combined into it stays (R133, R199). -/
def State.mergedSum (s : State) : Nat → Nat → Op → Piece → Option Nat
  | 0, _, o, p => if s.tagLive o.ctx o.gen then some p.val else none
  | fuel + 1, core, o, p =>
    (s.mergedInto core o.id p.lane).foldl (fun acc m =>
      match (s.core m.src).rq.find? (·.id == m.srcOp) with
      | none => acc
      | some r =>
        match r.pieces.find? fun q => q.lane == m.lane && q.pa == p.pa with
        | some q => sumMaybe acc (State.mergedSum s fuel m.src r q)
        | none => acc) (if s.tagLive o.ctx o.gen then some p.val else none)

/-- A merged piece has been performed: it has read a value, and its operation goes on. -/
def State.performMerged (s : State) (core : Nat) (o : Op) (p : Piece) (old ts : Nat) (bad : Bool) : State :=
  let o := ((s.core core).rq.find? (·.id == o.id)).getD o
  let o := o.perform p old ts
  let o := if bad then { o with poison := some (o.poison.getD p.va) } else o
  (s.setOp core o).settleOp core o

/-- Apply, consecutively and at one timestamp, what routers merged into a request; each application may satisfy a monitor. Contributions of
dead tags change nothing (R132, R133, R199). -/
def State.applyMerged (s : State) (pa len ts : Nat) (bad : Bool) : List (Nat × Op × Piece) → Nat → State
  | [], _ => s
  | (c, q, r) :: es, cur =>
    if !s.tagLive q.ctx q.gen then (s.performMerged c q r 0 0 false).applyMerged pa len ts bad es cur
    else if q.kind.merges then (s.performMerged c q r 0 ts bad).applyMerged pa len ts bad es cur
    else
      let new := q.kind.apply cur r
      ((s.homeAgain pa len new ts).performMerged c q r cur ts bad).applyMerged pa len ts bad es new

/-- Apply one piece at its home, and with it what routers merged into it, at the largest logical time among them. Float adds that merged were
summed on the way (R124, R133). -/
def State.applyAtomic (s : State) (core : Nat) (o : Op) (p : Piece) : State × Op :=
  let more := s.carried (s.router.length + 1) core o.id p
  let pts := more.foldl (fun n e => if s.tagLive e.2.1.ctx e.2.1.gen then max n (s.core e.1).pts else n) (s.core core).pts
  let val := if o.kind.merges then (s.mergedSum (s.router.length + 1) core o p).getD p.val else p.val
  let (s, old) := s.homeRead p.pa p.len
  let new := o.kind.apply old { p with val := val }
  let (s, ts) := s.homeWrite p.pa p.len new pts
  let bad := s.poisoned p
  let o := o.perform p old ts
  let o := if bad then { o with poison := some (o.poison.getD p.va) } else o
  let s := (s.setOp core o).applyMerged p.pa p.len ts bad more new
  let o := ((s.core core).rq.find? (·.id == o.id)).getD o
  ({ s with router := s.router.filter fun m => !more.any fun e => m.src == e.1 && m.srcOp == e.2.1.id && m.lane == e.2.2.lane }, o)

/-- HOME_ATOMIC_APPLY: a home applies the read-modify-writes of the head of a core's queue on one line, in ascending lane order
(R124, R133, R294, R296). -/
def State.homeAtomic (s : State) (core : Nat) (k : Option Nat) : State :=
  match (s.targets core OpKind.isAtomic)[k.getD 0]? with
  | none => s
  | some (o, line) =>
    if !s.tagLive o.ctx o.gen then s.serveDead core o line
    else
      let ps := s.piecesAt core o line
      if ps.any fun p => s.lockedFor p.pa then s
      else
        let (s, o) := ps.foldl (fun (acc : State × Op) p => acc.1.applyAtomic core acc.2 p) (s, o)
        s.settleOp core o

/-! ### Routers -/

/-- Whether two operations are of a kind that routers combine (R133). -/
def mergeable : OpKind → OpKind → Bool
  | .amaxp _, .amaxp _ => true
  | .ared .add true _ m1, .ared .add true _ m2 => m1 && m2
  | a, b =>
    let cls : OpKind → Option (AtomOp × Bool × Bool) := fun k =>
      match k with
      | .atom op t w8 | .ared op t w8 _ =>
        if op == .swap || op == .cas || (op == .add && t) then none else some (op, t, w8)
      | .bcbarm => some (.add, false, true)
      | _ => none
    match cls a, cls b with
    | some x, some y => x == y
    | _, _ => false

/-- The pairs of pieces of two operations that a router may combine, the second into the first: to one word, and of one operation only
float adds with .MRG, the higher lane's into the lower's (R133). -/
def mergePairs (same : Bool) (o1 o2 : Op) : List (Piece × Piece) :=
  (o1.nextPieces false).flatMap fun p =>
    ((o2.nextPieces false).filter fun q =>
      p.pa == q.pa && p.len == q.len && (!same || (decide (p.lane < q.lane) && o1.kind.merges))).map fun q => (p, q)

/-- ROUTER_MERGE: a piece of the second core's head is combined into one of the first core's to the same word; which, where several may be, is
free. The cores may be one, and the lanes those of one instruction (R133). -/
def State.routerMerge (s : State) (c1 c2 : Nat) : State :=
  match (s.core c1).head, (s.core c2).head with
  | some o1, some o2 =>
    if !mergeable o1.kind o2.kind || (s.ctx o1.ctx).det || (s.ctx o2.ctx).det || o1.port.isSome || o2.port.isSome
      || !s.tagLive o1.ctx o1.gen || !s.tagLive o2.ctx o2.gen then s
    else
      let ps := mergePairs (c1 == c2) o1 o2
      match ps[(Config.freeWord s.free).toNat % ps.length]? with
      | none => s
      | some (p, q) =>
        let o2 := { o2 with pieces := mapIf (fun (r : Piece) => r.lane == q.lane && r.stage == q.stage)
                              (fun r => { r with merged := true }) o2.pieces }
        { s.setOp c2 o2 with
          free := if ps.length = 1 then s.free else s.free + 1
          router := s.router ++ [⟨c2, o2.id, q.lane, c1, o1.id, p.lane⟩] }
  | _, _ => s

/-! ### Replies -/

/-- The sector of an operation's access at a virtual address. -/
def State.sectorAt (s : State) (o : Op) (va : Nat) : Nat :=
  match o.pieces.find? fun p => p.va == va with
  | some p => s.served p.pa / 64
  | none => 0

/-- A read that consumed an uncorrectable error: a contained fault if its group is there, else logged as unconsumed (R109,
R201). -/
def State.consumeBad (s : State) (core : Nat) (o : Op) (va : Nat) : State :=
  let sec := s.sectorAt o va
  if s.present o.grp then (s.containedFault o.grp (s.opReport core o 0x40 va sec)).completeOp core o
  else ({ s with dev := { s.dev with unconsumed := s.dev.unconsumed ++ [sec] } }).completeOp core o

/-- An atomic whose fault is held back gives its place in its core's queue up (R187). -/
def State.holdBack (s : State) (core : Nat) (o : Op) : State :=
  s.modCore core fun k =>
    if k.rq.any (·.id == o.id) then { k with rq := k.rq.filter (·.id != o.id), replies := k.replies ++ [o] } else k

/-- An operation's data arrives: registers are written, the scoreboard falls; poison is a contained fault, which a halt in progress holds
back, and which a gang that speculates holds until its fence completes. What comes for a dead tag is consumed by nobody (R129, R187, R201,
R331). -/
def State.arrive (s : State) (core : Nat) (o : Op) : State :=
  if !s.tagLive o.ctx o.gen then
    (match o.poison with
      | some va => { s with dev := { s.dev with unconsumed := s.dev.unconsumed ++ [s.sectorAt o va] } }
      | none => s).completeOp core o
  else
    match o.poison with
    | some va =>
      let held := match s.group o.grp with | some g => (g.pastFence o).isSome | none => false
      if (s.ctx o.ctx).line.isSome || held then s.holdBack core o else s.consumeBad core o va
    | none => ((s.modGroup o.grp fun g => g.deliver o).placeAcc o).completeOp core o

/-- Some bytes of an operation's destinations arrive ahead of the rest (R238). -/
def State.arrivePart (s : State) (o : Op) (part : List (Nat × Nat)) : State :=
  if !s.tagLive o.ctx o.gen || o.poison.isSome then s else s.modGroup o.grp fun g => g.deliverPart o part

/-- What the codes of a core's pool or L1 found for a load: counted in the core's wear record, and an error that was not corrected is the
load's (R200, R201, R208). -/
def State.coreFound (s : State) (core : Nat) (o : Op) (ecc : CoreEcc) : State × Op :=
  let bad := { o with poison := o.poison.or (o.pieces.head?.map (·.va)) }
  let (s, o) := match ecc with
    | .clean => (s, o)
    | .pool false => (s.countErr core 0, o)
    | .pool true => (s.countErr core 1, bad)
    | .l1 false => (s.countErr core 2, o)
    | .l1 true => (s.countErr core 3, bad)
  (s.modCore core fun k => { k with replies := mapIf (fun (q : Op) => q.id == o.id) (fun _ => o) k.replies }, o)

/-- Whether an ACCST of a core was issued before an operation and has still to place its writes: they are placed in core order (R291). -/
def Core.placesBefore (k : Core) (o : Op) : Bool := k.replies.any fun q => q.kind == .accst && decide (q.id < o.id)

/-- LOAD_REPLY: a load's data arrives at its core (R123, R331), or some bytes of it (R238); an ACCST's writes are placed (R291); what a PQPOP
returns arrives (R279). -/
def State.loadReply (s : State) (core : Nat) (r : Reply) : State :=
  match (s.core core).replies.find? (·.id == r.id) with
  | some o =>
    if o.kind.isAtomic || (o.kind == .accst && (s.core core).placesBefore o) then s
    else if !r.part.isEmpty then s.arrivePart o r.part
    else
      let (s, o) := if o.kind.isStore then (s, o) else s.coreFound core o r.ecc
      s.arrive core o
  | none => s

/-- ATOMIC_ACK: a home acknowledges an atomic; the core's logical time rises to its timestamp and the queue goes on (R124). -/
def State.atomicAck (s : State) (core : Nat) (a : Ack) : State :=
  match ((s.core core).rq ++ (s.core core).replies).find? fun o => o.id == a.id with
  | some o =>
    if o.kind.isAtomic && o.ready && !a.part.isEmpty then s.arrivePart o a.part
    else if o.kind.isAtomic && o.ready then
      let s := s.modCore core fun k => { k with pts := max k.pts o.ts }
      (s.arrive core o).advanceCore core
    else s
  | none => s

/-! ### Monitors, logical time, fences -/

/-- Slices whose lanes a mask holds. -/
def slicesOfLanes (m : LaneMask) : List Nat := nodup ((lanesOf m).map (· / 4))

/-- A waiting MWAIT or BCBWAIT reads its word again, as an ordinary load; an uncorrectable error is a contained fault, which a halt in
progress holds back (R132, R187, R201). -/
def State.watchAgain (s : State) (m : Monitor) : State :=
  if s.bad m.pa then
    if (s.ctx m.ctx).line.isSome then s
    else s.containedFault m.grp (s.tagReport m.grp m.core m.tag (slicesOfLanes m.lanes) 0x40 m.va (s.served m.pa / 64))
  else
    let (s, v) := s.coreRead m.core m.pa m.len
    if m.cond.holds v then s.endMonitor m v (s.wtsOf m.pa) else s

/-- MWAIT_POLL: a polling gang reads its word again, every 1,024 core cycles (R132); in deterministic mode only commits look (R180). -/
def State.mwaitPoll (s : State) (id : Nat) : State :=
  match s.monitors.find? (·.id == id) with
  | none => s
  | some m =>
    if !m.polling || (s.ctx m.ctx).det || decide (s.cycle < m.polled + 1024) then s
    else
      { s with monitors := mapIf (fun (m : Monitor) => m.id == id) (fun m => { m with polled := s.cycle }) s.monitors }.watchAgain m

/-- PTS_TICK: a core's logical time advances by 1 for each 4,096 core cycles (R125). -/
def State.ptsTick (s : State) (core : Nat) : State :=
  if (s.core core).ticks < s.cycle / 4096 then s.modCore core fun k => { k with pts := k.pts + 1, ticks := k.ticks + 1 } else s

/-- Whether a line that was read speculatively must be read again at a fence's completion: its lease does not reach the new
logical time and its renewal would return another write time (R129). -/
def State.staleRead (s : State) (core pts : Nat) (r : Nat × Nat) : Bool :=
  let reach := match (s.core core).l1.look r.1 with
    | some l => l.wts == r.2 && decide (pts ≤ l.rts)
    | none => false
  !reach && (s.line r.1).wts != r.2

/-- A core renews its lease of a line that it has read: the home extends it beyond the core's logical time (R123, R129). -/
def State.renew (s : State) (core line : Nat) : State :=
  let d := s.line line
  let rts := max d.rts ((s.core core).pts + 4)
  (s.modLine line fun d => { d with rts := rts }).modCore core fun k => { k with
    l1 := k.l1.alter line fun l => if l.wts == d.wts then { l with rts := rts } else l }

/-- Whether an operation that a fence awaits is still in flight: its access has not been performed (R128). -/
def Core.carries (k : Core) (id : Nat) : Bool :=
  (k.rq ++ k.wk ++ k.replies.filter (·.kind == .accst) ++ k.yq.map (·.op)).any (·.id == id)

/-- The tiles that a gang has read past its fence count as read once its speculation is confirmed (R99, R129). -/
def Group.readLate (g : Group) (f : Fence) : Group :=
  { g with run := g.run.map fun r => { r with tiles := nodup (r.tiles ++ f.tiles), pure := r.pure && !f.soiled } }

/-- FENCE_COMPLETE: every awaited acknowledgement has arrived; the core's logical time rises to the largest timestamp acknowledged to it, and
speculation is confirmed, the lines read renewed, or rolled back (R128, R129). -/
def State.fenceComplete (s : State) (gid kid : Nat) : State :=
  match s.group gid with
  | none => s
  | some g =>
    match g.gang kid, s.team g.team with
    | some k, some t =>
      match k.fence with
      | none => s
      | some f =>
        if f.awaits.any (s.core t.core).carries then s
        else
          let s := s.modCore t.core fun c => { c with pts := max c.pts (max f.ts c.seen) }
          if f.reads.any (s.staleRead t.core (s.core t.core).pts) then
            (s.rollBack gid k f).modGang gid kid fun k => { k with fence := none }
          else
            let s := f.reads.foldl (fun (s : State) r => s.renew t.core r.1) s
            s.modGroup gid fun g =>
              { (g.modGang kid (fun k => { k with fence := none })).readLate f with
                fstat := commitFlags g.fstat f.flags
                lclock := g.lclock + BitVec.ofNat 64 f.words
                dclock := g.dclock + BitVec.ofNat 64 f.words }
    | _, _ => s

/-! ### Walks -/

/-- What a walk that has failed comes to: a class H cause, or an uncorrectable sector of the tables. -/
inductive WalkFail where
  | halt (cause : Nat)
  | poisoned (pa : Nat)
deriving DecidableEq, Repr

/-- The outcome of a walk that did not succeed (R116, R201). -/
def WalkRes.fail : WalkRes → WalkFail
  | .notMapped => .halt 0x01
  | .poisoned pa => .poisoned pa
  | _ => .halt 0x02

/-- A failed walk for a fetch of a gang. -/
def State.walkFetch (s : State) (gid : Nat) (g : Group) (t : Team) (k : Gang) (va : Nat) (clause : Dword) (slot : Nat) (f : WalkFail) :
    State :=
  match f with
  | .halt cause => s.fetchHalt gid g t k cause va clause slot
  | .poisoned pa => s.fetchPoison gid g t k va pa clause slot

/-- A failed walk for an instruction that a gang stands at: its precise fault, or its contained fault, which a halt in progress holds
back. Errors that a load's other lanes would have met are lost (R109, R187, R201). -/
def State.walkInstr (s : State) (v : View) (i : Instr) (va : Nat) (f : WalkFail) : State :=
  match f with
  | .halt cause => (s.loseErrors (v.lostErrors s i)).haltGang v i cause va
  | .poisoned pa =>
    if v.x.line.isSome then (s.park v.gid v.kid .stopped).modGang v.gid v.kid fun k => { k with walking := none }
    else s.containedFault v.gid (v.report i 3 0x40 va (s.served pa / 64))

/-- A walk for a gang's instruction has failed: the fault of that instruction (R109, R116). -/
def State.walkFault (s : State) (w : Walk) (f : WalkFail) : State :=
  match s.group w.grp with
  | none => s
  | some g =>
    match g.gang w.gang, s.team g.team with
    | some k, some t =>
      match k.clause with
      | none => s.walkFetch w.grp g t k w.va (g.pcOf k) 0 f
      | some c =>
        let s' := { s with focus := some (w.grp, w.gang) }
        match s'.view, wordOf c (c.words.getD c.slot 0) with
        | some v, some i =>
          if w.fetch then s.walkFetch w.grp g t k w.va c.hdr c.slot f
          else { s'.walkInstr v (resolve i s') w.va f with focus := s.focus }
        | _, _ => s.walkFetch w.grp g t k w.va c.hdr c.slot f
    | _, _ => s

/-- Whether a gang still waits for a walk. -/
def State.wants (s : State) (w : Walk) : Bool :=
  match (s.group w.grp).bind (·.gang w.gang) with
  | some k => k.walking == some w.va
  | none => false

/-- PAGE_WALK: the oldest walk of a core ends: the TLBs are filled and the gang goes on, or the fault is raised. A gang that
speculates past a fence holds its fault (R116, R117, R129). -/
def State.pageWalk (s : State) (core : Nat) : State :=
  match (s.core core).walks with
  | [] => s
  | w :: ws =>
    if !s.wants w then s.modCore core fun k => { k with walks := ws }
    else
      let speculative := match (s.group w.grp).bind (·.gang w.gang) with
        | some k => k.fence.isSome
        | none => false
      match s.pageWalkFor core w.ctx w.va with
      | (s', .ok _) =>
        (s'.modCore core fun k => { k with walks := ws }).modGang w.grp w.gang fun k => { k with walking := none }
      | (s', r) =>
        if speculative then s
        else (s'.modCore core fun k => { k with walks := ws }).walkFault w r.fail

/-! ### The host and peers -/

/-- Whether a host access touches a confidential context's private range: reads there return zero, writes are dropped (R226). -/
def State.privateAt (s : State) (pa n : Nat) : Bool :=
  s.ctxs.any fun (e : Nat × Ctx) => e.2.conf && (e.2.alive || e.2.zeroing) && overlap e.2.base e.2.size pa n

/-- The parts of a range that lie in one line each: address, bytes. -/
def lineParts (pa n : Nat) : List (Nat × Nat) := (placesOf pa n).map fun a => (a, min (256 * (lineOf a + 1)) (pa + n) - a)

/-- A link as bring-up leaves it: trained (R229). -/
def Link.trained : Link := ⟨true, 0, false⟩

/-- Whether nothing comes from an agent: its link is down (R230), or bring-up has failed and the device answers nothing but its status word
(R229). -/
def State.silent (s : State) (agent : Nat) : Bool :=
  s.dev.boot != 6 || (288 < agent && !(s.dev.links.getD (agent - 289) Link.trained).up)

/-- HOST_PEER_WRITE: a write of the host port (agent 288) or of link k (agent 289 + k), line by line: every sharer's copy is recalled, then
the write is applied at the agent's logical time (R134); what the host writes into a private range is dropped (R226). Other places than
memory are the host's windows (R220, R223). -/
def State.hostWrite (s : State) (agent pa : Nat) (data : List Byte) : State :=
  let n := data.length
  let p := placeOf agent
  if n = 0 || decide (Place.size p < pa + n) || s.silent agent then s
  else if p != .memory then s.windowsWrite p pa data
  else
    (lineParts pa n).foldl (fun (s : State) e =>
      if agent == 288 && s.privateAt e.1 e.2 then s
      else s.agentWrite agent e.1 e.2 (Mem.readN (Mem.writeBytes [] 0 data) (e.1 - pa) e.2)) s

/-- HOST_PEER_READ: an owned copy is recalled, shared copies stay; the value leaves the machine, zero where a private range lies. Without power,
and after a thermal trip, nothing is read. An uncorrectable error is logged (R135, R201, R226; R222: over CXL.mem the host then holds the lines). -/
def State.hostRead (s : State) (agent pa n : Nat) : State :=
  let p := placeOf agent
  if n = 0 || decide (Place.size p < pa + n) || s.dev.boot == 0 || s.dev.tripped then s
  else if p != .memory then { s with dev := { s.dev with readData := s.shownBytes p pa n } }
  else if s.silent agent then s
  else
    let (s, data) := (lineParts pa n).foldl (fun (acc : State × List Byte) e =>
      let (s, bs) := acc
      if agent == 288 && s.privateAt e.1 e.2 then (s, bs ++ List.replicate e.2 0)
      else
        let (s, v) := s.agentRead agent e.1 e.2
        let s := ((sectorAddrs e.1 e.2).filter s.bad).foldl (fun (s : State) a => s.logUnconsumed a) s
        let s := if s.dev.cxl && agent == 288 then s.modLine (s.lineAt e.1) fun d => { d with hostHeld := true } else s
        (s, bs ++ (List.range e.2).map fun i => BitVec.ofNat 8 (v / 2 ^ (8 * i)))) (s, [])
    { s with dev := { s.dev with readData := data } }

/-! ### The host port -/

/-- Whether a request's link is down (R230). -/
def State.linkDown (s : State) (y : YOp) : Bool :=
  match y.link with
  | some k => !(s.dev.links.getD k Link.trained).up
  | none => false

/-- Whether an earlier request stands before one on its way: of the same core and context, since requests keep core order (R122, R137), or
a write of any core that the same port or link has accepted before it, which writes, reads and atomics do not pass (R122, R231, log 97). -/
def State.yBehind (s : State) (core : Nat) (y : YOp) : Bool :=
  ((s.core core).yq.any fun z => z.op.ctx == y.op.ctx && decide (z.op.id < y.op.id))
    || s.cores.any fun (e : Nat × Core) =>
      e.2.yq.any fun z => z.write && !z.ats && z.link == y.link && decide (z.seq < y.seq)

/-- Whether a selective IDE stream has a key: a confidential context's requests use no other (R220, R226). -/
def Device.selective (d : Device) : Bool := d.ideKeys.any fun e => decide (1 ≤ e.1)

/-- A .Y request may go: none stands before it, it does not wait for a translation or a page response (R221), and the stream that it has to use
is there (R226); or its context is dead (R199). -/
def State.mayGo (s : State) (core : Nat) (y : YOp) : Bool :=
  !s.tagLive y.op.ctx y.op.gen || (!y.ats && (!y.tbit || s.dev.selective) && !s.yBehind core y)

/-- Take one request off the host port or its link; the operation completes with its last one. -/
def State.yDone (s : State) (core : Nat) (y : YOp) : State :=
  s.modCore core fun k => { k with yq := k.yq.erase y }

/-- Whether a request is the last of its operation. -/
def Core.lastOf (k : Core) (y : YOp) : Bool := (k.yq.filter fun z => z.op.id == y.op.id).length == 1

/-- SYS_WRITE_COMPLETE: the oldest write of a core that may go completes at its destination (R137); on a link that is down it is
dropped, and logged (R230). -/
def State.sysWrite (s : State) (core : Nat) : State :=
  match (s.core core).yq.find? fun y => y.write && s.mayGo core y with
  | none => s
  | some y =>
    let down := s.linkDown y
    let s' := if !s.tagLive y.op.ctx y.op.gen then s
      else if down then
        { s with dev := { s.dev with dropped := s.dev.dropped ++ y.op.pieces.map fun p => (y.link.getD 0, p.pa) } }
      else { s with host := y.op.pieces.foldl (fun m p => Mem.writeN m p.pa p.len p.val) s.host }
    (if (s.core core).lastOf y then s'.completeOp core y.op else s'.yDone core y).advanceCore core

/-- The values that a read returns: the bytes given, in lane order; a byte not given is the host's as the model holds it
(log 3). -/
def returned (host : List Host.Cell) : List Piece → List Byte → List Nat
  | [], _ => []
  | p :: ps, bs =>
    let mine := bs.take p.len
    let rest := (List.range (p.len - mine.length)).map fun i => Mem.read host (p.pa + mine.length + i)
    Mem.readN (Mem.writeBytes [] 0 (mine ++ rest)) 0 p.len :: returned host ps (bs.drop p.len)

/-- Atomics on .Y act at the host as they return, lane by lane (R106). -/
def State.sysAtomic (s : State) (o : Op) : State × Op :=
  o.pieces.foldl (fun (acc : State × Op) p =>
    let old := Mem.readN acc.1.host p.pa p.len
    ({ acc.1 with host := Mem.writeN acc.1.host p.pa p.len (o.kind.apply old p) }, acc.2.perform p old 0)) (s, o)

/-- The data of one request is at its core: it goes to its registers, and with the last one the operation completes; poison is the
operation's at once (R106, R331). -/
def State.yArrive (s : State) (core : Nat) (y : YOp) (o : Op) : State :=
  if (s.core core).lastOf y || o.poison.isSome then s.arrive core o
  else
    let s := if s.tagLive o.ctx o.gen then s.modGroup o.grp fun g => g.deliver o else s
    s.yDone core y

/-- What a request of the host port or a link returns: an atomic acts there, a read has its data, and from a link that is down what comes is
poisoned (R106, R137, R230). -/
def State.sysResult (s : State) (y : YOp) (data : List Byte) : State × Op :=
  if s.linkDown y then
    (s, { y.op with
      pieces := y.op.pieces.map fun p => { p with got := some 0 }
      poison := y.op.pieces.head?.map fun p => p.va })
  else if y.op.kind.isAtomic then (if s.tagLive y.op.ctx y.op.gen then s.sysAtomic y.op else (s, y.op))
  else
    let vals := returned s.host y.op.pieces data
    (s, ((List.range vals.length).zip y.op.pieces).foldl (fun (o : Op) e => o.perform e.2 (vals.getD e.1 0) 0) y.op)

/-- What a request of the host port or a link comes to as it takes its place; once only, though bytes of it may have arrived ahead of the rest
(R106, R122, R238). -/
def State.yResult (s : State) (core : Nat) (y : YOp) (data : List Byte) : State × Op :=
  if y.op.pieces.all (·.got.isSome) then (s, y.op)
  else
    let (s, o) := (s.placeReadY core y.agent).sysResult y data
    (if y.op.kind.isAtomic then s.placeWriteY core y.agent else s, o)

/-- SYS_READ_RETURN: a read or an atomic of the host port or a link returns its data and takes its place; what waited for that in core order
goes on (R106, R122, R137). -/
def State.sysReturn (s : State) (core id : Nat) (data : List Byte) : State :=
  match (s.core core).yq.find? fun y => y.op.id == id && !y.write && s.mayGo core y with
  | none => s
  | some y =>
    let (s, o) := s.yResult core y data
    (s.yArrive core y o).advanceCore core

/-- FLUSH_PROBE_RETURN: a flush probe returns when nothing of its context that entered before it is outstanding (R136, R324). -/
def State.probeReturn (s : State) (core id : Nat) : State :=
  match (s.core core).probes.find? (·.id == id) with
  | none => s
  | some o =>
    let busy := s.tagLive o.ctx o.gen && s.cores.any fun (e : Nat × Core) =>
      e.2.yq.any fun y => y.op.ctx == o.ctx && decide (y.op.id < o.id) && !s.linkDown y
    if busy then s
    else (s.modCore core fun k => { k with probes := k.probes.filter (·.id != id) }).completeOp core o

/-! ### Meanings -/

def execHomeLoadRequest (core : Nat) (k : Option Nat) (ecc : Ecc) (s : State) : Host.Outcome State Fault Refusal :=
  .next (s.homeLoad core k ecc)

def execLoadReply (core : Nat) (r : Reply) (s : State) : Host.Outcome State Fault Refusal := .next (s.loadReply core r)

def execHomeStoreApply (core : Nat) (k : Option Nat) (s : State) : Host.Outcome State Fault Refusal :=
  .next (s.homeApply core k)

def execHomeAtomicApply (core : Nat) (k : Option Nat) (s : State) : Host.Outcome State Fault Refusal :=
  .next (s.homeAtomic core k)

def execRouterMerge (c1 c2 : Nat) (s : State) : Host.Outcome State Fault Refusal := .next (s.routerMerge c1 c2)

def execAtomicAck (core : Nat) (a : Ack) (s : State) : Host.Outcome State Fault Refusal := .next (s.atomicAck core a)

def execMwaitPoll (id : Nat) (s : State) : Host.Outcome State Fault Refusal := .next (s.mwaitPoll id)

def execPtsTick (core : Nat) (s : State) : Host.Outcome State Fault Refusal := .next (s.ptsTick core)

def execFenceComplete (gid kid : Nat) (s : State) : Host.Outcome State Fault Refusal := .next (s.fenceComplete gid kid)

def execPageWalk (core : Nat) (s : State) : Host.Outcome State Fault Refusal := .next (s.pageWalk core)

def execHostPeerWrite (agent pa : Nat) (data : List Byte) (s : State) : Host.Outcome State Fault Refusal :=
  .next (s.hostWrite agent pa data)

def execHostPeerRead (agent pa len : Nat) (s : State) : Host.Outcome State Fault Refusal := .next (s.hostRead agent pa len)

def execFlushProbeReturn (core id : Nat) (s : State) : Host.Outcome State Fault Refusal := .next (s.probeReturn core id)

def execSysWriteComplete (core : Nat) (s : State) : Host.Outcome State Fault Refusal := .next (s.sysWrite core)

def execSysReadReturn (core id : Nat) (data : List Byte) (s : State) : Host.Outcome State Fault Refusal :=
  .next (s.sysReturn core id data)

end Sys2Proof.Machine
end

