-- ==== Sys2Proof/Machine/Fixture.lean ====
section
/-! DEFINITION. One instruction placed where the next step issues it: the context, launch, team, group and gang that a program's
load, admission and binding would have made (log 12). -/
namespace Sys2Proof.Machine

/-- Address of the clause header of the placed instruction, and the page that holds it. -/
def placedHdr : Nat := 0x10100
def placedPage : TlbEntry := ⟨0, 0x10000, 0x10000, 0x10000, false, true, true⟩

/-- A slice with four live, active lanes whose program counter is the placed instruction's. -/
def Slice.placed : Slice := { Slice.dead with pc := BitVec.ofNat 64 (placedHdr + 8), live := 0xF, active := 0xF }

/-- The gang of all eight slices, in its clause, on port 0. -/
def Gang.placed (hdr word : Dword) : Gang where
  id := 0
  slices := [0, 1, 2, 3, 4, 5, 6, 7]
  wait := .no
  clause := some (Clause.start (BitVec.ofNat 64 placedHdr) hdr [word])
  port := some 0
  since := 0
  forced := none
  fence := none
  alsoWait := none
  walking := none
  origin := none
  emitted := 0
  emitLeft := []
  emitReads := []

/-- A group just bound. -/
def Group.fresh (ctx launch team index slot : Nat) (serial : Word) (budget rank0 : Nat) : Group where
  ctx := ctx
  launch := launch
  team := team
  index := index
  slot := slot
  serial := serial
  budget := budget
  rank0 := rank0
  stage := .running
  regs := []
  undef := none
  preds := []
  rets := []
  rand := []
  fstat := 0
  accw := 0
  trapinfo := 0
  lclock := 0
  dclock := 0
  inHandler := false
  pmoff := none
  overrun := false
  run := none
  barTeam := ⟨none, false, false, false⟩
  barClu := ⟨none, false, false, false⟩
  phases := 0
  record := none
  det := ⟨[], 0, false, none, []⟩
  operandError := none
  slices := []
  gangs := []
  nextGang := 0

def Group.placed (hdr word : Dword) : Group :=
  { Group.fresh 0 0 0 0 0 0 1024 0 with
    slices := (List.range 8).map fun n => (n, Slice.placed)
    gangs := [Gang.placed hdr word]
    nextGang := 1 }

/-- A team just bound. -/
def Team.fresh (launch index core cluster rank window slots bound : Nat) : Team where
  launch := launch
  index := index
  core := core
  cluster := cluster
  rank := rank
  residence := .resident
  window := window
  spad := []
  owner := 0
  slots := slots
  acc := []
  cells := []
  tags := []
  widened := []
  handles := []
  spawns := []
  serials := []
  barPhase := 0
  stopping := false
  parked := []
  parkedRecs := []
  parkedPhases := []
  bound := bound

/-- A launch just admitted. -/
def Launch.fresh (ctx index : Nat) (record : BitVec 1024) (kernel : BitVec 2048) (n : Nat) : Launch where
  ctx := ctx
  index := index
  record := record
  kernel := kernel
  n := n
  next := 0
  bound := 0
  retired := 0
  wu := 0
  mapno := 0
  wear := []
  bank := []
  node := none
  round := 0
  grants := none
  order := 0
  complete := false

/-- The launch whose kernel descriptor lies at 0x10000 and whose code is one clause. -/
def Launch.placed : Launch :=
  { Launch.fresh 0 0 (BitVec.ofNat 1024 (0x10000 * 2 ^ 128 + 31 * 2 ^ 334 + 2 ^ 96 + 1))
      (BitVec.ofNat 2048 (16 * 2 ^ 192 + 2 ^ 32 + 0x4B45524E)) 1 with
    next := 1, bound := 1 }

def Ctx.placed : Ctx := { Ctx.fresh with alive := true, record := BitVec.ofNat 512 (4 * 2 ^ 160) }

/-- The state with a word placed as the one instruction of a clause of its class. -/
def State.placed (s : State) (w : Nat) : State :=
  let word := BitVec.ofNat 64 w
  let hdr := headerOf (wordClass word)
  let s := { s with
    mem := Mem.writeN (Mem.writeN s.mem placedHdr 8 hdr.toNat) (placedHdr + 8) 8 word.toNat
    groups := s.groups.put 0 (Group.placed hdr word)
    teams := s.teams.put 0 (Team.fresh 0 0 0 0 0 65536 16 0)
    clusters := s.clusters.put 0 ⟨0, 0, [0], false, [], 0, 0⟩
    launches := s.launches.put 0 Launch.placed
    ctxs := s.ctxs.put 0 Ctx.placed
    agenda := .issue 0 0 :: s.agenda }
  s.modCore 0 fun c => { c with tlb := placedPage :: c.tlb }

end Sys2Proof.Machine
end

