-- ==== Sys2Proof/Machine/MtxEvents.lean ====
section
/-! DEFINITION. Events of the quad matrix engine (R118, R141, R144, R146 to R148, R162). -/
namespace Sys2Proof.Machine

/-! ### Operand errors -/

/-- The elements of a cell's segment become NaN and the cell unbounded (R118). -/
def Team.spoil (t : Team) (l : Lay) (row seg : Nat) : Team :=
  let t := (List.range 64).foldl (fun (t : Team) c => (t.accWrite l row (64 * seg + c) (.nan false)).1) t
  t.setCell l row seg 0x7F80

/-- MATRIX_OPERAND_ERROR: an operand of an MMA of a group is uncorrectable; the group takes the contained fault at its next
clause boundary, with the slot, the cell and the MMA's origin tag, and the wear record counts it (R118, R201, R208). What the record says of
the instruction is its issue record's (R186). -/
def State.matrixError (s : State) (gid slot row seg : Nat) : State :=
  match s.group gid with
  | none => s
  | some g =>
    match s.team g.team with
    | none => s
    | some t =>
      let l := t.lay g.run slot
      if 16 ≤ row || decide (l.segs ≤ seg) || decide (t.slots ≤ slot) then s
      else
        let entry := s.mtxEntries.find? fun e => e.grp == gid && (s.entrySlots e).contains slot
        let tag := entry.bind (·.tag)
        let r := s.recordFor gid t.core tag
        let of := fun (f : IssueRec → Dword) => (r.map f).getD 0
        let cell := if l.segs = 1 then row else 2 * row + seg
        let s := s.countErr t.core 5
        (s.modTeam g.team fun t => t.spoil l row seg).modGroup gid fun g =>
          { g with operandError := some (g.operandError.getD
              ⟨slot, cell, tag.getD 0xFF, of (·.clause), (r.map (·.islot)).getD 0, of (·.opa), of (·.opb)⟩) }

/-! ### B operands at a pass -/

/-- Element (k, j) of a set, out of its holders' registers; a column that no quarter covers reads zero (R139 to R141). -/
def State.bElem (s : State) (b : BSet) (k j : Nat) : Elem :=
  match b.quarters.look (j / 128) with
  | none => zeroElem b.bfmt
  | some q =>
    let c := j % 128
    match s.group q.grp with
    | none => zeroElem b.bfmt
    | some g =>
      let half := fun (reg : Nat) => (g.reg reg (c % 64 / 2)).toNat / 2 ^ (16 * (c % 2)) % 2 ^ 16
      if q.ncol < c then zeroElem b.bfmt
      else if b.bfmt ≤ 1 then elemOf b.bfmt (half (q.vb + 2 * k + c / 64)) k
      else if b.bfmt = 4 then elemOf 4 (half (q.vb + 2 * (k / 4) + c / 64)) k
      else elemOf b.bfmt ((g.reg (q.vb + k) (c / 4)).toNat / 2 ^ (8 * (c % 4)) % 2 ^ 8) k

/-- Malformed units of a set (R83). -/
def State.badB (s : State) (b : BSet) : Nat :=
  if b.bfmt != 4 then 0
  else
    (List.range b.n).foldl (fun n j =>
      match b.quarters.look (j / 128) with
      | none => n
      | some q =>
        let c := j % 128
        match s.group q.grp with
        | none => n
        | some g =>
          if q.ncol < c then n
          else n + ((List.range (b.depth / 4)).filter fun u =>
            (decodeUnit ((g.reg (q.vb + 2 * u + c / 64) (c % 64 / 2)).toNat / 2 ^ (16 * (c % 2)) % 2 ^ 16)).isNone).length) 0

/-! ### Passes -/

/-- The rows of a team's slots are replaced by what a multiply-accumulate makes of them; its float flags and the malformed units it read
are the issuing group's (R62, R80, R83). -/
def State.macTeam (s : State) (tid gid bad : Nat) (f : Team → Team × Word) : State :=
  match s.team tid with
  | none => s
  | some t =>
    let (t', fl) := f t
    (s.modTeam tid fun _ => t').modGroup gid fun g => { g with fstat := countMalformed (g.fstat ||| fl) bad }

/-- Apply one request's K-groups up to a number: its rows, and with the first the malformed units counted for the issuing group (R83, R87,
R144). -/
def State.applyEntry (s : State) (e : ResEntry) (hi : Nat) : State :=
  match s.setOf e with
  | none => s
  | some b =>
    let d := fword e.word
    let n := b.n
    let run := (s.group e.grp).bind (·.run)
    let bad := if d.afmt = 4 then e.rows.foldl (fun n r => n + badUnits (packRow r.regs) (b.depth / 4)) 0 else 0
    let bad := bad + (if e.lead then s.badB b else 0)
    s.macTeam e.team e.grp (if e.kdone = 0 then bad else 0) fun t =>
      t.macRows e.rows fun t r =>
        t.macSpan run d (e.slot + r.lane / 16 * d.nb n) (r.lane % 16) n e.kdone hi b.kg (rowElem d.afmt (packRow r.regs)) (s.bElem b)
          r.bound.toNat

/-- The matrix engine still works for a context: no halt has stopped it (R187). -/
def State.matrixRuns (s : State) (q c : Nat) : Bool :=
  let x := s.ctx c
  x.alive && !x.halted && (x.line.isNone || x.serving.contains (q, .matrix))

/-- Whether an entry is ready: every earlier MTX instruction of its group that names one of its slots has been applied, those of a window
set aside (R147). -/
def State.entryReady (s : State) (q : Nat) (window : Option Nat) (e : ResEntry) : Bool :=
  s.matrixRuns q e.ctx && s.entryHome e && !(s.mtxPending e.core e.grp e.id window (s.entryPhys e))

/-- The windows and ring operations that a window's requests, or a ring operation, wait for. -/
def State.waitsFor (s : State) (n : Nat) : List Nat :=
  ((s.mtxEntries.filter (·.window == n)).flatMap fun e => s.mtxBlocks e.core e.grp e.id (s.entryPhys e))
    ++ s.cores.flatMap fun (e : Nat × Core) =>
      (e.2.ops.filter fun o => o.id == n && o.kind == .mqrun).flatMap fun o => s.mtxBlocks e.1 o.grp o.id (s.ringPhys o)

/-- All that they wait for in turn, in at most some steps. -/
def State.waitsOn (s : State) : Nat → List Nat → List Nat
  | 0, ns => ns
  | n + 1, ns => State.waitsOn s n (nodup (ns ++ ns.flatMap s.waitsFor))

/-- Whether a window waits for another that waits for it: its requests cannot form one pass (log 93). -/
def State.circular (s : State) (w : Window) : Bool :=
  let others := (s.waitsFor w.id).filter (· != w.id)
  (others.flatMap fun n => s.waitsOn s.mtxEntries.length (s.waitsFor n)).contains w.id

/-- The requests that a window's pass applies: all those whose teams stand on their cores, once they are ready; where they wait for requests
that wait for them, those that wait for nothing, the others forming a later pass (R146, R147, log 93). -/
def State.passOf (s : State) (q : Nat) (w : Window) : List ResEntry :=
  let es := (s.quad q).table.filter fun e => e.window == w.id && s.entryHome e
  if w.isOpen then []
  else if es.all (s.entryReady q (some w.id)) then es
  else if s.circular w then es.filter (s.entryReady q none)
  else []

/-- Whether a window has a pass that may run (R147). -/
def State.windowReady (s : State) (q : Nat) (w : Window) : Bool := !(s.passOf q w).isEmpty

/-- The priority class of a launch (R32, R147). -/
def State.prioOf (s : State) (launch : Nat) : Nat :=
  match s.launch launch with
  | some l => bits l.record.toNat 37 36
  | none => 0

/-- The pass that the arbiter chooses: the forced request of greatest age, else the highest priority class, else the oldest
(R147). -/
def State.choosePass (s : State) (q : Nat) : Option Window :=
  let ready := (s.quad q).windows.filter (s.windowReady q)
  let table := (s.quad q).table
  let oldest := fun (w : Window) => (table.filter fun e => e.window == w.id).foldl (fun n e => min n e.id) s.nextUid
  let forced := ready.filter fun w => table.any fun e => e.window == w.id && e.forced
  if forced.isEmpty then
    argmin (fun (w : Window) => (3 - s.prioOf w.launch) * (s.nextUid + 1) + oldest w) ready
  else
    argmin (fun (w : Window) =>
      (table.filter fun e => e.window == w.id && e.forced).foldl (fun n e => min n e.id) s.nextUid) forced

/-- The cycles of a pass (R148): the most requests of one core, the K-groups, and the cycles per K-group of its inputs and
accumulation width. -/
def passCycles (es : List ResEntry) (groups afmt acc width : Nat) : Nat :=
  let per := (nodup (es.map (·.core))).map fun c => (es.filter fun e => e.core == c).length
  let col := if width = 2 then 2 else if acc = 0 ∨ width = 1 then 0 else 1
  let c := match afmt with
    | 0 | 1 => [16, 16, 32]
    | 2 | 3 => [16, 8, 32]
    | 5 => [8, 8, 16]
    | _ => [8, 4, 16]
  4 + per.foldl max 0 * groups * c.getD col 0

/-- An MMA whose last request has been applied completes: its scoreboard falls and its issue record is freed (R144, R192). -/
def State.completeMma (s : State) (q : Nat) (e : ResEntry) : State :=
  if (s.quad q).table.any fun r => r.mma == e.mma then s
  else (s.modCore e.core fun k => k.unref e.tag).sbDone e.grp e.slices e.sb

/-- A group between its phases: its quarters are free, its slot is given up, and its next phase is queued at its core, or with
its team when that has been swapped out (R29, R141, R175). -/
def State.queuePhase (s : State) (gid core : Nat) : State :=
  let s := (s.freeQuarters gid core).modGroup gid fun g => { g with stage := .betweenPhases }
  let tid := match s.group gid with | some g => g.team | none => 0
  let out : Bool := match s.team tid with | some t => t.residence == .swappedOut | none => false
  if out then s.modTeam tid fun t => { t with parkedPhases := t.parkedPhases ++ [gid] }
  else s.modCore core fun k => { k with phaseQ := k.phaseQ ++ [gid] }

/-- A group that has ended, or has ended its phase, gives up its slot once no MMA that names its quarters is pending (R141). -/
def State.leave (s : State) (gid : Nat) : State :=
  match s.group gid with
  | none => s
  | some g =>
    let core := match s.team g.team with | some t => t.core | none => 0
    if g.stage != .exiting || g.det.ended || s.setsPending gid core then s
    else if g.record.isSome then s.queuePhase gid core
    else s.releaseGroup gid

/-- Groups that waited for the matrix engine leave. -/
def State.leaveAll (s : State) : State :=
  (s.groups.filter fun (e : Nat × Group) => e.2.stage == .exiting).foldl (fun (s : State) e => s.leave e.1) s

/-- Whether a pre-emption request has been sent to a request's team. -/
def State.entryStopping (s : State) (e : ResEntry) : Bool :=
  match s.team e.team with
  | some t => t.stopping
  | none => false

/-- The requests of a pass, each with the K-group up to which it goes: requests of teams that a pre-emption request has reached stop at a
boundary, the same for all of a pass (R162). -/
def State.passGoals (s : State) (es : List ResEntry) : State × List (ResEntry × Nat) :=
  let kg := fun (e : ResEntry) => match s.setOf e with | some b => b.kg | none => e.kdone
  let (s', k) := s.kStop (es.any s.entryStopping) 0 8
  (s', es.map fun e => (e, if s.entryStopping e then e.kdone + k % (kg e - e.kdone + 1) else kg e))

/-- MATRIX_PASS: the chosen pass applies its requests, oldest first; other ready requests accrue skipped cycles (R146 to R148). Which run
width its time takes where the groups of its requests stand at different ones: the oldest request's group's (log 45). -/
def State.matrixPass (s : State) (q : Nat) : State :=
  match s.choosePass q with
  | none => s
  | some w =>
    let es := s.passOf q w
    let d := fword w.word
    let (s, goals) := s.passGoals es
    let groups := goals.foldl (fun n e => max n (e.2 - e.1.kdone)) 0
    let width := match (es.head?.bind fun e => s.group e.grp).bind (·.run) with | some r => r.width | none => 0
    let time := passCycles es groups d.afmt d.acc width
    let ids := es.map (·.id)
    let waiting := ((s.quad q).table.filter fun e => !ids.contains e.id && s.entryReady q none e).map (·.id)
    let s := (sortBy (fun a b => decide (a.1.id ≤ b.1.id)) goals).foldl (fun (s : State) e =>
      if e.1.kdone < e.2 then (s.serve e.1.core e.1.ctx e.1.launch).applyEntry e.1 e.2 else s) s
    let es := (goals.filter fun e => match s.setOf e.1 with | some b => decide (b.kg ≤ e.2) | none => true).map (·.1)
    let done := es.map (·.id)
    let s := s.modQuad q fun k =>
      let left := (k.table.filter fun e => !done.contains e.id).map fun e =>
        match goals.find? fun x => x.1.id == e.id with
        | some x => { e with kdone := x.2 }
        | none => if waiting.contains e.id then { e with skipped := e.skipped + time } else e
      { k with table := left, windows := k.windows.filter fun x => x.isOpen || left.any fun e => e.window == x.id }
    let s := (nodup (es.map (·.mma))).foldl (fun (s : State) m =>
      match es.find? (·.mma == m) with
      | some e => s.completeMma q e
      | none => s) s
    s.leaveAll

/-- MTX_ENTRY_FORCED: a ready request has been skipped for 1,024 cycles (R147). -/
def State.entryForced (s : State) (q id : Nat) : State :=
  s.modQuad q fun k => { k with
    table := mapIf (fun (e : ResEntry) => e.id == id && decide (1024 ≤ e.skipped)) (fun e => { e with forced := true }) k.table }

/-- FUSION_WINDOW_CLOSE: the oldest open window closes; its requests form one pass (R146). -/
def State.windowClose (s : State) (q : Nat) : State :=
  match (s.quad q).windows.find? (·.isOpen) with
  | none => s
  | some w => s.modQuad q fun k => { k with
      windows := mapIf (fun (x : Window) => x.id == w.id) (fun x => { x with isOpen := false }) k.windows }

/-! ### Meanings -/

def execMatrixOperandError (grp slot row seg : Nat) (s : State) : Host.Outcome State Fault Refusal :=
  .next (s.matrixError grp slot row seg)

def execFusionWindowClose (quad : Nat) (s : State) : Host.Outcome State Fault Refusal := .next (s.windowClose quad)

def execMatrixPass (quad : Nat) (s : State) : Host.Outcome State Fault Refusal := .next (s.matrixPass quad)

def execMtxEntryForced (quad id : Nat) (s : State) : Host.Outcome State Fault Refusal := .next (s.entryForced quad id)

end Sys2Proof.Machine
end

