-- ==== Sys2Proof/Machine/Eng.lean ====
section
/-! DEFINITION. ENG and MQRUN: the operation queue of a core, the issue checks and tile flips, and OWN (R130, R149 to R157, R313,
R314, R325, R340, R344 to R346, R367). -/
namespace Sys2Proof.Machine

/-! ### Starting an operation (R152) -/

/-- The checks on .S ranges, in order: misuse first, then the owner bits; the tiles that flip, or the cause. -/
def Team.flipSet (t : Team) (bad : Bool) (ranges : List (Nat × Nat)) : Except Nat (List Nat) :=
  if bad || ranges.any (fun r => !t.inWindow r.1 r.2) then .error 0x2F
  else
    let tiles := nodup (ranges.flatMap fun r => tilesOf r.1 r.2)
    if tiles.any t.engineSide then .error 0x2C else .ok tiles

/-- An operation as it is queued at issue. -/
def View.engOp (v : View) (id : Nat) (tag : Option Nat) (sb : BitVec 3) (kind : EngKind) (tiles : List Nat) (desc : Nat)
    (data : BitVec 512) (lanes : LaneMask) (d : Nat) : EngOp where
  id := id
  kind := kind
  ctx := v.g.ctx
  grp := v.gid
  team := v.g.team
  slices := v.k.slices
  lanes := lanes
  tag := tag
  sb := sb.toNat
  d := d
  started := false
  at_ := 0
  m := 0
  status := 0
  g := 0
  o := 0
  n := 0
  bar := none
  desc := desc
  data := data
  tiles := tiles
  out := []
  gout := []
  ts := 0
  ran := false
  isOver := false
  faulted := false
  still := none

/-! ### Engine accesses to .G (R131, R152) -/

/-- What an engine's access comes to. -/
inductive EngAcc where
  | ok (v : Nat)
  | fault (cause va : Nat)
  /-- a sector read is uncorrectable: the address in it, and its number -/
  | bad (va sector : Nat)
  /-- a page written is being copied: its homes hold writes, and the engine waits (R119) -/
  | held
deriving DecidableEq, Repr

/-- Translate a range in pieces of 4 KiB at most. -/
def State.engTrans (s : State) (core ctx : Nat) (write : Bool) : Nat → Nat → Nat → State × Except EngAcc (List (Nat × Nat))
  | 0, _, _ => (s, .ok [])
  | fuel + 1, va, n =>
    if n = 0 then (s, .ok [])
    else
      let k := min n (4096 - va % 4096)
      match s.translateNow core ctx va false write with
      | (s, .ok pa) =>
        (match State.engTrans s core ctx write fuel (va + k) (n - k) with
          | (s, .ok ps) => (s, .ok ((pa, k) :: ps))
          | (s, .error e) => (s, .error e))
      | (s, .fault c) => (s, .error (.fault c va))
      | (s, .miss) => (s, .error (.fault 0x01 va))
      | (s, .poisoned pa) => (s, .error (.bad va (s.served pa / 64)))

/-- The first uncorrectable sector of a range that lies in pieces: the address in it, and its number. -/
def State.badIn (s : State) : List (Nat × Nat) → Nat → Option (Nat × Nat)
  | [], _ => none
  | (pa, k) :: ps, va =>
    match (sectorAddrs pa k).find? s.bad with
    | some b => some (va + (max b pa - pa), s.served b / 64)
    | none => s.badIn ps (va + k)

/-- Whether some page of a range in pieces is being copied. -/
def State.lockedIn (s : State) (ps : List (Nat × Nat)) : Bool := ps.any fun p => s.lockedFor p.1

/-- A coherent engine read, placed as loads of its core (R122, R130). -/
def State.engRead (s : State) (core ctx va n : Nat) : State × EngAcc :=
  match s.engTrans core ctx false (n / 4096 + 2) va n with
  | (s, .error e) => (s, e)
  | (s, .ok ps) =>
    match s.badIn ps va with
    | some (a, x) => (s, .bad a x)
    | none =>
      let (s, v, _) := ps.foldl (fun (acc : State × Nat × Nat) p =>
        let (s, x) := acc.1.coreRead core p.1 p.2
        (s, acc.2.1 + x * 2 ^ (8 * acc.2.2), acc.2.2 + p.2)) (s, 0, 0)
      (s, .ok v)

/-- An engine write of the core; in deterministic mode its blocks are kept instead (R131, R180). Every page is translated before
any byte is written. -/
def State.engWrite (s : State) (core : Nat) (o : EngOp) (va n v : Nat) : State × EngOp × EngAcc :=
  match s.engTrans core o.ctx true (n / 4096 + 2) va n with
  | (s, .error e) => (s, o, e)
  | (s, .ok ps) =>
    let det := (s.ctx o.ctx).det
    if !det && s.lockedIn ps then (s, o, .held)
    else
    let (s, o, _) := ps.foldl (fun (acc : State × EngOp × Nat) p =>
      let (s, o, v) := acc
      let x := v % 2 ^ (8 * p.2)
      let rest := v / 2 ^ (8 * p.2)
      if det then (s, { o with gout := o.gout ++ [(s.served p.1, p.2, x)] }, rest)
      else
        let (s, ts) := s.homeWriteRange p.1 p.2 x (s.core core).pts
        (s, { o with ts := max o.ts ts }, rest)) (s, o, v)
    (s, o, .ok 0)

/-! ### The pieces of work (R153 to R155) -/

/-- Bytes of an element of a format that NZSCAN takes; 0 where it is reserved (R344). -/
def nzSize (fmt : Nat) : Nat :=
  match fmt with
  | 6 | 7 | 10 => 4
  | 0 | 1 | 9 => 2
  | 2 | 3 | 5 | 8 => 1
  | _ => 0

/-- Whether an element is non-zero: the sign bit of a float does not count (R155). -/
def nzElem (fmt code : Nat) : Bool :=
  let w := 8 * nzSize fmt
  if fmt ≤ 3 ∨ fmt = 6 then code % 2 ^ (w - 1) != 0 else code % 2 ^ w != 0

/-- One chunk of a CPY: up to the next 4 KiB boundary of .G (R153). -/
def State.cpyStep (s : State) (core : Nat) (o : EngOp) (t : Team) : State × EngOp × EngAcc :=
  let va := o.g + o.at_
  let k := min (o.n - o.at_) (4096 - va % 4096)
  let next := fun (o : EngOp) => { o with at_ := o.at_ + k, ran := decide (o.n ≤ o.at_ + k) }
  if o.kind = .cpyOut then
    match s.engWrite core o va k (t.spadRead (o.o + o.at_) k) with
    | (s, o, .ok x) => (s, next o, .ok x)
    | r => r
  else
    match s.engRead core o.ctx va k with
    | (s, .ok x) => (s, next { o with out := o.out ++ [(o.o + o.at_, k, x)] }, .ok x)
    | (s, r) => (s, o, r)

/-- One row of a GATH or SCAT (R154). -/
def State.rowStep (s : State) (core : Nat) (o : EngOp) (t : Team) : State × EngOp × EngAcc :=
  let i := o.at_
  let rb := o.field 111 96
  let x := t.spadRead (o.field 159 128 + 4 * i) 4
  let row := o.field 223 192 + i * rb
  let va := o.field 63 0 + x * o.field 95 64
  let next := fun (o : EngOp) => { o with at_ := i + 1, ran := decide (o.field 191 160 ≤ i + 1) }
  if bit o.data.toNat 224 && x == 0xFFFFFFFF then
    (s, next (if o.kind = .gath then { o with out := o.out ++ [(row, rb, 0)] } else o), .ok 0)
  else if o.kind = .gath then
    match s.engRead core o.ctx va rb with
    | (s, .ok v) => (s, next { o with out := o.out ++ [(row, rb, v)] }, .ok v)
    | (s, r) => (s, o, r)
  else
    match s.engWrite core o va rb (t.spadRead row rb) with
    | (s, o, .ok v) => (s, next o, .ok v)
    | r => r

/-- Count the non-zero elements of a chunk and list the indices below the capacity (R155, R344). -/
def EngOp.scan (o : EngOp) (k v : Nat) : EngOp :=
  let fmt := o.field 67 64
  let w := 8 * nzSize fmt
  (List.range k).foldl (fun (o : EngOp) j =>
    if nzElem fmt (v / 2 ^ (w * j) % 2 ^ w) then
      let e := (o.field 159 128 + o.at_ + j) % 2 ^ 32
      { o with
        out := if o.m < o.field 223 192 then o.out ++ [(o.field 191 160 + 4 * o.m, 4, e)] else o.out
        m := o.m + 1 }
    else o) o

/-- One chunk of 2,048 elements of an NZSCAN (R155, R162). -/
def State.scanStep (s : State) (core : Nat) (o : EngOp) (t : Team) : State × EngOp × EngAcc :=
  let n := o.field 127 96
  let w := nzSize (o.field 67 64)
  let k := min 2048 (n - o.at_)
  let src := o.field 63 0 + o.at_ * w
  let next := fun (o : EngOp) => { o with at_ := o.at_ + k, ran := decide (n ≤ o.at_ + k) }
  if bit o.data.toNat 68 then (s, next (o.scan k (t.spadRead src (k * w))), .ok 0)
  else
    match s.engRead core o.ctx src (k * w) with
    | (s, .ok v) => (s, next (o.scan k v), .ok 0)
    | (s, r) => (s, o, r)

/-- One piece of an operation's work. -/
def State.engStep (s : State) (core : Nat) (o : EngOp) (t : Team) : State × EngOp × EngAcc :=
  match o.kind with
  | .cpyIn | .cpyOut => s.cpyStep core o t
  | .gath | .scat => s.rowStep core o t
  | .nzscan => s.scanStep core o t
  | .mqrun | .relmrg => (s, o, .ok 0)

/-- Whether an operation has nothing to do from the start: no row, no element. -/
def EngOp.empty (o : EngOp) : Bool :=
  match o.kind with
  | .gath | .scat => o.field 191 160 == 0
  | .nzscan => o.field 127 96 == 0
  | _ => false

/-- In deterministic mode an operation's reads are those of the commit at which it starts: its work is done at once, unless a
fault stops it at the start of a chunk, from which it goes on when the engine comes to it (R152, R180). -/
def State.runDet (s : State) (core : Nat) (t : Team) : Nat → EngOp → State × EngOp
  | 0, o => (s, o)
  | n + 1, o =>
    if o.ran then (s, o)
    else
      match s.engStep core o t with
      | (s, o, .ok _) => State.runDet s core t n o
      | (s, _, _) => (s, o)

/-- Pieces of work of an operation at most. -/
def EngOp.steps (o : EngOp) : Nat :=
  match o.kind with
  | .cpyIn | .cpyOut => o.n / 4096 + 2
  | .gath | .scat => o.field 191 160 + 1
  | .nzscan => o.field 127 96 / 2048 + 2
  | _ => 0

/-- Queue an operation: 32 at most on a core, those not counted that have completed; a tag and a scoreboard are taken and the tiles flip (R152,
R192). -/
def View.startEng (v : View) (s : State) (i : Instr) (sb : BitVec 3) (impure : Bool) (op : Nat → Option Nat → EngOp) : Res :=
  let core := v.t.core
  if 32 ≤ ((s.core core).ops.filter fun o => !o.isOver).length || (s.core core).moving v.g.team (op s.nextUid none).tiles then .hold s
  else
    match s.queueUp v i (some sb) with
    | none => .hold s
    | some (s, tag) =>
      let o := op s.nextUid tag
      let o := { o with ran := o.empty }
      let s := s.fresh.1.flipTiles v.g.team o.tiles true
      let s := if impure then s.modGroup v.gid (·.impure) else s
      let o := if v.x.det && o.kind == .mqrun then { o with still := (s.team v.g.team).map fun t => (t.spad, t.owner) } else o
      let (s, o) := if v.x.det then s.runDet core v.t o.steps o else (s, o)
      .ok (s.modCore core fun k => { k with ops := k.ops ++ [o] }) none

/-! ### Meanings -/

/-- CPY (R153, R313, R314). -/
def execCpy (o : CpyArgs) (s : State) : Host.Outcome State Fault Refusal :=
  issue (.cpy o) s fun v s =>
    match v.lanes o.g with
    | [] => .ok s none
    | l :: _ =>
      let g := (v.g.pair o.vg.toNat l).toNat
      let so := (v.g.reg o.vp.toNat l).toNat
      let n := (v.g.reg (o.vp.toNat + 1) l).toNat
      let c := o.bcb.map fun r => (v.g.pair r.toNat l).toNat
      let badC := match c with | some a => a % 8 != 0 | none => false
      let bad := g % 16 != 0 || so % 16 != 0 || n % 16 != 0 || decide (n < 16) || decide (2 ^ 21 < n) || badC
      match v.t.flipSet bad [(so, n)] with
      | .error e => .trap e 0
      | .ok tiles =>
        v.startEng s (.cpy o) o.sb true fun id tag =>
          { v.engOp id tag o.sb (if o.s2g then .cpyOut else .cpyIn) tiles 0 0 0 0 with g := g, o := so, n := n, bar := c }

/-- The checks of a GATH or SCAT descriptor and the ranges that flip (R154, R325). -/
def gathCheck (off d : Nat) : Bool × List (Nat × Nat) :=
  let rb := bits d 111 96
  (off % 32 != 0 || bits d 255 225 != 0 || bits d 127 112 != 0 || bits d 223 192 % 16 != 0 || bits d 159 128 % 4 != 0
      || decide (rb < 16) || decide (4096 < rb) || rb % 16 != 0 || bits d 95 64 % 16 != 0 || decide (65535 < bits d 191 160),
    [(off, 32), (bits d 159 128, 4 * bits d 191 160), (bits d 223 192, bits d 191 160 * rb)])

/-- A GATH or a SCAT. -/
def View.rows (v : View) (s : State) (i : Instr) (d : Src) (sb : BitVec 3) (gd : Guard) (kind : EngKind) : Res :=
  match v.lanes gd with
  | [] => .ok s none
  | l :: _ =>
    let off := (v.src d l).toNat
    let data := v.t.spadRead off 32
    let (bad, ranges) := gathCheck off data
    match v.t.flipSet (bad || !v.t.inWindow off 32) ranges with
    | .error e => .trap e 0
    | .ok tiles =>
      v.startEng s i sb (kind == .scat) fun id tag => v.engOp id tag sb kind tiles off (BitVec.ofNat 512 data) 0 0

/-- GATH (R154, R325). -/
def execGath (d : Src) (sb : BitVec 3) (gd : Guard) (s : State) : Host.Outcome State Fault Refusal :=
  issue (.gath d sb gd) s fun v s => v.rows s (.gath d sb gd) d sb gd .gath

/-- SCAT (R154, R367). -/
def execScat (d : Src) (sb : BitVec 3) (gd : Guard) (s : State) : Host.Outcome State Fault Refusal :=
  issue (.scat d sb gd) s fun v s => v.rows s (.scat d sb gd) d sb gd .scat

/-- NZSCAN (R155, R344, R345). -/
def execNzscan (d : Src) (sb : BitVec 3) (gd : Guard) (s : State) : Host.Outcome State Fault Refusal :=
  issue (.nzscan d sb gd) s fun v s =>
    match v.lanes gd with
    | [] => .ok s none
    | l :: _ =>
      let off := (v.src d l).toNat
      let x := v.t.spadRead off 32
      let w := nzSize (bits x 67 64)
      let src := bits x 63 0
      let bad := off % 32 != 0 || bits x 95 69 != 0 || w == 0 || src % w != 0 || bits x 191 160 % 4 != 0
      let ranges := [(off, 32), (bits x 191 160, 4 * bits x 223 192)] ++ (if bit x 68 then [(src, bits x 127 96 * w)] else [])
      match v.t.flipSet bad ranges with
      | .error e => .trap e 0
      | .ok tiles =>
        v.startEng s (.nzscan d sb gd) sb false fun id tag => v.engOp id tag sb .nzscan tiles off (BitVec.ofNat 512 x) 0 0

/-- Whether a number is a power of two from 1 to 4,096. -/
def ringSize (n : Nat) : Bool := (List.range 13).any fun k => n == 2 ^ k

/-- MQRUN (R149 to R152, R340): descriptor and ring tiles flip; the commands are applied one by one. -/
def execMqrun (r : BitVec 10) (sb : BitVec 3) (gd : Guard) (s : State) : Host.Outcome State Fault Refusal :=
  issue (.mqrun r sb gd) s fun v s =>
    match v.lanes gd with
    | [] => .ok s none
    | l :: _ =>
      let off := (v.g.reg r.toNat l).toNat
      let x := v.t.spadRead off 64
      let size := bits x 63 32
      let cnt := bits x 127 96
      let bad := off % 64 != 0 || bits x 511 168 != 0 || !ringSize size || cnt == 0 || decide (size < cnt)
        || bits x 31 0 % 64 != 0
      let ring := (List.range (min cnt 4096)).map fun i => (bits x 31 0 + 64 * ((bits x 95 64 + i) % size), 64)
      match v.t.flipSet (bad || !v.t.inWindow off 64) ((off, 64) :: ring) with
      | .error e => .trap e 0
      | .ok tiles =>
        v.startEng s (.mqrun r sb gd) sb false fun id tag => v.engOp id tag sb .mqrun tiles off (BitVec.ofNat 512 x) 0 0

/-! ### OWN (R156, R346) -/

/-- Tiles that engine operations in flight of a team will flip back, as a group sees them (R180, R346). -/
def View.heldTiles (v : View) (s : State) : List Nat :=
  ((s.core v.t.core).ops.filter fun o =>
    o.team == v.g.team && !(o.isOver && o.grp == v.gid && !v.g.det.unseen.contains o.id)).flatMap (·.tiles)

/-- Whether every earlier access of the group has been performed, weak ones, .S accesses and reads of .Y included, and every ordinary one of
the core, since an access of the group may follow any of them in the global order (R122, R128, R299, R348, log 26). -/
def View.teamDrained (v : View) (s : State) : Bool :=
  let k := s.core v.t.core
  k.rq.isEmpty && !(k.wk.any fun o => o.grp == v.gid) && !(k.replies.any fun o => o.grp == v.gid && o.kind == .accst)
    && !k.yq.any fun y => y.op.grp == v.gid && !y.write

/-- Whether every earlier access of the group has been acknowledged, as a FENCE.CLU or wider would await it; the core's logical
time then rises to the largest timestamp (R128, R299, R346). None while it must wait. -/
def View.drained (v : View) (s : State) : Option State :=
  if v.teamDrained s then some (s.modCore v.t.core fun k => { k with pts := max k.pts k.seen }) else none

/-- The same where the engine of another core is to read what stands before in the global order (R40, R122). -/
def View.coreDrained (v : View) (s : State) : Option State := v.drained s

/-- The tiles of an OWN, or its misuse. -/
def View.ownTiles (v : View) (t c : Src) (l : Nat) : Option (List Nat) :=
  let a := (v.src t l).toNat
  let n := (v.src c l).toNat
  if n < 1 || decide (512 < n) || decide (v.t.window < 4096 * (a + n)) then none
  else some ((List.range n).map (· + a))

/-- OWN.E. -/
def execOwnE (t c : Src) (gd : Guard) (s : State) : Host.Outcome State Fault Refusal :=
  issue (.ownE t c gd) s fun v s =>
    match v.lanes gd with
    | [] => .ok s none
    | l :: _ =>
      match v.ownTiles t c l with
      | none => .trap 0x2F 0
      | some tiles =>
        let moving := (s.core v.t.core).moving v.g.team tiles
        match v.drained s with
        | none => .hold s
        | some s => if moving then .hold s else .ok ((s.flipTiles v.g.team tiles true).modGroup v.gid (·.impure)) none

/-- OWN.T. -/
def execOwnT (t c : Src) (gd : Guard) (s : State) : Host.Outcome State Fault Refusal :=
  issue (.ownT t c gd) s fun v s =>
    match v.lanes gd with
    | [] => .ok s none
    | l :: _ =>
      match v.ownTiles t c l with
      | none => .trap 0x2F 0
      | some tiles =>
        if (v.heldTiles s).any tiles.contains then .trap 0x2C 0
        else .ok ((s.flipTiles v.g.team tiles false).modGroup v.gid (·.impure)) none

end Sys2Proof.Machine
end

