-- ==== Sys2Proof/Machine/EngEvents.lean ====
section
/-! DEFINITION. Events of the async block: starts, chunks, rows, ring commands, completions (R130, R131, R151 to R155, R162, R180,
R194). -/
namespace Sys2Proof.Machine

/-- The async block still works for a context: no halt has stopped it (R187). -/
def State.asyncRuns (s : State) (core c : Nat) : Bool :=
  let x := s.ctx c
  x.alive && !x.halted && (x.line.isNone || x.serving.contains (core, .async))

/-- An operation of a core by its name. -/
def State.engOpOf (s : State) (core id : Nat) : Option EngOp := (s.core core).ops.find? (·.id == id)

/-- Replace an operation. -/
def State.setEng (s : State) (core : Nat) (o : EngOp) : State :=
  s.modCore core fun k => { k with ops := mapIf (fun (p : EngOp) => p.id == o.id) (fun _ => o) k.ops }

/-- Remove an operation. -/
def State.dropEng (s : State) (core id : Nat) : State :=
  s.modCore core fun k => { k with ops := k.ops.filter (·.id != id) }

/-- The report of an engine's fault under the operation's tag (R186, R194). -/
def State.engReport (s : State) (core : Nat) (o : EngOp) (eng : Engine) (cls cause addr aux : Nat) : Report :=
  match o.tag.bind (s.core core).issueRecs.look with
  | some r => { r.report core (o.tag.getD 0xFF) cls cause addr aux (engineCode eng) with slices := sliceMask o.slices }
  | none =>
    { cls := cls, cause := cause, addr := addr, aux := aux, serial := 0, team := 0, clause := 0, islot := 0, gslot := 0
      group := 0, core := core, tag := 0xFF, exited := false, precise := true, engine := engineCode eng
      slices := sliceMask o.slices, opa := 0, opb := 0 }

/-- A class H fault of an operation: it stops at its boundary until the context resumes (R152, R188, R194). -/
def State.engFault (s : State) (core : Nat) (o : EngOp) (eng : Engine) (cause va : Nat) : State :=
  (s.setEng core { o with faulted := true }).raiseHalt o.ctx eng (s.engReport core o eng 1 cause va 0)

/-- Complete an operation: its writes are placed, its tiles flip back, its scoreboard falls, its tag is freed and the core's
logical time rises to its writes' (R130, R131, R152, R192). -/
def State.finishEng (s : State) (core : Nat) (o : EngOp) : State :=
  let s := o.out.foldl (fun (s : State) w => s.spadStore o.team w.1 w.2.1 w.2.2) s
  let s := s.flipTiles o.team o.tiles false
  let s := (s.dropEng core o.id).modCore core fun k => { k.unref o.tag with pts := max k.pts o.ts, seen := max k.seen o.ts }
  s.sbDone o.grp o.slices o.sb

/-- An uncorrectable read stops an operation: its tiles flip back and the issuing group takes a contained fault, or the error is
logged as unconsumed when the group is gone; a halt in progress holds it back (R152, R187, R195, R201). -/
def State.engBad (s : State) (core : Nat) (o : EngOp) (eng : Engine) (va sector : Nat) : State :=
  if (s.ctx o.ctx).line.isSome then s
  else
    let r := s.engReport core o eng 3 0x40 va sector
    let s := (s.flipTiles o.team o.tiles false).dropEng core o.id
    let s := if s.present o.grp then s.containedFault o.grp r
             else { s with dev := { s.dev with unconsumed := s.dev.unconsumed ++ [sector] } }
    (s.modCore core fun k => k.unref o.tag).sbDone o.grp o.slices o.sb

/-! ### Observation in deterministic mode (R180) -/

/-- Gangs of a group yielded on a scoreboard. -/
def Group.yieldedOn (g : Group) (sb : Nat) : Nat :=
  (g.gangs.filter fun k => match k.wait with | .yield _ n => n == sb | _ => false).length

/-- Completion in deterministic mode: the scoreboard falls; writes and flips wait for their observation (R180). Those of a
group that has gone have been committed. -/
def State.finishDet (s : State) (core : Nat) (o : EngOp) : State :=
  let s := s.setEng core { o with isOver := true }
  match s.group o.grp with
  | none => ((s.flipTiles o.team o.tiles false).dropEng core o.id).modCore core fun k => k.unref o.tag
  | some g =>
    let s := s.modGroup o.grp fun g => { g with det := { g.det with unseen := g.det.unseen ++ [o.id] } }
    let s := (s.modCore core fun k => k.unref o.tag).sbDone o.grp o.slices o.sb
    match s.group o.grp with
    | some h => if h.yieldedOn o.sb < g.yieldedOn o.sb then s.observe o.grp core [o.sb] else s
    | none => s

/-! ### ASYNC_OP_START, CPY_CHUNK, ASYNC_ROW -/

/-- Whether an access that an operation's flip follows has still to be performed: an earlier one of the core's queue, one of the group that
is weak or reads .Y, or an ACCST of its team (R122, R130, log 26). -/
def Core.precedes (k : Core) (o : EngOp) : Bool :=
  (k.rq.any fun p => decide (p.id < o.id)) || (k.wk.any fun p => p.grp == o.grp && decide (p.id < o.id))
    || (k.replies.any fun p => p.kind == .accst && p.d == o.team && decide (p.id < o.id))
    || k.yq.any fun y => y.op.grp == o.grp && !y.write && decide (y.op.id < o.id)

/-- ASYNC_OP_START: operations start in issue order, once every access that the flip follows has been performed; the core's logical time
rises to those of its acknowledged stores, which the engine's accesses follow (R130, R152). -/
def State.asyncStart (s : State) (core : Nat) : State :=
  match (s.core core).ops.find? fun o => !o.started with
  | none => s
  | some o =>
    if !s.asyncRuns core o.ctx || (s.core core).precedes o then s
    else (s.setEng core { o with started := true }).modCore core fun k => { k with pts := max k.pts k.seen }

/-- One piece of an operation's work, and what it comes to. -/
def State.engOne (s : State) (core : Nat) (o : EngOp) (t : Team) : State :=
  match s.engStep core o t with
  | (s, o, .ok _) => s.setEng core o
  | (s, _, .fault c va) => s.engFault core o .async c va
  | (s, _, .bad va x) => s.engBad core o .async va x
  | (s, _, .held) => s

/-- One piece of work of an operation that has started and has not ended. -/
def State.engWork (s : State) (core id : Nat) (want : EngKind → Bool) : State :=
  match s.engOpOf core id with
  | none => s
  | some o =>
    if !want o.kind || !o.started || o.ran || o.faulted || !s.asyncRuns core o.ctx then s
    else
      match s.team o.team with
      | none => s
      | some t =>
        if (s.ctx o.ctx).det then
          let (s, o) := s.runDet core t o.steps o
          if o.ran then s.setEng core o else s.engOne core o t
        else s.engOne core o t

/-- CPY_CHUNK (R153). -/
def State.cpyChunk (s : State) (core id : Nat) : State := s.engWork core id fun k => k == .cpyIn || k == .cpyOut

/-- What an operation reads of .S next, if it does (R152 to R155). -/
def EngOp.nextRead (o : EngOp) : Option Nat :=
  match o.kind with
  | .cpyOut => some (o.o + o.at_)
  | .gath | .scat => some (o.field 159 128 + 4 * o.at_)
  | .nzscan => if bit o.data.toNat 68 then some (o.field 63 0 + o.at_ * nzSize (o.field 67 64)) else none
  | .mqrun => some (o.cmdOff o.m)
  | .cpyIn | .relmrg => none

/-- A pool's codes find an error in what an operation reads of .S next: it is counted, and one that they cannot correct stops the operation
(R152, R200, R201). -/
def State.poolError (s : State) (core id : Nat) (bad : Bool) : State :=
  match s.engOpOf core id with
  | none => s
  | some o =>
    match o.nextRead with
    | none => s
    | some a =>
      if !o.started || o.ran || o.faulted || !s.asyncRuns core o.ctx || (s.ctx o.ctx).line.isSome then s
      else if bad then (s.countErr core 1).engBad core o .async a (a / 64)
      else s.countErr core 0

/-- ASYNC_ROW: a row of a gather or scatter, or a chunk of a scan (R154, R155). -/
def State.asyncRow (s : State) (core id : Nat) : State :=
  s.engWork core id fun k => k == .gath || k == .scat || k == .nzscan

/-! ### MQRUN_COMMAND_APPLY (R151) -/

/-- The .S ranges that a command reads. -/
def MqCmd.ranges (c : MqCmd) : List (Nat × Nat) :=
  let d := fword c.word
  let k := c.kg * kgSize d.bfmt
  let a := (List.range c.rows).map fun r => (c.aoff + r * c.astride, 4 * rowRegs d.afmt k)
  let rows := if d.bfmt = 4 then k / 4 else k
  let len := if d.bfmt ≤ 1 ∨ d.bfmt = 4 then 2 * c.ncols else c.ncols
  a ++ (List.range rows).map fun r => (c.boff + r * c.bstride, len)

/-- The statuses that apply to a command, if any (R151, R340). -/
def State.mqStatuses (s : State) (o : EngOp) (t : Team) (c : MqCmd) : List Nat :=
  let d := fword c.word
  let run := (s.group o.grp).bind (·.run)
  let own := fun (x : Nat) => match run with | some r => decide (r.f ≤ x) && decide (x < r.f + r.n) | none => false
  let slots := c.slots.filter fun x => !own x
  let one := if !c.clean || c.op != 1 || c.astride % 4 != 0 || c.bstride % 4 != 0 then [1] else []
  let ill := !d.legal || d.bmode == 2 || (run.isNone && d.esc != 0)
  let out := d.legal && (c.ranges.any (fun (r : Nat × Nat) => !t.inWindow r.1 r.2) || slots.any fun x => decide (t.slots ≤ x))
  let thr := d.legal && c.ranges.any fun (r : Nat × Nat) => t.inWindow r.1 r.2 && (tilesOf r.1 r.2).any fun n => !t.engineSide n
  let mis := (run.isSome && runCheck run d == some 0x27)
    || slots.any fun x => (s.openRuns o.team).any fun r => r.meets x 1
  one ++ (if thr then [2] else []) ++ (if out then [3] else []) ++ (if ill then [4] else []) ++ (if mis then [5] else [])

/-- One of some values: which one is a free value (log 22). -/
def State.pick (s : State) (xs : List Nat) : State × Nat :=
  match xs with
  | [] => (s, 0)
  | [x] => (s, x)
  | xs => ({ s with free := s.free + 1 }, xs.getD ((Config.freeWord s.free).toNat % xs.length) 0)

/-- Element (k, j) of B as a command lays it out (R150). -/
def MqCmd.b (c : MqCmd) (t : Team) (k j : Nat) : Elem :=
  let f := (fword c.word).bfmt
  if f = 4 then elemOf 4 (t.spadRead (c.boff + k / 4 * c.bstride + 2 * j) 2) k
  else if f ≤ 1 then elemOf f (t.spadRead (c.boff + k * c.bstride + 2 * j) 2) k
  else elemOf f (t.spadRead (c.boff + k * c.bstride + j) 1) k

/-- A row of A. -/
def MqCmd.a (c : MqCmd) (t : Team) (r : Nat) : Nat :=
  let d := fword c.word
  t.spadRead (c.aoff + r * c.astride) (4 * rowRegs d.afmt (c.kg * kgSize d.afmt))

/-- Malformed units that a command reads (R83). -/
def MqCmd.bad (c : MqCmd) (t : Team) : Nat :=
  let d := fword c.word
  if d.afmt != 4 then 0
  else
    let us := c.kg * kgSize 4 / 4
    (List.range c.rows).foldl (fun n r => n + badUnits (c.a t r) us) 0
      + (List.range us).foldl (fun n u => n + badUnits (t.spadRead (c.boff + u * c.bstride) (2 * c.ncols)) c.ncols) 0

/-- Apply some K-groups of a command as an MMA of the issuing group (R87, R88, R91, R151). -/
def State.mqRun (s : State) (o : EngOp) (t : Team) (c : MqCmd) (hi : Nat) : State :=
  let d := fword c.word
  let run := (s.group o.grp).bind (·.run)
  let s := s.macTeam o.team o.grp (if o.at_ = 0 then c.bad t else 0) fun t' => t'.macRows (List.range c.rows) fun t' r =>
    t'.macSpan run d (c.slot + r / 16 * d.nb c.ncols) (r % 16) c.ncols o.at_ hi c.kg (rowElem d.afmt (c.a t r)) (c.b t) 0
  s.modGroup o.grp fun g => g.readTiles (nodup (c.ranges.flatMap fun (r : Nat × Nat) => tilesOf r.1 r.2))

/-- MQRUN_COMMAND_APPLY: the next command is applied, or the engine stops at it (R151). A pre-emption request stops it at one of the command's
K-groups, from which it goes on; which one is a free value (R162). -/
def State.mqApply (s : State) (core id : Nat) : State :=
  match s.engOpOf core id with
  | none => s
  | some o =>
    if o.kind != .mqrun || !o.started || o.ran || !s.asyncRuns core o.ctx then s
    else
      match (s.team o.team).map o.sees with
      | none => s
      | some t =>
        let c := o.cmd t o.m
        if s.mtxPending core o.grp o.id none (s.physSlots o.team o.grp c.slots) then s
        else
          match if o.at_ = 0 then s.mqStatuses o t c else [] with
          | [] =>
            let (s, hi) := s.kStop t.stopping o.at_ c.kg
            if hi = o.at_ then s
            else if hi < c.kg then (s.mqRun o t c hi).setEng core { o with at_ := hi }
            else
              let n := o.m + 1
              (s.mqRun o t c hi).setEng core { o with m := n, at_ := 0, ran := decide (o.field 127 96 ≤ n) }
          | xs =>
            let (s, st) := s.pick xs
            s.setEng core { o with status := st, ran := true }

/-! ### ASYNC_OP_COMPLETE (R152) -/

/-- What an operation writes into its descriptor at completion (R149, R155). -/
def EngOp.results (o : EngOp) : List (Nat × Nat × Nat) :=
  match o.kind with
  | .nzscan => [(o.desc + 28, 4, o.m % 2 ^ 32)]
  | .mqrun =>
    [(o.desc + 8, 4, (o.field 95 64 + o.m) % o.field 63 32), (o.desc + 16, 4, o.m), (o.desc + 20, 1, o.status)]
  | _ => []

/-- The add of −n to the barrier word of a .BCB copy, applied at its home after every data write, at a timestamp not before theirs (R153, R158,
R159). -/
def State.bcbAdd (s : State) (core : Nat) (o : EngOp) (pa : Nat) : State × EngOp :=
  let (s, old) := s.homeRead pa 8
  let (s, ts) := s.homeWrite pa 8 ((old + (2 ^ 64 - o.n)) % 2 ^ 64) (max (s.core core).pts o.ts)
  (s, { o with ts := max o.ts ts })

/-- ASYNC_OP_COMPLETE: an operation whose work is done completes; a .BCB copy's barrier is translated before anything is placed
(R152, R153). -/
def State.asyncComplete (s : State) (core id : Nat) : State :=
  match s.engOpOf core id with
  | none => s
  | some o =>
    if !o.started || !o.ran || o.isOver || o.faulted || o.kind == .relmrg || !s.asyncRuns core o.ctx then s
    else
      let o := { o with out := o.out ++ o.results }
      match o.bar with
      | none => if (s.ctx o.ctx).det then s.finishDet core o else s.finishEng core o
      | some c =>
        match s.translateNow core o.ctx c false true with
        | (s, .ok pa) =>
          if (s.ctx o.ctx).det then s.finishDet core o
          else if s.lockedFor pa then s
          else
            match s.badIn [(pa, 8)] c with
            | some (a, x) => s.engBad core o .async a x
            | none =>
            let s := o.out.foldl (fun (s : State) w => s.spadStore o.team w.1 w.2.1 w.2.2) s
            let (s, o) := s.bcbAdd core o pa
            s.finishEng core { o with out := [] }
        | (s, .fault cause) => s.engFault core o .async cause c
        | (s, .poisoned pa) => s.engBad core o .async c (s.served pa / 64)
        | (s, .miss) => s.engFault core o .async 0x01 c

/-! ### Meanings -/

def execAsyncOpStart (core : Nat) (s : State) : Host.Outcome State Fault Refusal := .next (s.asyncStart core)

def execCpyChunk (core id : Nat) (s : State) : Host.Outcome State Fault Refusal := .next (s.cpyChunk core id)

def execAsyncRow (core id : Nat) (s : State) : Host.Outcome State Fault Refusal := .next (s.asyncRow core id)

def execAsyncOpComplete (core id : Nat) (s : State) : Host.Outcome State Fault Refusal := .next (s.asyncComplete core id)

def execMqrunCommandApply (core id : Nat) (s : State) : Host.Outcome State Fault Refusal := .next (s.mqApply core id)

end Sys2Proof.Machine
end

