-- ==== Sys2Proof/Machine/Ctl.lean ====
section
/-! DEFINITION. CTL: branches, calls, the reconvergence stack, REGANG, YIELD, barriers, phase words, byte-counting barriers, the end
of lanes and of phases, and SIGCHK (R19 to R23, R26, R29, R159, R161, R298 to R301, R305, R307, R309, R318, R330, R343, R347 to
R349, R360 to R362, R365, R372, R384). -/
namespace Sys2Proof.Machine

/-! ### Branches -/

/-- The target of a label: words from the clause's header (R245). -/
def View.target (v : View) (off : BitVec 32) : Dword := v.c.hdr + off.signExtend 64 * 8

/-- The lanes of a slice, by their number in the group. -/
def fourLanes (n : Nat) : List Nat := [4 * n, 4 * n + 1, 4 * n + 2, 4 * n + 3]

/-- A branch of one slice to each active lane's next address: uniform, or divergent where the stack is not empty (R19). -/
def Slice.branch (sl : Slice) (next : Nat → Dword) : Option Slice :=
  let ls := [0, 1, 2, 3].filter sl.active.getLsbD
  match argmin (fun l => (next l).toNat) ls with
  | none => some sl
  | some l0 =>
    let x := next l0
    if ls.all fun l => next l == x then some { sl with pc := x, popDone := false }
    else if sl.stack.isEmpty then none
    else
      some { sl with
        pc := x
        popDone := false
        active := maskOf fun l => sl.active.getLsbD l && next l == x
        resume := (ls.filter fun l => next l != x).foldl (fun (t : Tab Dword) l => t.put l (next l)) sl.resume }

/-- A branch of the issuing gang; nothing moves when one slice may not diverge (R19). -/
def View.branch (v : View) (s : State) (next : Nat → Dword) (also : Group → Group) : Res :=
  let one := fun (n : Nat) => (v.g.slice n).branch fun l => next (4 * n + l)
  if v.k.slices.any fun n => (one n).isNone then .halt 0x05 0
  else
    .branch (s.modGroup v.gid fun g =>
      also (v.k.slices.foldl (fun (g : Group) n => g.modSlice n fun sl => (one n).getD sl) g))

/-- Lanes that execute go to a target, the others fall through. -/
def View.fork (v : View) (gd : Guard) (dest : Nat → Dword) (l : Nat) : Dword :=
  if v.g.guard gd l then dest l else v.c.next

def execNop (rc : Bool) (gd : Guard) (s : State) : Host.Outcome State Fault Refusal :=
  issue (.nop rc gd) s fun _ s => .ok s none

def execBra (rc : Bool) (off : BitVec 32) (gd : Guard) (s : State) : Host.Outcome State Fault Refusal :=
  issue (.bra rc off gd) s fun v s => v.branch s (v.fork gd fun _ => v.target off) id

def execJmp (rc : Bool) (off : BitVec 32) (s : State) : Host.Outcome State Fault Refusal :=
  issue (.jmp rc off) s fun v s => v.branch s (fun _ => v.target off) id

/-- Discard entries 1 to n whose pending mask is empty, top first; their waiting lanes park at the entry's address. True when a
discarded entry's masks differ (R21). -/
def Slice.discard : Nat → Slice → Slice × Bool
  | 0, sl => (sl, false)
  | n + 1, sl =>
    match sl.stack with
    | [] => (sl, false)
    | e :: rest =>
      if e.pending ≠ 0 then (sl, false)
      else if e.waiting ≠ 0 ∧ e.waiting ≠ e.saved then (sl, true)
      else
        let ls := [0, 1, 2, 3].filter e.waiting.getLsbD
        Slice.discard n { sl with
          stack := rest
          tokens := sl.tokens + 1
          resume := ls.foldl (fun (t : Tab Dword) l => t.put l e.addr) sl.resume }

/-- BRA.POP of one slice: the lanes of a mask leave entries 1 to n and arrive at entry n + 1 (R21). -/
def Slice.braPop (sl : Slice) (n : Nat) (t : Mask4) (fall : Dword) : Slice × Bool :=
  let out := fun (e : StackEntry) => { e with pending := e.pending &&& ~~~t, saved := e.saved &&& ~~~t }
  let there := fun (e : StackEntry) => { e with pending := e.pending &&& ~~~t, waiting := e.waiting ||| t }
  let stack := (sl.stack.take n).map out ++ ((sl.stack.drop n).take 1).map there ++ sl.stack.drop (n + 1)
  let sl := { sl with stack := stack, active := sl.active &&& ~~~t, pc := fall, popDone := false }
  match sl.discard n with
  | (sl, true) => (sl, true)
  | (sl, false) => sl.settle

/-- Apply a change to each slice of the gang; a mask mismatch in one ends the group (R20, R203). -/
def View.reshape (v : View) (s : State) (f : Nat → Slice → Slice × Bool) (also : Group → Group) : Res :=
  if v.k.slices.any fun n => (f n (v.g.slice n)).2 then .contained 0x41 0 0
  else
    .branch (s.modGroup v.gid fun g =>
      also (v.k.slices.foldl (fun (g : Group) n => g.modSlice n fun sl => (f n sl).1) g))

def execBraPop (rc : Bool) (n : BitVec 3) (off : BitVec 32) (gd : Guard) (s : State) : Host.Outcome State Fault Refusal :=
  issue (.braPop rc n off gd) s fun v s =>
    let k := n.toNat
    let going := fun (m : Nat) => maskOf fun l => (v.g.slice m).active.getLsbD l && v.g.guard gd (4 * m + l)
    let bad := fun (m : Nat) => going m != 0 &&
      (match (v.g.slice m).stack[k]? with | some e => e.addr != v.target off | none => true)
    if v.k.slices.any bad then .halt 0x05 0
    else
      v.reshape s (fun m sl =>
        if going m = 0 then ({ sl with pc := v.c.next, popDone := false }, false)
        else sl.braPop k (going m) v.c.next) id

/-! ### BRM -/

/-- The target that a table entry gives, counted from the table's header; none unless it is a JMP (R307). -/
def brmTarget (tbl : Dword) (w : Dword) : Option Dword :=
  match decode w with
  | .ok (.jmp false off) => some (tbl + off.signExtend 64 * 8)
  | _ => none

/-- The guards of a BRM's pairs. -/
def brmGuards (o : BrmArgs) : List Guard := [o.q0, o.q1, o.q2, o.q3].take (o.k1.toNat + 1)

def execBrm (o : BrmArgs) (s : State) : Host.Outcome State Fault Refusal :=
  issue (.brm o) s fun v s =>
    let gs := brmGuards o
    let tbl := v.target o.off
    match s.fetchAll v.t.core v.g.launch v.g.ctx (gs.length + 1) tbl.toNat with
    | (s, .error (a, .miss)) => .hold (s.askWalk v.t.core v.gid v.kid v.g.ctx a true)
    | (_, .error (_, .halt c a)) => .halt c a
    | (s, .error (a, .poisoned pa)) => .contained 0x40 a (s.served pa / 64)
    | (_, .error (a, _)) => .halt 0x03 a
    | (_, .ok []) => .halt 0x04 0
    | (s, .ok (h :: ws)) =>
      let hdOk := match decodeHeader h with
        | some hd => hd.cls == 5 && hd.count == gs.length
        | none => false
      let ts := ws.filterMap (brmTarget tbl)
      if !hdOk || ts.length != gs.length then .halt 0x04 0
      else
        v.branch s (fun l =>
          match findPos (fun g => v.g.guard g l) gs with
          | some i => ts.getD i v.c.next
          | none => v.c.next) id

/-! ### Calls -/

/-- The return stack of a lane. -/
def Group.returns (g : Group) (l : Nat) : List Dword := g.rets.getD l []

/-- CALL (R309). -/
def execCall (rc : Bool) (off : BitVec 32) (gd : Guard) (s : State) : Host.Outcome State Fault Refusal :=
  issue (.call rc off gd) s fun v s =>
    let ls := v.lanes gd
    if ls.any fun l => decide (8 ≤ (v.g.returns l).length) then .halt 0x06 0
    else
      let back := v.c.next - BitVec.ofNat 64 v.l.codeBase
      v.branch s (v.fork gd fun _ => v.target off) fun g =>
        { g with rets := ls.foldl (fun (t : Tab (List Dword)) l => t.put l (back :: g.returns l)) g.rets }

/-- RET (R365). -/
def execRet (rc : Bool) (gd : Guard) (s : State) : Host.Outcome State Fault Refusal :=
  issue (.ret rc gd) s fun v s =>
    let ls := v.lanes gd
    if ls.any fun l => (v.g.returns l).isEmpty then .halt 0x06 0
    else
      v.branch s (v.fork gd fun l => BitVec.ofNat 64 v.l.codeBase + (v.g.returns l).headD 0) fun g =>
        { g with rets := ls.foldl (fun (t : Tab (List Dword)) l => t.put l (g.returns l).tail) g.rets }

/-! ### The end of lanes -/

/-- EXIT (R19, R318): lanes end, the others fall through; the handler's flag clears when its last slice has gone (R190). -/
def execExit (rc : Bool) (gd : Guard) (s : State) : Host.Outcome State Fault Refusal :=
  issue (.exit rc gd) s fun v s =>
    let ls := v.lanes gd
    let going := fun (n : Nat) => maskOf fun l => ls.contains (4 * n + l)
    v.reshape s (fun n sl => { (sl.endLanes (going n)) with pc := v.c.next, popDone := false }.settle) fun g =>
      { g with rets := ls.foldl (fun (t : Tab (List Dword)) l => t.del l) g.rets }.leaveHandler s.cycle

/-! ### The stack -/

/-- RCVPUSH (R361). -/
def execRcvpush (rc : Bool) (off : BitVec 32) (s : State) : Host.Outcome State Fault Refusal :=
  issue (.rcvpush rc off) s fun v s =>
    if v.k.slices.any fun n => decide (16 ≤ (v.g.slice n).stack.length) then .halt 0x06 0
    else
      .ok (s.modGroup v.gid fun g => g.modSlices v.k.slices fun sl =>
        { sl with stack := ⟨v.target off, 0, sl.active, sl.active⟩ :: sl.stack }) none

/-- Whether entries 1 to n may be dropped (R22). -/
def Slice.mayDrop (sl : Slice) (n : Nat) : Bool :=
  decide (n ≤ sl.stack.length) && (sl.stack.take n).all fun e => e.waiting == 0 && e.pending &&& ~~~sl.active == 0

/-- RCVDROP (R360). -/
def execRcvdrop (rc : Bool) (n1 : BitVec 4) (s : State) : Host.Outcome State Fault Refusal :=
  issue (.rcvdrop rc n1) s fun v s =>
    let n := n1.toNat + 1
    if v.k.slices.all fun m => (v.g.slice m).mayDrop n then
      .ok (s.modGroup v.gid fun g => g.modSlices v.k.slices fun sl => { sl with stack := sl.stack.drop n }) none
    else .halt 0x05 0

/-! ### REGANG and YIELD -/

/-- A gang parks in a REGANG's window (R23, R362). -/
def View.regang (v : View) (s : State) (all : Bool) : Res :=
  .hold ((s.park v.gid v.kid (.regang all v.here)).modGang v.gid v.kid fun k => { k with since := s.cycle })

def execRegang (rc : Bool) (s : State) : Host.Outcome State Fault Refusal :=
  issue (.regang rc) s fun v s => v.regang s false

def execRegangAll (rc : Bool) (s : State) : Host.Outcome State Fault Refusal :=
  issue (.regangAll rc) s fun v s => v.regang s true

/-- REGANG_WINDOW_EXPIRY: 64 cycles after its first arrival a plain window closes (R23). -/
def execRegangWindowExpiry (grp : Nat) (addr : Dword) (s : State) : Host.Outcome State Fault Refusal :=
  .next (s.modGroup grp fun g =>
    [false, true].foldl (fun (g : Group) inH =>
      match argmin (·.since) (g.gangs.filter (g.inWindow false addr inH)) with
      | some k => if k.since + 64 ≤ s.cycle then g.closeWindow false addr inH s.cycle else g
      | none => g) g)

/-- YIELD (R161, R384): the gang goes on at the label once the scoreboard is zero in all its slices; parked, its word has
retired. -/
def execYield (off : BitVec 32) (sb : BitVec 3) (gd : Guard) (s : State) : Host.Outcome State Fault Refusal :=
  issue (.yield off sb gd) s fun v s =>
    let ls := v.lanes gd
    if ls.isEmpty then .ok s none
    else if ls != v.active then .halt 0x05 0
    else
      let goes := fun (s : State) => s.modGroup v.gid fun g => g.modSlices v.k.slices fun sl =>
        { sl with pc := v.target off, popDone := false }
      if v.k.slices.all fun n => (v.g.slice n).sbOf sb.toNat == 0 then
        .branch ((goes s).observe v.gid v.t.core [sb.toNat])
      else
        .hold ((goes s).modGroup v.gid fun g =>
          (g.retire v.kid s.cycle (signOp (.yield off sb gd)) 0 true none).modGang v.kid fun k =>
            { k with wait := .yield (v.target off) sb.toNat, port := none, origin := some (v.c.hdr, v.c.slot) })

/-! ### BAR -/

/-- The scope of the issuing group's barrier: its team or its cluster. -/
def View.scope (v : View) (clu : Bool) : Nat := if clu then v.t.cluster else v.g.team

/-- The group arrives at the barrier's current phase (R298); at a cluster's it leaves its core's logical time to the others (R299). -/
def View.arriveBar (v : View) (s : State) (clu : Bool) : State :=
  let s := s.modGroup v.gid fun g =>
    g.setPart clu { g.part clu with last := some (s.barPhase clu (v.scope clu)), pending := true, uncounted := false }
  if clu then s.modCluster v.t.cluster fun c => { c with barTs := max c.barTs (s.core v.t.core).pts } else s

/-- The group executes a BAR: an earlier arrival counts again if a phase of the group has ended since (R29). -/
def View.countAgain (v : View) (s : State) (clu : Bool) : State :=
  (s.modGroup v.gid fun g => g.setPart clu { g.part clu with uncounted := false }).checkBarrier clu (v.scope clu) (some v.gid)

/-- BAR.WAIT of one gang (R298). -/
def View.barWait (v : View) (s : State) (clu : Bool) (d : Nat) : Res :=
  let p := v.g.part clu
  let ls := v.active
  let give := fun (s : State) (w : Word) =>
    Res.ok (s.modGroup v.gid fun g => g.setRegs d ls fun _ => w) (some (ls, fun _ => w))
  match p.last with
  | some ph =>
    if !p.pending then give s 2
    else if ph < s.barPhase clu (v.scope clu) then
      give ((s.modGroup v.gid fun g => g.setPart clu { p with pending := false, abandoned := false, uncounted := false }).barOrder clu
          (v.scope clu) v.t.core) (if p.abandoned then 1 else 0)
    else .hold (v.countAgain (s.park v.gid v.kid (.barrier clu ph d)) clu)
  | none => give s 2

/-- BAR (R26, R298, R299): .ARR and .SYNC bring all live slices together, then the group arrives; .SYNC goes on to wait. An arrival
whose phase has not completed is waited for first. -/
def execBar (rc : Bool) (k : BarKind) (clu : Bool) (d : BitVec 10) (s : State) : Host.Outcome State Fault Refusal :=
  issue (.bar rc k clu d) s fun v s =>
    if k = .wait then v.barWait s clu d.toNat
    else
      match v.meet with
      | .wait => .hold (v.comeTo s true)
      | .diverge => .halt 0x05 0
      | .all =>
        let ph := s.barPhase clu (v.scope clu)
        let p := v.g.part clu
        if p.pending && p.last == some ph then .hold (v.countAgain (v.comeTo s true) clu)
        else
          match v.drained s with
          | none => .hold s
          | some s =>
            let s := v.arriveBar s clu
            if k = .sync then
              let s := v.party.foldl (fun (s : State) (j : Gang) => s.park v.gid j.id (.barrier clu ph d.toNat)) s
              .hold (s.checkBarrier clu (v.scope clu) (some v.gid))
            else
              let ls := v.g.activeLanes (v.party.flatMap (·.slices))
              let s := s.modGroup v.gid fun g => g.setRegs d.toNat ls fun _ => 0
              let s := v.freeParty s (.bar rc k clu d) fun j => some (v.g.activeLanes j.slices, fun _ => 0)
              .ok (s.checkBarrier clu (v.scope clu) (some v.gid)) (some (v.active, fun _ => 0))

/-! ### Phase words -/

/-- The lowest executing lane's phase word, checked (R349). -/
def View.phaseWord (v : View) (base : Src) (off : BitVec 11) (l : Nat) : Except Res Nat :=
  let a := addrOf v.g v.c .s base off l
  match v.t.checkSpad [piece l 0 a 4 0] with
  | .halt c x => .error (.halt c x)
  | .trap c => .error (.trap c 0)
  | _ => .ok a

/-- PHWAIT (R348). -/
def execPhwait (rc : Bool) (base p : Src) (off : BitVec 11) (gd : Guard) (s : State) : Host.Outcome State Fault Refusal :=
  issue (.phwait rc base p off gd) s fun v s =>
    match v.lanes gd with
    | [] => .ok s none
    | l :: _ =>
      match v.phaseWord base off l with
      | .error r => r
      | .ok a =>
        let par := (v.src p l).getLsbD 0
        if (s.core v.t.core).storing v.g.team [(a, 4)] then .hold s
        else if bit (v.t.spadRead a 4) 0 == par then .ok s none else .hold (s.park v.gid v.kid (.phwait a par))

/-- PHFLIP, once the group's earlier accesses are complete as at FENCE.TEAM (R348). -/
def execPhflip (rc : Bool) (base : Src) (off : BitVec 11) (gd : Guard) (s : State) : Host.Outcome State Fault Refusal :=
  issue (.phflip rc base off gd) s fun v s =>
    match v.lanes gd with
    | [] => .ok s none
    | l :: _ =>
      match v.phaseWord base off l with
      | .error r => r
      | .ok a =>
        match v.drained s with
        | none => .hold s
        | some u =>
          if (s.core v.t.core).storing v.g.team [(a, 4)] then .hold s
          else .ok (u.spadStore v.g.team a 4 (Nat.xor (v.t.spadRead a 4) 1)) none

/-! ### Byte-counting barriers -/

/-- BCBARM (R158, R300). -/
def execBcbarm (a : BitVec 10) (n : Src) (sb : BitVec 3) (gd : Guard) (s : State) : Host.Outcome State Fault Refusal :=
  issue (.bcbarm a n sb gd) s fun v s =>
    match v.lanes gd with
    | [] => .ok s none
    | l :: _ =>
      match v.check s .g true [piece l 0 (v.g.pair a.toNat l).toNat 8 (v.src n l).toNat] with
      | .halt c x => .halt c x
      | .trap c => .trap c 0
      | .miss va => .hold (s.askWalk v.t.core v.gid v.kid v.g.ctx va false)
      | .ok ps => v.startAtomic s (.bcbarm a n sb gd) .g sb .bcbarm 0 ps

/-- Whether a BCBARM of the group on a word has still to be acknowledged (R301). -/
def View.arming (v : View) (s : State) (pa : Nat) : Bool :=
  ((s.core v.t.core).rq ++ (s.core v.t.core).replies).any fun o =>
    o.grp == v.gid && o.kind == .bcbarm && o.pieces.any fun p => p.pa == pa

/-- BCBWAIT (R159, R301). -/
def execBcbwait (d a : BitVec 10) (gd : Guard) (s : State) : Host.Outcome State Fault Refusal :=
  issue (.bcbwait d a gd) s fun v s =>
    match v.lanes gd with
    | [] => .ok s none
    | l :: ls =>
      let p := piece l 0 (v.g.pair a.toNat l).toNat 8 (lanesMask (l :: ls))
      match v.check s .g false [p] with
      | .halt c x => .halt c x
      | .trap c => .trap c 0
      | .miss va => .hold (s.askWalk v.t.core v.gid v.kid v.g.ctx va false)
      | .ok ps =>
        let p := ps.headD p
        if v.arming s p.pa then .hold s
        else v.startWatch s (.bcbwait d a gd) .bcbwait d.toNat (.bcbwait s.nextUid) p

/-! ### PHEND -/

/-- The carried registers of a group: those of the kernel's carry set below its budget (R65). -/
def Launch.carry (l : Launch) (budget : Nat) : List Nat :=
  (List.range budget).filter fun n => bit l.kernel.toNat (1024 + n)

/-- The phase record of a group (R65): the header, then the carried registers with a dead lane's word zero. -/
def View.phaseRec (v : View) (g : Group) (label : Dword) : Nat :=
  let cmap := v.l.carry g.budget
  let live := (List.range 32).filter g.live
  let row := fun (n : Nat) => live.foldl (fun (a l : Nat) => a + (g.reg n l).toNat * 2 ^ (32 * l)) 0
  let body := cmap.foldr (fun (n rest : Nat) => row n + 2 ^ 1024 * rest) 0
  0x50485243 + 2 ^ 32 * cmap.length + 2 ^ 64 * (g.index % 32) + 2 ^ 96 * (v.t.index % 2 ^ 32)
    + 2 ^ 128 * ((label.toNat + 2 ^ 64 - v.l.codeBase) % 2 ^ 32) + 2 ^ 160 * ((g.phases + 1) % 2 ^ 32)
    + 2 ^ 192 * lanesMask live + 2 ^ 224 * g.fstat.toNat
    + cmap.foldl (fun (a n : Nat) => a + 2 ^ (1024 + n)) 0 + 2 ^ 2048 * body

/-- The offset of a place in Distaff's part of the save area (R184): the largest record fits it and stays inside one page (log 25). -/
def recordAt (place : Nat) : Nat := 0x20000 + 0x4000 * place

/-- The first place of a context's save area that holds no group's phase record (log 25). -/
def State.recPlace (s : State) (c : Nat) : Nat :=
  let used := s.groups.filterMap fun (e : Nat × Group) => if e.2.ctx == c then e.2.record else none
  ((List.range (used.length + 1)).find? fun n => !used.contains n).getD 0

/-- What the end of a phase leaves of a group: its record's place, and nothing that the record does not hold (R29, R347). Registers that
are not carried hold free values from here on (log 2). %lclock goes on over the phases of a group: whether it starts again with a phase R61 does
not say, and this is the model's choice (log 43). -/
def Group.endPhase (g : Group) (place free : Nat) : Group :=
  { g with
    stage := .exiting
    regs := []
    undef := some free
    preds := []
    rets := []
    pmoff := none
    overrun := false
    phases := g.phases + 1
    record := some place
    barTeam := { g.barTeam with uncounted := true }
    gangs := []
    slices := [] }

/-- PHEND (R29, R347). It waits until no MMA that names a quarter of its group is pending, so that the pass reads the registers as they
stand (R141). -/
def execPhend (rc : Bool) (off : BitVec 32) (s : State) : Host.Outcome State Fault Refusal :=
  issue (.phend rc off) s fun v s =>
    match v.meet with
    | .wait => .hold (v.comeTo s false)
    | .diverge => .halt 0x05 0
    | .all =>
      let live := v.g.gangs.flatMap (·.slices)
      if v.g.inHandler || live.any fun n => !(v.g.slice n).stack.isEmpty then .halt 0x05 0
      else if v.g.gangs.any (·.fence.isSome) then .hold s
      else if live.any fun n => (List.range 8).any fun b => (v.g.slice n).sbOf b != 0 then .hold s
      else if v.g.run.isSome then .hold (v.meetTrap s (.phend rc off) 0x27 0)
      else if s.setsPending v.gid v.t.core then .hold s
      else
        let s := (s.observe v.gid v.t.core (List.range 8)).ghost v.gid v.t.core
        let place := s.recPlace v.g.ctx
        match s.distWrite v.g.ctx (v.x.save + recordAt place) (256 + 128 * (v.l.carry v.g.budget).length)
            (v.phaseRec v.g (v.target off)) with
        | (s, false) => .hold ((s.countStop v.t.core 8).contextDeath v.g.ctx)
        | (s, true) =>
          let s := { s with free := s.free + 32768 }
          let s := s.modGroup v.gid fun g =>
            let n := BitVec.ofNat 64 v.party.length
            let g := { g with lclock := g.lclock + n, dclock := g.dclock + n
                              det := { g.det with granted := none } }
            g.endPhase place (s.free - 32768)
          .hold (s.leave v.gid)

/-! ### SIGCHK -/

/-- SIGCHK (R372). -/
def execSigchk (rc : Bool) (imm : BitVec 32) (s : State) : Host.Outcome State Fault Refusal :=
  issue (.sigchk rc imm) s fun v s =>
    if v.g.inHandler then .ok s none
    else if v.k.slices.any fun n => (v.g.slice n).sig != imm then .contained 0x41 0 0
    else .ok (s.modGroup v.gid fun g => g.modSlices v.k.slices fun sl => { sl with sig := 0 }) none

end Sys2Proof.Machine
end

