-- ==== Sys2Proof/Machine/Rel.lean ====
section
/-! DEFINITION. The relation engine: handles, descriptors, rows, RELENT, RELSEAL, RELSTAT, RELGRP, RELJOIN and RELMRG with the events
that end them (R34 to R51, R363, R364). -/
namespace Sys2Proof.Machine

/-! ### Handles (R35, R38, R48) -/

/-- Set a handle. -/
def State.setHandle (s : State) (h : HRef) (x : Handle) : State :=
  match h with
  | .team t n => s.modTeam t fun t => { t with handles := t.handles.put n x }
  | .cluster c n => s.modCluster c fun c => { c with handles := c.handles.put n x }

/-- A handle returns to IDLE and drops its population (R35). -/
def State.freeHandle (s : State) (h : HRef) : State :=
  match h with
  | .team t n => s.modTeam t fun t => { t with handles := t.handles.del n }
  | .cluster c n => s.modCluster c fun c => { c with handles := c.handles.del n }

/-- The number of a state in a status word (R48). -/
def HState.code : HState → Nat
  | .idle => 0 | .opened => 1 | .sealed => 2 | .grouped => 3 | .unsealable => 4 | .corrupt => 5

/-- Whether a population is SEALED or GROUPED. -/
def HState.whole (x : HState) : Bool := x == .sealed || x == .grouped

/-! ### Descriptors and rows (R36, R37) -/

def relKeyw (d : Nat) : Bool := bit d 129
def relSpace (d : Nat) : Bool := bit d 128
def relMembers (d : Nat) : Nat := bits d 127 96
def relCap (d : Nat) : Nat := bits d 95 64
def relBase (d : Nat) : Nat := bits d 63 0
def colOp (d c : Nat) : Nat := bits d (173 + 16 * c) (170 + 16 * c)
def colTy (d c : Nat) : Nat := bits d (175 + 16 * c) (174 + 16 * c)

/-- The key as rows are grouped and joined by: all 64 bits, also where a 32-bit key's upper half is not zero as R37 has it (log 73). -/
def rowKey (r : Nat) : Nat := bits r 63 0
def rowRank (r : Nat) : Nat := bits r 127 64
def rowCol (r c : Nat) : Nat := bits r (159 + 32 * c) (128 + 32 * c)
def rowValid (r : Nat) : Bool := bits r 455 448 == 0xA5
def rowMerged (r : Nat) : Bool := bit r 456
def rowSurv (r : Nat) : Bool := bit r 457
def rowCount (r : Nat) : Nat := bits r 511 480

/-- A number with bits hi to lo replaced. -/
def putBits (v hi lo x : Nat) : Nat := v - bits v hi lo * 2 ^ lo + x % 2 ^ (hi + 1 - lo) * 2 ^ lo

/-- The status word (R48). -/
def Handle.status (h : Handle) : Word :=
  BitVec.ofNat 32 (h.state.code * 2 ^ 28 + b2n (h.held != 0) * 2 ^ 27
    + b2n (h.state != .idle && relKeyw h.desc.toNat) * 2 ^ 26 + h.rows % 2 ^ 26)

/-- Whether an operator and a type may go together (R36, R42). -/
def foldLegal (op ty : Nat) : Bool := decide (op ≤ 8) && ty != 3 && !(ty == 2 && decide (6 ≤ op))

/-- Whether a descriptor is misuse for a group of some budget (R36, R50). -/
def descBad (d budget : Nat) : Bool :=
  let n := relNcol d
  bits d 511 288 != 0 || bits d 159 134 != 0 || decide (8 < n) || relCap d == 0 || decide (2 ^ 26 ≤ relCap d)
    || relBase d % 64 != 0
    || (List.range 8).any fun c =>
      if c < n then !foldLegal (colOp d c) (colTy d c) || decide (budget ≤ colReg d c)
      else bits d (175 + 16 * c) (160 + 16 * c) != 0

/-- What stops an instruction of the relation engine. -/
inductive RelStop where
  | halt (cause addr : Nat)
  | trap (cause : Nat)
deriving DecidableEq, Repr

def RelStop.res : RelStop → Res
  | .halt c a => .halt c a
  | .trap c => .trap c 0

/-- Read n bytes of a descriptor of the issuing team, as a .S load would (R39, R50): an offset at or beyond the window, alignment, what an
aligned descriptor reaches beyond a window that ends inside it, owner. -/
def View.relDesc (v : View) (off n : Nat) : Except RelStop Nat :=
  if v.t.window ≤ off then .error (.halt 0x03 off)
  else if off % n != 0 then .error (.trap 0x2B)
  else if !v.t.inWindow off n then .error (.halt 0x03 off)
  else if (tilesOf off n).any v.t.engineSide then .error (.trap 0x2C)
  else .ok (v.t.spadRead off n)

/-- Whether a cluster spans more than one core. -/
def State.wideCluster (s : State) (c : Nat) : Bool :=
  match s.cluster c with
  | some x => decide (1 < (nodup x.cores).length)
  | none => false

/-- A relation descriptor for a handle, checked (R36, R50). -/
def View.openDesc (v : View) (s : State) (h : Hnd) (off : Nat) : Except RelStop Nat :=
  match v.relDesc off 64 with
  | .error e => .error e
  | .ok d =>
    if descBad d v.g.budget || (relSpace d && h.clu && s.wideCluster v.t.cluster) then .error (.trap 0x2B) else .ok d

/-! ### The engine's accesses -/

/-- Read n bytes in a space. -/
def State.relGet (s : State) (core ctx tid : Nat) (sp : Bool) (a n : Nat) : State × EngAcc :=
  if sp then
    match s.team tid with
    | none => (s, .ok 0)
    | some t => if t.inWindow a n then (s, .ok (t.spadRead a n)) else (s, .fault 0x03 a)
  else s.engRead core ctx a n

/-- Write n bytes in a space at once, as an engine write of a core; or what stops it, and nothing written (R119, R131, R364). -/
def State.relPut (s : State) (core ctx tid : Nat) (sp : Bool) (a n v : Nat) : State × EngAcc :=
  if n = 0 then (s, .ok 0)
  else if sp then
    match s.team tid with
    | none => (s, .ok 0)
    | some t => if t.inWindow a n then (s.spadStore tid a n v, .ok 0) else (s, .fault 0x03 a)
  else
    match s.engTrans core ctx true (n / 4096 + 2) a n with
    | (s, .error e) => (s, e)
    | (s, .ok ps) =>
      if s.lockedIn ps then (s, .held)
      else
      let (s, ts, _) := ps.foldl (fun (acc : State × Nat × Nat) p =>
        let (s, t) := acc.1.homeWriteRange p.1 p.2 (acc.2.2 % 2 ^ (8 * p.2)) (acc.1.core core).pts
        (s, max acc.2.1 t, acc.2.2 / 2 ^ (8 * p.2))) (s, 0, v)
      (s.modCore core fun k => { k with pts := max k.pts ts, seen := max k.seen ts }, .ok 0)

/-- As `relPut`; in deterministic mode the bytes enter the log of the group that observes the operation's end (R180). -/
def State.relOut (s : State) (gid core ctx tid : Nat) (sp : Bool) (a n v : Nat) : State × EngAcc :=
  if !(s.ctx ctx).det || n = 0 then s.relPut core ctx tid sp a n v
  else
    let add := fun (s : State) (bs : List LogByte) => s.modGroup gid fun g => { g with det := { g.det with log := g.det.log ++ bs } }
    if sp then
      match s.team tid with
      | none => (s, .ok 0)
      | some t => if t.inWindow a n then (add s (logBytes true a n v), .ok 0) else (s, .fault 0x03 a)
    else
      match s.engTrans core ctx true (n / 4096 + 2) a n with
      | (s, .error e) => (s, e)
      | (s, .ok ps) =>
        let r := ps.foldl (fun (acc : List LogByte × Nat) p =>
          (acc.1 ++ logBytes false (s.served p.1) p.2 (acc.2 % 2 ^ (8 * p.2)), acc.2 / 2 ^ (8 * p.2))) ([], v)
        (add s r.1, .ok 0)

/-- Rows as one number, the first lowest. -/
def packRows : List Nat → Nat
  | [] => 0
  | r :: rs => r % 2 ^ 512 + 2 ^ 512 * packRows rs

/-- n items of w bits of a number, the lowest first. -/
def unpack (w v : Nat) : Nat → List Nat
  | 0 => []
  | n + 1 => v % 2 ^ w :: unpack w (v / 2 ^ w) n

/-- The rows of a population as the engine holds them: read and checked when it first uses them, its state then CORRUPT if a row is
invalid or a rank occurs twice (R40). -/
def State.useRows (s : State) (core ctx : Nat) (h : HRef) : State × EngAcc :=
  let x := s.handle h
  if x.image.length = x.rows then (s, .ok 0)
  else
    match s.relGet core ctx x.opener (relSpace x.desc.toNat) (relBase x.desc.toNat) (64 * x.rows) with
    | (s, .ok v) =>
      let rows := unpack 512 v x.rows
      let bad := rows.any (fun r => !rowValid r) || (nodup (rows.map rowRank)).length != rows.length
      (s.setHandle h { x with
        image := rows, state := if bad then .corrupt else x.state, ts := max x.ts (s.core core).pts }, .ok 0)
    | r => r

/-! ### RELENT (R39, R41) -/

/-- The row that a lane deposits (R37). -/
def View.row (v : View) (d key l : Nat) : Nat :=
  let cols := (List.range (relNcol d)).foldl (fun n c => n + (v.g.reg (colReg d c) l).toNat * 2 ^ (32 * c)) 0
  key + v.g.rank l % 2 ^ 64 * 2 ^ 64 + cols * 2 ^ 128 + v.t.index % 2 ^ 32 * 2 ^ 384 + v.g.slot % 32 * 2 ^ 416
    + l % 32 * 2 ^ 421 + 0xA5 * 2 ^ 448

/-- Whether a source may hold a 64-bit key: an even pair of registers (R50). -/
def pairSrc : Src → Bool
  | .reg n => n.toNat % 2 == 0
  | .lat _ => false

/-- Write one word to every executing lane and finish, as the relation instructions do that act once per gang. -/
def View.giveAll (v : View) (s : State) (d : BitVec 10) (ls : List Nat) (f : Nat → Word) : Res :=
  .ok (s.modGroup v.gid fun g => g.setRegs d.toNat ls f) (some (ls, f))

/-- The descriptor that a RELENT goes by: the open one, or the one it opens the handle with. R50 does not order its fates for an offset that is
both other than the open one and at or beyond the window: the model's choice is the protection fault (log 100). -/
def View.entDesc (v : View) (s : State) (h : Hnd) (off : Nat) (ls : List Nat) : Except RelStop Nat :=
  let x := s.handle (v.href h)
  if x.state = .idle then v.openDesc s h off
  else if v.t.window ≤ off then .error (.halt 0x03 off)
  else
    let d := x.desc.toNat
    if off != x.off || ls.any (fun l => x.entered.contains (v.gid, l))
        || (List.range (relNcol d)).any (fun c => decide (v.g.budget ≤ colReg d c)) then .error (.trap 0x2B)
    else .ok d

/-! ### The ends of RELGRP (R43, R44) -/

/-- An operator over values in order, with the float flags it raises (R42). Those of add, min, max, and, or and xor start at the operator's
identity (R82), which gives what a start at the first value gives, but for a lone NaN (log 78). -/
def foldVals (op ty : Nat) (xs : List Word) : Word × Word :=
  let rt : RedTy := match ty with | 0 => .i32 | 2 => .f32 | _ => .n32
  let by_ := fun (o : RedOp) =>
    xs.foldl (fun (acc : Word × Word) y => let r := redApply o rt acc.1 y; (r.1, acc.2 ||| r.2)) (redIdentity o rt, 0)
  match op with
  | 0 => (xs.headD 0, 0)
  | 1 => (xs.getLastD 0, 0)
  | 2 => by_ .add
  | 3 => by_ .min
  | 4 => by_ .max
  | 5 => (BitVec.ofNat 32 xs.length, 0)
  | 6 => by_ .and
  | 7 => by_ .or
  | _ => by_ .xor

/-- Positions of rows in the order (key, rank). -/
def rowOrder (rows : List Nat) : List Nat :=
  let le := fun (i j : Nat) =>
    let a := rows.getD i 0
    let b := rows.getD j 0
    decide (rowKey a < rowKey b) || (rowKey a == rowKey b && decide (rowRank a ≤ rowRank b))
  sortBy le (List.range rows.length)

/-- Consecutive items with equal keys, as runs. -/
def runsBy (key : Nat → Nat) : List Nat → List (List Nat)
  | [] => []
  | i :: is =>
    match runsBy key is with
    | (j :: js) :: rs => if key i == key j then (i :: j :: js) :: rs else [i] :: (j :: js) :: rs
    | rs => [i] :: rs

/-- Group rows: the survivors' columns combined, the others merged away, and the flags of each survivor (R43). -/
def groupRows (d : Nat) (rows : List Nat) : List Nat × Tab Word :=
  (runsBy (fun i => rowKey (rows.getD i 0)) (rowOrder rows)).foldl (fun (acc : List Nat × Tab Word) run =>
    match run with
    | [] => acc
    | i :: rest =>
      let vals := fun (c : Nat) => run.map fun j => BitVec.ofNat 32 (rowCol (rows.getD j 0) c)
      let (r, fl) := (List.range (relNcol d)).foldl (fun (acc : Nat × Word) c =>
        let f := foldVals (colOp d c) (colTy d c) (vals c)
        (putBits acc.1 (159 + 32 * c) (128 + 32 * c) f.1.toNat, acc.2 ||| f.2)) (rows.getD i 0, 0)
      let r := putBits (putBits r 511 480 run.length) 457 457 1
      let rows' := rest.foldl (fun (t : List Nat) j => t.set j (putBits (t.getD j 0) 456 456 1)) (acc.1.set i r)
      (rows', acc.2.put i fl)) (rows, [])

/-- The survivors of a grouped population, in ascending key order: of each key the row of lowest rank (R43), whatever a program wrote in the
rows' marks. -/
def Handle.survivors (h : Handle) : List Nat :=
  (runsBy (fun i => rowKey (h.image.getD i 0)) (rowOrder h.image)).filterMap List.head?

/-- Compute the grouping of a SEALED handle for a group that waits for it (R43). -/
def State.computeGroups (s : State) (gid core ctx : Nat) (h : HRef) : State × EngAcc :=
  match s.useRows core ctx h with
  | (s, .ok _) =>
    let x := s.handle h
    if x.state != .sealed then (s, .ok 0)
    else
      let (rows, fl) := groupRows x.desc.toNat x.image
      match s.relOut gid core ctx x.opener (relSpace x.desc.toNat) (relBase x.desc.toNat) (64 * x.rows) (packRows rows) with
      | (s, .ok _) =>
        (s.setHandle h { x with state := .grouped, image := rows, flags := fl, ts := max x.ts (s.core core).pts }, .ok 0)
      | r => r
  | r => r

/-- Lanes end in a gang whose word has retired, as at EXIT: its slices that go on elsewhere leave it, and the group ends with its
last lane (R19, R31, R44, R51). -/
def State.endLanesAt (s : State) (gid kid : Nat) (ls : List Nat) : State :=
  match s.group gid with
  | none => s
  | some g =>
    match g.gang kid with
    | none => s
    | some k =>
      let one := fun (n : Nat) => ((g.slice n).endLanes (maskOf fun l => ls.contains (4 * n + l))).settle
      if k.slices.any fun n => (one n).2 then
        (match s.team g.team with | some t => s.countErr t.core 4 | none => s).containedFault gid
          { cls := 3, cause := 0x41, addr := 0, aux := 0, serial := g.serial, team := (match s.team g.team with | some t => t.index | none => 0)
            clause := (match k.clause with | some c => c.hdr | none => 0), islot := (match k.clause with | some c => c.slot | none => 0)
            gslot := g.slot, group := g.index, core := (match s.team g.team with | some t => t.core | none => 0), tag := 0xFF
            exited := false, precise := true, engine := 0, slices := sliceMask k.slices, opa := 0, opb := 0 }
      else
        let stay := k.slices.filter fun n => (one n).1.active != 0 && (one n).1.pc == (g.slice n).pc && !((one n).1.popDone && !(g.slice n).popDone)
        let s := s.modGroup gid fun g =>
          let g := k.slices.foldl (fun (g : Group) n => g.modSlice n fun _ => (one n).1.sign g.inHandler none 0) g
          let g := { g with rets := ls.foldl (fun (t : Tab (List Dword)) l => t.del l) g.rets }
          (g.split kid stay).leaveHandler s.cycle
        match s.group gid with
        | some g => if g.gangs.isEmpty then s.endGroup gid else s.closeWindows gid
        | none => s

/-- Retire a waiting RELGRP or RELJOIN: its issue record is freed. -/
def State.retireRel (s : State) (gid kid core tag op : Nat) (ls : List Nat) (f : Nat → Word) : State :=
  (s.modGroup gid fun g => (g.modGang kid fun k => { k with wait := .no, since := s.cycle }).retire kid s.cycle (some op) 0 false
    (some (ls, f))).unrefFor gid core (some tag)

/-- The end of a RELGRP on a live population that is GROUPED, or on one that gives nothing (R44): survivors take their rows, merged
lanes end, the others receive 0. Where vD is one of the column registers, gcount is what it keeps (log 74). -/
def State.endLive (s : State) (gid kid core tag d : Nat) (ls : List Nat) (x : Handle) : State :=
  let at_ := fun (l : Nat) => if x.state = .grouped then x.entered.findIdx? (· == (gid, l)) else none
  let heads := x.survivors
  let gone := ls.filter fun l => match at_ l with | some i => !heads.contains i | none => false
  let stay := ls.filter fun l => !gone.contains l
  let out := fun (l : Nat) => match at_ l with
    | some i => if heads.contains i then BitVec.ofNat 32 (rowCount (x.image.getD i 0)) else 0
    | none => (0 : Word)
  let dd := x.desc.toNat
  let s := s.modGroup gid fun g => stay.foldl (fun (g : Group) l =>
    match at_ l with
    | none => g.setReg d l 0
    | some i =>
      let r := x.image.getD i 0
      let g := (List.range (relNcol dd)).foldl (fun (g : Group) c => g.setReg (colReg dd c) l (BitVec.ofNat 32 (rowCol r c))) g
      (g.setReg d l (out l)).raise kid (x.flags.getD i 0)) g
  let s := s.retireRel gid kid core tag 0x212 ls out
  if gone.isEmpty then s else s.endLanesAt gid kid gone

/-- The report of a fault of the relation engine under a tag (R50, R186, R194). -/
def State.relReport (s : State) (gid core tag : Nat) (slices : List Nat) (cls cause addr aux : Nat) : Report :=
  match s.recordFor gid core (some tag) with
  | some r => { r.report core tag cls cause addr aux 3 with slices := sliceMask slices }
  | none =>
    { cls := cls, cause := cause, addr := addr, aux := aux, serial := 0, team := 0, clause := 0, islot := 0, gslot := 0
      group := 0, core := core, tag := tag, exited := false, precise := true, engine := 3
      slices := sliceMask slices, opa := 0, opb := 0 }

/-- What the engine's accesses came to, if they failed: a halting fault, after which the gang waits on; a contained fault of the
group; or a wait for a page that is being copied (R50, R51, R119, R201). -/
def State.relFail (s : State) (gid core ctx tag : Nat) (slices : List Nat) (r : EngAcc) : State :=
  match r with
  | .ok _ | .held => s
  | .fault c a => s.raiseHalt ctx .relation (s.relReport gid core tag slices 1 c a 0)
  | .bad a x =>
    if (s.ctx ctx).line.isSome then s
    else s.containedFault gid (s.relReport gid core tag slices 3 0x40 a x)

/-- The end of a RELGRP on a record population that is GROUPED: the survivors go to the output, if they fit (R44). The output's descriptor,
checked at issue, is read here again as it then stands (log 75); a grouping that is written again raises its folds' flags in this
group too (log 76). -/
def State.endRecord (s : State) (gid kid core tag d o : Nat) (ls : List Nat) (slices : List Nat) (x : Handle) : State :=
  match s.group gid with
  | none => s
  | some g =>
    match s.team g.team with
    | none => s
    | some t =>
      let od := t.spadRead o 64
      let rows := x.survivors.map fun i => x.image.getD i 0
      let fit := decide (rows.length ≤ relCap od)
      let n : Word := if fit then BitVec.ofNat 32 rows.length else 0
      match s.relOut gid core g.ctx g.team (relSpace od) (relBase od) (if fit then 64 * rows.length else 0) (packRows rows) with
      | (s, .ok _) =>
        let fl := x.flags.foldl (fun (w : Word) e => w ||| e.2) 0
        (s.modGroup gid fun g => (g.setRegs d ls fun _ => n).raise kid fl).retireRel gid kid core tag 0x212 ls fun _ => n
      | (s, r) => s.relFail gid core g.ctx tag slices r

/-- The gangs that wait for a grouping of a handle: group, gang, core. In deterministic mode the commit at which a wait ends does not
depend on whether the gang's team is on its core (R51, R181). -/
def State.relWaiters (s : State) (h : HRef) : List (Nat × Group × Gang × Nat) :=
  s.groups.flatMap fun (e : Nat × Group) =>
    match s.team e.2.team with
    | some t =>
      if t.residence != .resident && !(s.ctx e.2.ctx).det then []
      else (e.2.gangs.filter fun k => match k.wait with | .relgrp x .. => x == h | _ => false).map fun k => (e.1, e.2, k, t.core)
    | none => []

/-- End the waits of RELGRP on a handle that has left OPEN and SEALED; each follows every engine write of the population (R44). -/
def State.endRelgrps (s : State) (h : HRef) : State :=
  (s.relWaiters h).foldl (fun (s : State) w =>
    let (gid, _, k, core) := w
    match k.wait with
    | .relgrp _ tag d o lanes =>
      let x := s.handle h
      let s := s.modCore core fun k => { k with pts := max k.pts x.ts }
      if x.state = .grouped && !x.live then s.endRecord gid k.id core tag d o (lanesOf lanes) k.slices x
      else s.endLive gid k.id core tag d (lanesOf lanes) x
    | _ => s) s

/-- The relation engine of a core works for a context: no halt has stopped it (R187). -/
def State.relRuns (s : State) (core c : Nat) : Bool :=
  let x := s.ctx c
  x.alive && !x.halted && (x.line.isNone || x.serving.contains (core, .relation))

/-- The grouping that waiting gangs have asked for is computed, and their waits end (R43, R44). Rows that stand in a log still are not there to
be read: the wait goes on to a later commit (R180). -/
def State.groupFor (s : State) (h : HRef) : State :=
  match s.relWaiters h with
  | [] => s
  | (gid, g, k, core) :: _ =>
    match k.wait with
    | .relgrp _ tag _ _ _ =>
      if !s.relRuns core g.ctx || (s.handle h).logged then s
      else
        match (s.handle h).state with
        | .opened => s
        | .sealed =>
          (match s.computeGroups gid core g.ctx h with
            | (s, .ok _) => s.endRelgrps h
            | (s, r) => s.relFail gid core g.ctx tag k.slices r)
        | _ => s.endRelgrps h
    | _ => s

/-- Whether the gangs that wait on a handle run in deterministic mode, where only commits look (R180). -/
def State.relDet (s : State) (h : HRef) : Bool := (s.relWaiters h).any fun w => (s.ctx w.2.1.ctx).det

/-- The waits on a handle that has just left OPEN without a grouping end; in deterministic mode at the next commit (R44, R180). -/
def State.leaveOpen (s : State) (h : HRef) : State := if s.relDet h then s else s.endRelgrps h

/-! ### Meanings: RELENT, RELSEAL, RELSTAT, RELGRP -/

/-- RELENT (R39, R41, R363, R364). A handle that is neither OPEN nor IDLE refuses before anything of the descriptor or the key is checked
(log 77). -/
def execRelent (d : BitVec 10) (k p : Src) (h : Hnd) (gd : Guard) (s : State) : Host.Outcome State Fault Refusal :=
  issue (.relent d k p h gd) s fun v s =>
    match v.lanes gd with
    | [] => .ok s (some ([], fun _ => 0))
    | l :: rest =>
      let ls := l :: rest
      let hr := v.href h
      let x := s.handle hr
      let s := s.modGroup v.gid (·.impure)
      if x.state != .idle && x.state != .opened then v.giveAll s d ls fun _ => 0xFFFFFFFE
      else
        let off := (v.src p l).toNat
        match v.entDesc s h off ls with
        | .error e => e.res
        | .ok dd =>
          if relKeyw dd && !pairSrc k then .trap 0x2B 0
          else
            let x := if x.state = .idle then { Handle.fresh with state := .opened, live := true, desc := BitVec.ofNat 512 dd, off := off, opener := v.g.team }
                     else x
            let n := x.rows + ls.length
            if relCap dd < n || (relMembers dd != 0 && decide (relMembers dd < n)) then
              v.giveAll ((s.setHandle hr { x with state := .unsealable }).leaveOpen hr) d ls fun _ => 0xFFFFFFFF
            else
              let key := fun (l : Nat) => srcVal v.g v.c k (relKeyw dd) l
              let rows := ls.map fun l => v.row dd (key l) l
              match s.relOut v.gid v.t.core v.g.ctx x.opener (relSpace dd) (relBase dd + 64 * x.rows) (64 * ls.length) (packRows rows) with
              | (_, .fault c a) => .halt c a
              | (_, .bad a x) => .contained 0x40 a x
              | (s, .held) => .hold s
              | (s, .ok _) =>
                let full := relMembers dd != 0 && n == relMembers dd
                let s := s.setHandle hr { x with
                  state := if full then .sealed else .opened
                  rows := n
                  ts := max x.ts (s.core v.t.core).pts
                  logged := x.logged || v.x.det
                  entered := x.entered ++ ls.map fun l => (v.gid, l) }
                v.giveAll s d ls fun l => BitVec.ofNat 32 (x.rows + (ls.findIdx? (· == l)).getD 0)

/-- RELSEAL.SEAL (R40, R50). -/
def execRelsealSeal (d : BitVec 10) (h : Hnd) (gd : Guard) (s : State) : Host.Outcome State Fault Refusal :=
  issue (.relsealSeal d h gd) s fun v s =>
    match v.lanes gd with
    | [] => .ok s (some ([], fun _ => 0))
    | ls =>
      let hr := v.href h
      let x := s.handle hr
      let s := if x.state = .opened then s.setHandle hr { x with state := .sealed } else s
      v.giveAll s d ls fun _ => (s.handle hr).status

/-- RELSEAL.REC (R38, R40, R50): a release, after every earlier store of the core. -/
def execRelsealRec (d : BitVec 10) (n p : Src) (h : Hnd) (gd : Guard) (s : State) : Host.Outcome State Fault Refusal :=
  issue (.relsealRec d n p h gd) s fun v s =>
    match v.lanes gd with
    | [] => .ok s (some ([], fun _ => 0))
    | l :: rest =>
      let hr := v.href h
      let off := (v.src p l).toNat
      if (s.handle hr).state != .idle then .trap 0x2B 0
      else
        match v.openDesc s h off with
        | .error e => e.res
        | .ok dd =>
          let m := (v.src n l).toNat
          if relCap dd < m then .trap 0x2B 0
          else
            match v.coreDrained s with
            | none => .hold s
            | some s =>
              let s := (s.modGroup v.gid (·.impure)).setHandle hr { Handle.fresh with
                state := .sealed, desc := BitVec.ofNat 512 dd, off := off, opener := v.g.team, rows := m }
              match s.useRows v.t.core v.g.ctx hr with
              | (s, .ok _) => v.giveAll s d (l :: rest) fun _ => (s.handle hr).status
              | (_, .fault c a) => .halt c a
              | (_, .bad a x) => .contained 0x40 a x
              | (_, .held) => .hold s

/-- RELSEAL.FREE (R35, R38). -/
def execRelsealFree (d : BitVec 10) (h : Hnd) (gd : Guard) (s : State) : Host.Outcome State Fault Refusal :=
  issue (.relsealFree d h gd) s fun v s =>
    match v.lanes gd with
    | [] => .ok s (some ([], fun _ => 0))
    | ls =>
      let hr := v.href h
      let s := if (s.handle hr).held = 0 then (s.freeHandle hr).leaveOpen hr else s
      v.giveAll s d ls fun _ => (s.handle hr).status

/-- RELSTAT (R48). -/
def execRelstat (d : BitVec 10) (h : Hnd) (gd : Guard) (s : State) : Host.Outcome State Fault Refusal :=
  issue (.relstat d h gd) s fun v s =>
    match v.lanes gd with
    | [] => .ok s (some ([], fun _ => 0))
    | ls => v.giveAll s d ls fun _ => (s.handle (v.href h)).status

/-- RELGRP (R43, R44): the gang waits for the grouping; in deterministic mode a handle that is no longer OPEN is grouped at once. -/
def execRelgrp (d : BitVec 10) (o : Src) (h : Hnd) (gd : Guard) (s : State) : Host.Outcome State Fault Refusal :=
  issue (.relgrp d o h gd) s fun v s =>
    match v.lanes gd with
    | [] => .ok s (some ([], fun _ => 0))
    | l :: rest =>
      let ls := l :: rest
      let hr := v.href h
      let x := s.handle hr
      let off := (v.src o l).toNat
      let bad := if x.live || !x.state.whole then none
        else match v.relDesc off 64 with
          | .error e => some e
          | .ok od => if descBad od v.g.budget then some (.trap 0x2B) else none
      match bad with
      | some e => e.res
      | none =>
        match s.openTag v (.relgrp d o h gd) 1 with
        | none => .hold s
        | some (s, tag) =>
          let s := (s.modGroup v.gid (·.impure)).park v.gid v.kid (.relgrp hr tag d.toNat off (BitVec.ofNat 32 (lanesMask ls)))
          match x.state with
          | .opened => .hold (s.setHandle hr { x with asked := true })
          | .sealed =>
            let s := s.setHandle hr { x with asked := true }
            .hold (if v.x.det then s.groupFor hr else s)
          | .grouped => .hold (if v.x.det || x.live then s.endRelgrps hr else s)
          | _ => .hold (s.endRelgrps hr)

/-- RELATION_GROUPING: the engine computes a grouping that has been asked for, and the waits on the handle end (R43, R44). -/
def execRelationGrouping (h : HRef) (s : State) : Host.Outcome State Fault Refusal :=
  .next (if s.relDet h then s else s.groupFor h)

/-! ### RELJOIN (R45, R46) -/

/-- The join descriptor's fields. -/
def joinSpace (w : Nat) : Bool := bit w 139
def joinSerial (w : Nat) : Nat := bits w 138 128
def joinEntry (w : Nat) : Nat := bits w 127 96
def joinCap (w : Nat) : Nat := bits w 95 64
def joinPairs (w : Nat) : Nat := bits w 63 0

/-- Columns that a handle's population has. -/
def Handle.ncol (h : Handle) : Nat := if h.state = .idle then 0 else relNcol h.desc.toNat

/-- The join descriptor, checked with the handles (R45, R50). -/
def View.joinDesc (v : View) (s : State) (off : Nat) (hl hr : HRef) : Except RelStop Nat :=
  match v.relDesc off 32 with
  | .error e => .error e
  | .ok w =>
    let a := s.handle hl
    let b := s.handle hr
    let widths := a.state != .idle && b.state != .idle && relKeyw a.desc.toNat != relKeyw b.desc.toNat
    if bits w 255 140 != 0 || joinEntry w % 8 != 0 || joinPairs w % 8 != 0 || widths || v.t.serials.contains (joinSerial w)
        || decide (v.g.budget < 2 + a.ncol + b.ncol) then .error (.trap 0x2B)
    else .ok w

/-- The rows of a side of a join, by position, in the order (key, rank): the survivors of a GROUPED handle, all rows of a SEALED
one. -/
def Handle.side (h : Handle) : List Nat := if h.state = .grouped then h.survivors else rowOrder h.image

/-- The matching pairs of two populations, keys ascending, left rows before right rows by rank (R45). -/
def pairsOf (a b : Handle) : List (Nat × Nat) :=
  a.side.flatMap fun i => (b.side.filter fun j => rowKey (b.image.getD j 0) == rowKey (a.image.getD i 0)).map fun j => (i, j)

/-- The registers of a spawned lane (R46). -/
def spawnLane (a b : Handle) (p : Nat × Nat) : SpawnLane :=
  let ra := a.image.getD p.1 0
  let rb := b.image.getD p.2 0
  let key := if relKeyw a.desc.toNat then rowKey ra else rowKey ra % 2 ^ 32
  { key := BitVec.ofNat 64 key
    left := (List.range a.ncol).map fun c => BitVec.ofNat 32 (rowCol ra c)
    right := (List.range b.ncol).map fun c => BitVec.ofNat 32 (rowCol rb c) }

/-- One more spawn entry holds a handle, or one fewer. -/
def State.holdHandle (s : State) (h : HRef) (f : Nat → Nat) : State :=
  let x := s.handle h
  s.setHandle h { x with held := f x.held }

/-- The reason code of a join, zero if it succeeds (R45). -/
def joinCode (a b : Handle) (count cap spawns : Nat) : Nat :=
  if !a.state.whole then 1
  else if !b.state.whole then 2
  else if cap < count then 3
  else if 2 ^ 20 < count then 4
  else if 0 < count && decide (16 ≤ spawns) then 5
  else 0

/-- Both handles have left OPEN: the pairs are found and written and the spawns queued, or the reason is returned. The end of the wait is an
acquire: the joiner's core follows every engine write and read of both populations (R130, R364). -/
def State.runJoin (s : State) (v : View) (w : Nat) (hl hr : HRef) (tag d : Nat) (ls : List Nat) : State :=
  let core := v.t.core
  let use := fun (s : State) (h : HRef) => if (s.handle h).state.whole then s.useRows core v.g.ctx h else (s, .ok 0)
  match use s hl with
  | (s, .ok _) =>
    (match use s hr with
      | (s, .ok _) =>
        let a := s.handle hl
        let b := s.handle hr
        let ps := if a.state.whole && b.state.whole then pairsOf a b else []
        let code := joinCode a b ps.length (joinCap w) v.t.spawns.length
        let done := fun (s : State) (x : Word) =>
          ((s.modCore core fun k => { k with pts := max k.pts (max a.ts b.ts) }).modGroup v.gid fun g => g.setRegs d ls fun _ => x).retireRel v.gid v.kid core tag 0x213 ls fun _ => x
        if code != 0 then done s (BitVec.ofNat 32 (0x80000000 + code))
        else
          let data := ps.foldr (fun p n => p.1 + p.2 * 2 ^ 32 + 2 ^ 64 * n) 0
          match s.relOut v.gid core v.g.ctx v.g.team (joinSpace w) (joinPairs w) (8 * ps.length) data with
          | (s, .ok _) =>
            let s := s.modTeam v.g.team fun t => { t with serials := t.serials ++ [joinSerial w] }
            let s := if ps.isEmpty then s
              else
                let sp : Spawn := ⟨ps.map (spawnLane a b), 0, joinSerial w, joinEntry w, v.g.budget, v.g.dclock, hl, hr⟩
                ((s.holdHandle hl (· + 1)).holdHandle hr (· + 1)).modTeam v.g.team fun t => { t with spawns := t.spawns ++ [sp] }
            done s (BitVec.ofNat 32 ps.length)
          | (s, r) => s.relFail v.gid core v.g.ctx tag v.k.slices r
      | (s, r) => s.relFail v.gid core v.g.ctx tag v.k.slices r)
  | (s, r) => s.relFail v.gid core v.g.ctx tag v.k.slices r

/-- The view of a gang. -/
def State.viewOf (s : State) (gid kid : Nat) : Option View := { s with focus := some (gid, kid) }.view

/-- The instruction at which a gang stands. -/
def View.instrOf (v : View) : Option Instr := wordOf v.c (v.c.words.getD v.c.slot 0)

/-- A gang that waits in a RELJOIN looks at its handles (R45). When the join descriptor is read R45 does not say: the model's choice is that it is
checked at issue and that the join goes by what it reads here, at the end of the wait, where it checks it again (log 75). -/
def State.tryJoin (s : State) (gid kid : Nat) : State :=
  match s.viewOf gid kid with
  | none => s
  | some v =>
    match v.k.wait with
    | .reljoin hl hr tag d j lanes =>
      if (s.handle hl).state = .opened || (s.handle hr).state = .opened || (s.handle hl).logged || (s.handle hr).logged
          || !s.relRuns v.t.core v.g.ctx
          || (v.t.residence != .resident && !v.x.det) then s
      else
        match v.joinDesc s j hl hr with
        | .ok w => s.runJoin v w hl hr tag d (lanesOf lanes)
        | .error e =>
          -- the descriptor or a handle has changed during the wait: the gang takes the fate of R50 now
          let s := s.unrefFor gid v.t.core (some tag)
          match v.instrOf, e with
          | some i, .trap c => s.takeTrap v i c 0
          | some i, .halt c a => s.haltGang v i c a
          | none, _ => s
    | _ => s

/-- RELJOIN (R45, R50, R363). -/
def execReljoin (d : BitVec 10) (j : Src) (hl hr : Hnd) (gd : Guard) (s : State) : Host.Outcome State Fault Refusal :=
  issue (.reljoin d j hl hr gd) s fun v s =>
    match v.lanes gd with
    | [] => .ok s (some ([], fun _ => 0))
    | l :: rest =>
      let off := (v.src j l).toNat
      match v.joinDesc s off (v.href hl) (v.href hr) with
      | .error e => e.res
      | .ok _ =>
        match s.openTag v (.reljoin d j hl hr gd) 1 with
        | none => .hold s
        | some (s, tag) =>
          let s := (s.modGroup v.gid (·.impure)).park v.gid v.kid
            (.reljoin (v.href hl) (v.href hr) tag d.toNat off (BitVec.ofNat 32 (lanesMask (l :: rest))))
          .hold (if v.x.det then s.tryJoin v.gid v.kid else s)

/-- RELJOIN_PAIRS: a gang's join is carried out once both handles have left OPEN (R45); in deterministic mode only commits look. -/
def execReljoinPairs (grp gang : Nat) (s : State) : Host.Outcome State Fault Refusal :=
  .next (match s.group grp with
    | some g => if (s.ctx g.ctx).det then s else s.tryJoin grp gang
    | none => s)

/-! ### RELMRG (R47) -/

/-- The areas of a merge: stream A, stream B, output, counts. -/
def mrgAreas (w : Nat) : List (Nat × Nat) :=
  [(bits w 63 0, 8 * bits w 95 64), (bits w 159 96, 8 * bits w 191 160), (bits w 255 192, 8 * bits w 287 256),
   (bits w 351 288, 4 * bits w 383 352)]

/-- Whether a merge descriptor is misuse (R47, R50). -/
def mrgBad (w : Nat) : Bool :=
  bits w 511 488 != 0 || bits w 447 397 != 0 || !foldLegal (bits w 392 389) (bits w 394 393) || bits w 63 0 % 8 != 0
    || bits w 159 96 % 8 != 0 || bits w 255 192 % 8 != 0 || (bits w 383 352 != 0 && bits w 351 288 % 4 != 0)

/-- Keys that do not decrease. -/
def sorted : List (Nat × Nat) → Bool
  | [] => true
  | [_] => true
  | a :: b :: t => decide (a.1 ≤ b.1) && sorted (b :: t)

/-- The elements of a stream. -/
def elements (v n : Nat) : List (Nat × Nat) := (unpack 64 v n).map fun x => (x % 2 ^ 32, x / 2 ^ 32)

/-- What a merge comes to: status, stored elements, flags (R47). -/
def mergeOf (w : Nat) (a b : List (Nat × Nat)) : Nat × List (Nat × Nat) × Word :=
  let op := bits w 392 389
  let ty := bits w 394 393
  let nseg := bits w 383 352
  let all := sortBy (fun (x y : Nat × Nat) => decide (x.1 ≤ y.1)) (a ++ b)
  let runs := runsBy (fun i => (all.getD i (0, 0)).1) (List.range all.length)
  let one := fun (run : List Nat) =>
    let r := foldVals op ty (run.map fun i => BitVec.ofNat 32 (all.getD i (0, 0)).2)
    let zero := if ty = 2 then r.1 &&& 0x7FFFFFFF == 0 else r.1 == 0
    let drop := !bit w 395 && decide (2 ≤ run.length) && (op == 2 || op == 8) && zero
    ((all.getD (run.headD 0) (0, 0)).1, r.1.toNat, r.2, drop)
  let rs := runs.map one
  let out := (rs.filter fun r => !r.2.2.2).map fun r => (r.1, r.2.1)
  let st :=
    if !sorted a then 1
    else if !sorted b then 2
    else if bits w 287 256 < out.length then 3
    else if nseg != 0 && out.any (fun e => decide (nseg ≤ e.1 / 2 ^ bits w 388 384)) then 4
    else 0
  (st, if st = 0 then out else [], if st = 0 then rs.foldl (fun (f : Word) r => f ||| r.2.2.1) 0 else 0)

/-- The writes of a merge: output, counts (both in the merge's space), then result and status in .S (R47). -/
def mergeWrites (w desc : Nat) (r : Nat × List (Nat × Nat) × Word) : List (Nat × Nat × Nat) × List (Nat × Nat × Nat) :=
  let n := r.2.1.length
  let nseg := bits w 383 352
  let data := r.2.1.foldr (fun e m => e.1 + e.2 * 2 ^ 32 + 2 ^ 64 * m) 0
  let cnt := (List.range nseg).map fun i => (r.2.1.filter fun e => e.1 / 2 ^ bits w 388 384 == i).length
  let cdata := cnt.foldr (fun c m => c + 2 ^ 32 * m) 0
  let body := if r.1 != 0 then [] else
    [(bits w 255 192, 8 * n, data), (bits w 351 288, 4 * nseg, cdata)].filter fun x => x.2.1 != 0
  let res := if r.1 = 0 then n else 0
  (body, [(desc + 56, 4, res), (desc + 60, 1, r.1)])

/-- Run a merge: read the streams, check, and keep the writes for the completion. -/
def State.mergeRun (s : State) (core : Nat) (o : EngOp) : State × EngOp × EngAcc :=
  let w := o.data.toNat
  let sp := bit w 396
  match s.relGet core o.ctx o.team sp (bits w 63 0) (8 * bits w 95 64) with
  | (s, .ok va) =>
    (match s.relGet core o.ctx o.team sp (bits w 159 96) (8 * bits w 191 160) with
      | (s, .ok vb) =>
        let r := mergeOf w (elements va (bits w 95 64)) (elements vb (bits w 191 160))
        let (body, res) := mergeWrites w o.desc r
        let o := { o with m := r.2.1.length, status := r.1, g := r.2.2.toNat, ran := true }
        if sp then (s, { o with out := body ++ res }, .ok 0)
        else
          let pre := body.foldl (fun (acc : State × Option EngAcc) x =>
            match acc with
            | (s, some e) => (s, some e)
            | (s, none) =>
              match s.engTrans core o.ctx true (x.2.1 / 4096 + 2) x.1 x.2.1 with
              | (s, .error e) => (s, some e)
              | (s, .ok ps) => (s, if !(s.ctx o.ctx).det && s.lockedIn ps then some .held else none)) (s, none)
          match pre with
          | (s, some e) => (s, o, e)
          | (s, none) =>
            let (s, o) := body.foldl (fun (acc : State × EngOp) x =>
              let (s, o, _) := acc.1.engWrite core acc.2 x.1 x.2.1 x.2.2
              (s, o)) (s, o)
            (s, { o with out := res }, .ok 0)
      | (s, r) => (s, o, r))
  | (s, r) => (s, o, r)

/-- RELMRG (R47, R50, R363): queued on the core's engines; the tiles it names are on the engine side already. -/
def execRelmrg (d : BitVec 10) (m : Src) (sb : BitVec 3) (gd : Guard) (s : State) : Host.Outcome State Fault Refusal :=
  issue (.relmrg d m sb gd) s fun v s =>
    match v.lanes gd with
    | [] => .ok s none
    | l :: rest =>
      let off := (v.src m l).toNat
      if v.t.window ≤ off then .halt 0x03 off
      else if off % 64 != 0 then .trap 0x2B 0
      else if !v.t.inWindow off 64 then .halt 0x03 off
      else if (tilesOf off 64).any fun t => !v.t.engineSide t then .trap 0x2C 0
      else
        let w := v.t.spadRead off 64
        if mrgBad w then .trap 0x2B 0
        else
          let areas := if bit w 396 then (mrgAreas w).filter fun r => r.2 != 0 else []
          match areas.find? fun r => !v.t.inWindow r.1 r.2 with
          | some r => .halt 0x03 r.1
          | none =>
            let tiles := nodup ((tilesOf off 64) ++ areas.flatMap fun r => tilesOf r.1 r.2)
            if tiles.any fun t => !v.t.engineSide t then .trap 0x2C 0
            else
              let lanes := BitVec.ofNat 32 (lanesMask (l :: rest))
              match v.startEng s (.relmrg d m sb gd) sb true fun id tag =>
                  v.engOp id tag sb .relmrg tiles off (BitVec.ofNat 512 w) lanes d.toNat with
              | .ok s lat =>
                if v.x.det then
                  match s.engOpOf v.t.core (s.nextUid - 1) with
                  | some o =>
                    (match s.mergeRun v.t.core o with
                      | (s, o, .ok _) => .ok (s.setEng v.t.core o) lat
                      | _ => .ok s lat)
                  | none => .ok s lat
                else .ok s lat
              | r => r

/-- A merge completes: the executing lanes receive the count, the flags go to %fstat, then the writes, flips and the scoreboard
(R42, R47). -/
def State.mergeDone (s : State) (core : Nat) (o : EngOp) : State :=
  let n : Word := if o.status = 0 then BitVec.ofNat 32 o.m else 0xFFFFFFFF
  let s := s.modGroup o.grp fun g =>
    let g := (lanesOf o.lanes).foldl (fun (g : Group) l => g.arriveReg o.d l n) g
    { g with fstat := g.fstat ||| BitVec.ofNat 32 o.g }
  if (s.ctx o.ctx).det then s.finishDet core o else s.finishEng core o

/-- RELMRG_COMPLETE (R47). -/
def State.mergeComplete (s : State) (core id : Nat) : State :=
  match s.engOpOf core id with
  | none => s
  | some o =>
    if o.kind != .relmrg || !o.started || o.isOver || o.faulted || !s.relRuns core o.ctx then s
    else if o.ran then s.mergeDone core o
    else
      match s.mergeRun core o with
      | (s, o, .ok _) => s.mergeDone core o
      | (s, _, .fault c a) => s.engFault core o .relation c a
      | (s, _, .bad a x) => s.engBad core o .relation a x
      | (s, _, .held) => s

def execRelmrgComplete (core id : Nat) (s : State) : Host.Outcome State Fault Refusal := .next (s.mergeComplete core id)

end Sys2Proof.Machine
end

