-- ==== Sys2Proof/Machine/Sys.lean ====
section
/-! DEFINITION. SYS: traps by TRAP and RTT, special registers, PMOFF regions, flush probes, translation invalidation, notices, and the
maintenance instructions (R61, R62, R136, R176, R190, R197, R198, R208, R212 to R216, R279, R280, R315, R324, R351, R353, R366,
R373, R374, R378 to R381, R383). -/
namespace Sys2Proof.Machine

/-! ### Traps -/

/-- TRAP (R380). -/
def execTrap (imm : BitVec 22) (gd : Guard) (s : State) : Host.Outcome State Fault Refusal :=
  issue (.trap imm gd) s fun v s => if (v.lanes gd).isEmpty then .ok s none else .trap 0x20 imm.toNat

/-- Whether a slice may return from the handler: it runs it, at the depth of its entry (R190). -/
def Slice.mayReturn (sl : Slice) : Bool :=
  match sl.trap with
  | some t => sl.stack.length == t.depth
  | none => false

/-- RTT (R190, R366): its word counts as retired, then each slice goes on where the trap had stopped it. -/
def execRtt (s : State) : Host.Outcome State Fault Refusal :=
  issue .rtt s fun v s =>
    if v.k.slices.all fun n => (v.g.slice n).mayReturn then
      .hold (s.modGroup v.gid fun g => (g.countWord v.k).returnFromTrap v.k s.cycle)
    else .halt 0x05 0

/-! ### Special registers (R61) -/

/-- A mask of context numbers as a number. -/
def State.ctxMask (s : State) (p : Ctx → Bool) : Nat :=
  (s.ctxs.filter fun (e : Nat × Ctx) => p e.2).foldl (fun m e => m + 2 ^ e.1) 0

/-- Whether a register is privileged (R61). -/
def srPriv (num : Nat) : Bool := decide (0x40 ≤ num) && decide (num ≤ 0x43)

/-- What the device says a privileged register shows (R61, R176, R218). -/
def State.privNow (s : State) (core num : Nat) : Dword :=
  match num with
  | 0x40 => BitVec.ofNat 64 (s.ctxMask fun x => x.alive && !x.dead)
  | 0x41 => BitVec.ofNat 64 (s.ctxMask (·.dead))
  | 0x42 => BitVec.ofNat 64 ((s.dev.queue.length + s.dev.heldNotices.length) % 2 ^ 32)
  | _ => (s.dev.tempc.getD core 0).setWidth 64

/-- A privileged register's key: %tempc is of core scope, the others of the device's. -/
def privKey (core num : Nat) : Nat := if num = 0x43 then num + 256 * core else num

/-- A privileged register as a maintenance context reads it: what SRSET has written stands until the device's own value changes (R4: PRIV is
read and write there; which of the two a read shows is the model's choice, log 79). -/
def State.privReg (s : State) (core num : Nat) : Dword :=
  match s.dev.privSet.look (privKey core num) with
  | some (w, was) => if was = s.privNow core num then w else s.privNow core num
  | none => s.privNow core num

/-- SRSET of a privileged register in a maintenance context (R4). -/
def State.privWrite (s : State) (core num : Nat) (w : Dword) : State :=
  let w := if srWide num then w else (w.truncate 32 : Word).setWidth 64
  { s with dev := { s.dev with privSet := s.dev.privSet.put (privKey core num) (w, s.privNow core num) } }

/-- A special register as a lane reads it; privileged ones read zero outside a maintenance context. -/
def View.sreg (v : View) (s : State) (num l : Nat) : Dword :=
  match num with
  | 0x08 => v.g.lclock
  | 0x09 => BitVec.ofNat 64 s.cycle
  | 0x0A => v.g.accw.setWidth 64
  | 0x0B => v.g.fstat.setWidth 64
  | 0x0C => v.g.trapinfo.setWidth 64
  | 0x0D => (v.g.slice (l / 4)).sig.setWidth 64
  | 0x0E => BitVec.ofNat 64 v.x.wu
  | 0x0F => BitVec.ofNat 64 (v.g.rank l)
  | 0x40 | 0x41 | 0x42 | 0x43 => if v.x.maint then s.privReg v.t.core num else 0
  | n => (v.special s n l).setWidth 64

/-- SRGET (R61, R373). -/
def execSrget (d : BitVec 10) (num : BitVec 8) (gd : Guard) (s : State) : Host.Outcome State Fault Refusal :=
  issue (.srget d num gd) s fun v s =>
    let ls := v.lanes gd
    let f := v.sreg s num.toNat
    .ok (s.modGroup v.gid fun g =>
        if srWide num.toNat then g.setPairs d.toNat ls f else g.setRegs d.toNat ls fun l => (f l).truncate 32)
      (some (ls, fun l => (f l).truncate 32))

/-- SRSET (R4, R61, R374): %fstat from the lowest executing lane, %sigreg per slice, a privileged register from the lowest executing lane in a
maintenance context; other writes are ignored. -/
def execSrset (num : BitVec 8) (a : Src) (gd : Guard) (s : State) : Host.Outcome State Fault Refusal :=
  issue (.srset num a gd) s fun v s =>
    let ls := v.lanes gd
    match ls with
    | [] => .ok s none
    | l :: _ =>
      if num = 0x0B then .ok (s.modGroup v.gid fun g => { g with fstat := fstatWrite (v.src a l) }) none
      else if num = 0x0D then
        .ok (s.modGroup v.gid fun g => v.k.slices.foldl (fun (g : Group) n =>
          match ls.filter fun l => l / 4 == n with
          | [] => g
          | l :: _ => g.modSlice n fun sl => { sl with sig := v.src a l }) g) none
      else if srPriv num.toNat && v.x.maint then
        .ok (s.privWrite v.t.core num.toNat (BitVec.ofNat 64 (srcVal v.g v.c a (srWide num.toNat) l))) none
      else .ok s none

/-! ### PMOFF regions (R197, R351) -/

def execPmoff (s : State) : Host.Outcome State Fault Refusal :=
  issue .pmoff s fun v s =>
    .ok (s.modGroup v.gid fun g => if g.pmoff.isSome then g else { g with pmoff := some s.cycle }) none

def execPmon (s : State) : Host.Outcome State Fault Refusal :=
  issue .pmon s fun v s => .ok (s.modGroup v.gid fun g => { g with pmoff := none, overrun := false }) none

/-! ### FLUSHP (R136, R324) -/

/-- Whether the context has a request on the host port or a link that has not been acknowledged. -/
def State.outstanding (s : State) (ctx : Nat) : Bool := s.cores.any fun (e : Nat × Core) => e.2.yq.any fun y => y.op.ctx == ctx

def execFlushp (sb : BitVec 3) (gd : Guard) (s : State) : Host.Outcome State Fault Refusal :=
  issue (.flushp sb gd) s fun v s =>
    let awaits := fun (s : State) => s.modGang v.gid v.kid fun k => { k with alsoWait := some sb.toNat }
    if (v.lanes gd).isEmpty then .ok s none
    else if (s.core v.t.core).rq.any fun o => o.grp == v.gid && o.port.isSome then .hold s
    else if !s.outstanding v.g.ctx then .ok (awaits s) none
    else
      match s.queueUp v (.flushp sb gd) (some sb) with
      | none => .hold s
      | some (s, tag) =>
        let o := v.op s.nextUid tag (some sb) .store 0 [] 0
        .ok (awaits (s.fresh.1.modCore v.t.core fun k => { k with probes := k.probes ++ [o] })) none

/-! ### Translation invalidation (R117, R378, R379) -/

/-- What a TLBINV names: one context or all, and a range of virtual addresses. -/
structure InvRange where
  ctx : Option Nat
  lo : Nat
  hi : Nat
deriving DecidableEq, Repr

/-- A range rounded out to 64 KiB; a size of 0 is the whole space (R378). -/
def invRange (ctx : Option Nat) (va size : Nat) : InvRange :=
  if size = 0 then ⟨ctx, 0, 2 ^ 57⟩ else ⟨ctx, va / 65536 * 65536, (va + size + 65535) / 65536 * 65536⟩

/-- Whether a range of a context falls under an invalidation. -/
def InvRange.meets (r : InvRange) (ctx va n : Nat) : Bool :=
  (match r.ctx with | some c => c == ctx | none => true) && decide (va < r.hi) && decide (r.lo < va + n)

/-- Drop translations and cached table entries on every core and quad (R117, R379). -/
def State.dropTranslations (s : State) (r : InvRange) : State :=
  { s with
    cores := s.cores.map fun (e : Nat × Core) => (e.1, { e.2 with tlb := e.2.tlb.filter fun t => !r.meets t.ctx t.va t.size })
    quads := s.quads.map fun (e : Nat × Quad) => (e.1, { e.2 with
      tlb := e.2.tlb.filter fun t => !r.meets t.ctx t.va t.size
      walkc := e.2.walkc.filter fun w =>
        let n := 2 ^ (levelLow w.level + levelBits w.level)
        !r.meets w.ctx (w.prefx * n) n }) }

/-- Whether an access that was translated before an invalidation is still in flight (R379). -/
def State.translatedInFlight (s : State) (r : InvRange) : Bool :=
  s.cores.any fun (e : Nat × Core) =>
    (e.2.rq ++ e.2.wk ++ e.2.yq.map (·.op)).any fun o => o.waiting.any fun p => r.meets o.ctx p.va p.len

/-- What an instruction of a maintenance context does; outside one it is a protection fault with the clause address (R260). -/
def View.ifMaint (v : View) (r : Res) : Res := if v.x.maint then r else .halt 0x03 v.c.hdr.toNat

def execTlbinv (a b : BitVec 10) (gd : Guard) (s : State) : Host.Outcome State Fault Refusal :=
  issue (.tlbinv a b gd) s fun v s =>
    v.ifMaint <|
      match v.lanes gd with
      | [] => .ok s none
      | l :: _ =>
        match v.drained s with
        | none => .hold s
        | some s =>
          let x := (v.g.pair a.toNat l).toNat
          let r := invRange (if bit x 63 then none else some (bits x 62 57)) (bits x 56 0) (v.g.pair b.toNat l).toNat
          let s := s.dropTranslations r
          if s.translatedInFlight r then .hold s else .ok (s.modGroup v.gid (·.impure)) none

/-! ### Notices (R176, R353) -/

/-- The 32 bytes of a notice. -/
def Notice.bits (n : Notice) : Nat :=
  n.arg.toNat * 2 ^ 128 + n.time % 2 ^ 64 * 2 ^ 64 + n.nseq % 2 ^ 32 * 2 ^ 32 + n.ctx % 64 * 2 ^ 8 + n.kind % 256

/-- Remove the oldest notice; a held one takes the room and is posted now (R176). -/
def State.popNotice (s : State) : State :=
  { s with dev := { s.dev with
    queue := s.dev.queue.drop 1 ++ (s.dev.heldNotices.take 1).map fun n => { n with time := s.cycle }
    heldNotices := s.dev.heldNotices.drop 1 } }

/-- PQPOP (R279, R353). What it returns is in vD when its scoreboard falls; in deterministic mode, where a store takes no time, at once
(log 27). -/
def execPqpop (d a : BitVec 10) (off : BitVec 11) (sb : BitVec 3) (gd : Guard) (s : State) : Host.Outcome State Fault Refusal :=
  issue (.pqpop d a off sb gd) s fun v s =>
    v.ifMaint <|
      match v.lanes gd with
      | [] => .ok s none
      | l :: rest =>
        let i : Instr := .pqpop d a off sb gd
        let give := fun (s : State) (w : Word) => if v.x.det then s.modGroup v.gid fun g => g.setRegs d.toNat (l :: rest) fun _ => w else s
        let kind := fun (w : Word) => OpKind.pop d.toNat (BitVec.ofNat 32 (lanesMask (l :: rest))) w
        let val := match s.dev.queue with | n :: _ => n.bits | [] => 0
        match v.check s .g true [piece l 0 (addrOf v.g v.c .g (.reg a) off l) 32 val] with
        | .halt c x => .halt c x
        | .trap c => .trap c 0
        | .miss va => .hold (s.askWalk v.t.core v.gid v.kid v.g.ctx va false)
        | .ok ps =>
          let n := s.dev.queue.isEmpty
          match v.startStore s i .g false (some sb) (kind (if n then 0 else 1)) (if n then [] else ps) with
          | .ok s _ => .ok (give (if n then s.modGroup v.gid (·.impure) else s.popNotice) (if n then 0 else 1)) none
          | r => r

/-! ### Wear records and core states (R208 to R214) -/

/-- One WU and one rated life budget in the unit of the counts, 2^-16 WU (R205). -/
def wuUnit : Nat := 2 ^ 16
def lifeBudget : Nat := 2 ^ 48

/-- Bins of a width, the first lowest. -/
def packBins (t : Tab Nat) (w n : Nat) : Nat := (List.range n).foldl (fun v i => v + t.getD i 0 % 2 ^ w * 2 ^ (w * i)) 0

/-- A signed value in w bits. -/
def sbits (w : Nat) (x : Int) : Nat := (x % (2 ^ w : Nat)).toNat

/-- The number of a wear state. -/
def WearState.code : WearState → Nat
  | .healthy => 0 | .derated => 1 | .drained => 2 | .retired => 3

/-- The lifetime wear record of a core as R208 lays it out. -/
def Wear.bits (w : Wear) (core : Nat) : Nat :=
  w.lasttest % 2 ^ 32 * 2 ^ 1216 + w.tests % 2 ^ 32 * 2 ^ 1184 + packBins w.stops 16 16 * 2 ^ 928 + packBins w.errs 32 8 * 2 ^ 672
    + sbits 16 w.tpk30 * 2 ^ 656 + sbits 16 w.tpeak * 2 ^ 640 + packBins (w.vfh.map fun e => (e.1, e.2 / 360)) 32 8 * 2 ^ 384 + packBins (w.em.map fun e => (e.1, min 0xFFFFFFFF (e.2 / wuUnit))) 32 2 * 2 ^ 320
    + (List.range 4).foldl (fun v i => v + sbits 16 (w.drift.getD i 0) * 2 ^ (256 + 16 * i)) 0
    + w.hours / 360 % 2 ^ 32 * 2 ^ 224 + w.eol % 2 ^ 32 * 2 ^ 192 + w.rate % 2 ^ 64 * 2 ^ 128 + w.cwu % 2 ^ 64 * 2 ^ 64
    + w.overdue % 2 ^ 16 * 2 ^ 48 + w.why % 16 * 2 ^ 43 + w.state.code * 2 ^ 41 + core % 512 * 2 ^ 32 + 0x57454152

/-- The trailing 30-day mean accrual in WU per day, 48.16; before 30 days the mean over the life so far (R208, R210). -/
def Wear.meanRate (w : Wear) : Nat :=
  if w.hours < 30 * 8640 then (if w.hours = 0 then 0 else w.cwu * 8640 / w.hours)
  else w.recent.foldl (fun n r => n + r.1) 0 / 30

/-- Predicted days to end of life; none is unbounded (R210). -/
def Wear.life (w : Wear) : Option Nat :=
  if w.meanRate = 0 then none else some ((lifeBudget - w.cwu) / w.meanRate)

/-- A record's rate and eol as recomputed at a flash write (R210). -/
def Wear.predict (w : Wear) : Wear :=
  { w with rate := w.meanRate, eol := match w.life with | none => 0xFFFFFFFF | some d => min d 0xFFFFFFFE }

/-- Every record is written to flash, its prediction made anew, and with them what the dies' codes have corrected (R200, R209, R210). -/
def State.flashWear (s : State) : State :=
  let wear := (List.range 288).map fun c => (c, (s.wear c).predict)
  { s with dev := { s.dev with
    wear := wear, flash := { s.dev.flash with wear := wear, dieErrs := s.dev.dieErrs, corrected := s.dev.corrected } } }

/-- Whether a quad has a core past HEALTHY (R212). -/
def wornQuad (wear : Tab Wear) (q : Nat) : Bool := [0, 1, 2, 3].any fun i => (wear.getD (4 * q + i) Wear.fresh).state != .healthy

/-- A quad runs at step 1 or below once one of its cores is DERATED (R212, R217). -/
def State.derateQuad (s : State) (q : Nat) : State :=
  let st := s.dev.islands.getD q 0
  if st = 0 then { s with dev := { s.dev with islands := s.dev.islands.put q 1 } } else s

/-- A core moves to a state with a reason: the record goes to flash before the change takes effect (R209, R212). -/
def State.moveCore (s : State) (core : Nat) (st : WearState) (why : Nat) : State :=
  let s := (s.modWear core fun w => { w with state := st, why := why }).flashWear
  if st = .derated then s.derateQuad (core / 4) else s

/-- A HEALTHY or DERATED core becomes DRAINED (R212). -/
def State.drainCore (s : State) (core why : Nat) : State :=
  match (s.wear core).state with
  | .healthy | .derated => s.moveCore core .drained why
  | _ => s

/-- Whether a core is idle: no resident team, queued phase, engine operation or test (R214). -/
def State.coreIdle (s : State) (core : Nat) : Bool :=
  !(s.teams.any fun (e : Nat × Team) => e.2.core == core && e.2.residence == .resident)
    && (s.core core).phaseQ.isEmpty && (s.core core).ops.isEmpty && !s.dev.tests.any fun t => t.core == core

/-- The core status word (R280). Of a core number at or above 288 R279 says only that the action fails: the model's choice is that the word holds
the map number and zeros beside (log 102). -/
def State.coreStatus (s : State) (core : Nat) (ok : Bool) : Word :=
  let low := if 288 ≤ core then 0 else
    let lq := findPos (fun q => q == some (core / 4)) s.dev.map
    b2n lq.isSome * 2 ^ 15 + lq.getD 0 * 2 ^ 9 + b2n (s.dev.resv.look core).isSome * 2 ^ 7 + b2n (s.coreIdle core) * 2 ^ 6
      + (s.wear core).why % 16 * 4 + (s.wear core).state.code
  BitVec.ofNat 32 (s.dev.mapno % 2 ^ 16 * 2 ^ 16 + b2n ok * 2 ^ 8 + low)

/-- An action on a core at Distaff: its outcome, and the status word afterwards (R279, R310). -/
def View.coreAction (v : View) (s : State) (d : BitVec 10) (a : Src) (gd : Guard) (act : State → Nat → Nat → State × Bool) : Res :=
  v.ifMaint <|
    match v.lanes gd with
    | [] => .ok s (some ([], fun _ => 0))
    | l :: rest =>
      let core := (v.src a l).toNat
      let (s, ok) := if 288 ≤ core then (s, false) else act s core l
      v.giveAll (s.modGroup v.gid (·.impure)) d (l :: rest) fun _ => s.coreStatus core ok

/-- CSTATE with an action other than 1 and 2: a read, or a failure (R279). -/
def execCstateRead (d : BitVec 10) (a b : Src) (gd : Guard) (s : State) : Host.Outcome State Fault Refusal :=
  issue (.cstateRead d a b gd) s fun v s => v.coreAction s d a gd fun s _ l => (s, v.src b l == 0)

/-- CSTATE with action 1: reserve (R215, R279). -/
def execCstateReserve (d : BitVec 10) (a b : Src) (gd : Guard) (s : State) : Host.Outcome State Fault Refusal :=
  issue (.cstateReserve d a b gd) s fun v s =>
    v.coreAction s d a gd fun s core _ =>
      let other := match s.dev.resv.look core with | some c => c != v.g.ctx | none => false
      if other || (s.wear core).state == .retired then (s, false)
      else ({ s with dev := { s.dev with resv := s.dev.resv.put core v.g.ctx } }, true)

/-- CSTATE with action 2: release (R279). -/
def execCstateRelease (d : BitVec 10) (a b : Src) (gd : Guard) (s : State) : Host.Outcome State Fault Refusal :=
  issue (.cstateRelease d a b gd) s fun v s =>
    v.coreAction s d a gd fun s core _ =>
      if s.dev.resv.look core == some v.g.ctx then ({ s with dev := { s.dev with resv := s.dev.resv.del core } }, true)
      else (s, false)

/-- CDRAIN (R212, R279). -/
def execCdrain (d : BitVec 10) (a b : Src) (gd : Guard) (s : State) : Host.Outcome State Fault Refusal :=
  issue (.cdrain d a b gd) s fun v s =>
    v.coreAction s d a gd fun s core l =>
      let why := (v.src b l).toNat
      if (why != 3 && why != 6) || (s.wear core).state == .retired then (s, false) else (s.drainCore core why, true)

/-- CRETIRE (R212, R214, R279). -/
def execCretire (d : BitVec 10) (a : Src) (gd : Guard) (s : State) : Host.Outcome State Fault Refusal :=
  issue (.cretire d a gd) s fun v s =>
    v.coreAction s d a gd fun s core _ =>
      if (s.wear core).state != .drained then (s, false)
      else
        let q := core / 4
        let s := if s.dev.retiring.contains q then s else { s with dev := { s.dev with retiring := s.dev.retiring ++ [q] } }
        ([0, 1, 2, 3].foldl (fun (s : State) i => if 4 * q + i = core then s else s.drainCore (4 * q + i) 5) s, true)

/-- A 64-bit word of a core's wear record (R383). -/
def State.wearWord (s : State) (core w : Nat) : Dword :=
  if 288 ≤ core then 0 else BitVec.ofNat 64 (Machine.bits ((s.wear core).bits core) (64 * w + 63) (64 * w))

/-- WEARRD of either form. -/
def View.wearrd (v : View) (s : State) (d : BitVec 10) (f : Src) (gd : Guard) (core : Nat → Nat) : Res :=
  let ls := v.lanes gd
  let w := fun (l : Nat) => s.wearWord (core l) ((v.src f l).toNat % 64)
  .ok (s.modGroup v.gid fun g => g.setPairs d.toNat ls w) (some (ls, fun l => (w l).truncate 32))

def execWearrdSelf (d : BitVec 10) (f : Src) (gd : Guard) (s : State) : Host.Outcome State Fault Refusal :=
  issue (.wearrdSelf d f gd) s fun v s => v.wearrd s d f gd fun _ => v.t.core

def execWearrd (d : BitVec 10) (a f : Src) (gd : Guard) (s : State) : Host.Outcome State Fault Refusal :=
  issue (.wearrd d a f gd) s fun v s => v.ifMaint (v.wearrd s d f gd fun l => (v.src a l).toNat)

/-! ### Contexts (R198, R226, R315) -/

/-- The confidential contexts of a VF die. -/
def State.killVf (s : State) (vf : Nat) : State :=
  (s.ctxs.filter fun (e : Nat × Ctx) => e.2.conf && e.2.vf == vf).foldl (fun (s : State) e => s.contextDeath e.1) s

/-- A context is killed. Where it is a confidential one whose TDI is in RUN, the TDI goes to ERROR, in which all confidential contexts of its VF
die; by KILLCTX in CONFIG_LOCKED too (R226, R315). -/
def State.killContext (s : State) (c : Nat) (byHost : Bool) : State :=
  let x := s.ctx c
  let tdi := s.dev.tdis.getD x.vf .unlocked
  if x.alive && !x.dead && x.conf && (tdi == .run || (byHost && tdi == .locked)) then
    (({ s with dev := { s.dev with tdis := s.dev.tdis.put x.vf .error } }.postEvent 6 0 x.vf).contextDeath c).killVf x.vf
  else s.contextDeath c

/-- CTXKILL (R315). -/
def execCtxkill (a : Src) (gd : Guard) (s : State) : Host.Outcome State Fault Refusal :=
  issue (.ctxkill a gd) s fun v s =>
    v.ifMaint <|
      match v.lanes gd with
      | [] => .ok s none
      | l :: _ =>
        let k := (v.src a l).toNat % 64
        if k = v.g.ctx then .hold (s.killContext k false)
        else .ok ((s.killContext k false).modGroup v.gid (·.impure)) none

/-! ### In-field tests (R215, R216, R279, R381) -/

/-- The two stores of a status word, made as ordinary stores of a core in the order R215 gives. -/
def State.writeStatus (s : State) (core pa expect got run status : Nat) : State :=
  let (s, _) := s.ownedStore core (pa + 4) 12 (run % 2 ^ 32 + got % 2 ^ 32 * 2 ^ 32 + expect % 2 ^ 32 * 2 ^ 64)
  (s.ownedStore core pa 4 status).1

/-- TSTRUN (R215, R279): the start write or the refusal write has been applied when it retires. -/
def execTstrun (a : Src) (w : BitVec 10) (gd : Guard) (s : State) : Host.Outcome State Fault Refusal :=
  issue (.tstrun a w gd) s fun v s =>
    v.ifMaint <|
      match v.lanes gd with
      | [] => .ok s none
      | l :: _ =>
        match v.check s .g true [piece l 0 (v.g.pair w.toNat l).toNat 16 0] with
        | .halt c x => .halt c x
        | .trap c => .trap c 0
        | .miss va => .hold (s.askWalk v.t.core v.gid v.kid v.g.ctx va false)
        | .ok ps =>
          let pa := match ps with | p :: _ => p.pa | [] => 0
          if !(s.core v.t.core).rq.isEmpty || s.lockedFor pa then .hold s
          else
            let core := (v.src a l).toNat
            let ok := decide (core < 288) && s.coreIdle core && s.dev.resv.look core == some v.g.ctx
            let expect := (Config.expectSignature core).toNat
            let s := s.modGroup v.gid (·.impure)
            if ok then
              let s := s.wakeQuad (core / 4)
              let run := (s.wear core).tests + (s.wear core).errs.getD 7 0 + 1
              let s := { s with dev := { s.dev with tests := s.dev.tests ++ [(⟨core, v.g.ctx, v.t.core, pa, run, false⟩ : TestRun)] } }
              .ok (s.writeStatus v.t.core pa expect 0 run 1) none
            else .ok (s.writeStatus v.t.core pa expect 0 0 5) none

/-- TSTABT (R216, R279). -/
def execTstabt (a : Src) (gd : Guard) (s : State) : Host.Outcome State Fault Refusal :=
  issue (.tstabt a gd) s fun v s =>
    v.ifMaint <|
      match v.lanes gd with
      | [] => .ok s none
      | l :: _ =>
        let core := (v.src a l).toNat
        let s := s.modGroup v.gid (·.impure)
        if s.dev.tests.any fun t => t.core == core && t.ctx == v.g.ctx && !t.aborting then
          let go := mapIf (fun (t : TestRun) => t.core == core) (fun t => { t with aborting := true }) s.dev.tests
          .ok ({ s with dev := { s.dev with tests := go } }.countErr core 7) none
        else .ok s none

end Sys2Proof.Machine
end

