-- ==== Sys2Proof/Machine/Admit.lean ====
section
/-! DEFINITION. Distaff: queues, admission, placement and binding of teams, and the starting of groups (R13, R14, R25, R27, R32, R52
to R55, R65, R105, R163 to R170, R173, R175, R176, R193, R265). -/
namespace Sys2Proof.Machine

/-! ### The launch record and the kernel descriptor (R165, R265) -/

def Launch.field (l : Launch) (hi lo : Nat) : Nat := bits l.record.toNat hi lo
def Launch.prio (l : Launch) : Nat := l.field 37 36
def Launch.pclass (l : Launch) : Nat := l.field 35 34
def Launch.shape (l : Launch) : Nat := l.field 342 339
def Launch.perCore (l : Launch) : Nat := l.field 347 343 + 1
def Launch.slots (l : Launch) : Nat := l.field 328 320
def Launch.window (l : Launch) : Nat := (l.field 319 288 + 4095) / 4096 * 4096
def Launch.part (l : Launch) : Nat := l.field 95 64

/-- The roles a kernel descriptor declares, absent ones left out: kind, groups, budget (R25, R265). -/
def rolesOf (k : Nat) : List (Nat × Nat × Nat) :=
  ([0, 1, 2].map fun i => bits k (127 + 32 * i) (96 + 32 * i)).filterMap fun w =>
    if bits w 13 8 = 0 then none else some (bits w 31 30, bits w 13 8, 16 * (bits w 5 0 + 1))

/-- Whether a descriptor's roles are good for a number of groups (R265). -/
def rolesOk (k groups : Nat) : Bool :=
  let ws := [0, 1, 2].map fun i => bits k (127 + 32 * i) (96 + 32 * i)
  let here := ws.map fun w => bits w 13 8 != 0
  let kinds := (rolesOf k).map (·.1)
  bits k 31 0 == 0x4B45524E && bits k 63 32 == 1 && here.headD false
    && !(here.getD 2 false && !here.getD 1 false)
    && (nodup kinds).length == kinds.length && (!kinds.contains 0 || kinds.length == 1)
    && ws.all (fun w => bits w 13 8 == 0 || (bits w 29 14 == 0 && bits w 7 6 == 0))
    && (rolesOf k).foldl (fun n r => n + r.2.1) 0 == groups

/-- The groups a team starts with: G, or those that the records of a coalesced launch fill (R13, R173). -/
def Launch.groups (l : Launch) : Nat :=
  match l.node with
  | some (_, _, _, m, _) => (m + 31) / 32
  | none => l.field 333 329 + 1

/-- The register budget of each of its groups, in declaration order; groups beyond the roles' counts take the last role's. -/
def Launch.budgets (l : Launch) : List Nat :=
  let bs := (rolesOf l.kernel.toNat).flatMap fun r => List.replicate r.2.1 r.2.2
  (List.range l.groups).map fun i => bs.getD i (bs.getLastD 16)

/-- The live lanes of a group at its start (R13, R173). -/
def Launch.liveOf (l : Launch) (g : Nat) : LaneMask :=
  let n := match l.node with
    | some (_, _, _, m, _) => min 32 (m - 32 * g)
    | none => l.field 338 334 + 1
  BitVec.ofNat 32 (2 ^ n - 1)

/-- The rank of lane 0 of a group (R14, R173). -/
def Launch.rankOf (l : Launch) (t g : Nat) : Nat :=
  match l.node with
  | some (n, u, _, _, _) => 2 ^ 62 + n * 2 ^ 46 + u % 2 ^ 36 * 2 ^ 10 + 32 * g
  | none => (t * 32 + g) * 32

/-! ### Room on a core (R52 to R55, R64) -/

/-- Register bytes, scratchpad bytes, accumulator slots and group slots. -/
structure Need where
  regs : Nat
  spad : Nat
  slots : Nat
  groups : Nat
deriving DecidableEq, Repr

def Need.add (a b : Need) : Need := ⟨a.regs + b.regs, a.spad + b.spad, a.slots + b.slots, a.groups + b.groups⟩
def Need.times (a : Need) (n : Nat) : Need := ⟨n * a.regs, n * a.spad, n * a.slots, n * a.groups⟩
def Need.within (a b : Need) : Bool :=
  decide (a.regs ≤ b.regs) && decide (a.spad ≤ b.spad) && decide (a.slots ≤ b.slots) && decide (a.groups ≤ b.groups)

/-- What one team of a launch takes at its bind. -/
def Launch.need (l : Launch) : Need := ⟨128 * l.budgets.foldl (· + ·) 0, l.window, l.slots, l.groups⟩

/-- What a core offers under a partition word. -/
def capsOf (part : Nat) : Need :=
  let regs := bits part 5 0
  let acc := bits part 11 6
  ⟨65536 * regs, 65536 * (32 - regs - acc), 63 * acc / 4, 32⟩

/-- What a resident team keeps from a newcomer of a prio: what it holds, and what its queued phases will take if they go before
the newcomer (R175). -/
def State.held (s : State) (tid : Nat) (t : Team) (prio : Nat) : Need :=
  let ahead := match s.launch t.launch with | some l => decide (prio ≤ l.prio) | none => false
  let gs := (s.groupsOf tid).filter fun e => ahead || e.2.stage != .betweenPhases
  ⟨128 * gs.foldl (fun n e => n + e.2.budget) 0, t.window, t.slots, gs.length⟩

/-- The teams resident on a core. -/
def State.residents (s : State) (core : Nat) : List (Nat × Team) :=
  s.teams.filter fun (e : Nat × Team) => e.2.core == core && e.2.residence == .resident

/-- Whether a quad is in the current map. -/
def State.mapped (s : State) (q : Nat) : Bool := s.dev.map.contains (some q)

/-- Whether a core takes some more of a launch besides what it holds (R52, R53, R55, R212, R215, R385): `drained` admits a DRAINED
core, `loose` one that maintenance has reserved or tests. -/
def State.fitsNeed (s : State) (core : Nat) (l : Launch) (need : Need) (drained loose : Bool) : Bool :=
  let st := (s.wear core).state
  let rs := s.residents core
  let same := rs.all fun e => match s.launch e.2.launch with | some m => m.part == l.part | none => true
  s.mapped (core / 4) && (st == .healthy || st == .derated || (drained && st == .drained))
    && (loose || ((s.dev.resv.look core).isNone && !s.dev.tests.any fun t => t.core == core))
    && same && ((rs.foldl (fun (n : Need) e => n.add (s.held e.1 e.2 l.prio)) need).within (capsOf l.part))

/-- Whether a core takes some teams of a launch at their bind. -/
def State.fits (s : State) (core : Nat) (l : Launch) (teams : Nat) (loose : Bool) : Bool :=
  s.fitsNeed core l (l.need.times teams) false loose

/-- Whether a core belongs to a rectangle that is reserved for a cluster other than a given one (R27). -/
def State.claimed (s : State) (core : Nat) (cl : Option Nat) : Bool :=
  s.clusters.any fun (e : Nat × Cluster) => e.2.reserved && e.2.cores.contains core && some e.1 != cl

/-! ### Order of placement (R27, R169) -/

/-- The mapped quads in the order of placement: least wear, then lowest logical number. -/
def State.quadOrder (s : State) (l : Launch) : List Nat :=
  let qs := (List.range s.dev.map.length).filterMap fun n =>
    match s.dev.map.getD n none with
    | some q => some (l.wear.getD n 0, n, q)
    | none => none
  (sortBy (fun a b => decide (a.1 < b.1) || (a.1 == b.1 && decide (a.2.1 ≤ b.2.1))) qs).map (·.2.2)

/-- Quad rows and columns of a shape. -/
def shapeQuads (shape : Nat) : Nat × Nat :=
  match shape with | 2 => (1, 2) | 3 => (2, 1) | 4 => (1, 3) | 5 => (3, 1) | _ => (1, 1)

/-- The cores of a rectangle whose top-left quad lies at row a and column b of a die, by cluster rank. -/
def rectCores (shape die a b : Nat) : List Nat :=
  let (qr, qc) := shapeQuads shape
  (List.range (2 * qr)).flatMap fun r => (List.range (2 * qc)).map fun c =>
    4 * (18 * die + 6 * (a + r / 2) + b + c / 2) + 2 * (r % 2) + c % 2

/-- The rectangles of a shape in the current map, in the order of placement. -/
def State.rects (s : State) (l : Launch) : List (List Nat) :=
  let (qr, qc) := shapeQuads l.shape
  let lq := fun (q : Nat) => (findPos (fun m => m == some q) s.dev.map).getD 0
  let all := (List.range 4).flatMap fun d => (List.range (4 - qr)).flatMap fun a => (List.range (7 - qc)).map fun b =>
    rectCores l.shape d a b
  let ok := all.filter fun cs => cs.all fun c => s.mapped (c / 4)
  let cost := fun (cs : List Nat) =>
    ((nodup (cs.map (· / 4))).foldl (fun n q => n + l.wear.getD (lq q) 0) 0, lq (cs.headD 0 / 4))
  sortBy (fun x y => decide ((cost x).1 < (cost y).1) || ((cost x).1 == (cost y).1 && decide ((cost x).2 ≤ (cost y).2))) ok

/-- The teams of a launch on a core. -/
def State.teamsOn (s : State) (lid core : Nat) : Nat :=
  ((s.residents core).filter fun e => e.2.launch == lid).length

/-- The team of an index of a launch. -/
def State.teamAt (s : State) (lid t : Nat) : Option (Nat × Team) :=
  s.teams.find? fun (e : Nat × Team) => e.2.launch == lid && e.2.index == t

/-- The cluster of an index of a launch. -/
def State.clusterAt (s : State) (lid c : Nat) : Option (Nat × Cluster) :=
  s.clusters.find? fun (e : Nat × Cluster) => e.2.launch == lid && e.2.index == c

/-- The core for the next team of a launch of shape 0 (R169). -/
def State.place0 (s : State) (lid : Nat) (l : Launch) (loose : Bool) : Option Nat :=
  let ok := fun (c : Nat) => decide (s.teamsOn lid c < l.perCore) && !s.claimed c none && s.fits c l 1 loose
  let prev := if l.next = 0 then none else (s.teamAt lid (l.next - 1)).map fun e => e.2.core
  match prev with
  | some c => if ok c then some c else ((s.quadOrder l).flatMap fun q => [4 * q, 4 * q + 1, 4 * q + 2, 4 * q + 3]).find? ok
  | none => ((s.quadOrder l).flatMap fun q => [4 * q, 4 * q + 1, 4 * q + 2, 4 * q + 3]).find? ok

/-- The first rectangle of a launch's shape each core of which takes what a cluster needs at its rank (R27, R169, R385). -/
def State.placeNeeds (s : State) (l : Launch) (need : Nat → Need) (loose : Bool) : Option (List Nat) :=
  (s.rects l).find? fun cs => (List.range cs.length).all fun r =>
    let core := cs.getD r 0
    !s.claimed core none && s.fitsNeed core l (need r) false loose

/-- The rectangle for a new cluster of a launch: every core takes the cluster's teams of its rank (R27, R169). -/
def State.placeRect (s : State) (l : Launch) (teams : Nat) (loose : Bool) : Option (List Nat) :=
  let c := shapeCores l.shape
  s.placeNeeds l (fun rank => l.need.times (((List.range teams).filter fun j => j % c == rank).length)) loose

/-! ### Starting groups (R13, R14, R54, R170, R193) -/

/-- The group slot that a starting group takes: the lowest free one of the core. The rules name none (log 81). -/
def State.freeSlot (s : State) (core : Nat) : Option Nat :=
  let used := (s.groups.filter fun (e : Nat × Group) => e.2.stage != .betweenPhases && (match s.team e.2.team with
    | some t => t.core == core && t.residence == .resident
    | none => false)).map fun e => e.2.slot
  (List.range 32).find? fun n => !used.contains n

/-- The slices of a live mask, all lanes active, at an address. -/
def slicesOf (live : LaneMask) (pc : Nat) : Tab Slice :=
  (List.range 8).filterMap fun n =>
    let m := maskOf fun l => live.getLsbD (4 * n + l)
    if m = 0 then none else some (n, { Slice.dead with pc := BitVec.ofNat 64 pc, live := m, active := m })

/-- Start a group: one gang of all live slices. -/
def Group.begin_ (g : Group) (live : LaneMask) (pc now : Nat) : Group :=
  let sl := slicesOf live pc
  { g with
    stage := .running
    slices := sl
    gangs := [{ Gang.placed 0 0 with id := g.nextGang, slices := sl.map (·.1), clause := none, port := none, since := now }]
    nextGang := g.nextGang + 1 }

/-- A new serial number of a core (R193). -/
def State.newSerial (s : State) (core : Nat) : State × Word :=
  (s.modCore core fun k => { k with serial := k.serial + 1 }, (s.core core).serial + 1)

/-- Start one group of a team that has just been bound; a coalesced group finds its records' addresses in v0:v1 and their numbers in
v2 (R173). -/
def State.startGroup (s : State) (lid tid : Nat) (l : Launch) (t : Team) (i budget : Nat) : State :=
  let (s, uid) := s.fresh
  let (s, serial) := s.newSerial t.core
  let g := Group.fresh l.ctx lid tid i ((s.freeSlot t.core).getD 0) serial budget (l.rankOf t.index i)
  let g := match l.node with
    | none => g
    | some (_, _, page, m, dclock) =>
      let size := 16 * (l.field 499 496 + 1)
      let ls := (List.range 32).filter fun n => decide (32 * i + n < m)
      let a := fun (n : Nat) => BitVec.ofNat 64 ((s.ctx l.ctx).rpool + 65536 * page + size * (32 * i + n))
      { (g.setPairs 0 ls a).setRegs 2 ls (fun n => BitVec.ofNat 32 (32 * i + n)) with dclock := BitVec.ofNat 64 dclock }
  { s with groups := s.groups.put uid (g.begin_ (l.liveOf i) l.codeBase s.cycle) }

/-- Bind a team of a launch to a core: window, slots and registers are zero, and every group starts, after what Distaff has seen
(R54, R122, R170). -/
def State.bindTeam (s : State) (lid : Nat) (l : Launch) (core cl rank : Nat) : State :=
  let (s, tid) := (s.wakeQuad (core / 4)).fresh
  let t := Team.fresh lid l.next core cl rank l.window l.slots tid
  let s := { s with teams := s.teams.put tid t }
  let s := s.modCore core fun k => { k with part := BitVec.ofNat 32 l.part, pts := max k.pts (s.dev.agents.getD 305 0) }
  let s := ((List.range l.budgets.length).zip l.budgets).foldl (fun (s : State) e => s.startGroup lid tid l t e.1 e.2) s
  s.modLaunch lid fun l => { l with next := l.next + 1, bound := l.bound + 1 }

/-- Bind the next team of a launch where the rules place it; none where it has to wait (R27, R168, R169). -/
def State.bindNext (s : State) (lid : Nat) (loose : Bool) : Option (State × Nat) :=
  match s.launch lid with
  | none => none
  | some l =>
    if l.n ≤ l.next then none
    else if l.shape = 0 then
      match s.place0 lid l loose with
      | none => none
      | some core =>
        let (s, cl) := s.fresh
        let s := { s with clusters := s.clusters.put cl ⟨lid, l.next, [core], false, [], 0, 0⟩ }
        some (s.bindTeam lid l core cl 0, core)
    else
      let ci := l.next / l.perCluster
      let j := l.next % l.perCluster
      let rank := j % shapeCores l.shape
      match s.clusterAt lid ci with
      | some (cl, c) =>
        let core := c.cores.getD rank 0
        if !c.reserved then
          match s.placeRect l (min l.perCluster (l.n - ci * l.perCluster)) loose with
          | none => none
          | some cs =>
            let core := cs.getD rank 0
            some ((s.modCluster cl fun c => { c with cores := cs, reserved := true }).bindTeam lid l core cl rank, core)
        else if s.fits core l 1 loose && !s.claimed core (some cl) then some (s.bindTeam lid l core cl rank, core)
        else none
      | none =>
        match s.placeRect l (min l.perCluster (l.n - ci * l.perCluster)) loose with
        | none => none
        | some cs =>
          let (s, cl) := s.fresh
          let s := { s with clusters := s.clusters.put cl ⟨lid, ci, cs, true, [], 0, 0⟩ }
          let core := cs.getD rank 0
          some (s.bindTeam lid l core cl rank, core)

/-- Bind some teams, all or none; the cores they take. -/
def State.bindMany (s : State) (lid : Nat) (loose : Bool) : Nat → Option (State × List Nat)
  | 0 => some (s, [])
  | n + 1 =>
    match s.bindNext lid loose with
    | none => none
    | some (s, c) => (State.bindMany s lid loose n).map fun r => (r.1, c :: r.2)

/-- One act of binding: the whole grid of a concurrent launch, one team of another (R168). -/
def State.bindStep (s : State) (lid : Nat) (loose : Bool) : Option (State × List Nat) :=
  match s.launch lid with
  | none => none
  | some l => if l.next < l.n then s.bindMany lid loose (if l.pclass = 0 then l.n - l.next else 1) else none

/-! ### Whether a launch can ever fit (R32, R53, R167) -/

/-- The longest division of a line of quads into pieces of a length, counting only runs of mapped quads. -/
def lineFit (ok : Nat → Bool) (len : Nat) : List Nat → Nat → Nat
  | [], run => run / len
  | q :: qs, run => if ok q then lineFit ok len qs (run + 1) else run / len + lineFit ok len qs 0

/-- The most disjoint rectangles of a shape in the current map. -/
def State.mostRects (s : State) (shape : Nat) : Nat :=
  let (qr, qc) := shapeQuads shape
  (List.range 4).foldl (fun n d =>
    let lines := if qr = 1 then (List.range 3).map fun a => (List.range 6).map fun b => 18 * d + 6 * a + b
                 else (List.range 6).map fun b => (List.range 3).map fun a => 18 * d + 6 * a + b
    lines.foldl (fun n line => n + lineFit s.mapped (max qr qc) line 0) n) 0

/-- Whether n teams can fit the current map when it is empty. -/
def State.fittable (s : State) (l : Launch) : Bool :=
  let caps := capsOf l.part
  let quads := (s.dev.map.filter (·.isSome)).length
  if l.shape = 0 then
    let per := ((List.range l.perCore).filter fun m => (l.need.times (m + 1)).within caps).length
    decide (0 < per) && (l.pclass != 0 || decide (l.n ≤ 4 * quads * per))
  else
    (l.need.times l.perCore).within caps &&
      (l.pclass != 0 || s.mostRects l.shape == 0 || decide (l.n ≤ s.mostRects l.shape * l.perCluster))

/-! ### Admission (R167) -/

/-- A record whose reserved fields, values or alignments fail (R165, R167). -/
def recordBad (r pmax : Nat) : Bool :=
  let kind := bits r 33 32
  bits r 1023 500 != 0 || bits r 351 348 != 0 || bits r 287 272 != 0 || bits r 63 56 != 0 || bit r 39
    || kind == 3 || bits r 37 36 == 3 || decide (pmax < bits r 37 36) || bits r 35 34 == 3 || decide (5 < bits r 342 339)
    || decide (256 < bits r 271 256) || bits r 479 416 % 16 != 0 || bits r 415 352 % 4 != 0
    || (kind == 1 && (bits r 495 480 == 0 || decide (1024 < bits r 495 480)
          || decide (65536 < bits r 495 480 * 16 * (bits r 499 496 + 1))))
    || (kind == 0 && bits r 55 40 != 0) || (kind != 0 && bits r 55 40 == 0)

/-- The physical address of each 256-byte block of a constant bank; none if the bank fails R105. -/
def State.pinBank (s : State) (c base : Nat) : Nat → State × Option (List Nat)
  | 0 => (s, some [])
  | n + 1 =>
    match s.distTranslate c base false with
    | (s, none) => (s, none)
    | (s, some pa) =>
      match State.pinBank s c (base + 256) n with
      | (s, some ps) => (s, some (pa :: ps))
      | (s, none) => (s, none)

/-- What the checks of a record come to. -/
inductive Checked where
  | status (n : Nat)
  | ok (kernel : Nat) (bank : List Nat)
deriving DecidableEq, Repr

/-- The checks on a record, in the order of R167. -/
def State.checkRecord (s : State) (c r : Nat) : State × Checked :=
  if recordBad r (s.ctx c).pmax then (s, .status 1)
  else
    let kbase := bits r 191 128
    match (if kbase % 256 != 0 then (s, none) else s.distRead c kbase 256) with
    | (s, none) => (s, .status 6)
    | (s, some k) =>
      let part := bits r 95 64
      let cmap := (List.range 1024).filter fun n => bit k (1024 + n)
      let largest := (rolesOf k).foldl (fun m x => max m x.2.2) 0
      if bits part 5 0 = 0 || decide (32 < bits part 5 0 + bits part 11 6) || bits part 31 12 != 0 then (s, .status 2)
      else if 64 < cmap.length || (!(rolesOf k).isEmpty && cmap.any fun n => decide (largest ≤ n)) then (s, .status 3)
      else
        match (if bits r 271 256 = 0 then (s, some [])
               else if bits r 255 192 % 256 != 0 then (s, none)
               else s.pinBank c (bits r 255 192) (bits r 271 256)) with
        | (s, none) => (s, .status 4)
        | (s, some bank) => if rolesOk k (bits r 333 329 + 1) then (s, .ok k bank) else (s, .status 6)

/-- The wear of each logical quad (R169, R207). -/
def State.quadWear (s : State) : List Nat :=
  s.dev.map.map fun m => match m with
    | some q => [0, 1, 2, 3].foldl (fun n i => n + (s.wear (4 * q + i)).cwu) 0
    | none => 0

/-- Finish an entry that takes no part in binding, and deliver what is due. -/
def State.finishNow (s : State) (c index status : Nat) : State := s.finishEntry c index status 0

/-- The launch of a buffer of a node (R173): it takes the node's next serial, and the buffer leaves the node. -/
def State.startNode (s : State) (c n : Nat) (b : NodeBuf) : State :=
  match (s.ctx c).nodes.look n with
  | none => s
  | some nd =>
    let (s, lid) := s.fresh
    let r := nd.record.toNat
    let l : Launch := { Launch.fresh c 0 (BitVec.ofNat 1024 (putBits (putBits r 35 34 1) 342 339 0)) nd.kernel 1 with
      mapno := s.dev.mapno, wear := s.quadWear, bank := nd.bank, node := some (n, nd.serial, b.page, b.m, b.dclock), order := lid }
    let nd' := { nd with serial := nd.serial + 1, bufs := nd.bufs.filter fun x => x.page != b.page }
    { s with launches := s.launches.put lid l }.modCtx c fun x => { x with nodes := x.nodes.put n nd' }

/-- Open a node (kind 1); a node that is open stays as it is (R172). -/
def State.openNode (s : State) (c index r k : Nat) (bank : List Nat) : State :=
  let n := bits r 55 40
  let s := if ((s.ctx c).nodes.look n).isSome then s
    else s.modCtx c fun x => { x with nodes := x.nodes.put n ⟨BitVec.ofNat 1024 r, BitVec.ofNat 2048 k, bank, 0, [], none⟩ }
  s.finishNow c index 0

/-- Close a node (kind 2): every partly filled buffer starts, in age order; a node that is not open has nothing to close (R174). -/
def State.shutNode (s : State) (c index r : Nat) : State :=
  let n := bits r 55 40
  match (s.ctx c).nodes.look n with
  | none => s.finishNow c index 0
  | some nd =>
    if nd.closing.isSome then s.finishNow c index 0
    else
      let s := s.modCtx c fun x => { x with nodes := x.nodes.put n { nd with closing := some index } }
      let s := (sortBy (fun (a b : NodeBuf) => decide (a.age ≤ b.age)) nd.bufs).foldl (fun (s : State) b => s.startNode c n b) s
      s.closeNode c n

/-- Whether an EMIT that has begun has still to send records to a node: its close waits for them (R174, R317, log 50). -/
def State.emitting (s : State) (c n : Nat) : Bool :=
  s.groups.any fun (e : Nat × Group) => e.2.ctx == c && e.2.gangs.any fun k => k.emitLeft.any fun x => x.2 == n

/-- Admit the entry of an index (R167), its waits being over. -/
def State.admitEntry (s : State) (c : Nat) (e : QEntry) : State :=
  let r := e.record.toNat
  match s.checkRecord c r with
  | (s, .status n) => s.finishNow c e.index n
  | (s, .ok k bank) =>
    match bits r 33 32 with
    | 1 => s.openNode c e.index r k bank
    | 2 => if s.emitting c (bits r 55 40) then s else s.shutNode c e.index r
    | _ =>
      let grid := bits r 127 96
      let cnt := bits r 415 352
      match (if cnt = 0 then (s, some grid) else match s.distRead c cnt 4 with
        | (s, some x) => (s, some (min grid x))
        | (s, none) => (s, none)) with
      | (s, none) => s.finishNow c e.index 1
      | (s, some n) =>
        if n = 0 then s.finishNow c e.index 0
        else
          let l : Launch := { Launch.fresh c e.index (BitVec.ofNat 1024 r) (BitVec.ofNat 2048 k) n with
            mapno := s.dev.mapno, wear := s.quadWear, bank := bank, order := e.order }
          if !s.fittable l then s.finishNow c e.index 5
          else
            let (s, lid) := s.fresh
            let mark := mapIf (fun (x : QEntry) => x.index == e.index) (fun x => { x with launch := some lid }) (s.ctx c).entries
            { s with launches := s.launches.put lid l }.modCtx c fun x => { x with entries := mark }

/-- An entry that has been read and not yet admitted. -/
def Ctx.pendingEntry (x : Ctx) : Option QEntry :=
  x.entries.find? fun e => e.status.isNone && e.launch.isNone
    && !x.nodes.any fun (n : Nat × Node) => n.2.closing == some e.index

/-- A context whose queue is served: alive, not halted, and not a confidential one outside RUN (R187, R226). -/
def State.serves (s : State) (c : Nat) : Bool :=
  let x := s.ctx c
  x.alive && !x.dead && x.line.isNone && !x.halted && (!x.conf || s.dev.tdis.getD x.vf .unlocked == .run)

/-- Whether a launch of the context's queue is still being bound (R168). -/
def State.binding (s : State) (c : Nat) : Bool :=
  s.launches.any fun (e : Nat × Launch) => e.2.ctx == c && e.2.node.isNone && decide (e.2.next < e.2.n)

/-- Whether every entry before an index has completed (R167). -/
def Ctx.doneBefore (x : Ctx) (index : Nat) : Bool := x.entries.all fun e => decide (index ≤ e.index) || e.done

/-- Read the next entry of a queue once its seq says that it has been published (R164). -/
def State.consume (s : State) (c : Nat) : State :=
  let x := s.ctx c
  if !x.woken then s
  else
    match s.distRead c (x.qbase + 256 + 128 * (x.head % 2 ^ x.qlog)) 128 with
    | (s, none) => s
    | (s, some r) =>
      if r % 2 ^ 32 != (x.head + 1) % 2 ^ 32 then s
      else
        let (s, order) := s.fresh
        let s := s.modCtx c fun x => { x with
          head := x.head + 1, entries := x.entries ++ [⟨x.head, BitVec.ofNat 1024 r, none, none, 0, 0, false, order⟩] }
        let (s, _) := s.distWrite c (x.qbase + 64) 8 (x.head + 1)
        match s.distRead c x.qbase 8 with
        | (s, some tail) => s.modCtx c fun x => { x with woken := decide (x.head < tail) }
        | (s, none) => s

/-- ADMIT_LAUNCH: the next entry of a queue is read, if none waits, and admitted once nothing holds it (R164, R167, R168). -/
def State.admitLaunch (s : State) (c : Nat) : State :=
  if !s.serves c then s
  else
    let s := if (s.ctx c).pendingEntry.isSome then s else s.consume c
    match (s.ctx c).pendingEntry with
    | none => s
    | some e =>
      let after := bit e.record.toNat 38 || (s.ctx c).det
      if s.binding c || (after && !(s.ctx c).doneBefore e.index) then s else s.admitEntry c e

/-- QUEUE_TAIL_WAKE: Distaff's monitor on a tail word sees it beyond head (R164). -/
def State.tailWake (s : State) (c : Nat) : State :=
  let x := s.ctx c
  if !s.serves c then s
  else
    match s.distRead c x.qbase 8 with
    | (s, some tail) => s.modCtx c fun x => { x with woken := decide (x.head < tail) }
    | (s, none) => s

/-- LAUNCH_COMPLETE: the completion record of the oldest finished entry is written, in queue order (R166). -/
def State.launchComplete (s : State) (c : Nat) : State :=
  if !(s.ctx c).alive || (s.ctx c).halted then s else s.completeNext c

/-! ### Binding (R168) -/

/-- Launches that are held: admitted, teams still to bind, their context served. -/
def State.heldLaunches (s : State) : List (Nat × Launch) :=
  s.launches.filter fun (e : Nat × Launch) => decide (e.2.next < e.2.n) && s.serves e.2.ctx

/-- Whether one held launch binds before another. -/
def Launch.goesBefore (a b : Launch) : Bool :=
  decide (b.prio < a.prio) || (a.prio == b.prio && decide (a.order < b.order))

/-- A prio 2 launch that would fit on cores under test or reserved: a notice, at first and whenever the number it lacks changes
(R176). -/
def State.notePending (s : State) (lid : Nat) (l : Launch) : State :=
  if l.prio != 2 then s
  else
    match s.bindStep lid true with
    | none => s
    | some (_, cores) =>
      let lack := ((nodup cores).filter fun c => (s.dev.resv.look c).isSome || s.dev.tests.any fun t => t.core == c).length
      if lack = 0 || (s.dev.prio2.find? fun e => e.1 == lid) == some (lid, lack) then s
      else
        let s := s.postNotice 4 l.ctx (BitVec.ofNat 128 (l.index % 2 ^ 32 + lack * 2 ^ 64))
        { s with dev := { s.dev with prio2 := (s.dev.prio2.filter fun e => e.1 != lid) ++ [(lid, lack)] } }

/-- TEAM_BIND: the next team of a launch, or all teams of a concurrent one, unless a launch that goes before it can bind now or a
swapped-out team of its prio or a higher one can resume (R168). -/
def State.teamBind (s : State) (lid : Nat) (resumable : State → Nat → Bool) : State :=
  match s.launch lid with
  | none => s
  | some l =>
    if !s.serves l.ctx then s
    else
      let first := s.heldLaunches.all fun e => e.1 == lid || !e.2.goesBefore l || (s.bindStep e.1 false).isNone
      if !first || resumable s l.prio then s
      else
        match s.bindStep lid false with
        | some (s, _) => s
        | none => s.notePending lid l

end Sys2Proof.Machine
end

