-- ==== Sys2Proof/Machine/Distaff.lean ====
section
/-! DEFINITION. Distaff at work: spawned groups and phases start, and teams are swapped out, pre-empted and resumed (R29, R30, R46,
R65, R141, R162, R168, R175, R193, R196, R197, R385). -/
namespace Sys2Proof.Machine

/-! ### JOIN_SPAWN_START (R46) -/

/-- Register bytes of the groups that a core holds now. -/
def State.regBytes (s : State) (core : Nat) : Nat :=
  (s.residents core).foldl (fun n e =>
    (s.groupsOf e.1).foldl (fun n g => if g.2.stage == .betweenPhases then n else n + 128 * g.2.budget) n) 0

/-- Whether a core has room for one more group of a budget (R46, R55). -/
def State.groupRoom (s : State) (core part budget : Nat) : Bool :=
  (s.freeSlot core).isSome && decide (s.regBytes core + 128 * budget ≤ 65536 * bits part 5 0)

/-- The lowest group index that no group of a team has. -/
def State.freeIndex (s : State) (tid : Nat) : Option Nat :=
  let used := (s.groupsOf tid).map fun e => e.2.index
  (List.range 32).find? fun n => !used.contains n

/-- The registers of a spawned group: key, left columns, right columns (R46). -/
def spawnRegs (lanes : List SpawnLane) (g : Group) : Group :=
  ((List.range lanes.length).zip lanes).foldl (fun (g : Group) e =>
    let ws := e.2.left ++ e.2.right
    let g := g.setPairs 0 [e.1] fun _ => e.2.key
    ((List.range ws.length).zip ws).foldl (fun (g : Group) w => g.setReg (2 + w.1) e.1 w.2) g) g

/-- The next group of a team's oldest spawn entry starts when it fits; the last of an entry lets its handles go (R46). -/
def State.spawnGroup (s : State) (tid : Nat) : State :=
  match s.team tid with
  | none => s
  | some t =>
    match t.spawns, s.launch t.launch, s.freeIndex tid with
    | sp :: rest, some l, some idx =>
      if t.residence != .resident || t.stopping || !s.serves l.ctx || !s.groupRoom t.core l.part sp.budget then s
      else
        let lanes := (sp.lanes.drop sp.started).take 32
        let slot := (s.freeSlot t.core).getD 0
        let (s, uid) := s.fresh
        let (s, serial) := s.newSerial t.core
        let rank0 := 2 ^ 63 + t.index * 2 ^ 31 + sp.q * 2 ^ 20 + sp.started
        let g := { spawnRegs lanes (Group.fresh l.ctx t.launch tid idx slot serial sp.budget rank0) with dclock := sp.dclock }
        let g := g.begin_ (BitVec.ofNat 32 (2 ^ lanes.length - 1)) (l.codeBase + sp.entry) s.cycle
        let s := { s with groups := s.groups.put uid g }
        let n := sp.started + lanes.length
        if sp.lanes.length ≤ n then
          ((s.modTeam tid fun t => { t with spawns := rest }).holdHandle sp.hl (· - 1)).holdHandle sp.hr (· - 1)
        else s.modTeam tid fun t => { t with spawns := { sp with started := n } :: rest }
    | _, _, _ => s

/-- JOIN_SPAWN_START (R46). In deterministic mode groups are spawned where a round starts (log 94). -/
def State.spawnStart (s : State) (tid : Nat) : State :=
  let det := match (s.team tid).bind fun t => s.launch t.launch with | some l => (s.ctx l.ctx).det | none => false
  if det then s else s.spawnGroup tid

/-! ### PHASE_START (R65, R175) -/

/-- Whether a record read back is the one a group left: its magic, and its count against its map and the group's carry set (R65). -/
def recordGood (r carried : Nat) : Bool :=
  bits r 31 0 == 0x50485243 && bits r 63 32 == carried
    && ((List.range 1024).filter fun n => bit r (1024 + n)).length == carried

/-- The registers that a record holds (R65). -/
def recordRegs (r : Nat) : Tab Word :=
  let cmap := (List.range 1024).filter fun n => bit r (1024 + n)
  ((List.range cmap.length).zip cmap).foldl (fun (t : Tab Word) (e : Nat × Nat) =>
    (List.range 32).foldl (fun (t : Tab Word) l => t.put (regKey e.2 l) (BitVec.ofNat 32 (r / 2 ^ (2048 + 1024 * e.1 + 32 * l)))) t) []

/-- A group whose next phase starts: a new slot and serial number, and what its record says (R29, R65). -/
def Group.startPhase (g : Group) (r slot : Nat) (serial : Word) (code now : Nat) : Group :=
  { g with slot := slot, serial := serial, regs := recordRegs r, fstat := BitVec.ofNat 32 (bits r 255 224), record := none }.begin_
    (BitVec.ofNat 32 (bits r 223 192)) (code + bits r 159 128) now

/-- The first queued phase of a core takes a slot. Its record is read back; one that cannot be read, is uncorrectable, or whose magic or
count does not match is a contained fault of the group, which is how its error is consumed (R65, R201). -/
def State.phaseGroup (s : State) (core : Nat) (good : Bool) : State :=
  match (s.core core).phaseQ with
  | [] => s
  | gid :: _ =>
    match s.group gid with
    | none => s
    | some g =>
      match s.team g.team, s.launch g.launch, g.record with
      | some t, some l, some place =>
        if t.residence != .resident || t.stopping || !s.serves l.ctx || !s.groupRoom core l.part g.budget then s
        else
          let slot := (s.freeSlot core).getD 0
          let (s, serial) := s.newSerial core
          let s := s.modCore core fun k => { k with phaseQ := k.phaseQ.drop 1 }
          let va := (s.ctx l.ctx).save + recordAt place
          let n := 256 + 128 * (l.carry g.budget).length
          let bad := !good || match (s.distTranslate l.ctx va false).2 with
            | some pa => (sectorAddrs pa n).any s.bad
            | none => false
          let (s, data) := if bad then (s, none) else s.distRead l.ctx va n
          match data, recordGood (data.getD 0) (l.carry g.budget).length with
          | some r, true => s.modGroup gid fun g => g.startPhase r slot serial l.codeBase s.cycle
          | _, _ =>
            (s.modGroup gid fun g => { g with slot := slot, serial := serial, stage := .running, record := none }).containedFault gid
              { cls := 3, cause := 0x42, addr := 0, aux := 0, serial := serial, team := t.index, clause := 0, islot := 0
                gslot := slot, group := g.index, core := core, tag := 0xFF, exited := false, precise := false, engine := 0
                slices := 0, opa := 0, opb := 0 }
      | _, _, _ => s

/-- The launch whose phase is the first in a core's queue. -/
def State.phaseLaunch (s : State) (core : Nat) : Option Nat := ((s.core core).phaseQ.head?.bind s.group).map (·.launch)

/-- PHASE_START (R65, R175). In deterministic mode phases start where a round starts (log 94). -/
def State.phaseStart (s : State) (core : Nat) (good : Bool) : State :=
  let det := match (s.phaseLaunch core).bind s.launch with | some l => (s.ctx l.ctx).det | none => false
  if det then s else s.phaseGroup core good

/-! ### Swapping a team out (R30, R162, R196) -/

/-- Whether a gang stands where it can be swapped out: at a clause boundary, or waiting inside a clause (R24, R386). -/
def Gang.atBoundary (k : Gang) : Bool := k.fence.isNone && (k.clause.isNone || k.wait != .no)

/-- The names of a team's groups. -/
def State.gidsOf (s : State) (tid : Nat) : List Nat := (s.groupsOf tid).map (·.1)

/-- Whether every engine has stopped a team's work at its boundary: no memory access of its groups is in flight, and every gang stands at a
boundary (R162, R196). A request at the matrix engine stands between two K-groups, and stays in the table of its quad (log 47). -/
def State.quiet (s : State) (tid : Nat) (t : Team) : Bool :=
  let ids := s.gidsOf tid
  let k := s.core t.core
  (s.groupsOf tid).all (fun e => e.2.gangs.all (·.atBoundary) && e.2.stage != .exiting)
    && !(k.rq ++ k.wk ++ k.replies ++ k.probes ++ k.yq.map (·.op)).any (fun o => ids.contains o.grp)

/-- The same wait under another record. -/
def Wait.retag (f : Nat → Nat) (w : Wait) : Wait :=
  match w with
  | .relgrp h tag d o ls => .relgrp h (f tag) d o ls
  | .reljoin a b tag d j ls => .reljoin a b (f tag) d j ls
  | w => w

/-- Take a team off its core: its engine operations, its issue records and its queued phases go with it; everything else that R30 and
R385 preserve stands in the team and its groups. The plain REGANG windows of its groups close first (R23). -/
def State.swapOut (s : State) (tid : Nat) : State :=
  match s.team tid with
  | none => s
  | some t =>
    let s := { s with groups := s.groups.map fun (e : Nat × Group) => if e.2.team == tid then (e.1, e.2.closePlain s.cycle) else e }
    let ids := s.gidsOf tid
    let k := s.core t.core
    let ops := (k.ops.filter (·.team == tid)).map fun o => if o.isOver then { o with tag := none } else o
    let waits := (s.groupsOf tid).flatMap fun e => e.2.gangs.filterMap fun g => g.wait.tag
    let mons := (s.monitors.filter fun m => ids.contains m.grp).filterMap (·.tag)
    let tags := nodup (ops.filterMap (·.tag) ++ waits ++ mons ++ (s.mtxEntries.filter (·.team == tid)).filterMap (·.tag))
    let recs := tags.foldl (fun (r : Tab IssueRec) n => match k.issueRecs.look n with | some x => r.put n x | none => r) []
    let k' := { k with
      ops := k.ops.filter (·.team != tid)
      issueRecs := k.issueRecs.filter fun e => !tags.contains e.1
      walks := k.walks.filter fun w => !ids.contains w.grp
      phaseQ := k.phaseQ.filter fun g => !ids.contains g }
    let s := { s with
      groups := s.groups.map fun (e : Nat × Group) =>
        if e.2.team == tid then (e.1, { e.2 with gangs := e.2.gangs.map fun (g : Gang) => { g with port := none, walking := none } })
        else e }
    let s := s.modCore t.core fun _ => k'
    let s := s.modTeam tid fun t => { t with
      residence := .swappedOut, parked := ops, parkedRecs := recs, parkedPhases := k.phaseQ.filter fun g => ids.contains g }
    let here := s.teams.any fun (e : Nat × Team) => e.2.cluster == t.cluster && e.2.residence == .resident
    if here then s else s.modCluster t.cluster fun c => { c with reserved := false }

/-- Whether a gang monitors or has yielded. -/
def Wait.idles (w : Wait) : Bool := match w with | .mwait _ => true | .yield .. => true | _ => false

/-- A team that Distaff may swap out without a request: all its groups that have not exited monitor or have yielded (R30), all are
queued between phases (R175), or, in deterministic mode, all wait for a commit (R181). -/
def State.evictable (s : State) (tid : Nat) (t : Team) : Bool :=
  let gs := (s.groupsOf tid).map (·.2)
  let det := match s.launch t.launch with | some l => (s.ctx l.ctx).det | none => false
  !gs.isEmpty && !s.pinned tid t &&
    (gs.all (fun g => g.stage == .running && g.gangs.all fun k => k.wait.idles)
      || gs.all (fun g => g.stage == .betweenPhases)
      || (det && gs.all fun g => g.stage == .betweenPhases || g.det.ended || g.gangs.all fun k => k.wait != .no))

/-! ### Resumption (R168, R385) -/

/-- What a team takes where it resumes. -/
def State.taken (s : State) (tid : Nat) (t : Team) : Need :=
  let gs := s.groupsOf tid
  ⟨128 * gs.foldl (fun n e => n + e.2.budget) 0, t.window, t.slots, gs.length⟩

/-- The core on which a team of shape 0 resumes: as R169 chooses one for a bind. -/
def State.replace0 (s : State) (tid : Nat) (t : Team) (l : Launch) : Option Nat :=
  let ok := fun (c : Nat) =>
    decide (s.teamsOn t.launch c < l.perCore) && !s.claimed c none && s.fitsNeed c l (s.taken tid t) false false
  let order := (s.quadOrder l).flatMap fun q => [4 * q, 4 * q + 1, 4 * q + 2, 4 * q + 3]
  let prev := if t.index = 0 then none else s.teamAt t.launch (t.index - 1)
  match prev with
  | some (_, p) => if p.residence == .resident && ok p.core then some p.core else order.find? ok
  | none => order.find? ok

/-- Put a team that has been swapped out on a core: new slots, its operations, monitors and waits under new issue records, its queued
phases behind the core's; its groups keep their serial numbers (R193), and the core's logical time is not below that of the core it
left. -/
def State.putBack (s : State) (tid : Nat) (t : Team) (core : Nat) (part : Nat) : Option State :=
  let free := (List.range 255).filter fun n => ((s.core core).issueRecs.look n).isNone
  if free.length < t.parkedRecs.length then none
  else
    let old := t.parkedRecs.map (·.1)
    let f := fun (n : Nat) => free.getD ((findPos (fun m => m == n) old).getD 0) 0
    let used := (s.groups.filter fun (e : Nat × Group) => e.2.stage != .betweenPhases && (match s.team e.2.team with
      | some u => u.core == core && u.residence == .resident
      | none => false)).map fun e => e.2.slot
    let slots := (List.range 32).filter fun n => !used.contains n
    let gs := (s.groupsOf tid).filter fun e => e.2.stage != .betweenPhases
    let from_ := s.core t.core
    let s := s.wakeQuad (core / 4)
    let s := ((List.range gs.length).zip gs).foldl (fun (s : State) e =>
      s.modGroup e.2.1 fun g => { g with
        slot := slots.getD e.1 0
        gangs := g.gangs.map fun k => { k with wait := k.wait.retag f, since := s.cycle, forced := none } }) s
    let recs := t.parkedRecs.map fun (e : Nat × IssueRec) => (f e.1, e.2)
    let ids := s.gidsOf tid
    let s := { s with monitors := mapIf (fun (m : Monitor) => ids.contains m.grp)
                        (fun m => { m with core := core, tag := m.tag.map f }) s.monitors
                      quads := s.quads.map fun (e : Nat × Quad) => (e.1, { e.2 with
                        table := mapIf (fun (r : ResEntry) => r.team == tid) (fun r => { r with core := core, tag := r.tag.map f }) e.2.table }) }
    let s := s.modCore core fun k => { k with
      pts := max k.pts from_.pts
      seen := max k.seen from_.seen
      part := BitVec.ofNat 32 part
      ops := k.ops ++ t.parked.map fun o => { o with tag := o.tag.map f }
      issueRecs := recs.foldl (fun (r : Tab IssueRec) e => r.put e.1 e.2) k.issueRecs
      phaseQ := k.phaseQ ++ t.parkedPhases }
    some (s.modTeam tid fun t => { t with
      core := core, residence := .resident, stopping := false, parked := [], parkedRecs := [], parkedPhases := [] })

/-- What the teams of a released cluster take on the core of a rank (R385). -/
def State.takenAt (s : State) (cl rank : Nat) : Need :=
  (s.teams.filter fun (e : Nat × Team) => e.2.cluster == cl && e.2.rank == rank && e.2.residence == .swappedOut).foldl
    (fun (n : Need) e => n.add (s.taken e.1 e.2)) ⟨0, 0, 0, 0⟩

/-- Resume one team where R385 puts it. -/
def State.resumeOne (s : State) (tid : Nat) : Option State :=
  match s.team tid with
  | none => none
  | some t =>
    match s.launch t.launch, s.cluster t.cluster with
    | some l, some c =>
      if l.shape = 0 then
        (s.replace0 tid t l).bind fun core =>
          (s.modCluster t.cluster fun c => { c with cores := [core] }).putBack tid t core l.part
      else if c.reserved then
        let core := c.cores.getD t.rank 0
        if s.fitsNeed core l (s.taken tid t) true false && !s.claimed core (some t.cluster) then s.putBack tid t core l.part
        else none
      else
        (s.placeNeeds l (s.takenAt t.cluster) false).bind fun cs =>
          (s.modCluster t.cluster fun c => { c with cores := cs, reserved := true }).putBack tid t (cs.getD t.rank 0) l.part
    | _, _ => none

/-- The teams that resume together with a team: the whole launch if it is concurrent, the whole cluster if none of it is resident. -/
def State.company (s : State) (tid : Nat) (t : Team) : List Nat :=
  let whole := match s.launch t.launch with | some l => l.pclass == 0 | none => false
  let loose := match s.cluster t.cluster with | some c => !c.reserved | none => false
  (s.teams.filter fun (e : Nat × Team) => e.2.residence == .swappedOut &&
    (e.1 == tid || (whole && e.2.launch == t.launch) || (loose && e.2.cluster == t.cluster))).map (·.1)

/-- Resume a team with its company, or none of them; a concurrent launch waits until all of it has been saved. -/
def State.resume (s : State) (tid : Nat) : Option State :=
  match s.team tid with
  | none => none
  | some t =>
    let whole := match s.launch t.launch with | some l => l.pclass == 0 | none => false
    if whole && s.teams.any fun (e : Nat × Team) => e.2.launch == t.launch && e.2.residence == .resident then none
    else (s.company tid t).foldl (fun (r : Option State) k => r.bind fun s => s.resumeOne k) (some s)

/-- Whether a team that has been swapped out has something to do. In deterministic mode its spawned groups and phases start at a commit, for
which it has to be on its core (log 94). -/
def State.hasWork (s : State) (tid : Nat) (t : Team) : Bool :=
  t.stopping || !t.parked.isEmpty || !t.parkedPhases.isEmpty || !t.spawns.isEmpty
    || (s.mtxEntries.any (·.team == tid)) || (s.groupsOf tid).any fun e => e.2.gangs.any fun k => k.wait == .no

/-- Swapped-out teams that are to resume, with their prio. -/
def State.waitingTeams (s : State) : List (Nat × Team × Launch) :=
  (s.teams.filter fun (e : Nat × Team) => e.2.residence == .swappedOut && s.hasWork e.1 e.2).filterMap fun e =>
    match s.launch e.2.launch with
    | some l => if s.serves l.ctx then some (e.1, e.2, l) else none
    | none => none

/-- Whether a launch is held for want of room. -/
def State.heldBack (s : State) (lid : Nat) : Bool := (s.bindStep lid false).isNone

/-- Whether a pre-empted team of a prio or a higher one can resume: it goes ahead of new binds (R168). -/
def State.resumable (s : State) (prio : Nat) : Bool :=
  s.waitingTeams.any fun e => e.2.1.stopping && decide (prio ≤ e.2.2.prio) && (s.resume e.1).isSome

/-- TEAM_RESUME (R168, R181, R385): launches of higher prio that can bind go first; ahead of a team that was evicted without a
request, those of its own prio too. -/
def State.teamResume (s : State) (tid : Nat) : State :=
  match s.team tid with
  | none => s
  | some t =>
    match s.launch t.launch with
    | none => s
    | some l =>
      let first := s.heldLaunches.any fun e =>
        (decide (l.prio < e.2.prio) || (!t.stopping && decide (l.prio ≤ e.2.prio))) && !s.heldBack e.1
      if t.residence != .swappedOut || !s.serves l.ctx || !s.hasWork tid t || first then s
      else (s.resume tid).getD s

/-! ### What has still to start before a round of deterministic mode does (R181, log 94) -/

/-- Whether a group of some budget fits on a core beside the other groups of its own team, whatever else the core holds. -/
def State.roomAlone (s : State) (tid part budget : Nat) : Bool :=
  let gs := (s.groupsOf tid).filter fun e => e.2.stage != .betweenPhases
  decide (gs.length < 32) && decide (gs.foldl (fun (n : Nat) e => n + 128 * e.2.budget) (128 * budget) ≤ 65536 * bits part 5 0)

/-- Whether the next spawned group or the next phase of a team is due: it fits beside its own team. -/
def State.startDue (s : State) (tid : Nat) (t : Team) (l : Launch) : Bool :=
  (match t.spawns with
    | sp :: _ => (s.freeIndex tid).isSome && s.roomAlone tid l.part sp.budget
    | [] => false)
  || (((s.core t.core).phaseQ ++ t.parkedPhases).filterMap s.group).any fun g => g.team == tid && s.roomAlone tid l.part g.budget

/-- Whether a round of a launch waits for groups and phases that are due to start. Where a team of the same launch that cannot be evicted keeps
their room, it does not. -/
def State.startsDue (s : State) (lid : Nat) : Bool :=
  match s.launch lid with
  | none => false
  | some l =>
    s.teams.any fun (e : Nat × Team) => e.2.launch == lid && e.2.residence != .retired && s.startDue e.1 e.2 l
      && !(e.2.residence == .resident && s.teams.any fun (u : Nat × Team) =>
        u.1 != e.1 && u.2.core == e.2.core && u.2.residence == .resident && u.2.launch == lid && (l.pclass == 0 || s.pinned u.1 u.2))

/-! ### PREEMPTION_SAVE (R168, R196) -/

/-- Whether a launch, a team or, at a commit, a group of at least a prio waits for room. -/
def State.roomWanted (s : State) (prio : Nat) : Bool :=
  (s.launches.any fun (e : Nat × Launch) => decide (prio ≤ e.2.prio) && e.2.grants == some [] && s.startsDue e.1) ||
  s.heldLaunches.any (fun e => decide (prio ≤ e.2.prio) && s.heldBack e.1)
    || s.waitingTeams.any fun e => decide (prio ≤ e.2.2.prio) && (s.resume e.1).isNone

/-- Resident teams that a held prio 2 launch may pre-empt, in the order of R168: weakly parallel, parallel, concurrent; the lowest
prio first, and among those the most recently bound. A concurrent launch is passed over as a whole. -/
def State.victims (s : State) : List (Nat × Team) :=
  let able := fun (e : Nat × Team) =>
    match s.launch e.2.launch with
    | some l =>
      decide (l.prio < 2) && !s.pinned e.1 e.2 && (l.pclass != 0 ||
        s.teams.all fun (u : Nat × Team) => u.2.launch != e.2.launch || u.2.residence == .retired || !s.pinned u.1 u.2)
    | none => false
  let key : Nat × Team → Nat := fun e => match s.launch e.2.launch with | some l => 4 * (2 - l.pclass) + l.prio | none => 0
  sortBy (fun a b => decide (key a < key b) || (key a == key b && decide (b.2.bound ≤ a.2.bound)))
    (s.teams.filter fun (e : Nat × Team) => e.2.residence == .resident && able e)

/-- The teams that a pre-emption request goes to: a team, or all teams of a concurrent launch. -/
def State.requested (s : State) (t : Team) (tid : Nat) : List Nat :=
  match s.launch t.launch with
  | some l =>
    if l.pclass = 0 then
      (s.teams.filter fun (e : Nat × Team) => e.2.launch == t.launch && e.2.residence == .resident).map (·.1)
    else [tid]
  | none => [tid]

/-- Whether every core that holds teams of the request in progress has answered: their engines have stopped, and none of them is in a PMOFF
region or holds a quarter (R141, R196, R197). -/
def State.allAnswered (s : State) : Bool :=
  s.teams.all fun (e : Nat × Team) =>
    !e.2.stopping || e.2.residence != .resident || (s.quiet e.1 e.2 && !s.pinned e.1 e.2)

/-- Save the teams of the request in progress and free their slots (R196). -/
def State.saveRequested (s : State) : State :=
  (s.teams.filter fun (e : Nat × Team) => e.2.stopping && e.2.residence == .resident).foldl
    (fun (s : State) e => (s.countStop e.2.core 14).swapOut e.1) s

/-- PREEMPTION_SAVE: a pre-emption request goes out for a held prio 2 launch; or, when every core has answered, its teams are saved
together; or an evictable team makes room for a held launch of its prio or a higher one (R30, R168, R196). -/
def State.preemptionSave (s : State) (tid : Nat) : State :=
  match s.team tid with
  | none => s
  | some t =>
    match s.launch t.launch with
    | none => s
    | some l =>
      if t.residence != .resident || !s.serves l.ctx then s
      else if t.stopping then
        if s.allAnswered then s.saveRequested else s
      else if s.evictable tid t && s.quiet tid t && s.roomWanted l.prio && l.pclass != 0 then s.swapOut tid
      else
        let asked := s.heldLaunches.any (fun e => e.2.prio == 2 && s.heldBack e.1)
          && !s.teams.any fun (e : Nat × Team) => e.2.stopping && e.2.residence == .resident
        let hit := match s.victims with
          | v :: _ => v.1 == tid
          | [] => false
        if asked && hit then
          let go := s.requested t tid
          { s with teams := s.teams.map fun (e : Nat × Team) => if go.contains e.1 then (e.1, { e.2 with stopping := true }) else e }
        else s

/-! ### The events -/

def execJoinSpawnStart (team : Nat) (s : State) : Host.Outcome State Fault Refusal := .next (s.spawnStart team)

def execPhaseStart (core : Nat) (good : Bool) (s : State) : Host.Outcome State Fault Refusal := .next (s.phaseStart core good)

def execPreemptionSave (team : Nat) (s : State) : Host.Outcome State Fault Refusal := .next (s.preemptionSave team)

def execTeamResume (team : Nat) (s : State) : Host.Outcome State Fault Refusal := .next (s.teamResume team)

def execQueueTailWake (ctx : Nat) (s : State) : Host.Outcome State Fault Refusal := .next (s.tailWake ctx)

def execAdmitLaunch (ctx : Nat) (s : State) : Host.Outcome State Fault Refusal := .next (s.admitLaunch ctx)

def execTeamBind (launch : Nat) (s : State) : Host.Outcome State Fault Refusal :=
  .next (s.teamBind launch State.resumable)

def execLaunchComplete (ctx : Nat) (s : State) : Host.Outcome State Fault Refusal := .next (s.launchComplete ctx)

end Sys2Proof.Machine
end

