-- ==== Sys2Proof/Machine/Nodes.lean ====
section
/-! DEFINITION. Graph nodes: EMIT and the forced partial launch (R172 to R174, R317). -/
namespace Sys2Proof.Machine

/-- Bytes of a node's record, and the number of records at which a buffer starts (R165). -/
def Node.size (n : Node) : Nat := 16 * (bits n.record.toNat 499 496 + 1)
def Node.cmax (n : Node) : Nat := bits n.record.toNat 495 480

/-- The open node of a number in the issuing context. -/
def View.node (v : View) (n : Nat) : Option Node :=
  match v.x.nodes.look n with
  | some nd => if nd.closing.isNone then some nd else none
  | none => none

/-- The buffer that a node fills, opened on a free page of the pool if it has none; none when no page is free (R172). Which free page R172 does not
say: the model's choice is the lowest-numbered (log 101). -/
def State.nodeBuffer (s : State) (c n : Nat) (nd : Node) : Option (State × NodeBuf) :=
  match nd.bufs with
  | b :: _ => some (s, b)
  | [] =>
    let x := s.ctx c
    match (List.range x.rpages).find? fun p => !x.pages.contains p with
    | none => none
    | some p =>
      let (s, age) := s.fresh
      let b : NodeBuf := ⟨p, 0, age, 0⟩
      some (s.modCtx c fun x => { x with pages := x.pages ++ [p], nodes := x.nodes.put n { nd with bufs := [b] } }, b)

/-- What became of one lane's record. -/
inductive Emitted where
  | entered (s : State)
  | noPage
  /-- the pool page cannot be written -/
  | fault (addr : Nat)
  /-- the page is being copied: its home holds the write, and the gang waits (R119) -/
  | held

/-- One record enters its node (R172, R317). Its write is placed after what the issuing core has seen, so that the coalesced group's accesses
follow all that the record's reads follow. -/
def State.emitOne (s : State) (c n dclock data : Nat) : Emitted :=
  match (s.ctx c).nodes.look n with
  | none => .noPage
  | some nd =>
    match s.nodeBuffer c n nd with
    | none => .noPage
    | some (s, b) =>
      let at_ := (s.ctx c).rpool + 65536 * b.page + nd.size * b.m
      let s := match s.view with | some v => s.placeWriteY v.t.core 305 | none => s
      if (match (s.distTranslate c at_ true).2 with | some pa => s.lockedFor pa | none => false) then .held
      else
      match s.distWrite c at_ nd.size data with
      | (_, false) => .fault at_
      | (s, true) =>
        let b := { b with m := b.m + 1, dclock := max b.dclock dclock }
        let s := s.modCtx c fun x => { x with nodes := x.nodes.put n { nd with bufs := [b] } }
        .entered (if nd.cmax ≤ b.m then s.startNode c n b else s)

/-- The 16-byte reads of a lane's record. -/
def View.emitPieces (v : View) (r : BitVec 10) (n : Src) (l : Nat) : List Piece :=
  let size := match v.node (v.src n l).toNat with | some nd => nd.size | none => 16
  (List.range (size / 16)).map fun i => piece l i ((v.g.pair r.toNat l).toNat + 16 * i) 16 0

/-- Whether a lane names no open node (R317). -/
def View.nodeMisuse (v : View) (n : Src) (l : Nat) : Bool :=
  let w := (v.src n l).toNat
  w == 0 || decide (65536 ≤ w) || (v.node w).isNone

/-- An EMIT that waits: the lanes that have sent, and what is left for the others, each with its node and reads as checked (R183, R317). -/
def View.emitWaits (v : View) (ps : List Piece) (left : List (Nat × Nat)) (s : State) (done : LaneMask) (parks : Bool) : Res :=
  let s := if done = 0 then s else s.modGroup v.gid (·.impure)
  let s := if parks then s.park v.gid v.kid .emit else s
  .hold (if done = 0 then s else s.modGang v.gid v.kid fun k => { k with
    emitted := done, emitLeft := left, emitReads := ps.filter fun p => left.any fun e => e.1 == p.lane })

/-- The records of the lanes that have still to emit enter their nodes, lowest lane first, until one finds no page. A record that has entered
makes an open run impure (R99). -/
def View.emitAll (v : View) (ps : List Piece) : List (Nat × Nat) → State → LaneMask → Res
  | [], s, _ => .ok (s.modGroup v.gid (·.impure)) none
  | (l, n) :: left, s, done =>
    let (s, data) := (ps.filter fun p => p.lane == l).foldl (fun (acc : State × Nat) p =>
      let (s, x) := acc.1.coreRead v.t.core p.pa 16
      (s, acc.2 + x * 2 ^ (128 * p.stage))) (s, 0)
    match s.emitOne v.g.ctx n v.g.dclock.toNat data with
    | .entered s => v.emitAll ps left s (done ||| BitVec.twoPow 32 l)
    | .noPage => v.emitWaits ps ((l, n) :: left) s done true
    | .held => v.emitWaits ps ((l, n) :: left) s done false
    | .fault a =>
      -- no lane has emitted yet: the precise fault. Lanes that have leave the others waiting, as for a free page (R183, log 50)
      if done = 0 then .halt 0x03 a else v.emitWaits ps ((l, n) :: left) s done true

/-- The records go once every earlier access of the group has been performed (R130, R317). -/
def View.emitGo (v : View) (s : State) (ps : List Piece) (left : List (Nat × Nat)) : Res :=
  match v.drained s with
  | none => .hold s
  | some s =>
    match ps.find? s.poisoned with
    | some p => .contained 0x40 p.va (s.served p.pa / 64)
    | none => v.emitAll ps left s v.k.emitted

/-- EMIT (R172, R317): every lane is checked at issue; a gang that has waited goes on with the lanes that have still to emit, which are not
checked again once a record has entered (R183, log 50). -/
def execEmit (rc : Bool) (n : Src) (r : BitVec 10) (gd : Guard) (s : State) : Host.Outcome State Fault Refusal :=
  issue (.emit rc n r gd) s fun v s =>
    let ls := v.lanes gd
    if v.k.emitted != 0 then v.emitGo s v.k.emitReads v.k.emitLeft
    else if ls.any (v.nodeMisuse n) then .trap 0x30 0
    else
      match v.check s .g false (ls.flatMap (v.emitPieces r n)) with
      | .halt c a => .halt c a
      | .trap c => .trap c 0
      | .miss va => .hold (s.askWalk v.t.core v.gid v.kid v.g.ctx va false)
      | .ok ps => if ls.isEmpty then .ok s none else v.emitGo s ps (ls.map fun l => (l, (v.src n l).toNat))

/-- FORCED_PARTIAL_LAUNCH: every page of a pool is held by a partly filled buffer and an EMIT waits: the oldest buffer starts
(R174). -/
def State.forcePartial (s : State) (c : Nat) : State :=
  let x := s.ctx c
  let bufs := x.nodes.flatMap fun (e : Nat × Node) => e.2.bufs.map fun b => (e.1, b)
  let waits := s.groups.any fun (e : Nat × Group) => e.2.ctx == c && e.2.gangs.any fun k => k.wait == .emit
  let full := x.rpages == x.pages.length && x.pages.all fun p => bufs.any fun b => b.2.page == p
  if s.serves c && waits && full then
    match argmin (fun (b : Nat × NodeBuf) => b.2.age) bufs with
    | some (n, b) => s.startNode c n b
    | none => s
  else s

def execForcedPartialLaunch (ctx : Nat) (s : State) : Host.Outcome State Fault Refusal := .next (s.forcePartial ctx)

end Sys2Proof.Machine
end

