-- ==== Sys2Proof/Machine/Det.lean ====
section
/-! DEFINITION. Deterministic mode: rounds and their commits (R177 to R181). A commit takes as many ROUND_COMMIT events as it has
synchronising operations to execute, and one more. -/
namespace Sys2Proof.Machine

/-! ### When a round commits (R178) -/

/-- A wait that only a commit ends. -/
def Wait.untilCommit (w : Wait) : Bool :=
  match w with
  | .barrier .. | .mwait _ | .bcbwait _ | .phwait .. | .relgrp .. | .reljoin .. | .round _ | .emit => true
  | _ => false

/-- A wait for other gangs of the group. -/
def Wait.forGangs (w : Wait) : Bool :=
  match w with
  | .rendezvous .. | .trapHeld => true
  | .regang all _ => all
  | _ => false

/-- Whether a group has ended its quantum: by itself, between phases, or with every gang blocked, some of them until a commit. -/
def Group.quantumOver (g : Group) : Bool :=
  g.det.ended || g.stage == .betweenPhases
    || (g.gangs.any (·.wait.untilCommit) && g.gangs.all fun k => k.wait.untilCommit || k.wait.forGangs)

/-- The groups of a launch. -/
def State.groupsOfLaunch (s : State) (lid : Nat) : List (Nat × Group) := s.groups.filter fun (e : Nat × Group) => e.2.launch == lid

/-- The engine operations of a team, on its core or taken along. -/
def State.opsOf (s : State) (t : Team) (tid : Nat) : List EngOp :=
  if t.residence == .swappedOut then t.parked else (s.core t.core).ops.filter (·.team == tid)

/-- Whether a group has exited, and not only ended a phase. -/
def Group.gone (g : Group) : Bool := g.stage == .exiting && g.record.isNone

/-- The engine operations of a group that has exited whose completion it has not observed: their writes enter its log (R180). -/
def State.lateOps (s : State) (gid : Nat) (g : Group) : List EngOp :=
  if !g.gone then []
  else
    match s.team g.team with
    | some t => (s.opsOf t g.team).filter fun o => o.grp == gid && (!o.isOver || g.det.unseen.contains o.id)
    | none => []

/-- All that an operation writes, the fields that tell its outcome included (R180). -/
def EngOp.allBytes (o : EngOp) : List LogByte :=
  if o.isOver || o.kind == .relmrg then o.logBytes else { o with out := o.out ++ o.results }.logBytes

/-- The log of a group as a commit applies it. -/
def State.finalLog (s : State) (gid : Nat) (g : Group) : List LogByte := g.det.log ++ (s.lateOps gid g).flatMap EngOp.allBytes

/-- Whether a commit would write to a page that is being copied, by a group's log or by the barrier of one of its copies: it waits (R119). -/
def State.logHeld (s : State) (gid : Nat) (g : Group) : Bool :=
  (s.finalLog gid g).any (fun b => !b.spad && s.lockedFor b.addr) ||
    match s.team g.team with
    | some t => (s.opsOf t g.team).any fun o => o.grp == gid && match o.bar with
      | some c => (match (s.translateNow t.core o.ctx c false true).2 with | .ok pa => s.lockedFor pa | _ => false)
      | none => false
    | none => false

/-- Whether the round waits for teams of a launch that have not been bound: they are bound ahead of the resumption of those that wait for the
commit, so that which groups take part does not depend on the room there is. Only where a team that holds on to its room cannot be evicted,
and nothing can be bound, does the round go on without them (R181, log 94). -/
def State.teamsDue (s : State) (lid : Nat) : Bool :=
  match s.launch lid with
  | none => false
  | some l => decide (l.next < l.n) && ((s.bindStep lid false).isSome || !s.teams.any fun (e : Nat × Team) =>
      e.2.launch == lid && e.2.residence == .resident && s.pinned e.1 e.2)

/-- Whether groups of a launch wait to be spawned, with no group left to end the round. -/
def State.spawnsWait (s : State) (lid : Nat) : Bool :=
  s.teams.any fun (e : Nat × Team) => e.2.launch == lid && !e.2.spawns.isEmpty

/-- Whether a round may commit: every group has ended its quantum, and the engine operations of those that have exited have run. -/
def State.roundOver (s : State) (lid : Nat) : Bool :=
  let gs := s.groupsOfLaunch lid
  (!gs.isEmpty || s.spawnsWait lid) && !s.teamsDue lid
    && gs.all fun e => e.2.quantumOver && (s.lateOps e.1 e.2).all (·.ran) && !s.logHeld e.1 e.2

/-! ### Step 1: the logs (R178, R179) -/

/-- Apply one byte of a log: .S at the team, .G at its home at the logical time of the team's core. -/
def State.applyByte (s : State) (tid core : Nat) (b : LogByte) : State :=
  if b.spad then s.modTeam tid fun t => { t with spad := Mem.write t.spad b.addr b.val }
  else
    let (s, ts) := s.homeWrite b.addr 1 b.val.toNat (s.core core).pts
    s.modCore core fun k => { k with pts := max k.pts ts }

/-- Apply a group's log in its own order and empty it. -/
def State.applyLog (s : State) (e : Nat × Group) : State :=
  let core := match s.team e.2.team with | some t => t.core | none => 0
  let s := (s.finalLog e.1 e.2).foldl (fun (s : State) b => s.applyByte e.2.team core b) s
  s.modGroup e.1 fun g => { g with det := { g.det with log := [], used := 0 } }

/-- Rows that entered a population before the commit have reached their places: the population can be read, after all of them (R180). -/
def State.rowsWritten (s : State) (lid : Nat) : State :=
  let ts := (s.teams.filter fun (e : Nat × Team) => e.2.launch == lid).foldl (fun (n : Nat) e => max n (s.core e.2.core).pts) 0
  let settled := fun (hs : Tab Handle) =>
    hs.map fun (e : Nat × Handle) => if e.2.logged then (e.1, { e.2 with logged := false, ts := max e.2.ts ts }) else e
  { s with
    teams := s.teams.map fun (e : Nat × Team) => if e.2.launch == lid then (e.1, { e.2 with handles := settled e.2.handles }) else e
    clusters := s.clusters.map fun (e : Nat × Cluster) => if e.2.launch == lid then (e.1, { e.2 with handles := settled e.2.handles }) else e }

/-- Remove an engine operation of a team. -/
def State.dropOpOf (s : State) (tid : Nat) (t : Team) (id : Nat) : State :=
  if t.residence == .swappedOut then s.modTeam tid fun t => { t with parked := t.parked.filter (·.id != id) }
  else s.dropEng t.core id

/-- Whether an operation's effects are due at the commit: its completion has been observed, or its group has exited (R180). -/
def State.opDue (s : State) (o : EngOp) : Bool :=
  match s.group o.grp with
  | none => o.ran
  | some g => if g.gone then o.ran else o.isOver && !g.det.unseen.contains o.id

/-- An uncorrectable error in the barrier word of a .BCB copy, or in a table that translates it: a contained fault of the group, or an error
that nothing consumes (R152, R201). -/
def State.barBad (s : State) (core : Nat) (o : EngOp) (va sector : Nat) : State :=
  if s.present o.grp then s.containedFault o.grp (s.engReport core o .async 3 0x40 va sector)
  else { s with dev := { s.dev with unconsumed := s.dev.unconsumed ++ [sector] } }

/-- The flip of an operation's tiles for every group but its own, which has seen it, and the add of a .BCB copy (R99, R153, R180). -/
def State.settleEng (s : State) (tid : Nat) (t : Team) (o : EngOp) : State :=
  let s := s.flipTilesFor tid o.tiles false (· != o.grp)
  let s := match o.bar with
    | none => s
    | some c =>
      match s.translateNow t.core o.ctx c false true with
      | (s, .ok pa) =>
        (match s.badIn [(pa, 8)] c with
        | some (a, x) => s.barBad t.core o a x
        | none => (s.bcbAdd t.core o pa).1)
      | (s, .poisoned pa) => s.barBad t.core o c (s.served pa / 64)
      | (s, _) => s
  let s := if o.isOver then s else s.modCore t.core fun k => k.unref o.tag
  s.dropOpOf tid t o.id

/-- The first operation due at a launch's commit whose barrier word does not translate for a write: the commit waits for the halt that this
raises to be resumed (R152, R314). -/
def State.barFault (s : State) (lid : Nat) : Option (Nat × EngOp × Nat × Nat) :=
  ((s.teams.filter fun (e : Nat × Team) => e.2.launch == lid).flatMap fun (e : Nat × Team) =>
    ((s.opsOf e.2 e.1).filter s.opDue).filterMap fun o =>
      match o.bar with
      | none => none
      | some c =>
        match (s.translateNow e.2.core o.ctx c false true).2 with
        | .fault cause => some (e.2.core, o, cause, c)
        | .miss => some (e.2.core, o, 0x01, c)
        | _ => none).head?

/-- The effects of a launch's engine operations that are due. -/
def State.settleOps (s : State) (lid : Nat) : State :=
  (s.teams.filter fun (e : Nat × Team) => e.2.launch == lid).foldl (fun (s : State) (e : Nat × Team) =>
    ((s.opsOf e.2 e.1).filter s.opDue).foldl (fun (s : State) o => s.settleEng e.1 e.2 o) s) s

/-! ### Blocked operations are examined again (R180) -/

/-- The monitors of a launch's gangs. -/
def State.reviewMonitors (s : State) (lid : Nat) : State :=
  let mine := s.monitors.filter fun m => match s.group m.grp with | some g => g.launch == lid | none => false
  mine.foldl (fun (s : State) m => s.watchAgain m) s

/-- A gang that waits for a phase word or for a barrier's phase. -/
def State.reviewGang (s : State) (gid : Nat) (g : Group) (k : Gang) : State :=
  match k.wait with
  | .phwait o par =>
    let spad := match s.team g.team with | some t => t.spad | none => []
    if (Mem.read spad o).getLsbD 0 == par then
      s.modGroup gid fun g =>
        (g.modGang k.id fun k => { k with wait := .no, since := s.cycle }).retire k.id s.cycle (some 0x291) 0 false none
    else s
  | .barrier clu ph _ =>
    let scope := if clu then (match s.team g.team with | some t => t.cluster | none => 0) else g.team
    if ph < s.barPhase clu scope then s.passBarrier clu scope gid ph else s
  | .relgrp h .. => s.groupFor h
  | .reljoin .. => s.tryJoin gid k.id
  | _ => s

/-- Examine every blocked gang of a launch again, in ascending logical identifier. -/
def State.review (s : State) (lid : Nat) : State :=
  let gs := sortBy (fun (a b : Nat × Group) => decide (a.2.rank0 ≤ b.2.rank0)) (s.groupsOfLaunch lid)
  gs.foldl (fun (s : State) e => e.2.gangs.foldl (fun (s : State) k =>
    match (s.group e.1).bind fun g => (g.gang k.id).map fun k => (g, k) with
    | some (g, k) => s.reviewGang e.1 g k
    | none => s) s) (s.reviewMonitors lid)

/-! ### Step 2: the held synchronising operations (R178) -/

/-- The gangs that hold a synchronising operation, by (dclock, logical identifier). -/
def State.heldSyncs (s : State) (lid : Nat) : List (Nat × Nat) :=
  let all := (s.groupsOfLaunch lid).flatMap fun e =>
    (e.2.gangs.filter fun k => k.wait == .round true).map fun k =>
      ((e.2.dclock.toNat * 2 ^ 64 + e.2.rank0) * 8 + k.slices.headD 0, e.1, k.id)
  (sortBy (fun (a b : Nat × Nat × Nat) => decide (a.1 ≤ b.1)) all).map (·.2)

/-- Let a gang execute its held operation. -/
def State.grant (s : State) (gid kid : Nat) : State :=
  s.modGroup gid fun g =>
    { (g.modGang kid fun k => if k.wait == .round true then { k with wait := .no, since := s.cycle } else k) with
      det := { g.det with granted := some kid } }

/-- Whether a gang still holds its operation. -/
def State.holdsSync (s : State) (e : Nat × Nat) : Bool :=
  match (s.group e.1).bind (·.gang e.2) with
  | some k => k.wait == .round true
  | none => false

/-- Step 3: every group starts the next round. -/
def Group.nextRound (g : Group) (now : Nat) : Group :=
  { g with
    det := { g.det with ended := false, granted := none }
    gangs := g.gangs.map fun k => match k.wait with
      | .round _ => { k with wait := .no, since := now }
      | _ => k }

/-! ### ROUND_COMMIT -/

/-- The start of a commit: step 1, the exits, and the list for step 2. -/
def State.commitLogs (s : State) (lid : Nat) : State :=
  let gs := sortBy (fun (a b : Nat × Group) => decide (a.2.rank0 ≤ b.2.rank0)) (s.groupsOfLaunch lid)
  let s := (gs.foldl (fun (s : State) e => s.applyLog e) s).rowsWritten lid
  let s := s.settleOps lid
  let gone := gs.filter fun e => e.2.stage == .exiting
  let s := gone.foldl (fun (s : State) e =>
    (s.modGroup e.1 fun g => { g with det := { g.det with ended := false } }).leave e.1) s
  let s := s.review lid
  s.modLaunch lid fun l => { l with grants := some (s.heldSyncs lid) }

/-- Spawned groups and queued phases of a launch start where a round starts, as far as there is room (log 94). -/
def State.startWaiting (s : State) (lid : Nat) : Nat → State
  | 0 => s
  | n + 1 =>
    let mine := s.teams.filter fun (e : Nat × Team) => e.2.launch == lid && e.2.residence == .resident
    let s := mine.foldl (fun (s : State) e =>
      let s := s.spawnGroup e.1
      if s.phaseLaunch e.2.core == some lid then s.phaseGroup e.2.core true else s) s
    State.startWaiting s lid n

/-- The next held operation is let go, once the one before it has executed; after the last the next round starts, when all has started that
is due to. -/
def State.commitNext (s : State) (lid : Nat) (held : List (Nat × Nat)) : State :=
  if (s.groupsOfLaunch lid).any fun e => e.2.det.granted.isSome then s
  else
    match held.filter s.holdsSync with
    | e :: rest => (s.modLaunch lid fun l => { l with grants := some rest }).grant e.1 e.2
    | [] =>
      let s := s.startWaiting lid 32
      if s.startsDue lid then s.modLaunch lid fun l => { l with grants := some [] }
      else
      let s := s.modLaunch lid fun l => { l with grants := none, round := l.round + 1 }
      { s with groups := s.groups.map fun (e : Nat × Group) =>
          if e.2.launch == lid then (e.1, e.2.nextRound s.cycle) else e }

/-- ROUND_COMMIT of a launch in deterministic mode. -/
def State.roundCommit (s : State) (lid : Nat) : State :=
  match s.launch lid with
  | none => s
  | some l =>
    if !(s.ctx l.ctx).det || !s.serves l.ctx then s
    else
      match l.grants with
      | some held => s.commitNext lid held
      | none =>
        if !s.roundOver lid then s
        else
          match s.barFault lid with
          | some (core, o, cause, c) => s.engFault core o .async cause c
          | none => s.commitLogs lid

def execRoundCommit (launch : Nat) (s : State) : Host.Outcome State Fault Refusal := .next (s.roundCommit launch)

end Sys2Proof.Machine
end

