-- ==== Sys2Proof/Machine/Halt.lean ====
section
/-! DEFINITION. The end of a halt, resumption, the PMOFF watchdog, and the drain of a dead context (R187, R188, R197, R199). -/
namespace Sys2Proof.Machine

/-! ### Stop records (R186, R187) -/

/-- Whether a core's issue engine has stopped a context: every gang stands at a clause boundary, waits, or holds a precise fault. -/
def State.issueStopped (s : State) (c core : Nat) : Bool :=
  s.groups.all fun (e : Nat × Group) =>
    e.2.ctx != c || (match s.team e.2.team with
      | some t => t.core != core || t.residence != .resident || e.2.gangs.all fun k => k.clause.isNone || k.wait != .no
      | none => true)

/-- A gang of a context that halts, whose instruction has been tried and still stands where it stood, stops there: what it waits for may come
only after the halt, as the end of a faulted engine operation or the host's answer to a page request. It executes the instruction again when
the context goes on (R187, R188, log 98). -/
def State.stalled (before after : State) (core port : Nat) : State :=
  match before.holder core port with
  | none => after
  | some (gid, g, _, k) =>
    match (after.group gid).bind (·.gang k.id) with
    | none => after
    | some k' =>
      let same := match k.clause, k'.clause with
        | some c, some c' => c.hdr == c'.hdr && c.slot == c'.slot
        | _, _ => false
      if same && k'.wait == .no && k'.walking.isNone && (after.ctx g.ctx).line.isSome then after.park gid k.id .stopped else after

/-- Whether a core has memory requests of a context in flight. One that waits for the host to grant a translation stays where it is, with
those that stand behind it in core order and the probes that follow it (R122, R136, R221), and so does one whose data is poisoned: its
contained fault comes after the halt (R187). -/
def State.memBusy (s : State) (c core : Nat) : Bool :=
  let k := s.core core
  let kept := fun (o : Op) => s.cores.any fun (e : Nat × Core) =>
    e.2.yq.any fun y => y.op.ctx == o.ctx && decide (y.op.id < o.id) && !s.mayGo e.1 y
  (k.rq.filter (fun o => !k.stuck o) ++ k.wk.filter (fun o => o.waiting.any fun p => !k.held o p)
      ++ k.replies.filter (·.poison.isNone) ++ k.probes.filter fun o => !kept o).any (·.ctx == c)
    || k.yq.any fun y => y.op.ctx == c && s.mayGo core y && (y.write || !s.linkDown y)

/-- Whether a serving engine is quiescent: the issue engine at clause boundaries, the MEM engine when it has drained, and the others,
which can stop at any of their boundaries, once no gang of their cores needs them any more (R162, R187). -/
def State.quiescent (s : State) (c at_ : Nat) (eng : Engine) : Bool :=
  let issues := (s.ctx c).serving
  match eng with
  | .issue => s.issueStopped c at_
  | .mem => !issues.contains (at_, .issue) && !s.memBusy c at_
  | .async => !issues.contains (at_, .issue)
  | .relation => !issues.contains (at_, .issue)
  | .matrix => [0, 1, 2, 3].all fun i => !issues.contains (4 * at_ + i, .issue)

/-- The record of an engine that stops without a fault of its own (R187). -/
def Report.stopped (core : Nat) (eng : Engine) : Report where
  cls := 0
  cause := 0
  addr := 0
  aux := 0
  serial := 0
  team := 0
  clause := 0
  islot := 0
  gslot := 0
  group := 0
  core := core
  tag := 0xFF
  exited := false
  precise := false
  engine := engineCode eng
  slices := 0
  opa := 0
  opb := 0

/-- The core that a record names: a matrix engine's, by the first core of its quad. -/
def recordCore (at_ : Nat) (eng : Engine) : Nat := if eng = .matrix then 4 * at_ else at_

/-- The record that a serving engine writes: its own fault's, or one of class 0. -/
def Ctx.recordOf (x : Ctx) (at_ : Nat) (eng : Engine) : Report :=
  let mine := x.reports.find? fun r =>
    r.engine == engineCode eng && (if eng = .matrix then r.core / 4 == at_ else r.core == at_)
  mine.getD (Report.stopped (recordCore at_ eng) eng)

/-- ENGINE_STOP_RECORD: a quiescent engine writes its record in the halt area; a write that cannot be completed makes the context
dead (R184, R187). -/
def State.stopRecord (s : State) (c at_ : Nat) (eng : Engine) : State :=
  let x := s.ctx c
  if !x.alive || x.line.isNone || x.halted || !x.serving.contains (at_, eng) || !s.quiescent c at_ eng then s
  else
    let r := x.recordOf at_ eng
    match s.distWrite c (x.save + 0x1000 + 64 * x.nrec) 64 (r.bits s.dev.mapno) with
    | (s, false) => (s.countStop r.core 8).contextDeath c
    | (s, true) =>
      let s := if r.cls = 0 then s.countStop r.core 15 else s
      s.modCtx c fun x => { x with nrec := x.nrec + 1, serving := x.serving.filter fun e => e != (at_, eng) }

/-- HALT_COMPLETE: every record is written; the context is halted and the host learns of it. A region open in it defers nothing any
more (R187, R197). -/
def State.haltComplete (s : State) (c : Nat) : State :=
  let x := s.ctx c
  if !x.alive || x.line.isNone || x.halted || !x.serving.isEmpty then s
  else
    let s := s.modCtx c fun x => { x with halted := true, hseq := x.hseq + 1 }
    match s.distWrite c (s.ctx c).save 32 (s.ctx c).header with
    | (s, false) => (s.countStop (((s.ctx c).reports.head?.map (·.core)).getD 0) 8).contextDeath c
    | (s, true) =>
      let s := { s with groups := s.groups.map fun (e : Nat × Group) =>
        if e.2.ctx == c then (e.1, { e.2 with pmoff := none }) else e }
      s.postEvent 1 c 0

/-! ### Resumption (R188) -/

/-- The gangs that a halt stopped execute their instructions again, and their clauses are fetched again (R188, R264); every gang that is
ready becomes so now (R171). -/
def Group.unstop (g : Group) (now : Nat) : Group :=
  { g with gangs := mapIf (fun (k : Gang) => k.wait == .stopped || k.wait == .no) (fun k =>
      { k with wait := .no, since := now, clause := k.clause.map fun c => { c with words := [] } }) g.gangs }

/-- The engines and gangs of a halted context go on: faulted engine operations continue from their boundary, and requests for pre-emption
that the halt overtook are void (R188, R196). -/
def State.goOn (s : State) (c : Nat) : State :=
  let calm := fun (o : EngOp) => if o.ctx == c then { o with faulted := false } else o
  { s with
    groups := s.groups.map fun (e : Nat × Group) => if e.2.ctx == c then (e.1, e.2.unstop s.cycle) else e
    teams := s.teams.map fun (e : Nat × Team) =>
      let mine := match s.launch e.2.launch with | some l => l.ctx == c | none => false
      if mine then (e.1, { e.2 with
        stopping := e.2.stopping && e.2.residence == .swappedOut, parked := e.2.parked.map calm }) else e
    cores := s.cores.map fun (e : Nat × Core) => (e.1, { e.2 with ops := e.2.ops.map calm }) }

/-- A halted context goes on, and its header says so (R185, R188); a header that cannot be written makes it dead (R184). -/
def State.resumeCtx (s : State) (c : Nat) : State :=
  let s := s.modCtx c fun x => { x with line := none, halted := false, serving := [], reports := [] }
  match s.distWrite c (s.ctx c).save 32 (s.ctx c).header with
  | (s, true) => s.goOn c
  | (s, false) => s.contextDeath c

/-! ### Watchdog and drain -/

/-- WATCHDOG_EXPIRY: 2^22 core cycles after the opening PMOFF the group's next instruction faults; until then the region stays open
(R197). -/
def State.watchdog (s : State) (grp : Nat) : State :=
  s.modGroup grp fun g =>
    match g.pmoff with
    | some since => if since + 2 ^ 22 ≤ s.cycle then { g with overrun := true } else g
    | none => g

/-- Whether a request that bears a context's tag is still somewhere. -/
def State.tagged (s : State) (c : Nat) : Bool :=
  (s.cores.any fun (e : Nat × Core) =>
    (e.2.rq ++ e.2.wk ++ e.2.replies ++ e.2.probes ++ e.2.yq.map (·.op)).any (·.ctx == c) || e.2.ops.any (·.ctx == c))
  || s.quads.any fun (e : Nat × Quad) => e.2.table.any (·.ctx == c)

/-- DEAD_DRAIN_COMPLETE: the bit in %ctxdead clears, and the number's next use has the next generation (R199). -/
def State.drained (s : State) (c : Nat) : State :=
  if !(s.ctx c).dead || s.tagged c then s
  else s.modCtx c fun x => { x with dead := false, gen := (x.gen + 1) % 64 }

/-! ### The events -/

def execEngineStopRecord (ctx core : Nat) (eng : Engine) (s : State) : Host.Outcome State Fault Refusal :=
  .next (s.stopRecord ctx core eng)

def execHaltComplete (ctx : Nat) (s : State) : Host.Outcome State Fault Refusal := .next (s.haltComplete ctx)

def execWatchdogExpiry (grp : Nat) (s : State) : Host.Outcome State Fault Refusal := .next (s.watchdog grp)

def execDeadDrainComplete (ctx : Nat) (s : State) : Host.Outcome State Fault Refusal := .next (s.drained ctx)

end Sys2Proof.Machine
end

