-- ==== Sys2Proof/Machine/WearEvents.lean ====
section
/-! DEFINITION. Ageing, wear and in-field tests as they happen: readings, charges, flash writes, retirement, test notices and verdicts,
power and heat (R204 to R218). -/
namespace Sys2Proof.Machine

/-! ### Readings and charges -/

/-- The largest of some measurements, and not below zero. -/
def largest (xs : List Int) : Nat := xs.foldl (fun m x => max m x.toNat) 0

/-- What a reading does to a core's record (R204, R205, R208): wear accrues by the largest increment, and by no less than the milliseconds of the
interval have charged (R206), the two EM damages by theirs, and power-on time by one interval. The readings of the last 30 days are kept. -/
def Wear.measure (w : Wear) (r : Reading) (step charged : Nat) : Wear :=
  let acc := max (largest r.incs) charged
  let em := fun (i : Nat) => w.em.getD i 0 + (r.incs.getD (4 + i) 0).toNat
  let recent := ((acc, r.temp) :: w.recent).take (30 * 8640)
  { w with
    cwu := w.cwu + acc
    em := (w.em.put 0 (em 0)).put 1 (em 1)
    drift := (List.range 4).foldl (fun (t : Tab Int) i => t.put i (r.drifts.getD i 0)) w.drift
    hours := w.hours + 1
    vfh := w.vfh.put step (w.vfh.getD step 0 + 1)
    tpeak := max w.tpeak r.temp
    tpk30 := (recent.map (·.2)).foldl max r.temp
    recent := recent }

/-- The largest of a record's four drifts (R204). -/
def Wear.maxDrift (w : Wear) : Nat := largest ((List.range 4).map fun i => w.drift.getD i 0)

/-- The threshold transitions of R212. -/
def State.thresholds (s : State) (core : Nat) : State :=
  let w := s.wear core
  if w.state == .drained || w.state == .retired then s
  else if 6000 < w.maxDrift then s.moveCore core .drained 1
  else if 95 * lifeBudget ≤ 100 * w.cwu then s.moveCore core .drained 2
  else if w.state == .derated then s
  else if 3000 < w.maxDrift then s.moveCore core .derated 1
  else if 70 * lifeBudget ≤ 100 * w.cwu then s.moveCore core .derated 2
  else s

/-- The temperature of a core's hottest sensor (R61, R218); a privileged write of %tempc gives way to it (R4). -/
def State.heat (s : State) (core : Nat) (temp : Int) : State :=
  { s with dev := { s.dev with
    tempc := s.dev.tempc.put core (BitVec.ofInt 32 temp), privSet := s.dev.privSet.del (privKey core 0x43) } }

/-- A sample of the sensors, between two readings of the monitors (R218): the lifetime peak rises with it (R208). -/
def State.sample (s : State) (core : Nat) (temp : Int) : State :=
  if 288 ≤ core then s else (s.modWear core fun w => { w with tpeak := max w.tpeak temp }).heat core temp

/-- What the code of a page of flash finds (R200, R201). -/
def State.flashError (s : State) (page : Nat) (bad : Bool) : State :=
  let (c, u) := s.dev.flashErrs.getD page (0, 0)
  { s with dev := { s.dev with flashErrs := s.dev.flashErrs.put page (if bad then (c, u + 1) else (c + 1, u)) } }

/-- MONITOR_MEASUREMENT: the monitors of a core measure; the largest accrual recorded is kept for R209. -/
def State.measure (s : State) (core : Nat) (r : Reading) : State :=
  if 288 ≤ core then s
  else
    let step := (s.dev.islands.getD (core / 4) 0).toNat
    let charged := s.dev.charged.getD core 0
    let s := s.modWear core fun w => w.measure r step charged
    let accel := max (s.dev.flash.accel.getD core 0) (max (largest r.incs) charged)
    let s := { s with dev := { s.dev with
      charged := s.dev.charged.put core 0
      flash := { s.dev.flash with accel := s.dev.flash.accel.put core accel } } }
    (s.heat core r.temp).thresholds core

/-- One share of a core's accrual (R206), in 2^-16 WU, rounded down. -/
def share (acc cycles busy : Nat) : Nat := acc * busy / (5 * cycles)

/-- Busy cycles measured, among those that a test selects. -/
def busyOf (busy : List (Nat × Nat × Nat)) (p : Nat × Nat × Nat → Bool) : Nat := (busy.filter p).foldl (fun n b => n + b.2.2) 0

/-- The contexts and launches that a core has served since the last charge: those that have begun a clause there or had a request computed, and
those whose gangs hold a port (R206). -/
def State.servedBy (s : State) (core : Nat) : List (Nat × Nat) :=
  (s.core core).served ++ [0, 1, 2, 3].filterMap fun p => (s.holder core p).map fun e => (e.2.1.ctx, e.2.1.launch)

/-- WEAR_CHARGE: a millisecond's accrual of a core is divided among the contexts it served, by launch: context, launch, busy cycles. Each
context is charged its one share, and each launch the share of its groups' cycles (R206; log 95: the accrual and the cycles of a
millisecond are the event's to say, since the monitors measure every 10 s only; what it charges counts towards the next reading). Busy cycles
above the capacity, and those of a context that the core has not served, are no measurement. -/
def State.wearCharge (s : State) (core acc cycles : Nat) (busy : List (Nat × Nat × Nat)) : State :=
  if decide (288 ≤ core) || decide (5 * cycles < busyOf busy fun _ => true)
      || busy.any (fun b => !(s.servedBy core).contains (b.1, b.2.1)) then s
  else
    let s := { s with dev := { s.dev with
      charged := s.dev.charged.put core (s.dev.charged.getD core 0 + acc), load := s.dev.load.put core (busyOf busy fun _ => true) } }
    let s := s.modCore core fun k => { k with served := [] }
    let s := (busy.map (·.1)).eraseDups.foldl (fun (s : State) c =>
      if (s.ctx c).alive then
        s.modCtx c fun x => { x with wu := x.wu + share acc cycles (busyOf busy fun b => b.1 == c) }
      else s) s
    (busy.map (·.2.1)).eraseDups.foldl (fun (s : State) l =>
      s.modLaunch l fun x =>
        if (s.ctx x.ctx).alive then
          { x with wu := x.wu + share acc cycles (busyOf busy fun b => b.2.1 == l && b.1 == x.ctx) }
        else x) s

/-! ### Flash writes and predictions (R209 to R211) -/

/-- The unmapped quads of a die all of whose cores are HEALTHY (R210). -/
def State.spares (s : State) (die : Nat) : List Nat :=
  ((List.range 18).map (· + 18 * die)).filter fun q =>
    !s.mapped q && [0, 1, 2, 3].all fun i => (s.wear (4 * q + i)).state == .healthy

/-- Whether 60 s of power-on time have passed for some core since its record was written (R209). -/
def State.flashDue (s : State) : Bool :=
  s.dev.wear.any fun e => decide ((s.dev.flash.wear.getD e.1 Wear.fresh).hours + 6 ≤ e.2.hours)

/-- A die's predicted end of life; none is unbounded (R210). -/
def State.dieLife (s : State) (die : Nat) : Option Nat :=
  let n := (s.spares die).length
  let quads := ((List.range 18).map (· + 18 * die)).filter s.mapped
  if quads.length ≤ n then none
  else
    let eols := quads.flatMap fun q => [0, 1, 2, 3].map fun i => (s.wear (4 * q + i)).life.getD (2 ^ 64)
    let e := (sortBy (fun a b => decide (a ≤ b)) eols).getD n (2 ^ 64)
    if e = 2 ^ 64 then none else some e

/-- The replacement request, raised once (R211). -/
def State.reviewParts (s : State) : State :=
  let bare := [0, 1, 2, 3].any fun d => (s.spares d).isEmpty
  let old := [0, 1, 2, 3].any fun d => match s.dieLife d with | some e => decide (e < 90) | none => false
  if s.dev.replacement || !(bare || old) then s
  else
    { s with dev := { s.dev with replacement := true, flash := { s.dev.flash with replacement := true } } }.postEvent 3 0 0

/-- WEAR_FLASH_WRITE: every 60 s of power-on time, which a step lets nothing else precede (R209). -/
def State.wearWrite (s : State) : State := if s.flashDue then s.flashWear.reviewParts else s

/-! ### Retirement (R214) -/

/-- QUAD_RETIREMENT: a quad under CRETIRE whose cores are all idle leaves the map, and a spare of its die takes its logical number. -/
def State.retireQuad (s : State) (q : Nat) : State :=
  let cores := [0, 1, 2, 3].map (· + 4 * q)
  if !s.dev.retiring.contains q || !cores.all fun c => s.coreIdle c && (s.wear c).state == .drained then s
  else
    let s := cores.foldl (fun (s : State) c => s.moveCore c .retired (s.wear c).why) s
    let spare := (s.spares (q / 18)).head?
    let map := s.dev.map.map fun m => if m == some q then spare else m
    let d := { s.dev with
      retiring := s.dev.retiring.filter (· != q)
      map := map
      mapno := s.dev.mapno + 1
      flash := { s.dev.flash with map := map, mapno := s.dev.mapno + 1 } }
    { s with dev := d }.reviewParts

/-! ### In-field tests (R215, R216) -/

/-- Power-on time of a core, in 10 s intervals. -/
def State.powerOn (s : State) (core : Nat) : Nat := (s.wear core).hours

/-- TEST_DUE_NOTICE: after every 8 hours of a core's power-on time. -/
def State.testDue (s : State) (core : Nat) : State :=
  let last := match s.dev.testDue.look core with | some e => e.1 | none => 0
  if decide (288 ≤ core) || decide (s.powerOn core < last + 2880) then s
  else
    let s := s.postNotice 5 0 (BitVec.ofNat 128 (core % 512))
    { s with dev := { s.dev with testDue := s.dev.testDue.put core (s.powerOn core, false) } }

/-- TEST_OVERDUE: 4 hours after the notice the core has not been tested. -/
def State.testOverdue (s : State) (core : Nat) : State :=
  match s.dev.testDue.look core with
  | some (since, false) =>
    if s.powerOn core < since + 1440 then s
    else
      let s := s.modWear core fun w => { w with overdue := w.overdue + 1 }
      let s := if (s.wear core).state == .healthy then s.moveCore core .derated 4 else s
      let s := { s with dev := { s.dev with testDue := s.dev.testDue.put core (since, true) } }
      s.postNotice 5 0 (BitVec.ofNat 128 (core % 512))
  | _ => s

/-- The running test of a core. -/
def State.testOn (s : State) (core : Nat) (aborting : Bool) : Option TestRun :=
  s.dev.tests.find? fun t => t.core == core && t.aborting == aborting

/-- End a test: its status word is written with ordinary stores of the core that started it. -/
def State.endTest (s : State) (t : TestRun) (got status : Nat) : State :=
  let s := s.writeStatus t.issuer t.pa (Config.expectSignature t.core).toNat got t.run status
  { s with dev := { s.dev with tests := s.dev.tests.filter fun u => u.core != t.core } }

/-- TEST_RUN_COMPLETE: the verdict, then the record (R215). -/
def State.testComplete (s : State) (core : Nat) (got : BitVec 32) : State :=
  match s.testOn core false with
  | none => s
  | some t =>
    if s.lockedFor t.pa then s
    else
      let pass := got == Config.expectSignature core
      let s := s.endTest t got.toNat (if pass then 2 else 3)
      let s := s.modWear core fun w => { w with tests := w.tests + 1, lasttest := w.hours / 360 }
      let s := if pass then s else s.countErr core 6
      { s with dev := { s.dev with testDue := s.dev.testDue.alter core fun e => (e.1, true) } }

/-- TEST_ABORT_COMPLETE: the scan state is reset and status 4 written (R216). -/
def State.testAborted (s : State) (core : Nat) : State :=
  match s.testOn core true with
  | none => s
  | some t => if s.lockedFor t.pa then s else s.endTest t 0 4

/-! ### Power and heat (R217, R218) -/

/-- Set an island's step: a quad with a core past HEALTHY never runs above step 1 (R212, R217). The spec numbers no island: island q below
72 is that of physical quad q, and 72 to 127 are the others (log 80). -/
def State.setStep (s : State) (island : Nat) (step : BitVec 3) : State :=
  let step := if decide (island < 72) && wornQuad s.dev.wear island && step == 0 then 1 else step
  { s with dev := { s.dev with islands := s.dev.islands.put island step } }

/-- The busy cycles of a quad in the last millisecond (R206, R217). -/
def State.quadLoad (s : State) (q : Nat) : Nat := [0, 1, 2, 3].foldl (fun n i => n + s.dev.load.getD (4 * q + i) 0) 0

/-- Whether a quad island may be lowered to hold package power: it is among the busiest of those that can be (R217). -/
def State.busiest (s : State) (q : Nat) : Bool :=
  (List.range 72).all fun r => decide (5 ≤ (s.dev.islands.getD r 0).toNat) || decide (s.quadLoad r ≤ s.quadLoad q)

/-- POWER_CAP: Distaff sets an island's step. Only an idle quad is gated or put in retention; of quad islands the busiest is lowered first; and
none rises while heat throttles it (R217, R218). -/
def State.powerCap (s : State) (island : Nat) (step : BitVec 3) : State :=
  let quad := decide (island < 72)
  let idle := [0, 1, 2, 3].all fun i => s.coreIdle (4 * island + i)
  let now := s.dev.islands.getD island 0
  let lower := decide (now.toNat < step.toNat) && decide (step.toNat < 6)
  if decide (128 ≤ island) || (quad && !idle && decide (6 ≤ step.toNat)) || (quad && lower && !s.busiest island)
      || (s.dev.throttled.contains island && decide (step.toNat < now.toNat)) then s
  else s.setStep island step

/-- THERMAL_THROTTLE: at 100 °C one step lower each millisecond, down to the slowest that runs, until below 95 °C. -/
def State.throttle (s : State) (island : Nat) (hot : Bool) : State :=
  if 128 ≤ island then s
  else if hot then
    let step := s.dev.islands.getD island 0
    let s := { s with dev := { s.dev with
      throttled := if s.dev.throttled.contains island then s.dev.throttled else s.dev.throttled ++ [island] } }
    if 5 ≤ step.toNat then s else s.setStep island (step + 1)
  else { s with dev := { s.dev with throttled := s.dev.throttled.filter (· != island) } }

/-- THERMAL_TRIP: at 110 °C every context dies and the trip is reported; the package runs again only after a reset. -/
def State.trip (s : State) : State :=
  let s := (List.range 64).foldl (fun (s : State) c => s.contextDeath c) s
  { s with dev := { s.dev with tripped := true } }.postEvent 4 0 0

/-! ### The events -/

def execMonitorMeasurement (core : Nat) (r : Reading) (s : State) : Host.Outcome State Fault Refusal := .next (s.measure core r)

def execWearCharge (core acc cycles : Nat) (busy : List (Nat × Nat × Nat)) (s : State) : Host.Outcome State Fault Refusal :=
  .next (s.wearCharge core acc cycles busy)

def execWearFlashWrite (s : State) : Host.Outcome State Fault Refusal := .next s.wearWrite

def execQuadRetirement (quad : Nat) (s : State) : Host.Outcome State Fault Refusal := .next (s.retireQuad quad)

def execTestDueNotice (core : Nat) (s : State) : Host.Outcome State Fault Refusal := .next (s.testDue core)

def execTestOverdue (core : Nat) (s : State) : Host.Outcome State Fault Refusal := .next (s.testOverdue core)

def execTestRunComplete (core : Nat) (got : BitVec 32) (s : State) : Host.Outcome State Fault Refusal :=
  .next (s.testComplete core got)

def execTestAbortComplete (core : Nat) (s : State) : Host.Outcome State Fault Refusal := .next (s.testAborted core)

def execPowerCap (island : Nat) (step : BitVec 3) (s : State) : Host.Outcome State Fault Refusal := .next (s.powerCap island step)

def execThermalThrottle (island : Nat) (hot : Bool) (s : State) : Host.Outcome State Fault Refusal :=
  .next (s.throttle island hot)

def execThermalTrip (s : State) : Host.Outcome State Fault Refusal := .next s.trip

end Sys2Proof.Machine
end

