-- ==== Sys2Proof/Machine/Migrate.lean ====
section
/-! DEFINITION. Page migration (R119, R224). -/
namespace Sys2Proof.Machine

/-- The leaf that maps an address: its entry's physical address, the entry, and the translation it gives. -/
def leafOf (s : State) (ctx va : Nat) : Nat → Nat → Option (Nat × Nat × TlbEntry)
  | n, table =>
    let a := table + 8 * bits va (levelLow n + levelBits n - 1) (levelLow n)
    let e := (s.homeRead a 8).2
    match readEntry s ctx va n e with
    | .ok (.inl (.ok t)) => some (a, e, t)
    | .ok (.inr t) => (match n with | 0 => none | m + 1 => leafOf s ctx va m t)
    | _ => none

/-- Why a page cannot be migrated to a base: it is not a 64 KiB or 2 MiB device page, or the base cannot hold it. -/
def State.mayMigrate (s : State) (c : Nat) (t : TlbEntry) (dst : Nat) : Bool :=
  !t.host && (t.size == 2 ^ 16 || t.size == 2 ^ 21) && dst % t.size == 0 && decide (dst + t.size ≤ 2 ^ 40)
    && dst != t.pa && (!(s.ctx c).conf || (s.ctx c).covers dst t.size) && !s.trespass c dst t.size
    && !s.migrations.any fun m => overlap m.p m.size t.pa t.size || overlap m.q m.size dst t.size
        || overlap m.p m.size dst t.size || overlap m.q m.size t.pa t.size

/-- The copy phase begins: every line of the page is locked (R119). -/
def State.beginMigration (s : State) (c va dst : Nat) : State × Bool :=
  if !canonical va then (s, false)
  else
    match leafOf s c va 4 (s.ctx c).root with
    | none => (s, false)
    | some (_, _, t) =>
      if s.mayMigrate c t dst then
        ({ s with migrations := s.migrations ++ [⟨c, t.va, t.size, t.pa, dst, false, []⟩] }, true)
      else (s, false)

/-- The address that a byte of the page has after the move. -/
def Migration.moved (m : Migration) (a : Nat) : Nat := if m.p ≤ a && a < m.p + m.size then a - m.p + m.q else a

/-- Copy the page's bytes, the old bytes of the new page giving way. -/
def Migration.copy (m : Migration) (mem : List Host.Cell) : List Host.Cell :=
  let page := mem.filter fun c => decide (m.p ≤ c.1) && decide (c.1 < m.p + m.size)
  page.foldl (fun (t : List Host.Cell) c => Mem.write t (m.moved c.1) c.2) (Mem.clear mem m.q m.size)

/-- Recall every copy of the lines of a range. -/
def State.recallRange (s : State) (pa n : Nat) : State :=
  (s.dir.filter fun (e : Nat × DirEntry) => decide (lineOf pa ≤ e.1) && decide (256 * e.1 < pa + n)).foldl
    (fun (s : State) e => s.recallSharers e.1) s

/-- A line of the new page is not earlier in logical time than the line it takes over. -/
def State.moveTimes (s : State) (m : Migration) : State :=
  (s.dir.filter fun (e : Nat × DirEntry) => decide (lineOf m.p ≤ e.1) && decide (256 * e.1 < m.p + m.size)).foldl
    (fun (s : State) e => s.modLine (lineOf (m.moved (256 * e.1))) fun d =>
      { d with wts := max d.wts e.2.wts, rts := max d.rts e.2.rts }) s

/-- The writes that an engine operation of deterministic mode keeps follow the page. -/
def Migration.followOp (m : Migration) (o : EngOp) : EngOp := { o with gout := o.gout.map fun w => (m.moved w.1, w.2) }

/-- What holds the page's physical addresses for long follows it: monitors, pinned constant banks, tests' status words, store logs, the
kept writes of engine operations, the reads of an EMIT that waits, and poison marks. -/
def State.follow (s : State) (m : Migration) : State :=
  { s with
    monitors := s.monitors.map fun x => { x with pa := m.moved x.pa }
    launches := s.launches.map fun (e : Nat × Launch) => (e.1, { e.2 with bank := e.2.bank.map m.moved })
    ctxs := s.ctxs.map fun (e : Nat × Ctx) => (e.1, { e.2 with
      nodes := e.2.nodes.map fun (n : Nat × Node) => (n.1, { n.2 with bank := n.2.bank.map m.moved }) })
    groups := s.groups.map fun (e : Nat × Group) => (e.1, { e.2 with
      gangs := e.2.gangs.map fun k => { k with emitReads := k.emitReads.map fun p => { p with pa := m.moved p.pa } }
      det := { e.2.det with log := e.2.det.log.map fun b => if b.spad then b else { b with addr := m.moved b.addr } } })
    cores := s.cores.map fun (e : Nat × Core) => (e.1, { e.2 with ops := e.2.ops.map m.followOp })
    teams := s.teams.map fun (e : Nat × Team) => (e.1, { e.2 with parked := e.2.parked.map m.followOp })
    dev := { s.dev with
      tests := s.dev.tests.map fun (t : TestRun) => { t with pa := m.moved t.pa }
      poison := s.dev.poison.map fun x => m.moved (64 * x) / 64 } }

/-- Rewrite the leaf of a page to its new base, and invalidate the TLBs. -/
def State.rewriteLeaf (s : State) (m : Migration) : State :=
  let s := match leafOf s m.ctx m.va 4 (s.ctx m.ctx).root with
    | some (a, e, t) =>
      if t.pa = m.p then (s.homeWriteRange a 8 (e - entryAddr e + m.q) (s.dev.agents.getD 305 0)).1 else s
    | none => s
  s.dropTranslations (invRange (some m.ctx) m.va m.size)

/-- MIGRATION_SWITCH: the page has been copied; the leaf is rewritten, and what the homes hold is applied to the new page in arrival order:
the writes of Distaff, the host port and the links here, those of cores as they stand at the head of their queues. -/
def State.migrationSwitch (s : State) (k : Nat) : State :=
  match s.migrations[k]? with
  | none => s
  | some m =>
    if m.switched then s
    else
      let s := (s.recallRange m.p m.size).recallRange m.q m.size
      let s := ({ s with mem := m.copy s.mem }.moveTimes m).follow m
      let s := s.rewriteLeaf m
      let s := { s with migrations := s.migrations.set k { m with switched := true, held := [] } }
      m.held.foldl (fun (s : State) h => s.agentWrite h.2.2.2 h.1 h.2.1 h.2.2.1) s

/-- MIGRATION_RELEASE: no access under the old translation is left, and the locks clear. -/
def State.migrationRelease (s : State) (k : Nat) : State :=
  match s.migrations[k]? with
  | none => s
  | some m =>
    let stale := s.cores.any fun (e : Nat × Core) =>
      (e.2.rq ++ e.2.wk).any fun o => o.waiting.any fun p => overlap p.pa p.len m.p m.size
    if !m.switched || stale then s else { s with migrations := dropAt s.migrations k }

def execMigrationSwitch (k : Nat) (s : State) : Host.Outcome State Fault Refusal := .next (s.migrationSwitch k)

def execMigrationRelease (k : Nat) (s : State) : Host.Outcome State Fault Refusal := .next (s.migrationRelease k)

end Sys2Proof.Machine
end

