-- ==== Sys2Proof/Machine/HostCmds.lean ====
section
/-! DEFINITION. The management commands of the host (R163, R184, R188, R223 to R226, R232). A command event is the host's submission of
an entry and Distaff's execution of it. -/
namespace Sys2Proof.Machine

/-! ### Rings and statuses (R223, R224) -/

/-- The code and the context byte of an entry. -/
def entryCode (e : BitVec 512) : Nat := bits e.toNat 15 0
def entryCtx (e : BitVec 512) : Nat := bits e.toNat 31 24

/-- An entry with a status byte. -/
def withStatus (e : BitVec 512) (n : Nat) : BitVec 512 :=
  BitVec.ofNat 512 (e.toNat - bits e.toNat 23 16 * 2 ^ 16 + n % 256 * 2 ^ 16)

/-- The 56 bytes of an entry's arguments, from byte 8 on, and those of a list. -/
def entryArgs (e : BitVec 512) : List Byte := leBytes (e.toNat / 2 ^ 64) 56

def argBytes (args : List Byte) : List Byte := (List.range 56).map fun i => args.getD i 0

/-- Arguments as words of 64 bits, in the order of R224's table. R232 gives SETROUTE's bytes; where the others lie from byte 8 on the spec does not
say (log 107). -/
def argWords (ws : List Nat) : List Byte := ws.flatMap fun w => leBytes w 8

/-- An entry as the host submits it: its code, the status byte 0xFF, its context and its arguments. -/
def freshEntry (code c : Nat) (args : List Byte) : BitVec 512 :=
  withStatus (BitVec.ofNat 512 (code % 2 ^ 16 + c % 256 * 2 ^ 24 + Mem.readN (Mem.writeBytes [] 0 (argBytes args)) 0 56 * 2 ^ 64)) 0xFF

/-- Whether an entry is a command with its arguments; byte 3 names a context in the codes that have one (R224). -/
def entryIs (e : BitVec 512) (code c : Nat) (args : List Byte) : Bool :=
  entryCode e == code && (decide (7 ≤ code) || entryCtx e == c % 256) && entryArgs e == argBytes args

/-- Write the status byte of the command at a ring's head and advance head. A reason is some value that is not zero: which, the
manual does not say (log 23). -/
def State.answer (s : State) (ring : Nat) (ok : Bool) : State :=
  let r := s.ringOf ring
  let pos := r.head % ringEntries ring
  let why := 1 + (Config.freeWord s.free).toNat % 255
  let s := if ok then s else { s with free := s.free + 1 }
  s.setRing ring { r with head := r.head + 1, entries := r.entries.put pos (withStatus (r.entries.getD pos 0) (if ok then 0 else why)) }

/-- The host submits a command: the entry at the tail, and the tail advances. -/
def State.submit (s : State) (ring code c : Nat) (args : List Byte) : State :=
  let r := s.ringOf ring
  s.setRing ring { r with tail := r.tail + 1, entries := r.entries.put (r.tail % ringEntries ring) (freshEntry code c args) }

/-- The commands that a VF may issue: CREATECTX, KILLCTX, RESUME, NOTIFYMAP and TLBINV. -/
def vfMay (code : Nat) : Bool := decide (1 ≤ code) && decide (code ≤ 5)

/-- Carry out the command at a ring's head. -/
def State.carryOut (s : State) (ring code : Nat) (act : State → State × Bool) : State :=
  if ring != 0 && !vfMay code then s.answer ring false
  else
    match act s with
    | (s', true) => s'.answer ring true
    | (_, false) => s.answer ring false

/-- A command of a code and context byte, accepted once bring-up is complete and while clocks run. On an empty ring the host submits it and
Distaff carries it out; entries that the host has written before go first: the one at the head is carried out if it is this command with these
arguments, and an entry whose code is none of R224's is answered with a reason. -/
def State.command (s : State) (ring code c : Nat) (args : List Byte) (act : State → State × Bool) : State :=
  if s.dev.boot != 6 || s.dev.tripped || decide (16 < ring) then s
  else
    let r := s.ringOf ring
    if r.tail ≤ r.head then (s.submit ring code c args).carryOut ring code act
    else
      let e := r.entries.getD (r.head % ringEntries ring) 0
      if entryCode e == 0 || decide (9 < entryCode e) then s.answer ring false
      else if entryIs e code c args then s.carryOut ring code act
      else s

/-- Whether a ring may name a live context: a VF its own; the PF any, but a confidential one in RUN only for KILLCTX (R223, R226). -/
def State.mayName (s : State) (ring c : Nat) (kill : Bool) : Bool :=
  let x := s.ctx c
  decide (c < 64) && x.alive && (if ring = 0 then kill || !(x.conf && s.dev.tdis.getD x.vf .unlocked == .run) else x.vf == ring)

/-! ### CREATECTX (R163, R184, R224, R226) -/

/-- Whether a context record is refused for its own fields. -/
def ctxRecordBad (r : Nat) : Bool :=
  bits r 511 400 != 0 || bits r 191 173 != 0 || bits r 159 128 != 0 || bits r 63 0 % 32768 != 0 || decide (2 ^ 52 ≤ bits r 63 0)
    || bits r 127 64 % 4096 != 0 || bits r 255 192 % 65536 != 0 || bits r 319 256 % 8 != 0 || bits r 383 320 % 65536 != 0
    || decide (bits r 167 160 < 4) || decide (16 < bits r 167 160) || bits r 172 171 == 3

/-- Whether a private range is good: a positive multiple of 1 GiB, aligned to its size, in device memory (R226). -/
def rangeOk (base size : Nat) : Bool :=
  size != 0 && size % 2 ^ 30 == 0 && base % size == 0 && decide (base + size ≤ 2 ^ 40)

/-- Whether every page of a save area is writable device memory (R184). -/
def State.saveMapped (s : State) (c save : Nat) : Bool :=
  (List.range 10240).all fun i => (s.distTranslate c (save + 65536 * i) true).2.isSome

/-- No translation of any context leads into a private range any more, and no core holds a copy of its lines (R226). -/
def State.seal (s : State) (base size : Nat) : State :=
  let keep := fun (t : TlbEntry) => t.host || !overlap t.pa t.size base size
  ({ s with
    cores := s.cores.map fun (e : Nat × Core) => (e.1, { e.2 with tlb := e.2.tlb.filter keep })
    quads := s.quads.map fun (e : Nat × Quad) => (e.1, { e.2 with tlb := e.2.tlb.filter keep }) }).recallRange base size

/-- The header and the reserved part of a new context's save area are zero (R184, R185). -/
def State.clearSave (s : State) (c save : Nat) : State :=
  let s := (s.distWrite c save 0x1000 0).1
  let s := (s.distWrite c (save + 0x15000) 0x3000 0).1
  s

/-- Create a context, or refuse it. -/
def State.createCtx (s : State) (ring c : Nat) (rec_ : BitVec 512) (vf base size : Nat) (ats : Bool) : State × Bool :=
  let old := s.ctx c
  let r := rec_.toNat
  let conf := bit r 170
  let taken := decide (64 ≤ c) || old.alive || old.dead || old.zeroing
  let owner := if conf then vf != 0 && ring == vf && s.dev.tdis.getD vf .unlocked == .locked && rangeOk base size
               else ring == 0 || ring == vf
  if taken || ctxRecordBad r || decide (16 < vf) || !owner || (bit r 169 && (conf || vf != 0)) then (s, false)
  else
    let x : Ctx := { Ctx.fresh with
      alive := true, gen := old.gen, record := rec_, vf := vf, ats := ats
      base := if conf then base else 0, size := if conf then size else 0, pasid := Config.pasid s.nextUid }
    let s := s.fresh.1.modCtx c fun _ => x
    let s := if conf then s.seal base size else s
    if s.saveMapped c x.save then (s.clearSave c x.save, true) else (s, false)

def execCreatectx (ring c : Nat) (rec_ : BitVec 512) (vf base size : Nat) (ats : Bool) (s : State) :
    Host.Outcome State Fault Refusal :=
  .next (s.command ring 1 c (Config.createArgs rec_ vf base size ats) fun s => s.createCtx ring c rec_ vf base size ats)

/-! ### The other commands -/

/-- KILLCTX: a context becomes dead (R198, R226). -/
def execKillctx (ring c : Nat) (s : State) : Host.Outcome State Fault Refusal :=
  .next (s.command ring 2 c [] fun s => if s.mayName ring c true then (s.killContext c true, true) else (s, false))

/-- RESUME (R188). -/
def execResume (ring c : Nat) (s : State) : Host.Outcome State Fault Refusal :=
  .next (s.command ring 3 c [] fun s =>
    if s.mayName ring c false && (s.ctx c).halted then (s.resumeCtx c, true) else (s, false))

/-- NOTIFYMAP (R176). -/
def execNotifymap (ring c : Nat) (va : Dword) (s : State) : Host.Outcome State Fault Refusal :=
  .next (s.command ring 4 c (argWords [va.toNat]) fun s =>
    if s.mayName ring c false then (s.postNotice 1 c (BitVec.ofNat 128 (va.toNat % 2 ^ 57)), true) else (s, false))

/-- TLBINV of the host: it completes once the entries are dropped and nothing translated before is in flight (R117, R224). -/
def execHostTlbinv (ring c base size : Nat) (s : State) : Host.Outcome State Fault Refusal :=
  let r := invRange (some c) base size
  .next (if s.mayName ring c false && s.translatedInFlight r then s
    else s.command ring 5 c (argWords [base, size]) fun s => if s.mayName ring c false then (s.dropTranslations r, true) else (s, false))

/-- MIGRATE (R119): the PF only. -/
def execMigrate (ring c : Nat) (va : Dword) (dst : Nat) (s : State) : Host.Outcome State Fault Refusal :=
  .next (s.command ring 6 c (argWords [va.toNat, dst]) fun s => if s.mayName ring c false then s.beginMigration c va.toNat dst else (s, false))

/-- SETROUTE (R232): argument bytes 8 to 63. -/
def State.setRoute (s : State) (args : List Byte) : State × Bool :=
  let b := fun (i : Nat) => (args.getD i 0).toNat
  let clean := (args.drop 2).all fun x => x == 0
  if !clean || decide (15 < b 0) || (decide (15 < b 1) && b 1 != 255) then (s, false)
  else
    let routes := if b 1 = 255 then s.dev.routes.del (b 0) else s.dev.routes.put (b 0) (b 1)
    ({ s with dev := { s.dev with routes := routes } }, true)

def execSetroute (ring : Nat) (args : List Byte) (s : State) : Host.Outcome State Fault Refusal :=
  .next (s.command ring 7 0 args fun s => s.setRoute (argBytes args))

/-- EVRING (R225): events not yet written go to the new ring, in order. -/
def execEvring (ring addr k : Nat) (s : State) : Host.Outcome State Fault Refusal :=
  .next (s.command ring 8 0 (argWords [addr, k]) fun s =>
    let d := { s.dev with ring := some (addr, k), ringNext := 0, ringTaken := 0 }
    (s.deliverEvents d, true))

/-- WEARCOPY (R208, R224): the 512 bytes of a core's record go to host memory. -/
def execWearcopy (ring core addr : Nat) (s : State) : Host.Outcome State Fault Refusal :=
  .next (s.command ring 9 0 (argWords [core, addr]) fun s =>
    if 288 ≤ core then (s, false) else ({ s with host := Mem.writeN s.host addr 512 ((s.wear core).bits core) }, true))

end Sys2Proof.Machine
end

