-- ==== Sys2Proof/Machine/Ports.lean ====
section
/-! DEFINITION. The ports: ATS and PRI (R221), TDISP (R226), SPDM (R227) and Skein links (R230). -/
namespace Sys2Proof.Machine

/-! ### ATS and PRI (R221) -/

/-- Whether a request touches a page of host addresses. -/
def YOp.onPage (y : YOp) (page : Nat) : Bool := y.op.pieces.any fun p => p.pa / 4096 == page

/-- Whether a request needs the right to write its page. -/
def YOp.writes (y : YOp) : Bool := y.write || y.op.kind.isAtomic

/-- Whether a request of a context waits for a page's translation. -/
def YOp.waitsFor (y : YOp) (ctx page : Nat) : Bool := y.ats && y.op.ctx == ctx && y.onPage page

/-- Requests whose pages are all translated go on. -/
def State.releaseAts (s : State) : State :=
  let go := fun (y : YOp) =>
    if y.ats && y.op.pieces.all (fun p => s.atsHolds y.op.ctx (p.pa / 4096) y.writes) then { y with ats := false } else y
  { s with cores := s.cores.map fun (e : Nat × Core) => (e.1, { e.2 with yq := e.2.yq.map go }) }

/-- Whether a request waits for a translation of a page that grants what it needs. -/
def State.atsLacks (s : State) (c page : Nat) : Bool :=
  s.cores.any fun (e : Nat × Core) => e.2.yq.any fun y => y.waitsFor c page && !s.atsHolds c page y.writes

/-- ATS_TRANSLATION: the answer to a translation that a waiting request needs: whether it grants access, and whether the right to write. What
it grants goes on; if the access is insufficient for some request, a page request goes out. -/
def State.atsTranslate (s : State) (c page : Nat) (grant : Option Bool) : State :=
  if !s.atsLacks c page || s.dev.priPages.contains (c, page) then s
  else
    let others := s.dev.atsPages.filter fun e => !(e.1 == c && e.2.1 == page)
    let s := match grant with
      | some write => { s with dev := { s.dev with atsPages := others ++ [(c, page, write)] } }.releaseAts
      | none => s
    if s.atsLacks c page then { s with dev := { s.dev with priPages := s.dev.priPages ++ [(c, page)] } } else s

/-- A page request has failed: every request that waits for it raises a protection fault under its tag, and asks again if its
context resumes (R188, R194). -/
def State.priFault (s : State) (c page : Nat) : State :=
  s.cores.foldl (fun (s : State) (e : Nat × Core) =>
    (e.2.yq.filter fun y => y.waitsFor c page).foldl (fun (s : State) y =>
      let va := match y.op.pieces.find? fun p => p.pa / 4096 == page with | some p => p.va | none => 0
      s.raiseHalt c .mem { s.opReport e.1 y.op 0x03 va 0 with precise := true }) s) s

/-- The page request of a page is over. -/
def State.priEnd (s : State) (c page : Nat) (good : Bool) : State :=
  if !s.dev.priPages.contains (c, page) then s
  else
    let s := { s with dev := { s.dev with priPages := s.dev.priPages.filter fun e => e != (c, page) } }
    if good || !(s.ctx c).alive then s else s.priFault c page

/-- ATS_INVALIDATION: once no request that uses the translation is outstanding. -/
def State.atsInvalidate (s : State) (c page : Nat) : State :=
  let busy := s.cores.any fun (e : Nat × Core) => e.2.yq.any fun y => !y.ats && y.op.ctx == c && y.onPage page
  if busy then s else { s with dev := { s.dev with atsPages := s.dev.atsPages.filter fun e => !(e.1 == c && e.2.1 == page) } }

def execAtsTranslation (ctx page : Nat) (grant : Option Bool) (s : State) : Host.Outcome State Fault Refusal :=
  .next (s.atsTranslate ctx page grant)

def execPriResponse (ctx page : Nat) (good : Bool) (s : State) : Host.Outcome State Fault Refusal := .next (s.priEnd ctx page good)

def execPriTimeout (ctx page : Nat) (s : State) : Host.Outcome State Fault Refusal := .next (s.priEnd ctx page false)

def execAtsInvalidation (ctx page : Nat) (s : State) : Host.Outcome State Fault Refusal := .next (s.atsInvalidate ctx page)

/-! ### TDISP (R226) -/

def State.tdi (s : State) (vf : Nat) : Tdi := s.dev.tdis.getD vf .unlocked

def State.setTdi (s : State) (vf : Nat) (t : Tdi) : State := { s with dev := { s.dev with tdis := s.dev.tdis.put vf t } }

/-- Whether a number names a VF and TDISP is offered: the device answers (R229) and is not in CXL mode (R220, R222). -/
def State.tdisp (s : State) (vf : Nat) : Bool := decide (1 ≤ vf) && decide (vf ≤ 16) && !s.dev.cxl && s.dev.boot == 6

/-- Whether a VF's private range has still to be zeroed. -/
def State.zeroingVf (s : State) (vf : Nat) : Bool := s.ctxs.any fun (e : Nat × Ctx) => e.2.zeroing && e.2.vf == vf

def execLockInterface (vf : Nat) (s : State) : Host.Outcome State Fault Refusal :=
  .next (if s.tdisp vf && s.tdi vf == .unlocked then s.setTdi vf .locked else s)

def execStartInterface (vf : Nat) (s : State) : Host.Outcome State Fault Refusal :=
  .next (if s.tdisp vf && s.tdi vf == .locked then s.setTdi vf .run else s)

/-- STOP_INTERFACE: the context dies; CONFIG_UNLOCKED is reached once its private range is zero. -/
def execStopInterface (vf : Nat) (s : State) : Host.Outcome State Fault Refusal :=
  .next (if !s.tdisp vf || s.tdi vf == .unlocked then s
    else
      let s := s.killVf vf
      s.setTdi vf (if s.zeroingVf vf then .error else .unlocked))

/-- TDI_ERROR: a change of the VF's configuration or an integrity failure of the link. -/
def execTdiError (vf : Nat) (s : State) : Host.Outcome State Fault Refusal :=
  .next (if !s.tdisp vf || s.tdi vf == .unlocked || s.tdi vf == .error then s
    else ((s.setTdi vf .error).postEvent 6 0 vf).killVf vf)

/-- PRIVATE_RANGE_ZEROED: after death a private range is zeroed. From ERROR, where STOP_INTERFACE too leaves a TDI until then, its TDI reaches
CONFIG_UNLOCKED with the last range of its VF; one that is in another state stays there (log 63). -/
def State.zeroPrivate (s : State) (c : Nat) : State :=
  let x := s.ctx c
  if !x.zeroing || x.dead then s
  else
    let s := s.recallRange x.base x.size
    let s := { s with mem := Mem.clear s.mem x.base x.size }
    let s := s.modCtx c fun x => { Ctx.fresh with gen := x.gen }
    if s.zeroingVf x.vf || s.tdi x.vf != .error then s else s.setTdi x.vf .unlocked

def execPrivateRangeZeroed (ctx : Nat) (s : State) : Host.Outcome State Fault Refusal := .next (s.zeroPrivate ctx)

/-! ### SPDM (R227) -/

/-- The map record (R214). -/
def Device.mapRecord (d : Device) : Nat :=
  ((List.range 64).zip d.map).foldl (fun n e =>
    n + (match e.2 with | some q => (128 + q) * 2 ^ (8 * e.1) | none => 0)) (d.mapno % 2 ^ 16 * 2 ^ 528)

/-- The digest in the header of the image that has booted, of a kind (R228). -/
def Device.bootedDigest (d : Device) (kind : Nat) : BitVec 512 :=
  match d.banks[2 * (kind - 1) + d.flash.lastBank / 2 ^ (kind - 1) % 2]? with
  | some b => BitVec.ofNat 512 (bits b.header.toNat 1023 512)
  | none => 0

/-- The measurement blocks 1 to 5: boot ROM, Distaff image, engine microcode, fused security configuration, map record (R227). -/
def Device.measurements (d : Device) : List (BitVec 512) :=
  [Config.bootRom, d.bootedDigest 1, d.bootedDigest 2, Config.fusedSecurity, sha512 (leBytes d.mapRecord 68)]

/-- Certificate slots 0 and 1: the identity key's, and the alias key's, which the running firmware's digest derives (R227). -/
def Device.certificates (d : Device) : List (List Byte) :=
  [Config.identityCertificate, Config.aliasCertificate (d.bootedDigest 1)]

/-- The interface reports: the context record and the private range of every confidential context (R226). -/
def State.interfaceReports (s : State) : List (BitVec 768) :=
  (s.ctxs.filter fun (e : Nat × Ctx) => e.2.alive && e.2.conf).map fun e =>
    BitVec.ofNat 768 (e.2.record.toNat + e.2.base * 2 ^ 512 + e.2.size * 2 ^ 576 + e.2.vf * 2 ^ 640)

/-- The algorithms of R227. -/
def spdmAlgorithms : Config.Algorithms := ⟨"Ed25519", "SHA-512", "DHE P-384", "AES-256-GCM"⟩

/-- SPDM_REQUEST: the device answers, from what it measures, its certificates and its interface reports; what the answer's bytes are, the
standard says and the model leaves open (log 6). An IDE_KM message of a session programs a key (R220). -/
def State.spdm (s : State) (req : List Byte) : State :=
  if s.dev.boot != 6 then s
  else
    let row := s.dev.spdmIn ++ [req]
    let a := Config.spdmAnswer spdmAlgorithms row s.dev.measurements s.dev.certificates s.interfaceReports
    let keys := match Config.ideProgram row with
      | some (n, key) => if n ≤ 8 then s.dev.ideKeys.put n key else s.dev.ideKeys
      | none => s.dev.ideKeys
    { s with dev := { s.dev with spdmIn := row, spdmOut := s.dev.spdmOut ++ [a], ideKeys := keys } }

def execSpdmRequest (req : List Byte) (s : State) : Host.Outcome State Fault Refusal := .next (s.spdm req)

/-! ### Links (R230) -/

def State.skein (s : State) (k : Nat) : Link := s.dev.links.getD k Link.trained

def State.setLink (s : State) (k : Nat) (l : Link) : State := { s with dev := { s.dev with links := s.dev.links.put k l } }

/-- FLIT_RECEIVE: a flit with a CRC error asks for a replay; a good one ends the row of failures, but for one of eight or more, which only a
retraining ends. -/
def execFlitReceive (link : Nat) (crcGood : Bool) (s : State) : Host.Outcome State Fault Refusal :=
  .next (if 16 ≤ link || !(s.skein link).up then s
    else if crcGood then (if (s.skein link).failures < 8 then s.setLink link ⟨true, 0, false⟩ else s)
    else s.setLink link ⟨true, (s.skein link).failures + 1, true⟩)

/-- LINK_RETRAIN: after 8 consecutive failures; if it fails the link is down and event 5 is raised. -/
def execLinkRetrain (link : Nat) (good : Bool) (s : State) : Host.Outcome State Fault Refusal :=
  .next (if 16 ≤ link || !(s.skein link).up || decide ((s.skein link).failures < 8) then s
    else
      let s := s.postNotice 2 0 (BitVec.ofNat 128 link)
      if good then s.setLink link Link.trained
      else (s.setLink link ⟨false, 8, false⟩).postEvent 5 0 link)

end Sys2Proof.Machine
end

