-- ==== Sys2Proof/Machine/Boot.lean ====
section
/-! DEFINITION. Power and resets: bring-up with its firmware check, warm reset, power loss and the reset of a die (R4, R120, R176, R209,
R214, R228, R229). -/
namespace Sys2Proof.Machine

/-! ### Firmware (R228) -/

/-- Whether the boot ROM accepts a bank as an image of a kind; the body fits when the bank holds as many bytes after its header as the header
says, and they are the image's body. -/
def Bank.accepted (b : Bank) (kind minSvn : Nat) : Bool :=
  let h := b.header.toNat
  bits h 31 0 == 0x4649524D && bits h 63 32 == kind
    && (sha512 (leBytes (bits h 511 256) 32)).toNat % 2 ^ 256 == Config.fusedKeyHash.toNat
    && decide (minSvn ≤ bits h 127 96) && decide (bits h 159 128 ≤ b.body.length)
    && sha512 (b.body.take (bits h 159 128)) == BitVec.ofNat 512 (bits h 1023 512)
    && ed25519Verify (BitVec.ofNat 256 (bits h 511 256)) (leBytes h 128) (BitVec.ofNat 512 (bits h 1535 1024))

/-- The bank of an image that boots: the one last used first, then the other; its position and security version. -/
def Device.chooseBank (d : Device) (kind : Nat) : Option (Nat × Nat) :=
  let last := d.flash.lastBank / 2 ^ (kind - 1) % 2
  ([last, 1 - last].find? fun i => match d.banks[2 * (kind - 1) + i]? with
    | some b => b.accepted kind d.flash.minSvn
    | none => false).map fun i =>
      (i, match d.banks[2 * (kind - 1) + i]? with | some b => bits b.header.toNat 127 96 | none => 0)

/-- Flash after the images have been chosen: the fused minimum rises, and the banks used are noted. -/
def Flash.booted (f : Flash) (a b : Nat × Nat) : Flash :=
  { f with minSvn := max f.minSvn (max a.2 b.2), lastBank := a.1 + 2 * b.1 }

/-! ### Bring-up (R229) -/

/-- Wear records as bring-up loads them: after a power loss 60 s of the largest accrual recorded are added to each, and what is written back has
its prediction made anew (R209, R210). -/
def Flash.loadWear (f : Flash) (lost : Bool) : Tab Wear :=
  if lost then
    (List.range 288).foldl (fun (t : Tab Wear) c =>
      let a := 6 * f.accel.getD c 0
      if a = 0 then t else t.put c { t.getD c Wear.fresh with cwu := (t.getD c Wear.fresh).cwu + a }.predict) f.wear
  else f.wear

/-- Pinned lines are reinstated before any context runs (R120). -/
def reinstate (pins : List Nat) : Tab DirEntry :=
  pins.foldl (fun (t : Tab DirEntry) n =>
    let mates := t.filter fun e => e.2.pinned.isSome && homeSlice (256 * e.1) == homeSlice (256 * n)
      && homeSet (256 * e.1) == homeSet (256 * n)
    t.put n { DirEntry.fresh with pinned := some (14 + mates.length % 2) }) []

/-- The quads that bring-up starts at step 1, one of their cores being past HEALTHY (R212, R217). -/
def wornIslands (wear : Tab Wear) : Tab (BitVec 3) := ((List.range 72).filter (wornQuad wear)).map fun q => (q, 1)

/-- The wear records after bring-up: after a power loss flash's, with the addition of R209; else those that the management core holds. -/
def Device.loadWear (d : Device) : Tab Wear := if d.lost then d.flash.loadWear true else d.wear

/-- The device after bring-up: ready, or stopped because no bank of an image is accepted. The records as loaded stand in flash again. The
power-on time of a core goes on, and so does what it says of its tests (R215, R216). Where no bank is accepted the map record has not been loaded:
what map number the status word shows then the spec does not say, and the model's choice is 0, though flash keeps its own (log 103). -/
def Device.bringUp (d : Device) : Device :=
  match d.chooseBank 1, d.chooseBank 2 with
  | some a, some b =>
    let wear := d.loadWear
    { Device.reset with
      boot := 6
      banks := d.banks
      flash := { d.flash.booted a b with wear := if d.lost then wear else d.flash.wear }
      map := d.flash.map
      mapno := d.flash.mapno
      wear := wear
      islands := wornIslands wear
      testDue := d.testDue
      replacement := d.flash.replacement
      dieErrs := if d.lost then d.flash.dieErrs else d.dieErrs
      corrected := if d.lost then d.flash.corrected else d.corrected
      flashErrs := d.flashErrs
      charged := d.charged
      cxl := d.cxl }
  | _, _ =>
    { Device.reset with
      boot := 0xE0, lost := d.lost, banks := d.banks, flash := d.flash, cxl := d.cxl, wear := d.wear, testDue := d.testDue
      dieErrs := d.dieErrs, corrected := d.corrected, flashErrs := d.flashErrs, charged := d.charged }

/-- COLD_RESET: bring-up passes through its states; memory is zeroed, logical time and %cycle start again. What lies outside, the
host's memory, stays. The model's own fields go on. -/
def State.coldReset (s : State) : State :=
  { State.reset with
    agenda := s.agenda
    free := s.free
    nextUid := s.nextUid
    host := s.host
    dir := reinstate s.dev.flash.pins
    dev := s.dev.bringUp }

/-- WARM_RESET: the same, but the fields marked keep, %cycle, logical time and the posting number go on (R4, R61, R123, R176). -/
def State.warmReset (s : State) : State :=
  let t := s.coldReset
  if s.dev.boot = 0 then s
  else
    { t with
      cycle := s.cycle
      cores := s.cores.map fun (e : Nat × Core) => (e.1, { Core.fresh with pts := e.2.pts, ticks := e.2.ticks, seen := e.2.seen })
      dev := { t.dev with agents := s.dev.agents, nseq := s.dev.nseq } }

/-- POWER_LOSS: everything volatile is lost; flash stays (R209). -/
def State.powerLoss (s : State) : State :=
  { State.reset with
    agenda := s.agenda
    free := s.free
    nextUid := s.nextUid
    host := s.host
    dev := { Device.reset with
      boot := 0, lost := true, banks := s.dev.banks, flash := s.dev.flash, cxl := s.dev.cxl, testDue := s.dev.testDue
      flashErrs := s.dev.flashErrs } }

/-- DIE_RESET: a notice names the die (R176). What becomes of the work on the die, the manual does not say (log 24): its TLBs and walk
caches, which hold nothing but copies, are empty afterwards. -/
def State.dieReset (s : State) (die : Nat) : State :=
  if 4 ≤ die then s
  else
    let s := { s with
      cores := s.cores.map fun (e : Nat × Core) => if e.1 / 72 == die then (e.1, { e.2 with tlb := [] }) else e
      quads := s.quads.map fun (e : Nat × Quad) =>
        if e.1 / 18 == die then (e.1, { e.2 with tlb := [], walkc := [] }) else e }
    s.postNotice 3 0 (BitVec.ofNat 128 die)

def execColdReset (s : State) : Host.Outcome State Fault Refusal := .next s.coldReset

def execWarmReset (s : State) : Host.Outcome State Fault Refusal := .next s.warmReset

def execPowerLoss (s : State) : Host.Outcome State Fault Refusal := .next s.powerLoss

def execDieReset (die : Nat) (s : State) : Host.Outcome State Fault Refusal := .next (s.dieReset die)

end Sys2Proof.Machine
end

