-- ==== Sys2Proof/Machine/Dispatch.lean ====
section
/-! DEFINITION. The meaning of every step: one arm per constructor of Instr, each one call. -/
namespace Sys2Proof.Machine

/-- What a step does. -/
def exec (i : Instr) (s : State) : Host.Outcome State Fault Refusal :=
  match i with
  | .iadd a1 => Sys2Proof.Machine.execIadd a1 s
  | .isub a1 => Sys2Proof.Machine.execIsub a1 s
  | .imul a1 a2 a3 => Sys2Proof.Machine.execImul a1 a2 a3 s
  | .imad a1 => Sys2Proof.Machine.execImad a1 s
  | .imin a1 a2 => Sys2Proof.Machine.execImin a1 a2 s
  | .imax a1 a2 => Sys2Proof.Machine.execImax a1 a2 s
  | .iabs a1 => Sys2Proof.Machine.execIabs a1 s
  | .icmp a1 a2 a3 => Sys2Proof.Machine.execIcmp a1 a2 a3 s
  | .lop3 a1 a2 => Sys2Proof.Machine.execLop3 a1 a2 s
  | .shl a1 => Sys2Proof.Machine.execShl a1 s
  | .shr a1 a2 => Sys2Proof.Machine.execShr a1 a2 s
  | .shf a1 a2 => Sys2Proof.Machine.execShf a1 a2 s
  | .popc a1 => Sys2Proof.Machine.execPopc a1 s
  | .clz a1 => Sys2Proof.Machine.execClz a1 s
  | .brev a1 => Sys2Proof.Machine.execBrev a1 s
  | .bfx a1 a2 => Sys2Proof.Machine.execBfx a1 a2 s
  | .bfi a1 => Sys2Proof.Machine.execBfi a1 s
  | .prmt a1 => Sys2Proof.Machine.execPrmt a1 s
  | .sel a1 a2 => Sys2Proof.Machine.execSel a1 a2 s
  | .mov a1 => Sys2Proof.Machine.execMov a1 s
  | .movi a1 a2 a3 a4 => Sys2Proof.Machine.execMovi a1 a2 a3 a4 s
  | .movs a1 a2 a3 a4 => Sys2Proof.Machine.execMovs a1 a2 a3 a4 s
  | .plop a1 => Sys2Proof.Machine.execPlop a1 s
  | .fadd a1 a2 => Sys2Proof.Machine.execFadd a1 a2 s
  | .fmul a1 a2 => Sys2Proof.Machine.execFmul a1 a2 s
  | .ffma a1 a2 => Sys2Proof.Machine.execFfma a1 a2 s
  | .fmin a1 a2 => Sys2Proof.Machine.execFmin a1 a2 s
  | .fmax a1 a2 => Sys2Proof.Machine.execFmax a1 a2 s
  | .fcmp a1 a2 a3 => Sys2Proof.Machine.execFcmp a1 a2 a3 s
  | .fcls a1 a2 => Sys2Proof.Machine.execFcls a1 a2 s
  | .frcp a1 a2 => Sys2Proof.Machine.execFrcp a1 a2 s
  | .frsq a1 a2 => Sys2Proof.Machine.execFrsq a1 a2 s
  | .fsqrt a1 a2 => Sys2Proof.Machine.execFsqrt a1 a2 s
  | .fexp2 a1 a2 => Sys2Proof.Machine.execFexp2 a1 a2 s
  | .flog2 a1 a2 => Sys2Proof.Machine.execFlog2 a1 a2 s
  | .cvt a1 a2 a3 a4 a5 => Sys2Proof.Machine.execCvt a1 a2 a3 a4 a5 s
  | .qpack a1 a2 => Sys2Proof.Machine.execQpack a1 a2 s
  | .qunpk a1 a2 => Sys2Proof.Machine.execQunpk a1 a2 s
  | .rand a1 a2 a3 a4 => Sys2Proof.Machine.execRand a1 a2 a3 a4 s
  | .ld a1 => Sys2Proof.Machine.execLd a1 s
  | .st a1 => Sys2Proof.Machine.execSt a1 s
  | .ldb a1 => Sys2Proof.Machine.execLdb a1 s
  | .stb a1 => Sys2Proof.Machine.execStb a1 s
  | .ldc a1 a2 a3 a4 => Sys2Proof.Machine.execLdc a1 a2 a3 a4 s
  | .atom a1 => Sys2Proof.Machine.execAtom a1 s
  | .ared a1 => Sys2Proof.Machine.execAred a1 s
  | .amaxp a1 => Sys2Proof.Machine.execAmaxp a1 s
  | .mwait a1 => Sys2Proof.Machine.execMwait a1 s
  | .fence a1 => Sys2Proof.Machine.execFence a1 s
  | .pref a1 => Sys2Proof.Machine.execPref a1 s
  | .cflush a1 => Sys2Proof.Machine.execCflush a1 s
  | .shfl a1 => Sys2Proof.Machine.execShfl a1 s
  | .vote a1 a2 a3 a4 => Sys2Proof.Machine.execVote a1 a2 a3 a4 s
  | .gred a1 a2 a3 a4 a5 => Sys2Proof.Machine.execGred a1 a2 a3 a4 a5 s
  | .gscan a1 a2 a3 a4 a5 a6 => Sys2Proof.Machine.execGscan a1 a2 a3 a4 a5 a6 s
  | .matchv a1 a2 a3 => Sys2Proof.Machine.execMatchv a1 a2 a3 s
  | .mma a1 => Sys2Proof.Machine.execMma a1 s
  | .bset a1 a2 a3 a4 => Sys2Proof.Machine.execBset a1 a2 a3 a4 s
  | .bsetFree a1 a2 a3 => Sys2Proof.Machine.execBsetFree a1 a2 a3 s
  | .accopen a1 => Sys2Proof.Machine.execAccopen a1 s
  | .accclose => Sys2Proof.Machine.execAccclose s
  | .accz a1 a2 a3 => Sys2Proof.Machine.execAccz a1 a2 a3 s
  | .accmov a1 a2 a3 => Sys2Proof.Machine.execAccmov a1 a2 a3 s
  | .accld a1 => Sys2Proof.Machine.execAccld a1 s
  | .accst a1 => Sys2Proof.Machine.execAccst a1 s
  | .bndthr a1 a2 a3 => Sys2Proof.Machine.execBndthr a1 a2 a3 s
  | .bndrd a1 a2 a3 a4 => Sys2Proof.Machine.execBndrd a1 a2 a3 a4 s
  | .mqrun a1 a2 a3 => Sys2Proof.Machine.execMqrun a1 a2 a3 s
  | .cpy a1 => Sys2Proof.Machine.execCpy a1 s
  | .gath a1 a2 a3 => Sys2Proof.Machine.execGath a1 a2 a3 s
  | .scat a1 a2 a3 => Sys2Proof.Machine.execScat a1 a2 a3 s
  | .nzscan a1 a2 a3 => Sys2Proof.Machine.execNzscan a1 a2 a3 s
  | .ownE a1 a2 a3 => Sys2Proof.Machine.execOwnE a1 a2 a3 s
  | .ownT a1 a2 a3 => Sys2Proof.Machine.execOwnT a1 a2 a3 s
  | .relent a1 a2 a3 a4 a5 => Sys2Proof.Machine.execRelent a1 a2 a3 a4 a5 s
  | .relsealSeal a1 a2 a3 => Sys2Proof.Machine.execRelsealSeal a1 a2 a3 s
  | .relsealRec a1 a2 a3 a4 a5 => Sys2Proof.Machine.execRelsealRec a1 a2 a3 a4 a5 s
  | .relsealFree a1 a2 a3 => Sys2Proof.Machine.execRelsealFree a1 a2 a3 s
  | .relgrp a1 a2 a3 a4 => Sys2Proof.Machine.execRelgrp a1 a2 a3 a4 s
  | .reljoin a1 a2 a3 a4 a5 => Sys2Proof.Machine.execReljoin a1 a2 a3 a4 a5 s
  | .relmrg a1 a2 a3 a4 => Sys2Proof.Machine.execRelmrg a1 a2 a3 a4 s
  | .relstat a1 a2 a3 => Sys2Proof.Machine.execRelstat a1 a2 a3 s
  | .nop a1 a2 => Sys2Proof.Machine.execNop a1 a2 s
  | .bra a1 a2 a3 => Sys2Proof.Machine.execBra a1 a2 a3 s
  | .braPop a1 a2 a3 a4 => Sys2Proof.Machine.execBraPop a1 a2 a3 a4 s
  | .brm a1 => Sys2Proof.Machine.execBrm a1 s
  | .jmp a1 a2 => Sys2Proof.Machine.execJmp a1 a2 s
  | .call a1 a2 a3 => Sys2Proof.Machine.execCall a1 a2 a3 s
  | .ret a1 a2 => Sys2Proof.Machine.execRet a1 a2 s
  | .exit a1 a2 => Sys2Proof.Machine.execExit a1 a2 s
  | .rcvpush a1 a2 => Sys2Proof.Machine.execRcvpush a1 a2 s
  | .rcvdrop a1 a2 => Sys2Proof.Machine.execRcvdrop a1 a2 s
  | .regang a1 => Sys2Proof.Machine.execRegang a1 s
  | .regangAll a1 => Sys2Proof.Machine.execRegangAll a1 s
  | .yield a1 a2 a3 => Sys2Proof.Machine.execYield a1 a2 a3 s
  | .bar a1 a2 a3 a4 => Sys2Proof.Machine.execBar a1 a2 a3 a4 s
  | .phwait a1 a2 a3 a4 a5 => Sys2Proof.Machine.execPhwait a1 a2 a3 a4 a5 s
  | .phflip a1 a2 a3 a4 => Sys2Proof.Machine.execPhflip a1 a2 a3 a4 s
  | .bcbarm a1 a2 a3 a4 => Sys2Proof.Machine.execBcbarm a1 a2 a3 a4 s
  | .bcbwait a1 a2 a3 => Sys2Proof.Machine.execBcbwait a1 a2 a3 s
  | .phend a1 a2 => Sys2Proof.Machine.execPhend a1 a2 s
  | .emit a1 a2 a3 a4 => Sys2Proof.Machine.execEmit a1 a2 a3 a4 s
  | .sigchk a1 a2 => Sys2Proof.Machine.execSigchk a1 a2 s
  | .trap a1 a2 => Sys2Proof.Machine.execTrap a1 a2 s
  | .rtt => Sys2Proof.Machine.execRtt s
  | .srget a1 a2 a3 => Sys2Proof.Machine.execSrget a1 a2 a3 s
  | .srset a1 a2 a3 => Sys2Proof.Machine.execSrset a1 a2 a3 s
  | .pmoff => Sys2Proof.Machine.execPmoff s
  | .pmon => Sys2Proof.Machine.execPmon s
  | .flushp a1 a2 => Sys2Proof.Machine.execFlushp a1 a2 s
  | .tlbinv a1 a2 a3 => Sys2Proof.Machine.execTlbinv a1 a2 a3 s
  | .pqpop a1 a2 a3 a4 a5 => Sys2Proof.Machine.execPqpop a1 a2 a3 a4 a5 s
  | .ctxkill a1 a2 => Sys2Proof.Machine.execCtxkill a1 a2 s
  | .cstateRead a1 a2 a3 a4 => Sys2Proof.Machine.execCstateRead a1 a2 a3 a4 s
  | .cstateReserve a1 a2 a3 a4 => Sys2Proof.Machine.execCstateReserve a1 a2 a3 a4 s
  | .cstateRelease a1 a2 a3 a4 => Sys2Proof.Machine.execCstateRelease a1 a2 a3 a4 s
  | .cdrain a1 a2 a3 a4 => Sys2Proof.Machine.execCdrain a1 a2 a3 a4 s
  | .cretire a1 a2 a3 => Sys2Proof.Machine.execCretire a1 a2 a3 s
  | .wearrdSelf a1 a2 a3 => Sys2Proof.Machine.execWearrdSelf a1 a2 a3 s
  | .wearrd a1 a2 a3 a4 => Sys2Proof.Machine.execWearrd a1 a2 a3 a4 s
  | .tstrun a1 a2 a3 => Sys2Proof.Machine.execTstrun a1 a2 a3 s
  | .tstabt a1 a2 => Sys2Proof.Machine.execTstabt a1 a2 s
  | .clauseIssue a1 a2 => Sys2Proof.Machine.execClauseIssue a1 a2 s
  | .gangForced a1 a2 => Sys2Proof.Machine.execGangForced a1 a2 s
  | .regangWindowExpiry a1 a2 => Sys2Proof.Machine.execRegangWindowExpiry a1 a2 s
  | .homeLoadRequest a1 a2 a3 => Sys2Proof.Machine.execHomeLoadRequest a1 a2 a3 s
  | .loadReply a1 a2 => Sys2Proof.Machine.execLoadReply a1 a2 s
  | .homeStoreApply a1 a2 => Sys2Proof.Machine.execHomeStoreApply a1 a2 s
  | .homeAtomicApply a1 a2 => Sys2Proof.Machine.execHomeAtomicApply a1 a2 s
  | .routerMerge a1 a2 => Sys2Proof.Machine.execRouterMerge a1 a2 s
  | .atomicAck a1 a2 => Sys2Proof.Machine.execAtomicAck a1 a2 s
  | .mwaitPoll a1 => Sys2Proof.Machine.execMwaitPoll a1 s
  | .ptsTick a1 => Sys2Proof.Machine.execPtsTick a1 s
  | .fenceComplete a1 a2 => Sys2Proof.Machine.execFenceComplete a1 a2 s
  | .pageWalk a1 => Sys2Proof.Machine.execPageWalk a1 s
  | .hostPeerWrite a1 a2 a3 => Sys2Proof.Machine.execHostPeerWrite a1 a2 a3 s
  | .hostPeerRead a1 a2 a3 => Sys2Proof.Machine.execHostPeerRead a1 a2 a3 s
  | .flushProbeReturn a1 a2 => Sys2Proof.Machine.execFlushProbeReturn a1 a2 s
  | .sysWriteComplete a1 => Sys2Proof.Machine.execSysWriteComplete a1 s
  | .sysReadReturn a1 a2 a3 => Sys2Proof.Machine.execSysReadReturn a1 a2 a3 s
  | .migrationSwitch a1 => Sys2Proof.Machine.execMigrationSwitch a1 s
  | .migrationRelease a1 => Sys2Proof.Machine.execMigrationRelease a1 s
  | .matrixOperandError a1 a2 a3 a4 => Sys2Proof.Machine.execMatrixOperandError a1 a2 a3 a4 s
  | .fusionWindowClose a1 => Sys2Proof.Machine.execFusionWindowClose a1 s
  | .matrixPass a1 => Sys2Proof.Machine.execMatrixPass a1 s
  | .mtxEntryForced a1 a2 => Sys2Proof.Machine.execMtxEntryForced a1 a2 s
  | .mqrunCommandApply a1 a2 => Sys2Proof.Machine.execMqrunCommandApply a1 a2 s
  | .asyncOpStart a1 => Sys2Proof.Machine.execAsyncOpStart a1 s
  | .cpyChunk a1 a2 => Sys2Proof.Machine.execCpyChunk a1 a2 s
  | .asyncRow a1 a2 => Sys2Proof.Machine.execAsyncRow a1 a2 s
  | .asyncOpComplete a1 a2 => Sys2Proof.Machine.execAsyncOpComplete a1 a2 s
  | .relationGrouping a1 => Sys2Proof.Machine.execRelationGrouping a1 s
  | .reljoinPairs a1 a2 => Sys2Proof.Machine.execReljoinPairs a1 a2 s
  | .relmrgComplete a1 a2 => Sys2Proof.Machine.execRelmrgComplete a1 a2 s
  | .joinSpawnStart a1 => Sys2Proof.Machine.execJoinSpawnStart a1 s
  | .queueTailWake a1 => Sys2Proof.Machine.execQueueTailWake a1 s
  | .admitLaunch a1 => Sys2Proof.Machine.execAdmitLaunch a1 s
  | .teamBind a1 => Sys2Proof.Machine.execTeamBind a1 s
  | .preemptionSave a1 => Sys2Proof.Machine.execPreemptionSave a1 s
  | .teamResume a1 => Sys2Proof.Machine.execTeamResume a1 s
  | .phaseStart a1 a2 => Sys2Proof.Machine.execPhaseStart a1 a2 s
  | .launchComplete a1 => Sys2Proof.Machine.execLaunchComplete a1 s
  | .forcedPartialLaunch a1 => Sys2Proof.Machine.execForcedPartialLaunch a1 s
  | .roundCommit a1 => Sys2Proof.Machine.execRoundCommit a1 s
  | .engineStopRecord a1 a2 a3 => Sys2Proof.Machine.execEngineStopRecord a1 a2 a3 s
  | .haltComplete a1 => Sys2Proof.Machine.execHaltComplete a1 s
  | .watchdogExpiry a1 => Sys2Proof.Machine.execWatchdogExpiry a1 s
  | .deadDrainComplete a1 => Sys2Proof.Machine.execDeadDrainComplete a1 s
  | .monitorMeasurement a1 a2 => Sys2Proof.Machine.execMonitorMeasurement a1 a2 s
  | .wearCharge a1 a2 a3 a4 => Sys2Proof.Machine.execWearCharge a1 a2 a3 a4 s
  | .wearFlashWrite => Sys2Proof.Machine.execWearFlashWrite s
  | .quadRetirement a1 => Sys2Proof.Machine.execQuadRetirement a1 s
  | .testDueNotice a1 => Sys2Proof.Machine.execTestDueNotice a1 s
  | .testOverdue a1 => Sys2Proof.Machine.execTestOverdue a1 s
  | .testRunComplete a1 a2 => Sys2Proof.Machine.execTestRunComplete a1 a2 s
  | .testAbortComplete a1 => Sys2Proof.Machine.execTestAbortComplete a1 s
  | .powerCap a1 a2 => Sys2Proof.Machine.execPowerCap a1 a2 s
  | .thermalThrottle a1 a2 => Sys2Proof.Machine.execThermalThrottle a1 a2 s
  | .thermalTrip => Sys2Proof.Machine.execThermalTrip s
  | .coldReset => Sys2Proof.Machine.execColdReset s
  | .warmReset => Sys2Proof.Machine.execWarmReset s
  | .createctx a1 a2 a3 a4 a5 a6 a7 => Sys2Proof.Machine.execCreatectx a1 a2 a3 a4 a5 a6 a7 s
  | .killctx a1 a2 => Sys2Proof.Machine.execKillctx a1 a2 s
  | .resume a1 a2 => Sys2Proof.Machine.execResume a1 a2 s
  | .notifymap a1 a2 a3 => Sys2Proof.Machine.execNotifymap a1 a2 a3 s
  | .hostTlbinv a1 a2 a3 a4 => Sys2Proof.Machine.execHostTlbinv a1 a2 a3 a4 s
  | .migrate a1 a2 a3 a4 => Sys2Proof.Machine.execMigrate a1 a2 a3 a4 s
  | .setroute a1 a2 => Sys2Proof.Machine.execSetroute a1 a2 s
  | .evring a1 a2 a3 => Sys2Proof.Machine.execEvring a1 a2 a3 s
  | .wearcopy a1 a2 a3 => Sys2Proof.Machine.execWearcopy a1 a2 a3 s
  | .atsTranslation a1 a2 a3 => Sys2Proof.Machine.execAtsTranslation a1 a2 a3 s
  | .priResponse a1 a2 a3 => Sys2Proof.Machine.execPriResponse a1 a2 a3 s
  | .priTimeout a1 a2 => Sys2Proof.Machine.execPriTimeout a1 a2 s
  | .atsInvalidation a1 a2 => Sys2Proof.Machine.execAtsInvalidation a1 a2 s
  | .lockInterface a1 => Sys2Proof.Machine.execLockInterface a1 s
  | .startInterface a1 => Sys2Proof.Machine.execStartInterface a1 s
  | .stopInterface a1 => Sys2Proof.Machine.execStopInterface a1 s
  | .tdiError a1 => Sys2Proof.Machine.execTdiError a1 s
  | .spdmRequest a1 => Sys2Proof.Machine.execSpdmRequest a1 s
  | .flitReceive a1 a2 => Sys2Proof.Machine.execFlitReceive a1 a2 s
  | .linkRetrain a1 a2 => Sys2Proof.Machine.execLinkRetrain a1 a2 s
  | .powerLoss => Sys2Proof.Machine.execPowerLoss s
  | .dieReset a1 => Sys2Proof.Machine.execDieReset a1 s
  | .privateRangeZeroed a1 => Sys2Proof.Machine.execPrivateRangeZeroed a1 s

end Sys2Proof.Machine
end

