-- ==== Sys2Proof/Machine/Early.lean ====
section
/-! DEFINITION. Bytes that arrive ahead of the rest: before the wait that covers its scoreboard, a destination shows for each lane and byte the old
or the new value (R238). LOAD_REPLY and ATOMIC_ACK say it of device memory; here it is of the host port and the links, of RELMRG and of
PQPOP. -/
namespace Sys2Proof.Machine

/-- Some bytes, by lane and byte, of a word that a register receives in several lanes. -/
def Group.givePart (g : Group) (d : Nat) (lanes : List Nat) (w : Word) (part : List (Nat × Nat)) : Group :=
  (part.filter fun b => lanes.contains b.1 && decide (b.2 < 4)).foldl (fun (g : Group) b =>
    g.arriveReg d b.1 (putByte (g.reg d b.1) w b.2)) g

/-- Of a read or an atomic on its way: it takes its place now, and the rest of it returns later. -/
def State.earlyY (s : State) (core : Nat) (y : YOp) (data : List Byte) (part : List (Nat × Nat)) : State :=
  let (s, o) := s.yResult core y data
  (s.modCore core fun k => { k with yq := k.yq.replace y { y with op := o } }).arrivePart o part

/-- Of a merge that has run, or that runs now. -/
def State.earlyMerge (s : State) (core : Nat) (o : EngOp) (part : List (Nat × Nat)) : State :=
  let give := fun (s : State) (o : EngOp) =>
    let n : Word := if o.status = 0 then BitVec.ofNat 32 o.m else 0xFFFFFFFF
    s.modGroup o.grp fun g => g.givePart o.d (lanesOf o.lanes) n part
  if o.kind != .relmrg || !o.started || o.isOver || o.faulted || !s.relRuns core o.ctx then s
  else if o.ran then give s o
  else
    match s.mergeRun core o with
    | (t, o, .ok _) => give (t.setEng core o) o
    | _ => s

/-- Bytes of an operation's destination are there ahead of the rest. -/
def State.early (s : State) (core id : Nat) (data : List Byte) (part : List (Nat × Nat)) : State :=
  let k := s.core core
  match k.yq.find? fun y => y.op.id == id && !y.write && s.mayGo core y with
  | some y => s.earlyY core y data part
  | none =>
    match s.engOpOf core id with
    | some o => s.earlyMerge core o part
    | none =>
      match (k.rq ++ k.replies).find? (·.id == id) with
      | some o =>
        (match o.kind with
          | .pop d ls w => s.modGroup o.grp fun g => g.givePart d (lanesOf ls) w part
          | _ => s)
      | none => s

end Sys2Proof.Machine
end

