-- ==== Sys2Proof/Machine/Schedule.lean ====
section
/-! DEFINITION. Who moves next: the agenda, or, when it is empty, the turns that may be due, in rotation (log 1). What comes from outside
the device, such as host commands, measurements and resets, comes by the agenda alone. -/
namespace Sys2Proof.Machine

/-- Turns of a core's ports. -/
def State.portTurns (s : State) (core : Nat) : List Turn :=
  [0, 1, 2, 3].map fun p =>
    match s.holder core p with
    | some (_, _, _, k) => if k.clause.isSome then .issue core p else .event (.clauseIssue core p)
    | none => .event (.clauseIssue core p)

/-- Turns at which a gang of a halting context may stop inside a clause (R187). -/
def State.stallTurns (s : State) (core : Nat) : List Turn :=
  ([0, 1, 2, 3].filter fun p => match s.holder core p with
    | some (_, g, _, k) => k.clause.isSome && (s.ctx g.ctx).line.isSome
    | none => false).map fun p => .stall core p

/-- Turns of a core's memory operations. -/
def memTurns (c : Nat) (k : Core) : List Turn :=
  let home := fun (j : Option Nat) =>
    [Turn.event (.homeLoadRequest c j .clean), .event (.homeStoreApply c j), .event (.homeAtomicApply c j)]
  (if k.rq.isEmpty && k.wk.isEmpty then [] else home none)
    ++ (List.range k.wk.length).flatMap (fun j => home (some (j + 1)))
    ++ k.rq.map (fun o => .event (.atomicAck c ⟨o.id, []⟩))
    ++ k.replies.flatMap (fun o => [.event (.loadReply c ⟨o.id, .clean, []⟩), .event (.atomicAck c ⟨o.id, []⟩)])
    ++ (if k.yq.isEmpty then [] else [.event (.sysWriteComplete c)])
    ++ k.yq.map (fun y => .event (.sysReadReturn c y.op.id []))
    ++ k.probes.map (fun o => .event (.flushProbeReturn c o.id))
    ++ (if k.walks.isEmpty then [] else [.event (.pageWalk c)])

/-- Turns of a core's engines and of its phase queue. -/
def engTurns (c : Nat) (k : Core) : List Turn :=
  (if k.ops.isEmpty then [] else [.event (.asyncOpStart c)])
    ++ k.ops.flatMap (fun o =>
      [.event (.cpyChunk c o.id), .event (.asyncRow c o.id), .event (.mqrunCommandApply c o.id), .event (.relmrgComplete c o.id),
       .event (.asyncOpComplete c o.id)])
    ++ (if k.phaseQ.isEmpty then [] else [.event (.phaseStart c true)])

/-- Turns that a gang may be due. -/
def gangTurns (gid : Nat) (k : Gang) : List Turn :=
  let wait : List Turn := match k.wait with
    | .regang false a => [.event (.regangWindowExpiry gid a)]
    | .relgrp h .. => [.event (.relationGrouping h)]
    | .reljoin .. => [.event (.reljoinPairs gid k.id)]
    | _ => []
  (if k.fence.isSome then [.event (.fenceComplete gid k.id)] else []) ++ wait ++ [.event (.gangForced gid k.id)]

/-- Turns of a quad's matrix engine. -/
def quadTurns (q : Nat) (k : Quad) : List Turn :=
  if k.table.isEmpty then []
  else [.event (.fusionWindowClose q), .event (.matrixPass q)] ++ k.table.map fun e => .event (.mtxEntryForced q e.id)

/-- Turns of a context at Distaff. -/
def ctxTurns (c : Nat) (x : Ctx) : List Turn :=
  (if x.alive then
    [.event (.queueTailWake c), .event (.admitLaunch c), .event (.launchComplete c), .event (.forcedPartialLaunch c)] else [])
    ++ x.serving.map (fun e => .event (.engineStopRecord c e.1 e.2))
    ++ (if x.line.isSome && !x.halted then [.event (.haltComplete c)] else [])
    ++ (if x.dead then [.event (.deadDrainComplete c)] else [])
    ++ (if x.zeroing then [.event (.privateRangeZeroed c)] else [])

/-- Turns of teams and launches at Distaff. -/
def State.workTurns (s : State) : List Turn :=
  s.launches.flatMap (fun (e : Nat × Launch) => [.event (.teamBind e.1), .event (.roundCommit e.1)])
    ++ s.teams.flatMap fun (e : Nat × Team) =>
      [.event (.joinSpawnStart e.1), .event (.preemptionSave e.1), .event (.teamResume e.1)]

/-- Every turn that may be due. -/
def State.dueTurns (s : State) : List Turn :=
  s.cores.flatMap (fun (e : Nat × Core) =>
    s.portTurns e.1 ++ s.stallTurns e.1 ++ memTurns e.1 e.2 ++ engTurns e.1 e.2)
    ++ s.groups.flatMap (fun (e : Nat × Group) =>
      e.2.gangs.flatMap (gangTurns e.1) ++ (if e.2.pmoff.isSome then [.event (.watchdogExpiry e.1)] else []))
    ++ (s.monitors.filter (·.polling)).map (fun m => .event (.mwaitPoll m.id))
    ++ s.quads.flatMap (fun (e : Nat × Quad) => quadTurns e.1 e.2)
    ++ s.ctxs.flatMap (fun (e : Nat × Ctx) => ctxTurns e.1 e.2)
    ++ s.workTurns
    ++ (List.range s.migrations.length).flatMap (fun k => [.event (.migrationSwitch k), .event (.migrationRelease k)])
    ++ s.dev.retiring.map (fun q => .event (.quadRetirement q))
    ++ (s.dev.tests.filter (·.aborting)).map fun t => .event (.testAbortComplete t.core)

/-- A core whose logical time has an advance to make up for: 4,096 core cycles have passed for it (R125). -/
def State.lateCore (s : State) : Option Nat :=
  if s.clocked then (s.cores.find? fun (e : Nat × Core) => decide (e.2.ticks < s.cycle / 4096)).map (·.1) else none

/-- What goes before all else: the advance of a core's logical time (R125), and the wear records' way to flash (R209). -/
def State.dueFirst (s : State) : Option Turn :=
  match s.lateCore with
  | some core => some (.event (.ptsTick core))
  | none => if s.clocked && s.flashDue then some (.event .wearFlashWrite) else none

/-- The next turn, and the state that has taken it from the agenda. -/
def State.takeTurn (s : State) : Turn × State :=
  match s.dueFirst, s.agenda with
  | some t, _ => (t, s)
  | none, t :: ts => (t, { s with agenda := ts })
  | none, [] =>
    let due := s.dueTurns
    (due.getD (s.cycle % due.length) (.tick 1), s)

end Sys2Proof.Machine
end

