-- ==== Sys2Proof/Machine/Step.lean ====
section
/-! DEFINITION. One step of the machine: a turn is taken, and what it names happens (R61: a cycle passes). -/
namespace Sys2Proof.Machine

/-- What a turn does. An event that is none of the device's, and an issue at which no instruction can be fetched, change no
more than the turn and the cycle. -/
def stepTurn (t : Turn) (s : State) : Host.Outcome State Fault Refusal :=
  match t with
  | .event i => if i.isEvent then exec i s else .next s
  | .tick n => .next (s.passCycle n)
  | .lose core code n => .next (s.loseWord core code n)
  | .hostTakes n => .next (s.hostTakes n)
  | .poolError core id bad => .next (s.poolError core id bad)
  | .early core id data part => .next (s.early core id data part)
  | .sample core temp => .next (s.sample core temp)
  | .flashError page bad => .next (s.flashError page bad)
  | .issue core port =>
    match s.fetchNext core port with
    | (s, none) => .next s
    | (s, some i) => exec i s
  | .stall core port =>
    match s.fetchNext core port with
    | (t, none) => .next (s.stalled t core port)
    | (t, some i) =>
      match exec i t with
      | .next u => .next (s.stalled u core port)
      | r => r

/-- One step (log 1). Without a clock nothing but a reset, the loss of power or a read of the status word comes to pass (R218, R229). -/
def step (s : State) : Host.Outcome State Fault Refusal :=
  let (t, u) := s.takeTurn
  if s.clocked || unclocked t then stepTurn t (u.passCycle 1) else .next u

/-- The state with an instruction placed where the next step fetches it (log 12). -/
def State.withFetchWord (s : State) (_nbits w : Nat) : State := s.placed w

end Sys2Proof.Machine
end

