-- ==== Sys2Proof/Safety.lean ====
section
/-! DEFINITION. The terms in which claims are stated: when an instruction issues with nothing in its way, what an instruction that acts
in its own group may change, and the canonical form of memory. -/
namespace Sys2Proof.Machine

/-- Nothing stands between the issuing gang and the instruction's own effect: the context runs, no round, fence or watchdog holds the
gang, its operands may be read (R55, R56, R59), no MMA reads a span it would write (R141), the scoreboards it names have room (R60), no ACCST
has still to write the descriptor it reads (R291), and a pop flag has nothing to pop (R19). -/
structure Issues (i : Instr) (s : State) (v : View) : Prop where
  view : s.view = some v
  alive : v.x.alive = true
  running : v.x.halted = false
  round : v.roundHolds i = false
  fence : v.fenceHolds i = false
  watchdog : v.g.overrun = false
  operands : operandsOk v.g v.c i = true
  span : s.spanHeld v i = false
  room : (sbNamed i).any v.sbFull = false
  written : (s.core v.t.core).storing v.g.team (v.descRange i) = false
  pop : (popFlagOf i && v.c.slot == 0
    && v.k.slices.any (fun n => (v.g.slice n).popFlag v.c.hdr != (v.g.slice n, false))) = false

/-- A slice that has moved on: its program counter and its signature may differ, nothing else that software can see. -/
def Slice.Moved (a b : Slice) : Prop :=
  b = { a with pc := b.pc, popDone := b.popDone, tokens := b.tokens, sig := b.sig }

/-- A group whose gangs have moved on: registers, predicates, flags and everything else but where its gangs stand, its counts of
retired words and its grant are as they were. -/
structure Group.Moved (a b : Group) : Prop where
  rest : b = { a with
    slices := b.slices, gangs := b.gangs, nextGang := b.nextGang, lclock := b.lclock, dclock := b.dclock
    det := { a.det with granted := b.det.granted } }
  slices : ∀ n, (a.slice n).Moved (b.slice n)

/-- The frame of an instruction that acts in its own group: t is s but for one group, which is now g. -/
structure OnlyGroup (s t : State) (gid : Nat) (g : Group) : Prop where
  here : t.group gid = some g
  others : ∀ n, n ≠ gid → t.group n = s.group n
  rest : t = { s with groups := t.groups }
  /-- every byte of device memory reads as before -/
  bytes : ∀ a, Mem.read t.mem a = Mem.read s.mem a

/-- The latch of an instruction that has completed (R59): where its clause has a next slot, and no gang of the group stands at a REGANG,
the gang goes on to that slot, and the latch of the slot it leaves is valid: f in the lanes of a list, zero in the others. -/
def Latches (v : View) (g : Group) (ls : List Nat) (f : Nat → Word) : Prop :=
  v.c.slot + 1 ≠ v.c.count → (∀ k ∈ v.g.gangs, ∀ all a, k.wait ≠ .regang all a) →
    ∃ k c, g.gang v.kid = some k ∧ k.clause = some c ∧ c.hdr = v.c.hdr ∧ c.slot = v.c.slot + 1
      ∧ c.latOk.getLsbD (v.c.slot % 8) = true
      ∧ ∀ l, l < 32 → c.lats.getD (32 * (v.c.slot % 8) + l) 0 = if ls.contains l then f l else 0

/-- The outcome is a next state in which register d holds f in the lanes of a list, unless .NW keeps it; every other register and lane,
every predicate and flag and the rest of the machine are unchanged. The latch holds f. -/
def WritesReg (s : State) (v : View) (out : Host.Outcome State Fault Refusal) (nw : Bool) (d : BitVec 10) (ls : List Nat)
    (f : Nat → Word) : Prop :=
  ∃ t g, out = .next t ∧ OnlyGroup s t v.gid g
    ∧ (∀ n l, l < 32 → g.reg n l = if !nw && n == d.toNat && ls.contains l then f l else v.g.reg n l)
    ∧ ({ v.g with regs := g.regs } : Group).Moved g ∧ Latches v g ls f

/-- The same for a pair of registers, the low word in d, which the latch takes. -/
def WritesPair (s : State) (v : View) (out : Host.Outcome State Fault Refusal) (nw : Bool) (d : BitVec 10) (ls : List Nat)
    (f : Nat → Dword) : Prop :=
  ∃ t g, out = .next t ∧ OnlyGroup s t v.gid g
    ∧ (∀ n l, l < 32 → g.reg n l =
        if !nw && n == d.toNat + 1 && ls.contains l then (f l).extractLsb' 32 32
        else if !nw && n == d.toNat && ls.contains l then (f l).truncate 32
        else v.g.reg n l)
    ∧ ({ v.g with regs := g.regs } : Group).Moved g ∧ Latches v g ls fun l => (f l).truncate 32

/-- The same for a predicate; a write of p7 is discarded (R58). The latch takes 1 or 0. -/
def WritesPred (s : State) (v : View) (out : Host.Outcome State Fault Refusal) (nw : Bool) (pd : BitVec 3) (ls : List Nat)
    (f : Nat → Bool) : Prop :=
  ∃ t g, out = .next t ∧ OnlyGroup s t v.gid g
    ∧ (∀ p l, l < 32 → g.pred p l = if !nw && p == pd && p != 7 && ls.contains l then f l else v.g.pred p l)
    ∧ ({ v.g with preds := g.preds } : Group).Moved g ∧ Latches v g ls fun l => if f l then 1 else 0

/-- The flags that some lanes raise. -/
def flagsOf (ls : List Nat) (fl : Nat → Word) : Word := ls.foldl (fun a l => a ||| fl l) 0

/-- %fstat after flags have been raised: those of a gang that speculates past a fence do not enter it yet (R62, R129). -/
def View.flagged (v : View) (fl : Word) : Word := if v.k.fence.isNone then v.g.fstat ||| fl else v.g.fstat

/-- The same for a register with float flags: they enter %fstat, and nothing else of it changes. -/
def WritesFloat (s : State) (v : View) (out : Host.Outcome State Fault Refusal) (nw : Bool) (d : BitVec 10) (ls : List Nat)
    (f : Nat → Word × Word) : Prop :=
  ∃ t g, out = .next t ∧ OnlyGroup s t v.gid g
    ∧ (∀ n l, l < 32 → g.reg n l = if !nw && n == d.toNat && ls.contains l then (f l).1 else v.g.reg n l)
    ∧ ({ v.g with regs := g.regs, fstat := v.flagged (flagsOf ls fun l => (f l).2) } : Group).Moved g
    ∧ Latches v g ls fun l => (f l).1

/-- The same for a predicate with float flags. -/
def WritesPredFloat (s : State) (v : View) (out : Host.Outcome State Fault Refusal) (nw : Bool) (pd : BitVec 3) (ls : List Nat)
    (f : Nat → Bool × Word) : Prop :=
  ∃ t g, out = .next t ∧ OnlyGroup s t v.gid g
    ∧ (∀ p l, l < 32 → g.pred p l = if !nw && p == pd && p != 7 && ls.contains l then (f l).1 else v.g.pred p l)
    ∧ ({ v.g with preds := g.preds, fstat := v.flagged (flagsOf ls fun l => (f l).2) } : Group).Moved g
    ∧ Latches v g ls fun l => if (f l).1 then 1 else 0

/-- A group whose registers, predicates, return addresses, streams, flags, special registers and arrivals are as they were: its slices
and gangs may have moved on, and words have been counted, logged or held against an open run. -/
def Group.Kept (a b : Group) : Prop :=
  b = { a with lclock := b.lclock, dclock := b.dclock, run := b.run, det := b.det, slices := b.slices, gangs := b.gangs
               nextGang := b.nextGang }

/-- Every group is still there, its values kept. -/
def State.GroupsKept (s t : State) : Prop :=
  ∀ n, (s.group n = none ∧ t.group n = none) ∨ ∃ a b, s.group n = some a ∧ t.group n = some b ∧ a.Kept b

/-- What an instruction that completes leaves of a state in which its own effect has been made: its word retires, and windows that its
gang was the last to reach close (R23, R59, R61, R202, R245). -/
def State.retired (s : State) (v : View) (i : Instr) (lat : Option (List Nat × (Nat → Word))) : State :=
  (s.modGroup v.gid fun g => g.retire v.kid s.cycle (signOp i) (extraOf i) false lat).closeWindows v.gid

/-- What an instruction that waits leaves: its gang stands at it, or has been moved by its effect already. -/
def State.waits (s : State) (v : View) : State := (s.modGroup v.gid fun g => g.ungrant v.kid).closeWindows v.gid

/-- The outcome is a next state that is u with the gang moved past its instruction: no register, no flag and no special register of
its group has changed. -/
def Completes (u : State) (v : View) (out : Host.Outcome State Fault Refusal) : Prop :=
  ∃ t g, out = .next t ∧ OnlyGroup u t v.gid g ∧ v.g.Moved g

/-- The outcome is a next state that is u but for the issuing group, in which register d holds f in the lanes of a list; every other
register and lane, and every other value of that group, is as in u. -/
def GivesReg (u : State) (v : View) (out : Host.Outcome State Fault Refusal) (d : BitVec 10) (ls : List Nat) (f : Nat → Word)
    (P : State → Prop) : Prop :=
  ∃ t a g, out = .next t ∧ u.group v.gid = some a ∧ t.group v.gid = some g
    ∧ (∀ n l, l < 32 → g.reg n l = if n == d.toNat && ls.contains l then f l else a.reg n l)
    ∧ ({ a with regs := g.regs } : Group).Kept g ∧ (∀ n, n ≠ v.gid → t.group n = u.group n) ∧ t.mem = u.mem ∧ P t

/-- A group of a kind that every run keeps: its gangs have different names and share no slice, the issuing gang's slices are in its table
and one of them is live; and the gang neither waits nor speculates, and no gang stands at a REGANG. -/
structure View.Clean (v : View) : Prop where
  names : (v.g.gangs.map (·.id)).Nodup
  slices : (v.g.gangs.flatMap (·.slices)).Nodup
  listed : ∀ n ∈ v.k.slices, n < 8 ∧ ∃ sl, v.g.slices.look n = some sl
  live : ∃ n ∈ v.k.slices, (v.g.slice n).live ≠ 0
  goes : v.k.wait = .no
  sure : v.k.fence = none
  apart : ∀ k ∈ v.g.gangs, ∀ all a, k.wait ≠ .regang all a

/-- Whether two active lanes of a slice go to different addresses. -/
def Slice.Diverges (sl : Slice) (next : Nat → Dword) : Prop :=
  ∃ a b, a < 4 ∧ b < 4 ∧ sl.active.getLsbD a = true ∧ sl.active.getLsbD b = true ∧ next a ≠ next b

/-- A slice after a branch to each lane's next address (R19): all its active lanes go to one address; or those of the lowest address stay
active and the others park, each with its address. -/
def Slice.Branched (a b : Slice) (next : Nat → Dword) : Prop :=
  b.live = a.live ∧ b.stack = a.stack ∧ (a.active = 0 → b.pc = a.pc ∧ b.active = 0)
    ∧ (a.active ≠ 0 →
      (∃ j, j < 4 ∧ a.active.getLsbD j = true ∧ b.pc = next j)
      ∧ (∀ j, j < 4 → a.active.getLsbD j = true → b.pc.toNat ≤ (next j).toNat)
      ∧ (∀ j, j < 4 → b.active.getLsbD j = (a.active.getLsbD j && next j == b.pc))
      ∧ ∀ j, j < 4 → a.active.getLsbD j = true → next j ≠ b.pc → b.resume.getD j 0 = next j)

/-- An instruction of a clean gang branches in a state that its reads have left (R19): with a divergent slice whose stack is empty it is an
illegal divergence and no lane moves; otherwise each slice of the gang branches, nothing of the group but return stacks, which become
those given, has changed, and the rest of the machine is as in that state. -/
def BranchesIn (s u : State) (v : View) (i : Instr) (next : Nat → Dword) (rets : Nat → List Dword) : Prop :=
  ((∃ n ∈ v.k.slices, (v.g.slice n).Diverges (fun j => next (4 * n + j)) ∧ (v.g.slice n).stack = []) →
    exec i s = .next (s.haltGang v i 0x05 0))
  ∧ ((∀ n ∈ v.k.slices, (v.g.slice n).Diverges (fun j => next (4 * n + j)) → (v.g.slice n).stack ≠ []) →
    ∃ t g, exec i s = .next t ∧ OnlyGroup u t v.gid g ∧ ({ v.g with rets := g.rets } : Group).Kept g
      ∧ (∀ n ∈ v.k.slices, (v.g.slice n).Branched (g.slice n) fun j => next (4 * n + j))
      ∧ ∀ l, l < 32 → g.returns l = rets l)

/-- The same of an instruction that reads nothing. -/
def Branches (s : State) (v : View) (i : Instr) (next : Nat → Dword) (rets : Nat → List Dword) : Prop := BranchesIn s s v i next rets

/-- What a class T cause of an instruction leaves (R189). -/
def State.trapped (s : State) (v : View) (i : Instr) (cause aux : Nat) : State :=
  ((s.takeTrap v i cause aux).modGroup v.gid fun g => g.ungrantTrapped v.kid).closeWindows v.gid

/-- A line's set of the L2 has a way for it: bringing it in evicts no other (R111). -/
def State.l2Room (s : State) (line : Nat) : Prop :=
  ((s.l2.getD (l2Key line) []).filter (· != line)).length < s.l2Ways (l2Key line)

/-- No gang speculates past a fence: no recall rolls one back (R129). -/
def State.noSpeculation (s : State) : Prop := ∀ e ∈ s.groups, ∀ k ∈ e.2.gangs, k.fence = none

/-- One ordinary operation of one access of device memory stands alone in a core's queue, with nothing on the host port, live and inside one
line that nobody owns, watches or moves, and for which the L2 has room. -/
def LoneRequest (s : State) (core : Nat) (o : Op) (p : Piece) : Prop :=
  (s.core core).rq = [o] ∧ (s.core core).wk = [] ∧ (s.core core).yq = [] ∧ o.port = none ∧ (∀ q ∈ (s.core core).replies, q.id ≠ o.id) ∧ o.pieces = [p] ∧ p.got = none ∧ p.merged = false
    ∧ s.tagLive o.ctx o.gen = true ∧ s.migrations = [] ∧ s.monitors = [] ∧ s.router = [] ∧ s.dev.poison = []
    ∧ (s.line (lineOf p.pa)).owner = none ∧ (s.line (lineOf p.pa)).hostHeld = false ∧ s.l2Room (lineOf p.pa) ∧ 0 < p.len
    ∧ p.pa % 256 + p.len ≤ 256

/-- A group has received the words of an operation of one access, and nothing else of its values has changed. -/
def Received (s t : State) (o : Op) (p : Piece) : Prop :=
  ∃ a g, s.group o.grp = some a ∧ t.group o.grp = some g ∧ ({ a with regs := g.regs } : Group).Kept g
    ∧ (∀ n l, l < 32 → g.reg n l = if l = p.lane then ((o.words p).lookup n).getD (a.reg n l) else a.reg n l)
    ∧ (∀ n, n ≠ o.grp → t.group n = s.group n)
    ∧ ∀ n b, o.sb = some b → n ∈ o.slices → (∃ sl, a.slices.look n = some sl) → (g.slice n).sbOf b = (a.slice n).sbOf b - 1

/-- Device and host memory are in canonical form. -/
def State.memoryWf (s : State) : Bool := Memory.wf s.mem && Memory.wf s.host

end Sys2Proof.Machine
end

