-- ==== Sys2Proof/Certificates/Slice0/Obligations.lean ====
section
/-! DEFINITION. The statements for the provers, family by family in the order of the opcode table, then of the whole machine. -/
open Sys2Proof Sys2Proof.Machine

/-! ### VALU -/

/-- R327. Integer arithmetic, per lane, on 32-bit patterns: the result goes to vD, unless .NW, in the lanes that execute; nothing else
that software can see changes, %fstat included. Sums and products are mod 2^32; IMIN and IMAX compare as I32 or as N32; IABS gives
0x80000000 for 0x80000000. R329. IMUL multiplies exactly, as I32 or as N32: .LO keeps the low word, .HI the floor of the product over
2^32, and .WIDE the pair, low word in vD. R328. ICMP writes to pD whether the relation holds, compared as I32 or as N32; a write of p7 is
discarded and .NW suppresses it; the latch receives 1 or 0. -/
def Obligations.IntegerArithmetic : Prop :=
  (
    ∀ (s : State) (v : View),
      (∀ o : V2, Issues (.iadd o) s v → WritesReg s v (exec (.iadd o) s) o.nw o.d (v.lanes o.g) fun l =>
        BitVec.ofNat 32 ((v.src o.a l).toNat + (v.src o.b l).toNat))
      ∧ (∀ o : V2, Issues (.isub o) s v → WritesReg s v (exec (.isub o) s) o.nw o.d (v.lanes o.g) fun l =>
        BitVec.ofInt 32 ((v.src o.a l).toNat - (v.src o.b l).toNat))
      ∧ (∀ o : V3, Issues (.imad o) s v → WritesReg s v (exec (.imad o) s) o.nw o.d (v.lanes o.g) fun l =>
        BitVec.ofNat 32 ((v.src o.a l).toNat * (v.src o.b l).toNat + (v.src o.c l).toNat))
      ∧ (∀ (o : V2) (ty : IntTy), Issues (.imin o ty) s v →
        WritesReg s v (exec (.imin o ty) s) o.nw o.d (v.lanes o.g) fun l =>
          match ty with
          | .i32 => BitVec.ofInt 32 (min (v.src o.a l).toInt (v.src o.b l).toInt)
          | .n32 => BitVec.ofNat 32 (min (v.src o.a l).toNat (v.src o.b l).toNat))
      ∧ (∀ (o : V2) (ty : IntTy), Issues (.imax o ty) s v →
        WritesReg s v (exec (.imax o ty) s) o.nw o.d (v.lanes o.g) fun l =>
          match ty with
          | .i32 => BitVec.ofInt 32 (max (v.src o.a l).toInt (v.src o.b l).toInt)
          | .n32 => BitVec.ofNat 32 (max (v.src o.a l).toNat (v.src o.b l).toNat))
      ∧ (∀ o : V1, Issues (.iabs o) s v → WritesReg s v (exec (.iabs o) s) o.nw o.d (v.lanes o.g) fun l =>
        BitVec.ofNat 32 (v.src o.a l).toInt.natAbs))
  ∧ (
    ∀ (s : State) (v : View) (o : V2) (ty : IntTy),
      let p : Nat → Int := fun l => match ty with
        | .i32 => (v.src o.a l).toInt * (v.src o.b l).toInt
        | .n32 => (v.src o.a l).toNat * (v.src o.b l).toNat
      (Issues (.imul o .lo ty) s v → WritesReg s v (exec (.imul o .lo ty) s) o.nw o.d (v.lanes o.g) fun l => BitVec.ofInt 32 (p l))
      ∧ (Issues (.imul o .hi ty) s v →
        WritesReg s v (exec (.imul o .hi ty) s) o.nw o.d (v.lanes o.g) fun l => BitVec.ofInt 32 (Int.fdiv (p l) (2 ^ 32)))
      ∧ (Issues (.imul o .wide ty) s v → WritesPair s v (exec (.imul o .wide ty) s) o.nw o.d (v.lanes o.g) fun l => BitVec.ofInt 64 (p l)))
  ∧ (
    ∀ (s : State) (v : View) (o : VP2) (cc : ICc) (ty : IntTy), Issues (.icmp o cc ty) s v →
      let x : Nat → Int := fun l => match ty with | .i32 => (v.src o.a l).toInt | .n32 => (v.src o.a l).toNat
      let y : Nat → Int := fun l => match ty with | .i32 => (v.src o.b l).toInt | .n32 => (v.src o.b l).toNat
      WritesPred s v (exec (.icmp o cc ty) s) o.nw o.pd (v.lanes o.g) fun l =>
        match cc with
        | .eq => decide (x l = y l)
        | .ne => decide (x l ≠ y l)
        | .lt => decide (x l < y l)
        | .le => decide (x l ≤ y l)
        | .gt => decide (x l > y l)
        | .ge => decide (x l ≥ y l))

/-- R336, R350. LOP3 and PLOP read a truth table, source A (pA) selecting the lowest bit of the index and source C (pC) the highest. R371,
R369. SHL, SHR and SHF shift by their count mod 32; SHF shifts the pair b:a and keeps its high word (.L) or its low word (.R). R355. PRMT:
byte i of the result is the byte of b:a that the selector's field i names, or 0x00, 0xFF or that byte's sign, as its fill code says. -/
def Obligations.LogicAndShifts : Prop :=
  (
    ∀ (s : State) (v : View),
      (∀ (o : V3) (tbl : BitVec 8), Issues (.lop3 o tbl) s v →
        ∃ f, WritesReg s v (exec (.lop3 o tbl) s) o.nw o.d (v.lanes o.g) f
          ∧ ∀ l i, i < 32 → (f l).getLsbD i =
              tbl.getLsbD (((v.src o.a l).getLsbD i).toNat + 2 * ((v.src o.b l).getLsbD i).toNat + 4 * ((v.src o.c l).getLsbD i).toNat))
      ∧ (∀ o : PlopOp, Issues (.plop o) s v → WritesPred s v (exec (.plop o) s) o.nw o.pd (v.lanes o.g) fun l =>
        o.tbl.getLsbD ((v.g.pred o.pa l).toNat + 2 * (v.g.pred o.pb l).toNat + 4 * (v.g.pred o.pc l).toNat)))
  ∧ (
    ∀ (s : State) (v : View),
      (∀ o : V2, Issues (.shl o) s v → WritesReg s v (exec (.shl o) s) o.nw o.d (v.lanes o.g) fun l =>
        BitVec.ofNat 32 ((v.src o.a l).toNat * 2 ^ ((v.src o.b l).toNat % 32)))
      ∧ (∀ (o : V2) (arith : Bool), Issues (.shr o arith) s v →
        WritesReg s v (exec (.shr o arith) s) o.nw o.d (v.lanes o.g) fun l =>
          if arith then BitVec.ofInt 32 (Int.fdiv (v.src o.a l).toInt (2 ^ ((v.src o.b l).toNat % 32)))
          else BitVec.ofNat 32 ((v.src o.a l).toNat / 2 ^ ((v.src o.b l).toNat % 32)))
      ∧ (∀ (o : V3) (right : Bool), Issues (.shf o right) s v →
        WritesReg s v (exec (.shf o right) s) o.nw o.d (v.lanes o.g) fun l =>
          let x := (v.src o.b l).toNat * 2 ^ 32 + (v.src o.a l).toNat
          let n := (v.src o.c l).toNat % 32
          BitVec.ofNat 32 (if right then x / 2 ^ n else x * 2 ^ n % 2 ^ 64 / 2 ^ 32)))
  ∧ (
    ∀ (s : State) (v : View) (o : V3), Issues (.prmt o) s v →
      ∃ f, WritesReg s v (exec (.prmt o) s) o.nw o.d (v.lanes o.g) f
        ∧ ∀ l i, i < 4 →
            let x := (v.src o.b l).toNat * 2 ^ 32 + (v.src o.a l).toNat
            let k := (v.src o.c l).toNat / 2 ^ (3 * i) % 8
            let fill := (v.src o.c l).toNat / 2 ^ (12 + 2 * i) % 4
            let y := x / 2 ^ (8 * k) % 256
            (f l).toNat / 2 ^ (8 * i) % 256 =
              if fill = 0 then y else if fill = 1 then 0 else if fill = 2 then 255 else 255 * (y / 128))

/-- R352, R312, R306. POPC counts the set bits, CLZ the zero bits above the highest set bit (32 of zero), BREV reverses the bits. R302.
BFX takes the field of min(wd, 32 - pos) bits at pos, sign-extended as I32; BFI puts it into the destination's old value; where wd is 0 or
pos is 32 or more, BFX gives 0 and BFI the old value. -/
def Obligations.BitFields : Prop :=
  (
    ∀ (s : State) (v : View) (o : V1),
      (Issues (.popc o) s v → ∃ f, WritesReg s v (exec (.popc o) s) o.nw o.d (v.lanes o.g) f
        ∧ ∀ l, (f l).toNat = ((List.range 32).map fun i => ((v.src o.a l).getLsbD i).toNat).sum)
      ∧ (Issues (.clz o) s v → ∃ f, WritesReg s v (exec (.clz o) s) o.nw o.d (v.lanes o.g) f
        ∧ ∀ l, (v.src o.a l = 0 → f l = 32)
          ∧ (v.src o.a l ≠ 0 → (f l).toNat < 32 ∧ (v.src o.a l).getLsbD (31 - (f l).toNat) = true
              ∧ ∀ i, 31 - (f l).toNat < i → (v.src o.a l).getLsbD i = false))
      ∧ (Issues (.brev o) s v → ∃ f, WritesReg s v (exec (.brev o) s) o.nw o.d (v.lanes o.g) f
        ∧ ∀ l i, i < 32 → (f l).getLsbD i = (v.src o.a l).getLsbD (31 - i)))
  ∧ (
    ∀ (s : State) (v : View) (o : V3),
      let pos : Nat → Nat := fun l => (v.src o.b l).toNat % 256
      let wd : Nat → Nat := fun l => (v.src o.c l).toNat % 256
      let n : Nat → Nat := fun l => min (wd l) (32 - pos l)
      (∀ ty, Issues (.bfx o ty) s v → ∃ f, WritesReg s v (exec (.bfx o ty) s) o.nw o.d (v.lanes o.g) f
        ∧ ∀ l, ((wd l = 0 ∨ 32 ≤ pos l) → f l = 0)
          ∧ (¬ (wd l = 0 ∨ 32 ≤ pos l) → ∀ i, i < 32 → (f l).getLsbD i =
              if i < n l then (v.src o.a l).getLsbD (pos l + i)
              else ty == .i32 && (v.src o.a l).getLsbD (pos l + n l - 1)))
      ∧ (Issues (.bfi o) s v → ∃ f, WritesReg s v (exec (.bfi o) s) o.nw o.d (v.lanes o.g) f
        ∧ ∀ l, ((wd l = 0 ∨ 32 ≤ pos l) → f l = v.g.reg o.d.toNat l)
          ∧ (¬ (wd l = 0 ∨ 32 ≤ pos l) → ∀ i, i < 32 → (f l).getLsbD i =
              if pos l ≤ i ∧ i < pos l + n l then (v.src o.a l).getLsbD (i - pos l) else (v.g.reg o.d.toNat l).getLsbD i)))

/-- R368, R339. SEL, MOV, MOVI and MOVS write the pattern they name: SEL a where pC is true and b otherwise; MOVI its immediate, the short
form sign-extended; MOVS the special register of number 0 to 7 as the lane sees it (R61): the lane, its slice, the group, the team, the
physical and the logical core, the map number with the physical and the logical quad, the cluster and the context. -/
def Obligations.Moves : Prop :=
  ∀ (s : State) (v : View),
    (∀ (o : V2) (pc : BitVec 3), Issues (.sel o pc) s v →
      WritesReg s v (exec (.sel o pc) s) o.nw o.d (v.lanes o.g) fun l => if v.g.pred pc l then v.src o.a l else v.src o.b l)
    ∧ (∀ o : V1, Issues (.mov o) s v → WritesReg s v (exec (.mov o) s) o.nw o.d (v.lanes o.g) fun l => v.src o.a l)
    ∧ (∀ nw d (n : BitVec 22) g, Issues (.movi nw d (.short n) g) s v →
      WritesReg s v (exec (.movi nw d (.short n) g) s) nw d (v.lanes g) fun _ => BitVec.ofInt 32 n.toInt)
    ∧ (∀ nw d (n : BitVec 32) g, Issues (.movi nw d (.long n) g) s v →
      WritesReg s v (exec (.movi nw d (.long n) g) s) nw d (v.lanes g) fun _ => n)
    ∧ (∀ nw d (num : BitVec 3) g, Issues (.movs nw d num g) s v →
      ∃ f, WritesReg s v (exec (.movs nw d num g) s) nw d (v.lanes g) f
        ∧ ∀ l, (num = 0 → f l = BitVec.ofNat 32 l)
          ∧ (num = 1 → f l = BitVec.ofNat 32 (l / 4))
          ∧ (num = 2 → f l = BitVec.ofNat 32 v.g.index)
          ∧ (num = 3 → f l = BitVec.ofNat 32 v.t.index)
          ∧ (num = 4 → f l = BitVec.ofNat 32 (v.t.core * 2 ^ 16 + s.logicalCore v.t.core))
          ∧ (num = 5 → f l = BitVec.ofNat 32 (v.l.mapno % 2 ^ 16 * 2 ^ 16 + v.t.core / 4 * 2 ^ 8 + s.logicalCore v.t.core / 4))
          ∧ (num = 6 → f l = BitVec.ofNat 32 (match s.cluster v.t.cluster with | some c => c.index | none => 0))
          ∧ (num = 7 → f l = BitVec.ofNat 32 v.g.ctx))

/-- R319. FADD, FMUL, FFMA, FMIN and FMAX act per element: the exact result rounded once into the element's format, or the smaller or
larger operand; the flags of all elements of all executing lanes enter %fstat. R323. FRCP, FRSQ, FSQRT, FEXP2 and FLOG2 act per element,
in the element's format, with their flags in %fstat. R321, R320. FCMP is true in a packed form only where the relation holds for both
elements, and a signalling NaN raises nv alone; FCLS writes class numbers and raises nothing. -/
def Obligations.FloatArithmetic : Prop :=
  (
    ∀ (s : State) (v : View) (fm : FForm),
      (∀ o : V2, Issues (.fadd o fm) s v → WritesFloat s v (exec (.fadd o fm) s) o.nw o.d (v.lanes o.g) fun l =>
        packed fm fun e => (formFF fm).add ((formFF fm).decode (element fm (v.src o.a l) e)) ((formFF fm).decode (element fm (v.src o.b l) e)))
      ∧ (∀ o : V2, Issues (.fmul o fm) s v → WritesFloat s v (exec (.fmul o fm) s) o.nw o.d (v.lanes o.g) fun l =>
        packed fm fun e => (formFF fm).mul ((formFF fm).decode (element fm (v.src o.a l) e)) ((formFF fm).decode (element fm (v.src o.b l) e)))
      ∧ (∀ o : V3, Issues (.ffma o fm) s v → WritesFloat s v (exec (.ffma o fm) s) o.nw o.d (v.lanes o.g) fun l =>
        packed fm fun e => (formFF fm).fma ((formFF fm).decode (element fm (v.src o.a l) e)) ((formFF fm).decode (element fm (v.src o.b l) e))
          ((formFF fm).decode (element fm (v.src o.c l) e)))
      ∧ (∀ o : V2, Issues (.fmin o fm) s v → WritesFloat s v (exec (.fmin o fm) s) o.nw o.d (v.lanes o.g) fun l =>
        packed fm fun e => (formFF fm).minmax false (element fm (v.src o.a l) e) (element fm (v.src o.b l) e))
      ∧ (∀ o : V2, Issues (.fmax o fm) s v → WritesFloat s v (exec (.fmax o fm) s) o.nw o.d (v.lanes o.g) fun l =>
        packed fm fun e => (formFF fm).minmax true (element fm (v.src o.a l) e) (element fm (v.src o.b l) e)))
  ∧ (
    ∀ (s : State) (v : View) (o : V1) (fm : FForm),
      let each : (FF → FVal → Nat × Word) → Nat → Word × Word := fun f l =>
        packed fm fun e => f (formFF fm) ((formFF fm).decode (element fm (v.src o.a l) e))
      (Issues (.frcp o fm) s v → WritesFloat s v (exec (.frcp o fm) s) o.nw o.d (v.lanes o.g) (each FF.rcp))
      ∧ (Issues (.frsq o fm) s v → WritesFloat s v (exec (.frsq o fm) s) o.nw o.d (v.lanes o.g) (each FF.rsq))
      ∧ (Issues (.fsqrt o fm) s v → WritesFloat s v (exec (.fsqrt o fm) s) o.nw o.d (v.lanes o.g) (each FF.sqrt))
      ∧ (Issues (.fexp2 o fm) s v → WritesFloat s v (exec (.fexp2 o fm) s) o.nw o.d (v.lanes o.g) (each FF.exp2))
      ∧ (Issues (.flog2 o fm) s v → WritesFloat s v (exec (.flog2 o fm) s) o.nw o.d (v.lanes o.g) (each FF.log2)))
  ∧ (
    ∀ (s : State) (v : View) (fm : FForm),
      (∀ (o : VP2) (cc : FCc), Issues (.fcmp o cc fm) s v →
        let one : Nat → Nat → Bool := fun l e =>
          fccHolds cc (cmpVal ((formFF fm).decode (element fm (v.src o.a l) e)) ((formFF fm).decode (element fm (v.src o.b l) e)))
        let nv : Nat → Nat → Word := fun l e =>
          ((formFF fm).decode (element fm (v.src o.a l) e)).nvOf ||| ((formFF fm).decode (element fm (v.src o.b l) e)).nvOf
        WritesPredFloat s v (exec (.fcmp o cc fm) s) o.nw o.pd (v.lanes o.g) fun l =>
          if fm = .f32 then (one l 0, nv l 0) else (one l 0 && one l 1, nv l 0 ||| nv l 1))
      ∧ (∀ o : V1, Issues (.fcls o fm) s v → WritesReg s v (exec (.fcls o fm) s) o.nw o.d (v.lanes o.g) fun l =>
        if fm = .f32 then BitVec.ofNat 32 ((formFF fm).cls (v.src o.a l).toNat)
        else BitVec.ofNat 32 ((formFF fm).cls ((v.src o.a l).toNat % 2 ^ 16) + 2 ^ 16 * (formFF fm).cls ((v.src o.a l).toNat / 2 ^ 16))))

/-- R316, R77. CVT converts each executing lane and raises its flags where no executing lane would trap; where one would, no lane writes,
%fstat is unchanged, and the class T cause is taken. R356, R357. QPACK writes the unit of four F32 values, zero-extended, and raises its
flags; QUNPK writes one element of a unit as F32, or +0 where the unit is malformed, and counts in mcount each lane that reads a malformed
unit. -/
def Obligations.Conversions : Prop :=
  (
    ∀ (s : State) (v : View) (o : V1) (dst src : Fmt) (pol : Pol) (rm : Rnd), Issues (.cvt o dst src pol rm) s v →
      let r := fun l => cvt (fmtValue src (v.src o.a l).toNat) dst rm pol
      (∀ ok : Nat → Nat × Word, (∀ l ∈ v.lanes o.g, r l = .ok (ok l)) →
        WritesFloat s v (exec (.cvt o dst src pol rm) s) o.nw o.d (v.lanes o.g) fun l => (BitVec.ofNat 32 (ok l).1, (ok l).2))
      ∧ (∀ l ∈ v.lanes o.g, ∀ t, r l = .error t → v.k.fence = none →
        ∃ cause, (cause = 0x28 ∨ cause = 0x29) ∧ exec (.cvt o dst src pol rm) s =
          .next (s.trapped v (.cvt o dst src pol rm) cause 0)))
  ∧ (
    ∀ (s : State) (v : View),
      (∀ (o : V2) (c : BitVec 10), Issues (.qpack o c) s v →
        let u : Nat → Nat × Word × Bool := fun l =>
          packUnit (FF.decode .f32 (v.src o.a l).toNat) (FF.decode .f32 (v.src o.b l).toNat)
            (FF.decode .f32 (v.g.reg c.toNat l).toNat) (FF.decode .f32 (v.g.reg (c.toNat + 1) l).toNat)
        WritesFloat s v (exec (.qpack o c) s) o.nw o.d (v.lanes o.g) fun l => (BitVec.ofNat 32 (u l).1, (u l).2.1))
      ∧ (∀ (o : V1) (e : BitVec 2), Issues (.qunpk o e) s v →
        ∃ t g, exec (.qunpk o e) s = .next t ∧ OnlyGroup s t v.gid g
          ∧ (∀ n l, l < 32 → g.reg n l =
              if !o.nw && n == o.d.toNat && (v.lanes o.g).contains l then
                match decodeUnit ((v.src o.a l).toNat % 2 ^ 16) with
                | none => 0
                | some es => ((es[e.toNat]?).map unitF32).getD 0
              else v.g.reg n l)
          ∧ (v.k.fence = none →
              let bad := (v.lanes o.g).filter fun l => (decodeUnit ((v.src o.a l).toNat % 2 ^ 16)).isNone
              g.fstat.toNat / 2 ^ 16 = min 0xFFFF (v.g.fstat.toNat / 2 ^ 16 + bad.length)
                ∧ g.fstat.toNat % 2 ^ 16 = v.g.fstat.toNat % 2 ^ 16)
          ∧ ({ v.g with regs := g.regs, fstat := g.fstat } : Group).Moved g))

/-- R359. RAND writes the stream's number to the pair and counts the lane's stream on, where no executing lane's stream is exhausted;
where one is, the trap 0x2A is taken and no lane writes. -/
def Obligations.RandomStreams : Prop :=
  ∀ (s : State) (v : View) (nw : Bool) (d k : BitVec 10) (g : Guard), Issues (.rand nw d k g) s v →
    ((∀ l ∈ v.lanes g, v.g.rand.getD l 0 < 2 ^ 40) →
      ∃ t h, exec (.rand nw d k g) s = .next t ∧ OnlyGroup s t v.gid h
        ∧ (∀ n l, l < 32 → h.reg n l =
            if !nw && n == d.toNat + 1 && (v.lanes g).contains l then
              (randOf (v.g.pair k.toNat l) (v.g.rank l) (v.g.rand.getD l 0)).extractLsb' 32 32
            else if !nw && n == d.toNat && (v.lanes g).contains l then
              (randOf (v.g.pair k.toNat l) (v.g.rank l) (v.g.rand.getD l 0)).truncate 32
            else v.g.reg n l)
        ∧ (∀ l, h.rand.getD l 0 = v.g.rand.getD l 0 + if (v.lanes g).contains l then 1 else 0)
        ∧ ({ v.g with regs := h.regs, rand := h.rand } : Group).Moved h)
    ∧ ((∃ l ∈ v.lanes g, 2 ^ 40 ≤ v.g.rand.getD l 0) → v.k.fence = none →
      exec (.rand nw d k g) s =
        .next (s.trapped v (.rand nw d k g) 0x2A 0))

/-! ### XFER -/

/-- R370, R382. SHFL: each executing lane takes a of its source lane, as it stood before, where that lane is in range and active in the
issuing gang, and its own a otherwise; pV says which. VOTE: every executing lane receives whether pA is true in all, or in some, executing
lane, or the mask of those in which it is. R326, R337. GRED combines what the 32 lanes contribute, the identity where a lane does not
execute, in a fixed tree over lane numbers, lower lanes on the left; GSCAN.INC of lane l and GSCAN.EXC of lane l + 1 are the same scan;
MATCH gives the mask of the executing lanes whose value is the lane's own, bit for bit. -/
def Obligations.GroupCommunication : Prop :=
  (
    ∀ (s : State) (v : View),
      (∀ o : ShflArgs, Issues (.shfl o) s v →
        let want : Nat → Int := fun l => match o.mode with
          | .abs => (v.src o.b l).toNat
          | .rel => l + (v.src o.b l).toInt
          | .rot => ((l + (v.src o.b l).toNat) % 32 : Nat)
          | .bfly => (BitVec.ofNat 32 l ^^^ v.src o.b l).toNat
        let ok : Nat → Bool := fun l => decide (0 ≤ want l) && decide (want l ≤ 31) && v.active.contains (want l).toNat
        ∃ t g, exec (.shfl o) s = .next t ∧ OnlyGroup s t v.gid g
          ∧ (∀ n l, l < 32 → g.reg n l =
              if n == o.d.toNat && (v.lanes o.g).contains l then v.src o.a (if ok l then (want l).toNat else l) else v.g.reg n l)
          ∧ (∀ p l, l < 32 → g.pred p l = if p == o.pv && p != 7 && (v.lanes o.g).contains l then ok l else v.g.pred p l)
          ∧ ({ v.g with regs := g.regs, preds := g.preds } : Group).Moved g)
      ∧ (∀ d pa g, Issues (.vote .all d pa g) s v →
        WritesPred s v (exec (.vote .all d pa g) s) false (d.truncate 3) (v.lanes g) fun _ => decide (∀ k ∈ v.lanes g, v.g.pred pa k = true))
      ∧ (∀ d pa g, Issues (.vote .any d pa g) s v →
        WritesPred s v (exec (.vote .any d pa g) s) false (d.truncate 3) (v.lanes g) fun _ => decide (∃ k ∈ v.lanes g, v.g.pred pa k = true))
      ∧ (∀ d pa g, Issues (.vote .bal d pa g) s v →
        ∃ f, WritesReg s v (exec (.vote .bal d pa g) s) false d (v.lanes g) f
          ∧ ∀ l k, k < 32 → (f l).getLsbD k = ((v.lanes g).contains k && v.g.pred pa k)))
  ∧ (
    ∀ (s : State) (v : View),
      (∀ d a op ty g, Issues (.gred d a op ty g) s v →
        let x : Nat → Word := fun l => if (v.lanes g).contains l then v.src a l else redIdentity op ty
        let half : Nat → Word × Word := fun lo => redNode op ty x 4 lo
        let root := redApply op ty (half 0).1 (half 16).1
        WritesFloat s v (exec (.gred d a op ty g) s) false d (v.lanes g) fun _ => (root.1, (half 0).2 ||| (half 16).2 ||| root.2))
      ∧ (∀ d a exc op ty g, Issues (.gscan d a exc op ty g) s v →
        let x : Nat → Word := fun l => if (v.lanes g).contains l then v.src a l else redIdentity op ty
        WritesFloat s v (exec (.gscan d a exc op ty g) s) false d (v.lanes g) fun l => scanOver op ty x (if exc then l else l + 1))
      ∧ (∀ d a g, Issues (.matchv d a g) s v →
        ∃ f, WritesReg s v (exec (.matchv d a g) s) false d (v.lanes g) f
          ∧ ∀ l k, k < 32 → (f l).getLsbD k = ((v.lanes g).contains k && decide (v.src a k = v.src a l))))

/-! ### MEM -/

/-- R331, R332, R334. A load or a bound load whose addresses pass their checks, with room among the miss-status entries, a free tag and a
scoreboard that can rise, issues and completes: registers keep their values until its data arrives; in .G it stands in core order (or,
weak, beside it), in .Y it stands last on the host port, and in .S and .C, and in deterministic mode, what it read is already in its
reply. R375 to R377, R179. A store or a bound store whose addresses pass their checks issues and completes: no register changes. In .S it
is in the scratchpad at once, lane by lane in ascending order, unless an ACCST has still to write some of those bytes: then it waits; in .G
and .Y it stands in its queue; in deterministic mode it is in the group's log, unless the log is full. -/
def Obligations.LoadsAndStores : Prop :=
  (
    ∀ (s : State) (v : View) (i : Instr) (sp : Space) (wk : Bool) (sb : BitVec 3) (kind : OpKind) (d : Nat) (ps : List Piece),
      ((∃ o : LdOp, i = .ld o ∧ sp = o.space ∧ wk = o.wk ∧ sb = o.sb ∧ kind = .load o.sx ∧ d = o.d.toNat
          ∧ ps = (v.lanes o.g).map fun l => piece l 0 (addrOf v.g v.c o.space o.base o.off l) (bytesOf o.size) 0)
        ∨ (∃ o : LdbOp, i = .ldb o ∧ sp = .g ∧ wk = o.wk ∧ sb = o.sb ∧ kind = .ldb ∧ d = o.d.toNat
          ∧ ps = (v.lanes o.g).flatMap fun l =>
            [piece l 0 (v.g.pair (2 * o.plane2.toNat) l).toNat 2 0,
             piece l 1 (addrOf v.g v.c .g (.reg o.base) o.off l) (bytesOf o.size) 0])) →
      Issues i s v →
      ∀ qs u tag, v.check s sp false ps = .ok qs →
        let needs : Piece → Bool := fun p => sp == .g && !v.x.det && !s.l1Hit v.t.core (s.lineAt p.pa) (sectorsOf p.pa p.len)
        v.loadWaits s sp (qs.filter needs) qs = false →
        s.queueUp v i (some sb) = some (u, tag) →
        let op := v.op u.nextUid tag (some sb) kind d (takeEntries needs qs) 0
        ∃ t : State, exec i s = .next (t.retired v i none) ∧ (sp ≠ .c → s.GroupsKept (t.retired v i none))
          ∧ (sp = .y → t = u.fresh.1.enqueueY v.t.core op false)
          ∧ (sp = .g → v.x.det = false → t = if wk then u.fresh.1.enqueueWeak v.t.core op else u.fresh.1.enqueue v.t.core op)
          ∧ (sp = .c → t = v.constLoad u.fresh.1 op)
          ∧ ((sp = .s ∨ (sp = .g ∧ v.x.det = true)) → t.mem = s.mem ∧
              ∃ w o', w.mem = u.mem ∧ w.teams = u.teams ∧ (t.core v.t.core).replies = (w.core v.t.core).replies ++ [o']
                ∧ o'.pieces = (op.pieces.foldl (fun (o : Op) p => o.perform p (v.readNow w sp p) 0) op).pieces))
  ∧ (
    ∀ (s : State) (v : View) (i : Instr) (sp : Space) (wk : Bool) (sb : Option (BitVec 3)) (kind : OpKind) (ps : List Piece),
      ((∃ o : StOp, i = .st o ∧ sp = o.space ∧ wk = o.wk ∧ sb = o.sb ∧ kind = .store
          ∧ ps = (v.lanes o.g).map fun l => piece l 0 (addrOf v.g v.c o.space o.base o.off l) (bytesOf o.size)
              (dataOf v.g v.c o.data (regsOf o.size) l % 2 ^ (8 * bytesOf o.size)))
        ∨ (∃ o : StbOp, i = .stb o ∧ sp = .g ∧ wk = o.wk ∧ sb = o.sb ∧ kind = .stb
          ∧ ps = (v.lanes o.g).flatMap fun l =>
            [piece l 0 (addrOf v.g v.c .g (.reg o.base) o.off l) (bytesOf o.size)
                (dataOf v.g v.c (.reg (BitVec.ofNat 10 (2 * o.data2.toNat))) (regsOf o.size) l % 2 ^ (8 * bytesOf o.size)),
             piece l 1 (v.g.pair (2 * o.plane2.toNat) l).toNat 2
               ((v.g.reg (2 * o.data2.toNat + regsOf o.size) l).toNat % 2 ^ 16)])) →
      Issues i s v →
      ∀ qs, v.check s sp true ps = .ok qs →
        (sp = .s → v.x.det = false → (s.core v.t.core).storing v.g.team (qs.map fun p => (p.va, p.len)) = true →
          exec i s = .next (s.waits v))
        ∧ (sp = .s → v.x.det = false → (s.core v.t.core).storing v.g.team (qs.map fun p => (p.va, p.len)) = false →
          ∃ t : State, exec i s = .next (t.retired v i none) ∧ s.GroupsKept (t.retired v i none) ∧ t.mem = s.mem
            ∧ t = qs.foldl (fun (s : State) p => s.spadStore v.g.team p.va p.len p.val) s)
        ∧ (sp ≠ .y → v.x.det = true → v.g.det.used + logEntries sp qs ≤ 512 →
          ∃ t g, exec i s = .next t ∧ OnlyGroup s t v.gid g ∧ v.g.Kept g
            ∧ g.det.log = v.g.det.log ++ s.logOf sp qs ∧ g.det.used = v.g.det.used + logEntries sp qs)
        ∧ (∀ u tag, sp ≠ .s → (sp = .y ∨ v.x.det = false) →
          let needs : Piece → Bool := fun p => sp == .g && (wk || !s.ownsFor v.t.core p.pa p.len)
          (if sp = .y then (s.core v.t.core).noRoomY qs else (s.core v.t.core).noRoom (qs.filter needs)) = false →
          s.queueUp v i sb = some (u, tag) →
          let op := v.op u.nextUid tag sb kind 0 (takeEntries needs qs) (u.core v.t.core).pts
          let w := if qs = [] then u.fresh.1 else u.fresh.1.modGroup v.gid (·.impure)
          ∃ t : State, exec i s = .next (t.retired v i none) ∧ s.GroupsKept (t.retired v i none)
            ∧ (sp = .y → t = w.enqueueY v.t.core op true)
            ∧ (sp ≠ .y → wk = false → t = w.enqueue v.t.core op)
            ∧ (sp ≠ .y → wk = true → t = w.enqueueWeak v.t.core op)))

/-- R375, R107, R126. The scratchpad after a store to .S: a byte that some lane wrote holds what the highest-numbered of them wrote there,
little-endian, and every other byte of every team's scratchpad reads as before. R335, R105. LDC delivers the word of the launch's bank in
its slot, to vD and to the latch: as the constant cache holds it, or from memory, where it is then in the cache; an offset at or beyond the
bank's end is a protection fault of class H, and an uncorrectable sector (R109) a contained fault. -/
def Obligations.ScratchpadAndConstants : Prop :=
  (
    ∀ (s : State) (v : View) (o : StOp) (qs : List Piece), Issues (.st o) s v → o.space = .s → v.x.det = false →
      v.check s .s true ((v.lanes o.g).map fun l => piece l 0 (addrOf v.g v.c .s o.base o.off l) (bytesOf o.size)
        (dataOf v.g v.c o.data (regsOf o.size) l % 2 ^ (8 * bytesOf o.size))) = .ok qs →
      (s.core v.t.core).storing v.g.team (qs.map fun p => (p.va, p.len)) = false →
      ∃ t : State, exec (.st o) s = .next t ∧
        (∀ n, n ≠ v.g.team → t.team n = s.team n) ∧
        ∀ x, s.team v.g.team = some x → Memory.wf x.spad = true → ∃ y, t.team v.g.team = some y ∧
          ∀ a, Mem.read y.spad a =
            match (qs.filter fun p => decide (p.va ≤ a) && decide (a < p.va + p.len)).getLast? with
            | some p => BitVec.ofNat 8 (p.val / 2 ^ (8 * (a - p.va)))
            | none => Mem.read x.spad a)
  ∧ (
    ∀ (s : State) (v : View) (nw : Bool) (d : BitVec 10) (off : BitVec 22) (g : Guard), Issues (.ldc nw d off g) s v →
      let held := (s.core v.t.core).ccache.find? fun e => e.1 == v.g.launch && e.2.1 == off.toNat
      let a := v.l.bank.getD (off.toNat / 256) 0 + off.toNat % 256
      (∀ e, off.toNat + 4 ≤ v.l.bankSize → held = some e → WritesReg s v (exec (.ldc nw d off g) s) nw d (v.lanes g) fun _ => e.2.2)
      ∧ (off.toNat + 4 ≤ v.l.bankSize → held = none → s.bad a = false →
        let w := BitVec.ofNat 32 (s.homeRead a 4).2
        ∃ u : State, (u.core v.t.core).ccache.getLast? = some (v.g.launch, off.toNat, w) ∧ u.groups = (s.homeRead a 4).1.groups
          ∧ exec (.ldc nw d off g) s = .next ((if nw then u else u.modGroup v.gid fun h =>
              h.setRegs d.toNat (v.lanes g) fun _ => w).retired v (.ldc nw d off g) (some (v.lanes g, fun _ => w))))
      ∧ (off.toNat + 4 ≤ v.l.bankSize → held = none → s.bad a = true → v.k.fence = none → v.x.line = none →
        exec (.ldc nw d off g) s =
          .next (s.containedFault v.gid (v.report (.ldc nw d off g) 3 0x40 (v.l.bankBase + off.toNat) (s.served a / 64))))
      ∧ (v.l.bankSize < off.toNat + 4 → v.k.fence = none →
        exec (.ldc nw d off g) s = .next (s.haltGang v (.ldc nw d off g) 0x03 off.toNat)))

/-- R293, R295 to R297. An atomic whose addresses pass their checks issues and completes: no register changes until it is acknowledged. In
.G it stands in core order; in .S it is applied at once, lane by lane. ARED, AMAXP and the forms of ATOM that .Y does not carry trap
there. R294, R160. The read-modify-write functions: the new value from the old one o, the operand x and the compare value c, at 32 or 64
bits; AMAXP keeps the word with the larger key, which orders the score first and then the smaller index. -/
def Obligations.Atomics : Prop :=
  (
    ∀ (s : State) (v : View) (i : Instr) (sp : Space) (sb : BitVec 3) (kind : OpKind) (d : Nat) (ps : List Piece) (carried : Bool),
      ((∃ o : AtomArgs, i = .atom o ∧ sp = o.space ∧ sb = o.sb ∧ kind = .atom o.op o.t o.w8 ∧ d = 2 * o.d2.toNat
          ∧ carried = ((o.op == .add && !o.t) || o.op == .swap || o.op == .cas)
          ∧ ps = (v.lanes o.g).map fun l =>
            { piece l 0 (addrOf v.g v.c o.space (.reg o.base) o.off l) (if o.w8 then 8 else 4)
                (dataOf v.g v.c (.reg (BitVec.ofNat 10 (2 * o.b2.toNat))) (if o.w8 then 2 else 1) l) with
              cmp := dataOf v.g v.c (.reg (BitVec.ofNat 10 (2 * o.b2.toNat + if o.w8 then 2 else 1))) (if o.w8 then 2 else 1) l })
        ∨ (∃ o : AredArgs, i = .ared o ∧ sp = o.space ∧ sb = o.sb ∧ kind = .ared o.op o.t o.w8 o.mrg ∧ d = 0 ∧ carried = false
          ∧ ps = (v.lanes o.g).map fun l => piece l 0 (addrOf v.g v.c o.space o.base o.off l) (if o.w8 then 8 else 4)
              (dataOf v.g v.c o.data (if o.w8 then 2 else 1) l))
        ∨ (∃ o : AmaxpArgs, i = .amaxp o ∧ sp = o.space ∧ sb = o.sb ∧ kind = .amaxp o.nw ∧ d = o.d.toNat ∧ carried = false
          ∧ ps = (v.lanes o.g).map fun l => piece l 0 (addrOf v.g v.c o.space o.base o.off l) 4 (v.src o.v l).toNat)) →
      Issues i s v →
      (sp = .y → carried = false → v.k.fence = none →
        exec i s = .next (s.trapped v i 0x2D 0))
      ∧ ∀ qs u tag, (sp = .y → carried = true) → v.check s sp true ps = .ok qs →
        let needs : Piece → Bool := fun _ => sp == .g && !v.x.det
        v.loadWaits s sp (qs.filter needs) qs = false → (sp = .g → v.x.det = true → ∀ p ∈ qs, s.lockedFor p.pa = false) →
        s.queueUp v i (some sb) = some (u, tag) →
        let op := v.op u.nextUid tag (some sb) kind d (takeEntries needs qs) 0
        let w := if qs = [] then u.fresh.1 else u.fresh.1.modGroup v.gid (·.impure)
        ∃ t : State, exec i s = .next (t.retired v i none)
          ∧ ((v.x.det = false ∨ sp = .s ∨ sp = .y) → s.GroupsKept (t.retired v i none))
          ∧ (sp = .y → t = w.enqueueY v.t.core op false)
          ∧ (sp = .g → v.x.det = false → t = w.enqueue v.t.core op)
          ∧ (sp = .s → t = (w.atomSpad v.g.team op qs).1.replyLater v.t.core (w.atomSpad v.g.team op qs).2)
          ∧ (sp = .g → v.x.det = true → ∃ o', t = (w.atomHome v.t.core op qs).1.replyLater v.t.core o'
              ∧ o'.pieces = (w.atomHome v.t.core op qs).2.pieces))
  ∧ (
    ∀ (w8 : Bool) (o x c : Nat), let w := if w8 then 64 else 32
      o < 2 ^ w → x < 2 ^ w →
      let sg : Nat → Int := fun n => (BitVec.ofNat w n).toInt
      atomNew .add false w8 o x c = (o + x) % 2 ^ w
      ∧ (∀ k, Nat.testBit (atomNew .and false w8 o x c) k = (Nat.testBit o k && Nat.testBit x k))
      ∧ (∀ k, Nat.testBit (atomNew .or false w8 o x c) k = (Nat.testBit o k || Nat.testBit x k))
      ∧ (∀ k, Nat.testBit (atomNew .xor false w8 o x c) k = (Nat.testBit o k != Nat.testBit x k))
      ∧ atomNew .min false w8 o x c = min o x
      ∧ atomNew .max false w8 o x c = max o x
      ∧ (sg (atomNew .min true w8 o x c) = min (sg o) (sg x))
      ∧ (sg (atomNew .max true w8 o x c) = max (sg o) (sg x))
      ∧ atomNew .swap false w8 o x c = x
      ∧ atomNew .cas false w8 o x c = (if o = c then x else o)
      ∧ (amaxNew o x = o ∨ amaxNew o x = x) ∧ amaxKey (amaxNew o x) = max (amaxKey o) (amaxKey x))

/-- R341, R342. MWAIT acts once per gang, at the address of its lowest executing lane: with no executing lane it completes, in .Y too;
outside deterministic mode it parks its gang, and its read takes its place in core order; in deterministic mode it reads at once, and where its
compare holds on the value read it completes, and its executing lanes receive that value; in .Y an executing lane makes it trap, without effect.
R322, R128, R311, R354. FENCE completes at once in deterministic mode, and with nothing to await, the core's logical time then at what has
been acknowledged; otherwise it retires and its gang goes on past it while the acknowledgements are outstanding. What it awaits is every
ordinary operation that its core issued before and the group's own of the other kinds: the model's choice, log 26. PREF and CFLUSH retire at
issue and change no team, no launch, no host memory and no logical time, and where nothing speculates no group; the line of a lane's byte
that translates is afterwards gone from the L1 (CFLUSH), or its sector is there under a lease (PREF). -/
def Obligations.WaitsAndFences : Prop :=
  (
    ∀ (s : State) (v : View) (o : MwaitArgs), Issues (.mwait o) s v →
      (o.isY = true → v.lanes o.g ≠ [] → v.k.fence = none →
        exec (.mwait o) s = .next (s.trapped v (.mwait o) 0x2D 0))
      ∧ (v.lanes o.g = [] → Completes s v (exec (.mwait o) s))
      ∧ (∀ l ls q u tag, o.isY = false → v.x.det = false → v.lanes o.g = l :: ls →
        let p := { piece l 0 (addrOf v.g v.c .g (.reg o.base) o.off l) (if o.w8 then 8 else 4) (lanesMask (l :: ls)) with
                   cmp := dataOf v.g v.c o.x (if o.w8 then 2 else 1) l }
        v.check s .g false [p] = .ok [q] → (s.core v.t.core).noRoom [q] = false → s.openTag v (.mwait o) 1 = some (u, tag) →
        let w := u.fresh.1.park v.gid v.kid (.mwait s.nextUid)
        let op := v.op u.nextUid (some tag) none (.mwait o.ne o.w8) o.d.toNat [{ q with entry := true }] 0
        exec (.mwait o) s = .next ((w.enqueue v.t.core op).waits v) ∧ s.GroupsKept ((w.enqueue v.t.core op).waits v))
      ∧ (∀ l ls q u tag, o.isY = false → v.x.det = true → v.lanes o.g = l :: ls →
        let p := { piece l 0 (addrOf v.g v.c .g (.reg o.base) o.off l) (if o.w8 then 8 else 4) (lanesMask (l :: ls)) with
                   cmp := dataOf v.g v.c o.x (if o.w8 then 2 else 1) l }
        v.check s .g false [p] = .ok [q] → (s.core v.t.core).noRoom [q] = false → s.bad q.pa = false →
        s.openTag v (.mwait o) 1 = some (u, tag) →
        let w := (u.fresh.1.park v.gid v.kid (.mwait s.nextUid)).coreRead v.t.core q.pa q.len
        let ls' := lanesOf (BitVec.ofNat 32 q.val)
        (if o.ne then w.2 ≠ q.cmp else w.2 = q.cmp) →
        ∃ (t : State) (a g : Group), exec (.mwait o) s = .next t ∧ w.1.group v.gid = some a ∧ t.group v.gid = some g
          ∧ (∀ n k, k < 32 → g.reg n k =
              if ls'.contains k && a.active k && n == o.d.toNat then BitVec.ofNat 32 w.2
              else if ls'.contains k && a.active k && q.len == 8 && n == o.d.toNat + 1 then BitVec.ofNat 32 (w.2 / 2 ^ 32)
              else a.reg n k)
          ∧ ({ a with regs := g.regs } : Group).Kept g ∧ t.mem = w.1.mem ∧ (∀ n, n ≠ v.gid → t.group n = w.1.group n)))
  ∧ (
    ∀ (s : State) (v : View),
      (∀ sc, Issues (.fence sc) s v → v.x.det = true → Completes s v (exec (.fence sc) s))
      ∧ (∀ sc, Issues (.fence sc) s v → v.x.det = false → v.fenceAwaits s sc = [] →
        Completes (s.modCore v.t.core fun k => { k with pts := max k.pts k.seen }) v (exec (.fence sc) s))
      ∧ (∀ sc, Issues (.fence sc) s v → v.x.det = false → v.fenceAwaits s sc ≠ [] →
        (∀ k ∈ v.g.gangs, ∀ all a, k.wait ≠ .regang all a) →
        ∃ t : State, exec (.fence sc) s = .next (t.waits v) ∧ s.GroupsKept (t.waits v)
          ∧ ∃ (g : Group) (k : Gang) (f : Fence), t.group v.gid = some g ∧ g.gang v.kid = some k ∧ k.fence = some f ∧ f.scope = sc
            ∧ f.awaits = v.fenceAwaits s sc ∧ f.tries = 0)
      ∧ (∀ (i : Instr) o, (i = .pref o ∨ i = .cflush o) → Issues i s v →
        ∃ t : State, exec i s = .next (t.retired v i none) ∧ t.teams = s.teams ∧ t.launches = s.launches ∧ t.host = s.host
          ∧ (∀ c, (t.core c).pts = (s.core c).pts)
          ∧ ((∀ e ∈ s.groups, ∀ k ∈ e.2.gangs, k.fence = none) → t.groups = s.groups)
          ∧ (i = .cflush o →
            (∀ l ∈ v.lanes o.g, ∃ pa, s.translate v.t.core v.g.ctx (addrOf v.g v.c .g (.reg o.base) o.off l) 1 false false = .ok pa) →
            ∀ l ∈ v.lanes o.g, ∀ pa, s.translate v.t.core v.g.ctx (addrOf v.g v.c .g (.reg o.base) o.off l) 1 false false = .ok pa →
              (t.core v.t.core).l1.look (s.lineAt pa) = none)
          ∧ (∀ l pa, i = .pref o → v.lanes o.g = [l] →
            s.translate v.t.core v.g.ctx (addrOf v.g v.c .g (.reg o.base) o.off l) 1 false false = .ok pa →
            (s.core v.t.core).inFlight.contains (pa / 64) = false → (s.core v.t.core).noRoom [{ piece 0 0 0 1 0 with pa := pa }] = false →
            t.l1Hit v.t.core (s.lineAt pa) (sectorsOf pa 1) = true)))

/-! ### MTX -/

/-- R139, R308. A BSET whose word is clean and agrees with what is declared adds its quarter to the set of the launch on the quad, and
every executing lane receives the mask of declared quarters and the bit of completeness; a column count beyond 128 traps with the cause of a
malformed descriptor (R157; that this cause comes last is the model's choice, log 99). A BSET.FREE of a set that no pending MMA names
removes it, and every executing lane receives 0; one that a pending MMA names waits. With no executing lane each does nothing. R338, R144,
R145. An MMA whose quarters pass every check, with room for their entries, a free tag and a scoreboard that can rise, puts one entry for
each executing quarter into the reservation table of its quad, each with the A rows of its lanes as they stand, and goes on; no register
changes. With no executing lane it does nothing. Where a quarter's lanes differ in their word and every lower quarter's word passes, it traps,
and no quarter issues; the first check to fail stops the whole instruction (R142, R338). -/
def Obligations.MatrixMultiply : Prop :=
  (
    ∀ (s : State) (v : View) (d b : BitVec 10) (w : Src) (g : Guard),
      let q := v.t.core / 4
      let l := (v.lanes g).headD 0
      let x := (v.src w l).toNat
      let old := s.bset v.t.core v.g.launch (x % 8)
      (Issues (.bset d b w g) s v → v.lanes g = [] → Completes s v (exec (.bset d b w g) s))
      ∧ (Issues (.bset d b w g) s v → v.lanes g ≠ [] →
        bits x 31 24 = 0 → bit x 16 = false → bit x 3 = false → bits x 23 20 ≤ 5 → bits x 5 4 ≤ bits x 7 6 →
        (bits x 19 17 + 1) * kgSize (bits x 23 20) ≤ 64 →
        b.toNat + (bits x 19 17 + 1) * spanRegs (bits x 23 20) ≤ v.g.budget →
        (∀ o, old = some o → o.bfmt = bits x 23 20 ∧ o.kg = bits x 19 17 + 1 ∧ o.nq = bits x 7 6 ∧ o.quarters.look (bits x 5 4) = none) →
        (old = none → (s.quad q).sets.length < 16) →
        (127 < bits x 15 8 → v.k.fence = none → exec (.bset d b w g) s = .next (s.trapped v (.bset d b w g) 0x2F 0))
        ∧ (bits x 15 8 ≤ 127 → ∃ u : State, u.groups = s.groups ∧ u.mem = s.mem ∧ (∀ n, n ≠ q → u.quad n = s.quad n) ∧ (u.quad q).table = (s.quad q).table
          ∧ ∃ n, u.bset v.t.core v.g.launch (x % 8) = some n ∧ n.bfmt = bits x 23 20 ∧ n.kg = bits x 19 17 + 1 ∧ n.nq = bits x 7 6
            ∧ n.quarters.look (bits x 5 4) = some ⟨v.gid, b.toNat, bits x 15 8⟩
            ∧ (∀ k, k ≠ bits x 5 4 → n.quarters.look k = match old with | some o => o.quarters.look k | none => none)
            ∧ WritesReg u v (exec (.bset d b w g) s) false d (v.lanes g) fun _ =>
                BitVec.ofNat 32 (n.quarters.foldl (fun m e => m + 2 ^ e.1) 0 + if n.complete then 16 else 0)))
      ∧ (Issues (.bsetFree d w g) s v → v.lanes g = [] → Completes s v (exec (.bsetFree d w g) s))
      ∧ (Issues (.bsetFree d w g) s v → v.lanes g ≠ [] → bits x 31 24 = 0 → bit x 16 = false → bit x 3 = false →
        ((∃ e ∈ (s.quad q).table, e.launch = v.g.launch ∧ e.set = x % 8) → exec (.bsetFree d w g) s = .next (s.waits v))
        ∧ ((∀ e ∈ (s.quad q).table, ¬(e.launch = v.g.launch ∧ e.set = x % 8)) →
          ∃ u : State, u.groups = s.groups ∧ u.mem = s.mem ∧ u.bset v.t.core v.g.launch (x % 8) = none
            ∧ (∀ k n, (k, n) ≠ (v.g.launch, x % 8) → u.bset v.t.core k n = s.bset v.t.core k n)
            ∧ WritesReg u v (exec (.bsetFree d w g) s) false d (v.lanes g) fun _ => 0)))
  ∧ (
    ∀ (s : State) (v : View) (o : MmaArgs), Issues (.mma o) s v →
      (v.lanes o.g = [] → Completes s v (exec (.mma o) s))
      ∧ (∀ es u tag, v.lanes o.g ≠ [] → v.mmaCheck s o (quartersOf (v.lanes o.g)) = .ok es →
        (s.quad (v.t.core / 4)).table.length + es.length ≤ 64 → s.queueUp v (.mma o) (some o.sb) = some (u, tag) →
        ∃ (t : State) (new : List ResEntry), exec (.mma o) s = .next (t.retired v (.mma o) none) ∧ s.GroupsKept (t.retired v (.mma o) none)
          ∧ t.mem = s.mem ∧ t.teams = s.teams
          ∧ (t.quad (v.t.core / 4)).table = (s.quad (v.t.core / 4)).table ++ new ∧ new.length = es.length
          ∧ ∀ (k : Nat) (e : List Nat × FWord × BSet) (r : ResEntry), es[k]? = some e → new[k]? = some r →
              r.grp = v.gid ∧ r.team = v.g.team ∧ r.core = v.t.core ∧ r.set = o.set.toNat ∧ r.slot = o.slot.toNat ∧ r.sb = o.sb.toNat
                ∧ r.tag = tag ∧ r.word = v.src o.f (e.1.headD 0)
                ∧ r.rows.map (·.lane) = e.1
                ∧ ∀ a ∈ r.rows, a.bound = (v.src o.q a.lane).truncate 16
                    ∧ ∀ j, j < rowRegs e.2.1.afmt e.2.2.depth → a.regs[j]? = some (v.g.reg (o.a.toNat + j) a.lane))
      ∧ (∀ a b, a ∈ v.lanes o.g → b ∈ v.lanes o.g → a / 8 = b / 8 → v.src o.f a ≠ v.src o.f b →
        (∀ ls ∈ quartersOf (v.lanes o.g), ls.headD 0 / 8 < a / 8 → ∃ e, v.mmaWord s o ls = .ok e) →
        v.k.fence = none → exec (.mma o) s = .next (s.trapped v (.mma o) 0x21 0))
      ∧ (∀ c : Stop, v.lanes o.g ≠ [] → v.mmaCheck s o (quartersOf (v.lanes o.g)) = .error c → v.k.fence = none →
        exec (.mma o) s = .next (if c.1 then s.haltGang v (.mma o) c.2 0 else s.trapped v (.mma o) c.2 0)))

/-- R95, R285, R290. ACCOPEN: a gang that is not the last of its group to come parks; when all have come and every check passes, the
group's run is open as its operands say, %accw is 0, and its slots bear the format's tag: with .Z they read zero with zero cells; with .SNAP
they keep their elements, and their cells as far as the shape has them, and the reserve's first n slots from f + r on hold a copy of them, cells
and tags included. Every other slot, and other teams, are as they were. Words that differ, an illegal word and run misuse trap, slots beyond the
window halt. R97, R286. ACCCLOSE, when the whole group has come with the stack of its ACCOPEN and nothing that names the run's slots is
pending: it closes the run where no cell exceeds its threshold, or its escape is none; or it widens the run, raises %accw, and every live
slice goes back to the replay point with the path signature of ACCOPEN (that the tiles read count anew from there, tiles := [], is the model's
choice, log 84); or it closes the run and traps with the cause that R97 gives. Without an open run it traps; a slice whose stack is not that of
its ACCOPEN is an illegal divergence. -/
def Obligations.Runs : Prop :=
  (
    ∀ (s : State) (v : View) (o : AccopenArgs), Issues (.accopen o) s v →
      let f := o.f.toNat
      let n := o.n1.toNat + 1
      let r := o.r.toNat
      (v.meet = .wait → exec (.accopen o) s = .next ((v.comeTo s false).waits v))
      ∧ (v.meet = .diverge → v.k.fence = none → exec (.accopen o) s = .next (s.haltGang v (.accopen o) 0x05 0))
      ∧ (∀ w, v.meet = .all → v.partyWords o.vf ≠ [] → (∀ x ∈ v.partyWords o.vf, x = w) → (fword w).legal = true →
        f + n + r ≤ v.t.slots → v.g.run = none → (o.snap = true → n ≤ r) →
        (∀ q ∈ s.openRuns v.g.team, q.meets f (n + r) = false) →
        v.slotsBusy s ((List.range (n + r)).map (· + f)) = false →
        ∃ (t : State) (g : Group), exec (.accopen o) s = .next t ∧ t.group v.gid = some g
          ∧ g.run = some ⟨f, n, r, o.snap, w, 0, true, v.c.next, []⟩ ∧ g.accw = 0
          ∧ ({ v.g with accw := 0, run := g.run } : Group).Kept g
          ∧ (∀ k, k ≠ v.gid → t.group k = s.group k) ∧ (∀ k, k ≠ v.g.team → t.team k = s.team k) ∧ t.mem = s.mem
          ∧ ∀ x, s.team v.g.team = some x → ∃ y, t.team v.g.team = some y ∧ y.spad = x.spad
              ∧ (Tab.rising x.tags = true → ∀ k, k < n → y.tags.getD (f + k) 0 = (fword w).acc
                  ∧ (o.snap = true → y.tags.getD (f + r + k) 0 = (fword w).acc))
              ∧ (Memory.wf x.acc = true → ∀ a, Mem.read y.acc a =
                  if 4096 * f ≤ a ∧ a < 4096 * (f + n) then (if o.snap then Mem.read x.acc a else 0)
                  else if o.snap = true ∧ 4096 * (f + r) ≤ a ∧ a < 4096 * (f + r + n) then Mem.read x.acc (a - 4096 * r)
                  else Mem.read x.acc a)
              ∧ (Memory.wf x.cells = true → ∀ a,
                  let kept : Nat → Byte := fun b => if (fword w).acc = 0 ∧ 32 ≤ b % 64 then 0 else Mem.read x.cells b
                  Mem.read y.cells a =
                    if 64 * f ≤ a ∧ a < 64 * (f + n) then (if o.snap then kept a else 0)
                    else if o.snap = true ∧ 64 * (f + r) ≤ a ∧ a < 64 * (f + r + n) then kept (a - 64 * r)
                    else Mem.read x.cells a))
      ∧ (v.meet = .all →
        let ws := v.partyWords o.vf
        let w := ws.headD 0
        let misuse := v.g.run.isSome = true ∨ (o.snap = true ∧ r < n) ∨ ∃ q ∈ s.openRuns v.g.team, q.meets f (n + r) = true
        ((∃ x ∈ ws, x ≠ w) → exec (.accopen o) s = .next ((v.meetTrap s (.accopen o) 0x21 0).waits v))
        ∧ ((∀ x ∈ ws, x = w) → (fword w).legal = false → exec (.accopen o) s = .next ((v.meetTrap s (.accopen o) 0x22 0).waits v))
        ∧ ((∀ x ∈ ws, x = w) → (fword w).legal = true →
          (v.t.slots < f + n + r → v.k.fence = none → exec (.accopen o) s = .next (s.haltGang v (.accopen o) 0x04 0))
          ∧ (f + n + r ≤ v.t.slots → misuse → exec (.accopen o) s = .next ((v.meetTrap s (.accopen o) 0x27 0).waits v)))))
  ∧ (
    ∀ (s : State) (v : View), Issues .accclose s v →
      (v.meet = .wait → exec .accclose s = .next ((v.comeTo s false).waits v))
      ∧ (v.meet = .diverge → v.k.fence = none → exec .accclose s = .next (s.haltGang v .accclose 0x05 0))
      ∧ (v.meet = .all → v.g.run = none → exec .accclose s = .next ((v.meetTrap s .accclose 0x27 0).waits v))
      ∧ (∀ r n sl, v.meet = .all → v.g.run = some r → (n, sl) ∈ v.g.slices → sl.live ≠ 0 → sl.stackSig ≠ sl.stackOpen → v.k.fence = none →
        exec .accclose s = .next (s.haltGang v .accclose 0x05 0))
      ∧ (∀ r, v.meet = .all → v.g.run = some r →
        (∀ n sl, (n, sl) ∈ v.g.slices → sl.live ≠ 0 → sl.stackSig = sl.stackOpen) →
        v.slotsBusy s ((List.range r.n).map (· + r.f)) = false →
        (v.t.runEnd r = .close ↔ (fword r.word).esc = 0 ∨ ∀ i row g, i < r.n → row < 16 →
          g < (v.t.lay (some r) (r.f + i)).segs → v.t.exceeds (v.t.lay (some r) (r.f + i)) row g (fword r.word).t = false)
        ∧ (∀ c, v.t.runEnd r = .trap c →
          exec .accclose s = .next ((v.meetTrap (if v.x.line = none ∧ v.g.inHandler = false then v.closeRun s r else s) .accclose c r.aux).waits v))
        ∧ (v.t.runEnd r = .close → ∃ (t : State) (g : Group), exec .accclose s = .next t ∧ t.group v.gid = some g ∧ g.run = none
          ∧ v.g.Kept g ∧ (∀ k, k ≠ v.gid → t.group k = s.group k) ∧ (∀ k, k ≠ v.g.team → t.team k = s.team k) ∧ t.mem = s.mem
          ∧ ∀ x, s.team v.g.team = some x → ∃ y, t.team v.g.team = some y ∧ y.acc = x.acc ∧ y.cells = x.cells ∧ y.tags = x.tags
              ∧ y.widened = if r.width = 0 then x.widened else x.widened ++ [⟨r.f, r.n, r.r, r.fmt, r.width⟩])
        ∧ (v.t.runEnd r = .escalate → ∃ (t : State) (g : Group), exec .accclose s = .next t ∧ t.group v.gid = some g
          ∧ g.run = some { r with width := r.next.1, pure := true, tiles := [] } ∧ g.accw = BitVec.ofNat 2 r.next.1
          ∧ g.regs = v.g.regs ∧ g.preds = v.g.preds ∧ (∀ k, k ≠ v.gid → t.group k = s.group k)
          ∧ ∀ n, (g.slice n).live ≠ 0 → (g.slice n).pc = r.replay ∧ (g.slice n).sig = (v.g.slice n).sigOpen)))

/-- R289, R292. ACCZ and ACCMOV act once per gang: ACCZ zeroes its slots and their cells, keeping the tags; ACCMOV copies data, cells and
tag from one slot to another; every other slot keeps its bytes. R287, R291. ACCLD reads its 4,160 bytes of scratchpad at issue and ACCST
converts its slot at issue; each completes with its data in a reply that writes the slot, or the scratchpad, when it comes. ACCST raises
its conversions' flags; where an element would trap, it traps, with the cause of the first such element (the model's choice, log 13). ACCMOV
of a slot to itself changes nothing. R303, R304. BNDRD delivers the slot's cells, lane 2r + g taking cell (r, g)
and 0 where the slot has one cell a row; BNDTHR delivers the mask of the cells that exceed the lowest lane's threshold. Neither changes
the slot. -/
def Obligations.Slots : Prop :=
  (
    ∀ (s : State) (v : View),
      (∀ (slot n1 : BitVec 9) (g : Guard), Issues (.accz slot n1 g) s v → v.lanes g ≠ [] →
        slot.toNat + (n1.toNat + 1) ≤ v.t.slots → (∀ r ∈ s.openRuns v.g.team, r.meets slot.toNat (n1.toNat + 1) = false) →
        v.slotsBusy s ((List.range (n1.toNat + 1)).map (· + slot.toNat)) = false →
        ∃ u : State, Completes u v (exec (.accz slot n1 g) s) ∧ (∀ k, k ≠ v.g.team → u.team k = s.team k) ∧ u.groups = s.groups ∧ u.mem = s.mem
          ∧ ∀ x, s.team v.g.team = some x → ∃ y, u.team v.g.team = some y ∧ y.tags = x.tags ∧ y.spad = x.spad
              ∧ (∀ a, Mem.read y.acc a =
                  if 4096 * slot.toNat ≤ a ∧ a < 4096 * (slot.toNat + n1.toNat + 1) then 0 else Mem.read x.acc a)
              ∧ (∀ a, Mem.read y.cells a =
                  if 64 * slot.toNat ≤ a ∧ a < 64 * (slot.toNat + n1.toNat + 1) then 0 else Mem.read x.cells a))
      ∧ (∀ (d c : BitVec 9) (g : Guard), Issues (.accmov d c g) s v → v.lanes g ≠ [] → d.toNat < v.t.slots → c.toNat < v.t.slots →
        (∀ r ∈ s.openRuns v.g.team, r.meets d.toNat 1 = false ∧ r.meetsReserve c.toNat 1 = false) →
        (∀ r, v.g.run = some r → r.meets c.toNat 1 = false) → v.t.wide d.toNat 1 = false → v.t.wide c.toNat 1 = false →
        v.slotsBusy s [d.toNat, c.toNat] = false →
        (d = c → Completes s v (exec (.accmov d c g) s))
        ∧ ∃ u : State, Completes u v (exec (.accmov d c g) s) ∧ (∀ k, k ≠ v.g.team → u.team k = s.team k) ∧ u.groups = s.groups ∧ u.mem = s.mem
          ∧ ∀ x, s.team v.g.team = some x → Memory.wf x.acc = true → Memory.wf x.cells = true → d ≠ c →
              ∃ y, u.team v.g.team = some y ∧ y.spad = x.spad ∧ (Tab.rising x.tags = true → y.tags.getD d.toNat 0 = x.tags.getD c.toNat 0)
              ∧ (∀ a, Mem.read y.acc a =
                  if 4096 * d.toNat ≤ a ∧ a < 4096 * d.toNat + 4096 then Mem.read x.acc (a - 4096 * d.toNat + 4096 * c.toNat)
                  else Mem.read x.acc a)
              ∧ (∀ a, Mem.read y.cells a =
                  if 64 * d.toNat ≤ a ∧ a < 64 * d.toNat + 64 then Mem.read x.cells (a - 64 * d.toNat + 64 * c.toNat)
                  else Mem.read x.cells a)))
  ∧ (
    ∀ (s : State) (v : View),
      (∀ (o : AccldArgs) (l : Nat) (ls : List Nat) (u : State) (tag : Option Nat), Issues (.accld o) s v → v.lanes o.g = l :: ls →
        let a := addrOf v.g v.c .s o.base o.off l
        o.slot.toNat < v.t.slots → v.accRange a 4160 64 = none →
        (∀ r ∈ s.openRuns v.g.team, r.meets o.slot.toNat 1 = false) → v.t.wide o.slot.toNat 1 = false →
        v.slotsBusy s [o.slot.toNat] = false → (s.core v.t.core).storing v.g.team [(a, 4160)] = false →
        s.queueUp v (.accld o) (some o.sb) = some (u, tag) →
        ∃ (t : State) (op : Op), exec (.accld o) s = .next (t.retired v (.accld o) none) ∧ s.GroupsKept (t.retired v (.accld o) none)
          ∧ t.mem = s.mem ∧ t.teams = s.teams
          ∧ (t.core v.t.core).replies = (u.core v.t.core).replies ++ [op] ∧ op.kind = .accld o.slot.toNat ∧ op.d = v.g.team
          ∧ op.pieces.map (·.got) = [some (v.readNow u .s (piece l 0 a 4160 0))])
      ∧ (∀ (o : AccstArgs) (l : Nat) (ls : List Nat), Issues (.accst o) s v → v.lanes o.g = l :: ls →
        let a := addrOf v.g v.c .s o.base o.off l
        let lay := v.t.lay v.g.run o.slot.toNat
        let n := 16 * lay.cols * (if o.dst = .i4x then 4 else fmtWidth o.dst) / 8
        o.slot.toNat < v.t.slots → v.accRange a n 16 = none → v.slotsOk s o.slot.toNat 1 = none → v.slotsBusy s [o.slot.toNat] = false →
        (∀ c, v.t.slotConvert lay o.dst o.rm o.pol = .error c → v.k.fence = none →
          exec (.accst o) s = .next (s.trapped v (.accst o) c.cause 0))
        ∧ (∀ cs fl u tag, v.t.slotConvert lay o.dst o.rm o.pol = .ok (cs, fl) → v.x.det = false →
          s.queueUp v (.accst o) (some o.sb) = some (u, tag) →
          ∃ (t : State) (op : Op) (p : Piece), exec (.accst o) s = .next (t.retired v (.accst o) none) ∧ t.mem = s.mem ∧ t.teams = s.teams
            ∧ (t.core v.t.core).replies = (u.core v.t.core).replies ++ [op] ∧ op.kind = .accst ∧ op.d = v.g.team
            ∧ op.pieces = [p] ∧ p.va = a ∧ p.len = n ∧ p.val = packCodes (if o.dst = .i4x then 16 else fmtWidth o.dst) cs
            ∧ (∀ k, k ≠ v.gid → (t.retired v (.accst o) none).group k = s.group k)
            ∧ ∃ g, (t.retired v (.accst o) none).group v.gid = some g ∧ ({ v.g with fstat := v.flagged fl } : Group).Kept g)))
  ∧ (
    ∀ (s : State) (v : View) (slot : BitVec 9),
      v.slotsOk s slot.toNat 1 = none → v.slotsBusy s [slot.toNat] = false →
      let lay := v.t.lay v.g.run slot.toNat
      (∀ d g, Issues (.bndrd slot d none g) s v → v.lanes g ≠ [] →
        WritesReg s v (exec (.bndrd slot d none g) s) false d (v.lanes g) fun l =>
          BitVec.ofNat 32 (if l % 2 < lay.segs then v.t.cell lay (l / 2) (l % 2) else 0))
      ∧ (∀ d dst rm g, Issues (.bndrd slot d (some (dst, rm)) g) s v → v.lanes g ≠ [] →
        WritesReg s v (exec (.bndrd slot d (some (dst, rm)) g) s) false d (v.lanes g) fun l =>
          BitVec.ofNat 32 (v.t.cellOut lay (some (dst, rm)) (l / 2) (l % 2)))
      ∧ (∀ t g, Issues (.bndthr slot t g) s v → v.lanes g ≠ [] →
        ∃ f, WritesReg s v (exec (.bndthr slot t g) s) false t (v.lanes g) f
          ∧ ∀ l r k, r < 16 → k < 2 → (f l).getLsbD (2 * r + k) =
              (decide (k < lay.segs) && v.t.exceeds lay r k ((v.g.reg t.toNat ((v.lanes g).headD 0)).toNat % 64))))

/-! ### ENG -/

/-- R149, R152 to R155, R313, R325, R340, R344, R367. An engine operation whose operands pass its checks, with a place in its core's
queue, a free tag and a scoreboard that can rise, issues and completes: it stands last in the queue of its core, the tiles of its ranges
are on the engine side, and no register and no byte of device memory has changed. With no executing lane it does nothing. (Deterministic
mode: the operation has its reads already.) R156, R346. OWN acts once per gang on the tiles its lowest executing lane names: OWN.E gives
them to the engine side once the group's earlier accesses have been acknowledged, with every ordinary one that its core issued before (the
model's choice, log 26), OWN.T to the thread side unless an engine operation in flight holds one of them; tiles beyond the window are
misuse. That an operation traps even where its core's queue is full is the model's choice too (log 34). -/
def Obligations.EngineOperations : Prop :=
  (
    ∀ (s : State) (v : View) (i : Instr) (sb : BitVec 3) (g : Guard) (kind : EngKind) (desc : Nat → Nat) (data : Nat → Nat)
      (ranges : Nat → List (Nat × Nat)) (good : Nat → Prop),
      ((∃ o : CpyArgs, i = .cpy o ∧ sb = o.sb ∧ g = o.g ∧ kind = (if o.s2g then .cpyOut else .cpyIn) ∧ desc = (fun _ => 0) ∧ data = (fun _ => 0)
          ∧ ranges = (fun l => [((v.g.reg o.vp.toNat l).toNat, (v.g.reg (o.vp.toNat + 1) l).toNat)])
          ∧ good = fun l => (v.g.pair o.vg.toNat l).toNat % 16 = 0 ∧ (v.g.reg o.vp.toNat l).toNat % 16 = 0
              ∧ (v.g.reg (o.vp.toNat + 1) l).toNat % 16 = 0 ∧ 16 ≤ (v.g.reg (o.vp.toNat + 1) l).toNat
              ∧ (v.g.reg (o.vp.toNat + 1) l).toNat ≤ 2 ^ 21 ∧ ∀ r, o.bcb = some r → (v.g.pair r.toNat l).toNat % 8 = 0)
        ∨ (∃ d, ((i = .gath d sb g ∧ kind = .gath) ∨ (i = .scat d sb g ∧ kind = .scat))
          ∧ desc = (fun l => (v.src d l).toNat) ∧ data = (fun l => v.t.spadRead (v.src d l).toNat 32)
          ∧ ranges = (fun l => (gathCheck (v.src d l).toNat (v.t.spadRead (v.src d l).toNat 32)).2)
          ∧ good = fun l => (gathCheck (v.src d l).toNat (v.t.spadRead (v.src d l).toNat 32)).1 = false ∧ v.t.inWindow (v.src d l).toNat 32 = true)
        ∨ (∃ d, i = .nzscan d sb g ∧ kind = .nzscan
          ∧ desc = (fun l => (v.src d l).toNat) ∧ data = (fun l => v.t.spadRead (v.src d l).toNat 32)
          ∧ ranges = (fun l =>
              let x := v.t.spadRead (v.src d l).toNat 32
              [((v.src d l).toNat, 32), (bits x 191 160, 4 * bits x 223 192)]
                ++ (if bit x 68 then [(bits x 63 0, bits x 127 96 * nzSize (bits x 67 64))] else []))
          ∧ good = fun l =>
              let x := v.t.spadRead (v.src d l).toNat 32
              (v.src d l).toNat % 32 = 0 ∧ bits x 95 69 = 0 ∧ nzSize (bits x 67 64) ≠ 0 ∧ bits x 63 0 % nzSize (bits x 67 64) = 0
                ∧ bits x 191 160 % 4 = 0)
        ∨ (∃ r, i = .mqrun r sb g ∧ kind = .mqrun
          ∧ desc = (fun l => (v.g.reg r.toNat l).toNat) ∧ data = (fun l => v.t.spadRead (v.g.reg r.toNat l).toNat 64)
          ∧ ranges = (fun l =>
              let x := v.t.spadRead (v.g.reg r.toNat l).toNat 64
              ((v.g.reg r.toNat l).toNat, 64)
                :: (List.range (bits x 127 96)).map fun k => (bits x 31 0 + 64 * ((bits x 95 64 + k) % bits x 63 32), 64))
          ∧ good = fun l =>
              let x := v.t.spadRead (v.g.reg r.toNat l).toNat 64
              (v.g.reg r.toNat l).toNat % 64 = 0 ∧ bits x 511 168 = 0 ∧ (∃ k, k ≤ 12 ∧ bits x 63 32 = 2 ^ k) ∧ 0 < bits x 127 96
                ∧ bits x 127 96 ≤ bits x 63 32 ∧ bits x 31 0 % 64 = 0 ∧ v.t.inWindow (v.g.reg r.toNat l).toNat 64 = true)) →
      Issues i s v →
      (v.lanes g = [] → Completes s v (exec i s))
      ∧ ∀ l ls, v.lanes g = l :: ls →
        (good l → (∃ r ∈ ranges l, v.t.inWindow r.1 r.2 = false) → v.k.fence = none → exec i s = .next (s.trapped v i 0x2F 0))
        ∧ (good l → (∀ r ∈ ranges l, v.t.inWindow r.1 r.2 = true) →
          ((∃ r ∈ ranges l, ∃ n ∈ tilesOf r.1 r.2, v.t.engineSide n = true) → v.k.fence = none → exec i s = .next (s.trapped v i 0x2C 0))
          ∧ ((∀ r ∈ ranges l, ∀ n ∈ tilesOf r.1 r.2, v.t.engineSide n = false) →
            ((s.core v.t.core).ops.filter fun o => !o.isOver).length < 32 →
            (∀ r ∈ ranges l, (s.core v.t.core).moving v.g.team (tilesOf r.1 r.2) = false) →
            ∀ u tag, s.queueUp v i (some sb) = some (u, tag) → v.x.det = false →
            ∃ (t : State) (op : EngOp), exec i s = .next (t.retired v i none) ∧ s.GroupsKept (t.retired v i none) ∧ t.mem = s.mem
              ∧ (t.core v.t.core).ops = (s.core v.t.core).ops ++ [op]
              ∧ op.kind = kind ∧ op.grp = v.gid ∧ op.team = v.g.team ∧ op.tag = tag ∧ op.sb = sb.toNat ∧ op.started = false
              ∧ op.desc = desc l ∧ op.data = BitVec.ofNat 512 (data l)
              ∧ ∀ x, s.team v.g.team = some x → ∃ y, t.team v.g.team = some y ∧ y.spad = x.spad
                  ∧ ∀ n, n < 512 → y.engineSide n = (x.engineSide n || (ranges l).any fun r => (tilesOf r.1 r.2).contains n))))
  ∧ (
    ∀ (s : State) (v : View) (a c : Src) (g : Guard) (l : Nat) (ls : List Nat), v.lanes g = l :: ls →
      let first := (v.src a l).toNat
      let count := (v.src c l).toNat
      let moving := (s.core v.t.core).replies.any fun o => o.d == v.g.team
        && (match o.kind with | .accld _ | .accst => true | _ => false)
        && o.pieces.any fun p => (tilesOf p.va p.len).any fun n => decide (first ≤ n) && decide (n < first + count)
      (Issues (.ownE a c g) s v →
        ((count = 0 ∨ 512 < count ∨ v.t.window < 4096 * (first + count)) → v.k.fence = none →
          exec (.ownE a c g) s = .next (s.trapped v (.ownE a c g) 0x2F 0))
        ∧ (1 ≤ count → count ≤ 512 → 4096 * (first + count) ≤ v.t.window →
          (s.core v.t.core).rq = [] → (∀ o ∈ (s.core v.t.core).wk, o.grp ≠ v.gid) →
          (∀ o ∈ (s.core v.t.core).replies, o.grp = v.gid → o.kind ≠ .accst) →
          (∀ y ∈ (s.core v.t.core).yq, y.op.grp = v.gid → y.write = true) → moving = false →
          ∃ t : State, exec (.ownE a c g) s = .next (t.retired v (.ownE a c g) none) ∧ s.GroupsKept (t.retired v (.ownE a c g) none)
            ∧ t.mem = s.mem ∧ (s.core v.t.core).seen ≤ (t.core v.t.core).pts
            ∧ ∀ x, s.team v.g.team = some x → ∃ y, t.team v.g.team = some y ∧ y.spad = x.spad
                ∧ ∀ n, n < 512 → y.engineSide n = (x.engineSide n || (decide (first ≤ n) && decide (n < first + count)))))
      ∧ (Issues (.ownT a c g) s v →
        ((count = 0 ∨ 512 < count ∨ v.t.window < 4096 * (first + count)) → v.k.fence = none →
          exec (.ownT a c g) s = .next (s.trapped v (.ownT a c g) 0x2F 0))
        ∧ (1 ≤ count → count ≤ 512 → 4096 * (first + count) ≤ v.t.window →
          (∀ n ∈ v.heldTiles s, ¬(first ≤ n ∧ n < first + count)) →
          ∃ t : State, exec (.ownT a c g) s = .next (t.retired v (.ownT a c g) none) ∧ s.GroupsKept (t.retired v (.ownT a c g) none)
            ∧ t.mem = s.mem
            ∧ ∀ x, s.team v.g.team = some x → ∃ y, t.team v.g.team = some y ∧ y.spad = x.spad
                ∧ ∀ n, n < 512 → y.engineSide n = (x.engineSide n && !(decide (first ≤ n) && decide (n < first + count))))))

/-- R48, R40, R35. RELSTAT delivers the status word of its handle; RELSEAL.SEAL seals an OPEN handle and leaves others; RELSEAL.FREE
returns a handle that no spawn holds to IDLE; both deliver the status afterwards. -/
def Obligations.HandleStates : Prop :=
  ∀ (s : State) (v : View) (d : BitVec 10) (h : Hnd) (g : Guard),
    let hr := v.href h
    let x := s.handle hr
    v.lanes g ≠ [] →
    (Issues (.relstat d h g) s v →
      ∃ w : Word, WritesReg s v (exec (.relstat d h g) s) false d (v.lanes g) (fun _ => w)
        ∧ w.extractLsb' 28 4 = BitVec.ofNat 4 x.state.code ∧ w.getLsbD 27 = (x.held != 0)
        ∧ w.getLsbD 26 = (x.state != .idle && relKeyw x.desc.toNat) ∧ w.extractLsb' 0 26 = BitVec.ofNat 26 x.rows)
    ∧ (Issues (.relsealSeal d h g) s v →
      ∃ u : State, u.groups = s.groups ∧ u.mem = s.mem
        ∧ u.handle hr = { x with state := if x.state = .opened then .sealed else x.state } ∧ (∀ k, k ≠ hr → u.handle k = s.handle k)
        ∧ WritesReg u v (exec (.relsealSeal d h g) s) false d (v.lanes g) fun _ => (u.handle hr).status)
    ∧ (Issues (.relsealFree d h g) s v →
      (x.held ≠ 0 → WritesReg s v (exec (.relsealFree d h g) s) false d (v.lanes g) fun _ => x.status)
      ∧ (x.held = 0 → s.relWaiters hr = [] → (∀ t, s.team v.g.team = some t → Tab.rising t.handles = true) →
        (∀ c, s.cluster v.t.cluster = some c → Tab.rising c.handles = true) →
        ∃ u : State, u.groups = s.groups ∧ u.mem = s.mem ∧ u.handle hr = Handle.fresh ∧ (∀ k, k ≠ hr → u.handle k = s.handle k)
          ∧ WritesReg u v (exec (.relsealFree d h g) s) false d (v.lanes g) fun _ => 0))

/-- R38, R40, R50. RELSEAL.REC, on an IDLE handle with a legal descriptor and a row count within its capacity, when the group's earlier
accesses have been acknowledged and the core's earlier stores performed: it reads the rows of the buffer, the handle is SEALED, or CORRUPT
where a row is not valid or a rank occurs twice (that it reads and checks them here, and not at a later first use, is the model's choice,
log 36), and every executing lane receives the status. A handle that is not IDLE is misuse; a descriptor offset at or beyond the window halts,
and any other misaligned one is misuse. R39, R41. RELENT: a handle that is neither IDLE nor OPEN gives 0xFFFFFFFE (before any operand is
checked: the model's choice, log 77); a lane that has entered already is misuse; a deposit that does not fit makes the handle UNSEALABLE and
gives 0xFFFFFFFF; one that fits writes the lanes' rows behind those there, in lane order (R180: in deterministic mode into the log of the
group), gives each lane its index, and seals the handle when the announced members have come. -/
def Obligations.PopulationEntry : Prop :=
  (
    ∀ (s : State) (v : View) (d : BitVec 10) (n p : Src) (h : Hnd) (g : Guard) (l : Nat) (ls : List Nat),
      Issues (.relsealRec d n p h g) s v → v.lanes g = l :: ls →
      let hr := v.href h
      let m := (v.src n l).toNat
      let off := (v.src p l).toNat
      ((s.handle hr).state ≠ .idle → v.k.fence = none → exec (.relsealRec d n p h g) s = .next (s.trapped v (.relsealRec d n p h g) 0x2B 0))
      ∧ ((s.handle hr).state = .idle → v.k.fence = none →
        (v.t.window ≤ off → exec (.relsealRec d n p h g) s = .next (s.haltGang v (.relsealRec d n p h g) 0x03 off))
        ∧ (off < v.t.window → off % 64 ≠ 0 → exec (.relsealRec d n p h g) s = .next (s.trapped v (.relsealRec d n p h g) 0x2B 0)))
      ∧ ∀ dd u w, (s.handle hr).state = .idle → v.openDesc s h off = .ok dd → m ≤ relCap dd → v.coreDrained s = some u →
        (h.clu = true → (s.cluster v.t.cluster).isSome = true) →
        ((u.modGroup v.gid (·.impure)).setHandle hr { Handle.fresh with
          state := .sealed, desc := BitVec.ofNat 512 dd, off := off, opener := v.g.team, rows := m }).useRows v.t.core v.g.ctx hr
          = (w, .ok 0) →
        (0 < m → (w.handle hr).state = if (w.handle hr).image.any (fun r => !rowValid r)
            || (nodup ((w.handle hr).image.map rowRank)).length != m then .corrupt else .sealed)
        ∧ (w.handle hr).rows = m ∧ (w.handle hr).live = false
        ∧ GivesReg w v (exec (.relsealRec d n p h g) s) d (l :: ls) (fun _ => (w.handle hr).status) fun t => t.handle hr = w.handle hr)
  ∧ (
    ∀ (s : State) (v : View) (d : BitVec 10) (k p : Src) (h : Hnd) (g : Guard) (l : Nat) (ls : List Nat),
      let i : Instr := .relent d k p h g
      Issues i s v → v.lanes g = l :: ls →
      let hr := v.href h
      let x := s.handle hr
      let off := (v.src p l).toNat
      let u := s.modGroup v.gid (·.impure)
      (x.state ≠ .idle → x.state ≠ .opened →
        GivesReg u v (exec i s) d (l :: ls) (fun _ => 0xFFFFFFFE) fun t => t.handle hr = x)
      ∧ (x.state = .opened → off < v.t.window → (∃ m ∈ v.lanes g, (v.gid, m) ∈ x.entered) → v.k.fence = none →
        exec i s = .next (s.trapped v i 0x2B 0))
      ∧ ∀ dd, v.entDesc s h off (l :: ls) = .ok dd → (x.state = .idle ∨ x.state = .opened) →
        (h.clu = true → (s.cluster v.t.cluster).isSome = true) → (relKeyw dd = true → pairSrc k = true) →
        let y : Handle := if x.state = .idle then
            { Handle.fresh with state := .opened, live := true, desc := BitVec.ofNat 512 dd, off := off, opener := v.g.team } else x
        let n := y.rows + (l :: ls).length
        ((relCap dd < n ∨ (relMembers dd ≠ 0 ∧ relMembers dd < n)) → s.relWaiters hr = [] →
          GivesReg u v (exec i s) d (l :: ls) (fun _ => 0xFFFFFFFF) fun t => t.handle hr = { y with state := .unsealable })
        ∧ (n ≤ relCap dd → (relMembers dd = 0 ∨ n ≤ relMembers dd) →
          ∀ w, u.relOut v.gid v.t.core v.g.ctx y.opener (relSpace dd) (relBase dd + 64 * y.rows) (64 * (l :: ls).length)
              (packRows ((l :: ls).map fun m => v.row dd (srcVal v.g v.c k (relKeyw dd) m) m)) = (w, .ok 0) →
            GivesReg w v (exec i s) d (l :: ls) (fun m => BitVec.ofNat 32 (y.rows + ((l :: ls).findIdx? (· == m)).getD 0)) fun t =>
              t.handle hr = { y with
                state := if relMembers dd ≠ 0 ∧ n = relMembers dd then .sealed else .opened
                rows := n, ts := max y.ts (w.core v.t.core).pts, logged := y.logged || v.x.det, entered := y.entered ++ (l :: ls).map fun m => (v.gid, m) }))

/-- R43, R44. RELGRP: the gang waits where the handle is OPEN or SEALED; on a handle that has no grouping to come it gives 0 at once; on a
live population that is GROUPED each lane that entered as a survivor receives its row's columns and its count, and one that did not enter
receives 0. Where vD is one of the column registers it keeps the count: the model's choice, log 74. -/
def Obligations.Grouping : Prop :=
  ∀ (s : State) (v : View) (d : BitVec 10) (o : Src) (h : Hnd) (g : Guard),
    let i : Instr := .relgrp d o h g
    let hr := v.href h
    let x := s.handle hr
    Issues i s v →
    (v.lanes g = [] → Completes s v (exec i s))
    ∧ ∀ l ls u tag, v.lanes g = l :: ls → s.openTag v i 1 = some (u, tag) → v.x.det = false → v.t.residence = .resident →
      lanesOf (BitVec.ofNat 32 (lanesMask (l :: ls))) = l :: ls →
      let w := (u.modGroup v.gid (·.impure)).park v.gid v.kid
        (.relgrp hr tag d.toNat (v.src o l).toNat (BitVec.ofNat 32 (lanesMask (l :: ls))))
      (x.state = .opened → exec i s = .next ((w.setHandle hr { x with asked := true }).waits v))
      ∧ (x.state = .sealed → x.live = true → exec i s = .next ((w.setHandle hr { x with asked := true }).waits v))
      ∧ (x.state ≠ .opened → x.state.whole = false → s.relWaiters hr = [] →
        GivesReg (s.modGroup v.gid (·.impure)) v (exec i s) d (l :: ls) (fun _ => 0) fun t => t.handle hr = x)
      ∧ (x.state = .grouped → x.live = true → s.relWaiters hr = [] →
        (∀ m ∈ l :: ls, ∀ a, x.entered.findIdx? (· == (v.gid, m)) = some a → a ∈ x.survivors) →
        ∃ (t : State) (b : Group), exec i s = .next t ∧ t.group v.gid = some b ∧ t.mem = s.mem ∧ t.handle hr = x
          ∧ b.preds = v.g.preds ∧ (∀ n, n ≠ v.gid → t.group n = s.group n)
          ∧ (∀ n m, m < 32 → m ∉ l :: ls → b.reg n m = v.g.reg n m)
          ∧ ∀ m ∈ l :: ls, m < 32 →
              (x.entered.findIdx? (· == (v.gid, m)) = none → ∀ n, b.reg n m = if n = d.toNat then 0 else v.g.reg n m)
              ∧ ∀ a, x.entered.findIdx? (· == (v.gid, m)) = some a →
                  b.reg d.toNat m = BitVec.ofNat 32 (rowCount (x.image.getD a 0))
                  ∧ (∀ n, n ≠ d.toNat → (∀ c, c < relNcol x.desc.toNat → colReg x.desc.toNat c ≠ n) → b.reg n m = v.g.reg n m)
                  ∧ ∀ c, c < relNcol x.desc.toNat → colReg x.desc.toNat c ≠ d.toNat →
                      (∀ e, c < e → e < relNcol x.desc.toNat → colReg x.desc.toNat e ≠ colReg x.desc.toNat c) →
                      b.reg (colReg x.desc.toNat c) m = BitVec.ofNat 32 (rowCol (x.image.getD a 0) c))

/-- R45, R46. RELJOIN waits until neither handle is OPEN; a join of handles that are neither SEALED nor GROUPED returns reason 1.
RELJOIN_PAIRS carries a waiting join out: the pairs are those of equal keys, keys ascending; a failure gives its reason and queues
nothing, and its serial stays unused (the model's choice, log 38); a success whose pairs go to scratchpad gives the count and queues one
spawn with a lane for each pair. R47, R50. RELMRG checks its descriptor and its tiles, which are on the engine side, and stands last in the
queue of its core; an offset at or beyond the window halts, any other misaligned one is misuse; with no executing lane it does nothing.
(Deterministic mode: the operation has its reads already.) -/
def Obligations.JoiningAndMerging : Prop :=
  (
    ∀ (s : State) (v : View) (d : BitVec 10) (j : Src) (hl hr : Hnd) (g : Guard),
      let i : Instr := .reljoin d j hl hr g
      (Issues i s v → v.lanes g = [] → Completes s v (exec i s))
      ∧ (∀ l ls w u tag, Issues i s v → v.lanes g = l :: ls →
        v.joinDesc s (v.src j l).toNat (v.href hl) (v.href hr) = .ok w → s.openTag v i 1 = some (u, tag) →
        (v.x.det = false → exec i s = .next (((u.modGroup v.gid (·.impure)).park v.gid v.kid
          (.reljoin (v.href hl) (v.href hr) tag d.toNat (v.src j l).toNat (BitVec.ofNat 32 (lanesMask (l :: ls))))).waits v)))
      ∧ (∀ (a b : HRef) (tag n off : Nat) (ls : LaneMask) (w : Nat) (gid kid : Nat), s.viewOf gid kid = some v → v.x.det = false →
        v.k.wait = .reljoin a b tag n off ls → s.relRuns v.t.core v.g.ctx = true → v.t.residence = .resident →
        (s.handle a).state ≠ .opened → (s.handle b).state ≠ .opened → (s.handle a).logged = false → (s.handle b).logged = false → v.joinDesc s off a b = .ok w →
        ((s.handle a).state.whole = true → (s.handle a).image.length = (s.handle a).rows) →
        ((s.handle b).state.whole = true → (s.handle b).image.length = (s.handle b).rows) →
        let ps := if (s.handle a).state.whole && (s.handle b).state.whole then pairsOf (s.handle a) (s.handle b) else []
        let code := joinCode (s.handle a) (s.handle b) ps.length (joinCap w) v.t.spawns.length
        let got (t : State) (x : Word) : Prop := ∃ b : Group, t.group v.gid = some b ∧ b.preds = v.g.preds
          ∧ ∀ r m, m < 32 → b.reg r m = if r = n ∧ m ∈ lanesOf ls then x else v.g.reg r m
        (code ≠ 0 → ∃ t : State, exec (.reljoinPairs gid kid) s = .next t ∧ got t (BitVec.ofNat 32 (0x80000000 + code)) ∧ t.mem = s.mem
          ∧ t.teams = s.teams)
        ∧ (code = 0 → joinSpace w = true → v.t.inWindow (joinPairs w) (8 * ps.length) = true →
          ∃ (t : State) (y : Team), exec (.reljoinPairs gid kid) s = .next t ∧ got t (BitVec.ofNat 32 ps.length) ∧ t.mem = s.mem
            ∧ t.team v.g.team = some y ∧ y.serials = v.t.serials ++ [joinSerial w]
            ∧ (ps = [] → y.spawns = v.t.spawns)
            ∧ (ps ≠ [] → ∃ sp : Spawn, y.spawns = v.t.spawns ++ [sp] ∧ sp.started = 0 ∧ sp.q = joinSerial w ∧ sp.entry = joinEntry w
                ∧ sp.lanes = ps.map (spawnLane (s.handle a) (s.handle b))))))
  ∧ (
    ∀ (s : State) (v : View) (d : BitVec 10) (m : Src) (sb : BitVec 3) (g : Guard),
      let i : Instr := .relmrg d m sb g
      Issues i s v →
      (v.lanes g = [] → Completes s v (exec i s))
      ∧ ∀ l ls, v.lanes g = l :: ls →
        let off := (v.src m l).toNat
        let w := v.t.spadRead off 64
        (v.t.window ≤ off → v.k.fence = none → exec i s = .next (s.haltGang v i 0x03 off))
        ∧ (off < v.t.window → off % 64 ≠ 0 → v.k.fence = none → exec i s = .next (s.trapped v i 0x2B 0))
        ∧ (v.t.inWindow off 64 = true →
        (off % 64 = 0 → (∃ n ∈ tilesOf off 64, v.t.engineSide n = false) → v.k.fence = none → exec i s = .next (s.trapped v i 0x2C 0))
        ∧ (off % 64 = 0 → (∀ n ∈ tilesOf off 64, v.t.engineSide n = true) → mrgBad w = true → v.k.fence = none →
            exec i s = .next (s.trapped v i 0x2B 0))
        ∧ (off % 64 = 0 → (∀ n ∈ tilesOf off 64, v.t.engineSide n = true) → mrgBad w = false →
          (bit w 396 = true → ∀ r ∈ mrgAreas w, r.2 ≠ 0 → v.t.inWindow r.1 r.2 = true ∧ (∀ n ∈ tilesOf r.1 r.2, v.t.engineSide n = true)
            ∧ (s.core v.t.core).moving v.g.team (tilesOf r.1 r.2) = false) →
          (s.core v.t.core).moving v.g.team (tilesOf off 64) = false → ((s.core v.t.core).ops.filter fun o => !o.isOver).length < 32 → ∀ u tag, s.queueUp v i (some sb) = some (u, tag) → v.x.det = false →
          ∃ (t : State) (op : EngOp), exec i s = .next (t.retired v i none) ∧ s.GroupsKept (t.retired v i none) ∧ t.mem = s.mem
            ∧ (t.core v.t.core).ops = (s.core v.t.core).ops ++ [op]
            ∧ op.kind = .relmrg ∧ op.grp = v.gid ∧ op.team = v.g.team ∧ op.tag = tag ∧ op.sb = sb.toNat ∧ op.started = false
            ∧ op.desc = off ∧ op.data = BitVec.ofNat 512 w ∧ op.d = d.toNat
            ∧ op.lanes = BitVec.ofNat 32 (lanesMask (l :: ls)))))

/-! ### CTL -/

/-- R19, R305, R307, R309, R330, R365. BRA, JMP, CALL, RET and BRM: executing lanes go to the target, their return address or the
target of the first pair whose guard holds, and the other active lanes fall through; a slice divides only where its stack is not empty.
CALL pushes the fall-through address as an offset from the kernel's first clause, and RET pops it; a full or an empty return stack is a
stack overflow, and no lane moves. R21. BRA.POP: with no executing lane it falls through; where a slice that has one lacks an entry n + 1
at the target it is an illegal divergence and no lane moves; otherwise in each slice the executing lanes stop being active and arrive at
entry n + 1, and where lanes remain active they fall through. R360, R361. RCVPUSH pushes an entry with the label's address in every slice
of the gang, or none where one is full. RCVDROP drops its entries in every slice, or none where one is too shallow, holds arrived lanes or
holds a parked lane. -/
def Obligations.Branching : Prop :=
  (
    ∀ (s : State) (v : View) (rc : Bool) (off : BitVec 32) (gd : Guard), v.Clean →
      let fork (to_ : Nat → Dword) (l : Nat) : Dword := if v.g.guard gd l then to_ l else v.c.next
      let base := v.c.hdr + off.signExtend 64 * 8
      (Issues (.bra rc off gd) s v → Branches s v (.bra rc off gd) (fork fun _ => base) v.g.returns)
      ∧ (Issues (.jmp rc off) s v → Branches s v (.jmp rc off) (fun _ => base) v.g.returns)
      ∧ (Issues (.call rc off gd) s v →
        ((∃ l ∈ v.lanes gd, 8 ≤ (v.g.returns l).length) → exec (.call rc off gd) s = .next (s.haltGang v (.call rc off gd) 0x06 0))
        ∧ ((∀ l ∈ v.lanes gd, (v.g.returns l).length < 8) →
          Branches s v (.call rc off gd) (fork fun _ => base) fun l =>
            if l ∈ v.lanes gd then (v.c.next - BitVec.ofNat 64 v.l.codeBase) :: v.g.returns l else v.g.returns l))
      ∧ (Issues (.ret rc gd) s v →
        ((∃ l ∈ v.lanes gd, v.g.returns l = []) → exec (.ret rc gd) s = .next (s.haltGang v (.ret rc gd) 0x06 0))
        ∧ ((∀ l ∈ v.lanes gd, v.g.returns l ≠ []) →
          Branches s v (.ret rc gd) (fork fun l => BitVec.ofNat 64 v.l.codeBase + (v.g.returns l).headD 0) fun l =>
            if l ∈ v.lanes gd then (v.g.returns l).tail else v.g.returns l))
      ∧ (∀ (o : BrmArgs) (h : Dword) (ws : List Dword) (hd : Header) (u : State), Issues (.brm o) s v →
        let gs := [o.q0, o.q1, o.q2, o.q3].take (o.k1.toNat + 1)
        let tbl := v.c.hdr + o.off.signExtend 64 * 8
        let ts := ws.filterMap (brmTarget tbl)
        s.fetchAll v.t.core v.g.launch v.g.ctx (gs.length + 1) tbl.toNat = (u, .ok (h :: ws)) → u.groups = s.groups → decodeHeader h = some hd →
        hd.cls = 5 → hd.count = gs.length → ts.length = gs.length →
        BranchesIn s u v (.brm o) (fun l => match gs.findIdx? (fun g => v.g.guard g l) with | some i => ts.getD i v.c.next | none => v.c.next)
          v.g.returns))
  ∧ (
    ∀ (s : State) (v : View) (rc : Bool) (n : BitVec 3) (off : BitVec 32) (gd : Guard), v.Clean →
      let i : Instr := .braPop rc n off gd
      let base := v.c.hdr + off.signExtend 64 * 8
      let going (m : Nat) : Mask4 := maskOf fun l => (v.g.slice m).active.getLsbD l && v.g.guard gd (4 * m + l)
      Issues i s v →
      ((∃ m ∈ v.k.slices, going m ≠ 0 ∧ ∀ e, (v.g.slice m).stack[n.toNat]? = some e → e.addr ≠ base) →
        exec i s = .next (s.haltGang v i 0x05 0))
      ∧ ((∀ m ∈ v.k.slices, going m ≠ 0 → ∃ e, (v.g.slice m).stack[n.toNat]? = some e ∧ e.addr = base) →
        (∀ m ∈ v.k.slices, going m ≠ 0 → ((v.g.slice m).braPop n.toNat (going m) v.c.next).2 = false) →
        ∃ t g, exec i s = .next t ∧ OnlyGroup s t v.gid g ∧ v.g.Kept g ∧ ∀ m ∈ v.k.slices,
          let a := v.g.slice m
          let b := g.slice m
          b.live = a.live
          ∧ (going m = 0 → b.pc = v.c.next ∧ b.active = a.active ∧ b.stack = a.stack)
          ∧ (going m ≠ 0 → a.active &&& ~~~going m ≠ 0 → b.pc = v.c.next ∧ b.active = a.active &&& ~~~going m
            ∧ ∀ e, a.stack[n.toNat]? = some e → ∃ k, b.stack.drop k
                = { e with pending := e.pending &&& ~~~going m, waiting := e.waiting ||| going m } :: a.stack.drop (n.toNat + 1))))
  ∧ (
    ∀ (s : State) (v : View) (rc : Bool) (off : BitVec 32) (n1 : BitVec 4), v.Clean →
      (Issues (.rcvpush rc off) s v →
        ((∃ n ∈ v.k.slices, 16 ≤ (v.g.slice n).stack.length) →
          exec (.rcvpush rc off) s = .next (s.haltGang v (.rcvpush rc off) 0x06 0))
        ∧ ((∀ n ∈ v.k.slices, (v.g.slice n).stack.length < 16) →
          ∃ t g, exec (.rcvpush rc off) s = .next t ∧ OnlyGroup s t v.gid g ∧ v.g.Kept g ∧ ∀ n ∈ v.k.slices,
            (g.slice n).stack = ⟨v.c.hdr + off.signExtend 64 * 8, 0, (v.g.slice n).active, (v.g.slice n).active⟩ :: (v.g.slice n).stack
            ∧ (g.slice n).active = (v.g.slice n).active ∧ (g.slice n).live = (v.g.slice n).live))
      ∧ (Issues (.rcvdrop rc n1) s v →
        let may (sl : Slice) : Prop := n1.toNat + 1 ≤ sl.stack.length
          ∧ ∀ e ∈ sl.stack.take (n1.toNat + 1), e.waiting = 0 ∧ e.pending &&& ~~~sl.active = 0
        ((∃ n ∈ v.k.slices, ¬ may (v.g.slice n)) → exec (.rcvdrop rc n1) s = .next (s.haltGang v (.rcvdrop rc n1) 0x05 0))
        ∧ ((∀ n ∈ v.k.slices, may (v.g.slice n)) →
          ∃ t g, exec (.rcvdrop rc n1) s = .next t ∧ OnlyGroup s t v.gid g ∧ v.g.Kept g ∧ ∀ n ∈ v.k.slices,
            (g.slice n).stack = (v.g.slice n).stack.drop (n1.toNat + 1)
            ∧ (g.slice n).active = (v.g.slice n).active ∧ (g.slice n).live = (v.g.slice n).live)))

/-- R343, R318, R19. NOP changes nothing. EXIT: executing lanes end and the others fall through; where the gang was the group's last and
every lane of it ends, the group is gone. R202, R203, R372. SIGCHK: where a slice's signature is not the immediate it is a contained fault
of the group; otherwise every slice's becomes zero; in the trap handler nothing happens. -/
def Obligations.NopExitSignature : Prop :=
  (
    ∀ (s : State) (v : View) (rc : Bool) (gd : Guard),
      (Issues (.nop rc gd) s v → Completes s v (exec (.nop rc gd) s))
      ∧ (Issues (.exit rc gd) s v → v.Clean → v.g.inHandler = false →
        let going (n : Nat) : Mask4 := maskOf fun l => (v.lanes gd).contains (4 * n + l)
        (∀ n ∈ v.k.slices, ({ (v.g.slice n).endLanes (going n) with pc := v.c.next, popDone := false } : Slice).settle.2 = false) →
        ((∃ n ∈ v.k.slices, (v.g.slice n).live &&& ~~~going n ≠ 0) →
          ∃ t g, exec (.exit rc gd) s = .next t ∧ OnlyGroup s t v.gid g ∧ ({ v.g with rets := g.rets } : Group).Kept g
            ∧ ∀ n ∈ v.k.slices, (g.slice n).live = (v.g.slice n).live &&& ~~~going n
              ∧ ((v.g.slice n).active &&& ~~~going n ≠ 0 →
                (g.slice n).active = (v.g.slice n).active &&& ~~~going n ∧ (g.slice n).pc = v.c.next))
        ∧ ((∀ n ∈ v.k.slices, (v.g.slice n).live &&& ~~~going n = 0) → (∀ k ∈ v.g.gangs, k.id = v.kid) → v.x.det = false →
          s.setsPending v.gid v.t.core = false → Tab.rising s.groups = true →
          ∃ t : State, exec (.exit rc gd) s = .next t ∧ t.group v.gid = none ∧ t.mem = s.mem
            ∧ ∀ n, n ≠ v.gid → (t.group n).isSome = (s.group n).isSome)))
  ∧ (
    ∀ (s : State) (v : View) (rc : Bool) (imm : BitVec 32), let i : Instr := .sigchk rc imm
      Issues i s v →
      (v.g.inHandler = true → Completes s v (exec i s))
      ∧ (v.g.inHandler = false → v.k.fence = none → v.x.line = none → (∃ n ∈ v.k.slices, (v.g.slice n).sig ≠ imm) →
        exec i s = .next ((s.countErr v.t.core 4).containedFault v.gid (v.report i 3 0x41 0 0)))
      ∧ (v.g.inHandler = false → v.Clean → (∀ n ∈ v.k.slices, (v.g.slice n).sig = imm ∧ (v.g.slice n).tokens = 0) →
        ∃ t g, exec i s = .next t ∧ OnlyGroup s t v.gid g ∧ v.g.Kept g ∧ ∀ n ∈ v.k.slices, (g.slice n).sig = 0
          ∧ (g.slice n).active = (v.g.slice n).active ∧ (g.slice n).stack = (v.g.slice n).stack))

/-- R23, R362. REGANG parks its gang in the window of its address; where, outside the handler, every other gang of the group stands in that
window already and all the slices have one stack signature, they go on as one gang of all of them, with every value kept. R161, R384. YIELD: with no
executing lane it completes; with some but not all active lanes executing it is an illegal divergence; with its scoreboard at zero the
gang goes on at the label; otherwise it parks, and its slices stand at the label. -/
def Obligations.RegangAndYield : Prop :=
  (
    ∀ (s : State) (v : View) (rc all : Bool), let i : Instr := if all then .regangAll rc else .regang rc
      Issues i s v →
      exec i s = .next (((s.park v.gid v.kid (.regang all v.here)).modGang v.gid v.kid fun k => { k with since := s.cycle }).waits v)
      ∧ ((∀ k ∈ v.g.gangs, v.g.inside k = false) → (v.g.gangs.map (·.id)).Nodup → (v.g.gangs.flatMap (·.slices)).Nodup → v.k.slices ≠ [] →
        (∀ k ∈ v.g.gangs, k.id = v.kid ∨ k.wait = .regang all v.here) →
        (∀ a b, a ∈ v.g.gangs.flatMap (·.slices) → b ∈ v.g.gangs.flatMap (·.slices) → (v.g.slice a).stackSig = (v.g.slice b).stackSig) →
        ∃ t g k, exec i s = .next t ∧ OnlyGroup s t v.gid g ∧ v.g.Kept g ∧ g.gangs = [k] ∧ k.wait = .no
          ∧ (∀ n, n ∈ k.slices ↔ n ∈ v.g.gangs.flatMap (·.slices))
          ∧ (∀ n, (g.slice n).stack = (v.g.slice n).stack ∧ (g.slice n).active = (v.g.slice n).active
              ∧ (g.slice n).live = (v.g.slice n).live ∧ (g.slice n).resume = (v.g.slice n).resume)))
  ∧ (
    ∀ (s : State) (v : View) (off : BitVec 32) (sb : BitVec 3) (gd : Guard),
      let i : Instr := .yield off sb gd
      Issues i s v →
      (v.lanes gd = [] → Completes s v (exec i s))
      ∧ (v.lanes gd ≠ [] → v.lanes gd ≠ v.active → v.k.fence = none → exec i s = .next (s.haltGang v i 0x05 0))
      ∧ (v.Clean → v.lanes gd ≠ [] → v.lanes gd = v.active → v.g.det.unseen = [] →
        ∃ t g, exec i s = .next t ∧ OnlyGroup s t v.gid g ∧ v.g.Kept g
          ∧ (∀ n ∈ v.k.slices, (g.slice n).pc = v.c.hdr + off.signExtend 64 * 8 ∧ (g.slice n).stack = (v.g.slice n).stack
              ∧ (g.slice n).active = (v.g.slice n).active)
          ∧ ((∃ n ∈ v.k.slices, (v.g.slice n).sbOf sb.toNat ≠ 0) →
              ∃ k, g.gang v.kid = some k ∧ k.wait = .yield (v.c.hdr + off.signExtend 64 * 8) sb.toNat ∧ k.clause = none)
          ∧ ((∀ n ∈ v.k.slices, (v.g.slice n).sbOf sb.toNat = 0) → ∀ k, g.gang v.kid = some k → k.wait = .no)))

/-- R26, R298, R29, R299. BAR: .WAIT gives 2 with no pending arrival; once the phase of the arrival has completed it consumes it and gives 1
where a group has ended by a contained fault, else 0; until then it parks, and an arrival from before the end of a phase counts again.
.ARR and .SYNC park a gang that is not the last of its group, and diverge where the others stand at another group instruction; with an
arrival pending at the current phase they wait for that phase (R298 says it of .ARR; that .SYNC waits too is the model's choice, log 35). The
last of an .ARR, once the group's earlier accesses are complete as at
the fence of the scope, makes the group arrive at the current phase and gives 0 in every active lane; the last of a .SYNC whose arrival
is the last of the scope gives the status there and then. The phase completes exactly where every group of the scope has arrived. R348,
R349. PHWAIT completes where its phase word's parity is the one it names, and parks its gang where it is not; PHFLIP, once the group's
earlier accesses are complete as at FENCE.TEAM, inverts bit 0 of the word and leaves every other byte of every scratchpad as it was. A word
outside the window or not aligned is a protection fault. R158, R159, R300, R301. BCBARM issues as an atomic of 64 bits at the word of its
lowest executing lane. BCBWAIT parks its gang, and its read takes its place in core order, once the group's own arming of the word has been
acknowledged; before that it stalls; in deterministic mode it reads at once, and a word at or below 0 completes it with that value, saturated
to 32 bits. With no executing lane PHWAIT, PHFLIP, BCBARM and BCBWAIT complete. -/
def Obligations.BarriersAndPhases : Prop :=
  (
    ∀ (s : State) (v : View) (rc clu : Bool) (d : BitVec 10),
      let p := v.g.part clu
      let scope := if clu then v.t.cluster else v.g.team
      let now := s.barPhase clu scope
      (Issues (.bar rc .wait clu d) s v →
        ((p.pending = false ∨ p.last = none) → WritesReg s v (exec (.bar rc .wait clu d) s) false d v.active fun _ => 2)
        ∧ (∀ ph, p.pending = true → p.last = some ph → ph < now →
          GivesReg ((s.modGroup v.gid fun g => g.setPart clu { p with pending := false, abandoned := false, uncounted := false }).barOrder
            clu scope v.t.core) v (exec (.bar rc .wait clu d) s) d v.active (fun _ => if p.abandoned then 1 else 0) fun _ => True)
        ∧ (∀ ph, p.pending = true → p.last = some ph → now ≤ ph →
          exec (.bar rc .wait clu d) s = .next ((v.countAgain (s.park v.gid v.kid (.barrier clu ph d.toNat)) clu).waits v)))
      ∧ (∀ k, k ≠ BarKind.wait → Issues (.bar rc k clu d) s v →
        (v.meet = .wait → exec (.bar rc k clu d) s = .next ((v.comeTo s true).waits v))
        ∧ (v.meet = .diverge → v.k.fence = none → exec (.bar rc k clu d) s = .next (s.haltGang v (.bar rc k clu d) 0x05 0))
        ∧ (v.meet = .all → p.pending = true → p.last = some now →
          exec (.bar rc k clu d) s = .next ((v.countAgain (v.comeTo s true) clu).waits v))
        ∧ (v.meet = .all → (p.pending = false ∨ p.last ≠ some now) →
          v.drained s = none → exec (.bar rc k clu d) s = .next (s.waits v)))
      ∧ (∀ k u, k ≠ BarKind.wait → Issues (.bar rc k clu d) s v → v.Clean → Tab.rising s.groups = true → v.meet = .all →
        (p.pending = false ∨ p.last ≠ some now) → (clu = true → (s.cluster v.t.cluster).isSome = true) →
        v.drained s = some u →
        let ls := v.g.activeLanes (v.party.flatMap (·.slices))
        let all := ∀ e ∈ s.scope clu scope, e.1 = v.gid ∨ (e.2.part clu).counts now = true
        ∃ t g, exec (.bar rc k clu d) s = .next t ∧ t.group v.gid = some g ∧ t.mem = s.mem ∧ g.preds = v.g.preds ∧ g.fstat = v.g.fstat
          ∧ t.barPhase clu scope = (if all then now + 1 else now)
          ∧ (k = .arr → g.part clu = { p with last := some now, pending := true, uncounted := false }
            ∧ ∀ n l, l < 32 → g.reg n l = if n = d.toNat ∧ l ∈ ls then 0 else v.g.reg n l)
          ∧ (k = .sync → all → g.part clu = { p with last := some now, pending := false, abandoned := false, uncounted := false }
            ∧ ∀ n l, l < 32 → g.reg n l = if n = d.toNat ∧ l ∈ ls then (if p.abandoned then 1 else 0) else v.g.reg n l)))
  ∧ (
    ∀ (s : State) (v : View) (rc : Bool) (base p : Src) (off : BitVec 11) (gd : Guard),
      (∀ i : Instr, i = .phwait rc base p off gd ∨ i = .phflip rc base off gd → Issues i s v → v.lanes gd = [] → Completes s v (exec i s))
      ∧ ∀ (l : Nat) (ls : List Nat), v.lanes gd = l :: ls →
      let a := addrOf v.g v.c .s base off l
      (∀ i : Instr, i = .phwait rc base p off gd ∨ i = .phflip rc base off gd → Issues i s v → (a % 4 ≠ 0 ∨ v.t.inWindow a 4 = false) →
        v.k.fence = none → exec i s = .next (s.haltGang v i 0x03 a))
      ∧ (a % 4 = 0 → v.t.inWindow a 4 = true → (∀ n ∈ tilesOf a 4, v.t.engineSide n = false) →
        (s.core v.t.core).storing v.g.team [(a, 4)] = false →
        (Issues (.phwait rc base p off gd) s v →
          ((Mem.read v.t.spad a).getLsbD 0 = (v.src p l).getLsbD 0 → Completes s v (exec (.phwait rc base p off gd) s))
          ∧ ((Mem.read v.t.spad a).getLsbD 0 ≠ (v.src p l).getLsbD 0 →
            exec (.phwait rc base p off gd) s = .next ((s.park v.gid v.kid (.phwait a ((v.src p l).getLsbD 0))).waits v)))
        ∧ (Issues (.phflip rc base off gd) s v →
          (v.teamDrained s = false → exec (.phflip rc base off gd) s = .next (s.waits v))
          ∧ (v.teamDrained s = true → Memory.wf v.t.spad = true →
            ∃ t : State, exec (.phflip rc base off gd) s = .next t ∧ s.GroupsKept t ∧ t.mem = s.mem ∧ (∀ n, n ≠ v.g.team → t.team n = s.team n)
              ∧ (s.core v.t.core).seen ≤ (t.core v.t.core).pts
              ∧ ∃ y, t.team v.g.team = some y ∧ ∀ b, Mem.read y.spad b =
                  if b = a then Mem.read v.t.spad a ^^^ 1 else Mem.read v.t.spad b))))
  ∧ (
    ∀ (s : State) (v : View) (d a : BitVec 10) (n : Src) (sb : BitVec 3) (gd : Guard),
      (Issues (.bcbarm a n sb gd) s v → v.lanes gd = [] → Completes s v (exec (.bcbarm a n sb gd) s))
      ∧ (∀ l ls q u tag, Issues (.bcbarm a n sb gd) s v → v.x.det = false → v.lanes gd = l :: ls →
        v.check s .g true [piece l 0 (v.g.pair a.toNat l).toNat 8 (v.src n l).toNat] = .ok [q] → (s.core v.t.core).noRoom [q] = false →
        s.queueUp v (.bcbarm a n sb gd) (some sb) = some (u, tag) →
        let t := (u.fresh.1.modGroup v.gid (·.impure)).enqueue v.t.core
          (v.op u.nextUid tag (some sb) .bcbarm 0 [{ q with entry := true }] 0)
        exec (.bcbarm a n sb gd) s = .next (t.retired v (.bcbarm a n sb gd) none) ∧ s.GroupsKept (t.retired v (.bcbarm a n sb gd) none))
      ∧ (Issues (.bcbwait d a gd) s v → v.lanes gd = [] → Completes s v (exec (.bcbwait d a gd) s))
      ∧ (∀ l ls q, Issues (.bcbwait d a gd) s v → v.lanes gd = l :: ls →
        v.check s .g false [piece l 0 (v.g.pair a.toNat l).toNat 8 (lanesMask (l :: ls))] = .ok [q] →
        (v.arming s q.pa = true → exec (.bcbwait d a gd) s = .next (s.waits v))
        ∧ ∀ u tag, v.arming s q.pa = false → (s.core v.t.core).noRoom [q] = false → s.openTag v (.bcbwait d a gd) 1 = some (u, tag) →
          let parked := u.fresh.1.park v.gid v.kid (.bcbwait s.nextUid)
          (v.x.det = false →
            let t := parked.enqueue v.t.core (v.op u.nextUid (some tag) none .bcbwait d.toNat [{ q with entry := true }] 0)
            exec (.bcbwait d a gd) s = .next (t.waits v) ∧ s.GroupsKept (t.waits v))
          ∧ (v.x.det = true → s.bad q.pa = false →
            let w := parked.coreRead v.t.core q.pa q.len
            let ls' := lanesOf (BitVec.ofNat 32 q.val)
            (w.2 = 0 ∨ 2 ^ 63 ≤ w.2) →
            ∃ (t : State) (x g : Group), exec (.bcbwait d a gd) s = .next t ∧ w.1.group v.gid = some x ∧ t.group v.gid = some g
              ∧ (∀ r k, k < 32 → g.reg r k = if r == d.toNat && ls'.contains k && x.active k then satI32 w.2 else x.reg r k)
              ∧ ({ x with regs := g.regs } : Group).Kept g ∧ t.mem = w.1.mem ∧ (∀ r, r ≠ v.gid → t.group r = w.1.group r))))

/-- R29, R347. PHEND: a gang that is not the last of its group parks; in the trap handler, or with an entry on a stack, it is an illegal
divergence; when all have come, nothing is outstanding and no run is open, the phase record is written at its place of the save area (where
that is, recordAt of recPlace, is the model's choice, log 25), registers, predicates and return stacks are let go, an arrival at the team barrier counts no more until a later phase executes a BAR, and the
group waits between its phases. -/
def Obligations.PhaseEnds : Prop :=
  ∀ (s : State) (v : View) (rc : Bool) (off : BitVec 32), let i : Instr := .phend rc off
    Issues i s v →
    let live := v.g.gangs.flatMap (·.slices)
    (v.meet = .wait → exec i s = .next ((v.comeTo s false).waits v))
    ∧ (v.meet = .all → (v.g.inHandler = true ∨ ∃ n ∈ live, (v.g.slice n).stack ≠ []) → v.k.fence = none →
      exec i s = .next (s.haltGang v i 0x05 0))
    ∧ (∀ w, v.meet = .all → v.g.inHandler = false → (∀ n ∈ live, (v.g.slice n).stack = []) → (∀ k ∈ v.g.gangs, k.fence = none) →
      (∀ n ∈ live, ∀ b, b < 8 → (v.g.slice n).sbOf b = 0) → v.g.run = none → v.g.det.unseen = [] → v.g.det.ended = false →
      s.setsPending v.gid v.t.core = false →
      (s.ghost v.gid v.t.core).distWrite v.g.ctx (v.x.save + recordAt (s.recPlace v.g.ctx))
        (256 + 128 * (v.l.carry v.g.budget).length) (v.phaseRec v.g (v.c.hdr + off.signExtend 64 * 8)) = (w, true) →
      ∃ t g, exec i s = .next t ∧ t.mem = w.mem ∧ t.group v.gid = some g ∧ g.stage = .betweenPhases ∧ g.phases = v.g.phases + 1
        ∧ g.record = some (s.recPlace v.g.ctx) ∧ g.gangs = [] ∧ g.regs = [] ∧ g.preds = [] ∧ g.rets = [] ∧ g.pmoff = none
        ∧ g.fstat = v.g.fstat ∧ g.rand = v.g.rand ∧ g.barTeam = { v.g.barTeam with uncounted := true } ∧ g.barClu = v.g.barClu
        ∧ ∀ n, n ≠ v.gid → t.group n = w.group n)

/-- R172, R317. EMIT: with no executing lane it completes; a lane that names no open node traps and no lane emits; one lane whose record
can be read and entered completes with it, a lane for which no page is free blocks its gang, one whose page is being copied waits, and one
whose pool page may not be written is a precise protection fault (the model's choice, log 50). -/
def Obligations.Emitting : Prop :=
  ∀ (s : State) (v : View) (rc : Bool) (n : Src) (r : BitVec 10) (gd : Guard), let i : Instr := .emit rc n r gd
    Issues i s v → v.k.emitted = 0 →
    (v.lanes gd = [] → Completes s v (exec i s))
    ∧ (∀ l, l ∈ v.lanes gd → v.nodeMisuse n l = true → v.k.fence = none → exec i s = .next (s.trapped v i 0x30 0))
    ∧ (∀ l q u, v.lanes gd = [l] → v.nodeMisuse n l = false → v.check s .g false (v.emitPieces r n l) = .ok q → v.drained s = some u →
      q.any u.poisoned = false →
      let got := (q.filter fun p => p.lane == l).foldl (fun (acc : State × Nat) p =>
        ((acc.1.coreRead v.t.core p.pa 16).1, acc.2 + (acc.1.coreRead v.t.core p.pa 16).2 * 2 ^ (128 * p.stage))) (u, 0)
      (∀ w, got.1.emitOne v.g.ctx (v.src n l).toNat v.g.dclock.toNat got.2 = .entered w →
        exec i s = .next ((w.modGroup v.gid (·.impure)).retired v i none))
      ∧ (got.1.emitOne v.g.ctx (v.src n l).toNat v.g.dclock.toNat got.2 = .noPage →
        ∃ (t : State) (a g : Group) (k : Gang), exec i s = .next (t.waits v) ∧ got.1.group v.gid = some a ∧ t.group v.gid = some g
          ∧ g.gang v.kid = some k ∧ k.wait = .emit ∧ a.Kept g)
      ∧ (got.1.emitOne v.g.ctx (v.src n l).toNat v.g.dclock.toNat got.2 = .held → exec i s = .next (got.1.waits v))
      ∧ (∀ a, got.1.emitOne v.g.ctx (v.src n l).toNat v.g.dclock.toNat got.2 = .fault a → v.k.fence = none →
        exec i s = .next (s.haltGang v i 0x03 a)))

/-! ### SYS -/

/-- R189, R190, R380. TRAP with no executing lane completes. Otherwise, in a clean gang that is not in the handler, with a handler and its
record written, every slice of the gang stands at the handler with what it needs to resume saved, %trapinfo names the cause, the slot, the
slices and the ring entry, and no register has changed. In the handler it is a halting fault; in a group whose other gang is there, the
gang waits. R190, R366. RTT where every slice of the gang runs the handler at its entry's depth: each slice goes on where it was saved,
its predicates restored in the gang's lanes alone, registers as the handler left them; otherwise it is an illegal divergence. -/
def Obligations.Traps : Prop :=
  (
    ∀ (s : State) (v : View) (imm : BitVec 22) (gd : Guard), let i : Instr := .trap imm gd
      Issues i s v →
      (v.lanes gd = [] → Completes s v (exec i s))
      ∧ (v.lanes gd ≠ [] → v.Clean → v.x.line = none →
        ((∃ n ∈ v.k.slices, (v.g.slice n).trap ≠ none) →
          ∃ t : State, exec i s = .next t ∧ (t.ctx v.g.ctx).line = some 0x08 ∧ ∃ g, t.group v.gid = some g ∧ v.g.Kept g)
        ∧ ((∀ n ∈ v.k.slices, (v.g.slice n).trap = none) → v.g.inHandler = true →
          ∃ t g k, exec i s = .next t ∧ OnlyGroup s t v.gid g ∧ v.g.Kept g ∧ g.gang v.kid = some k ∧ k.wait = .trapHeld ∧ k.clause = some v.c)
        ∧ (∀ w, (∀ n ∈ v.k.slices, (v.g.slice n).trap = none) → v.g.inHandler = false → v.x.trap ≠ 0 →
          (s.countStop v.t.core (stopBin 0x20)).saveRecord v.g.ctx (0x18000 + 64 * (v.x.tseq % 256)) (v.report i 2 0x20 0 imm.toNat)
            (fun x => { x with tseq := x.tseq + 1 }) = w → w.group v.gid = some v.g →
          ∃ t g, exec i s = .next t ∧ t.group v.gid = some g ∧ t.mem = w.mem ∧ (t.ctx v.g.ctx).tseq = (w.ctx v.g.ctx).tseq
            ∧ g.inHandler = true ∧ g.regs = v.g.regs ∧ g.preds = v.g.preds ∧ g.fstat = v.g.fstat ∧ g.lclock = v.g.lclock
            ∧ g.trapinfo.extractLsb' 30 2 = 2 ∧ g.trapinfo.extractLsb' 22 8 = 0x20
            ∧ g.trapinfo.extractLsb' 18 4 = BitVec.ofNat 4 v.c.slot ∧ g.trapinfo.extractLsb' 0 8 = BitVec.ofNat 8 v.x.tseq
            ∧ (∀ n, n < 8 → (g.trapinfo.getLsbD (10 + n) = decide (n ∈ v.k.slices)))
            ∧ ∀ n ∈ v.k.slices, (g.slice n).pc = BitVec.ofNat 64 v.x.trap ∧ (g.slice n).active = (v.g.slice n).active
                ∧ (g.slice n).stack = (v.g.slice n).stack ∧ ∃ sv, (g.slice n).trap = some sv ∧ sv.active = (v.g.slice n).active
                  ∧ sv.preds = v.g.preds ∧ sv.depth = (v.g.slice n).stack.length
                  ∧ sv.pc = if v.c.slot + 1 = v.c.count then v.c.next else v.c.addr (v.c.slot + 1))))
  ∧ (
    ∀ (s : State) (v : View), Issues .rtt s v → v.Clean →
      ((∃ n ∈ v.k.slices, ∀ sv, (v.g.slice n).trap = some sv → (v.g.slice n).stack.length ≠ sv.depth) →
        exec .rtt s = .next (s.haltGang v .rtt 0x05 0))
      ∧ ∀ c, (∀ n ∈ v.k.slices, ∃ sv, (v.g.slice n).trap = some sv ∧ (v.g.slice n).stack.length = sv.depth ∧ sv.clause = c) →
        ∃ t g, exec .rtt s = .next t ∧ OnlyGroup s t v.gid g ∧ g.regs = v.g.regs ∧ g.fstat = v.g.fstat ∧ g.lclock = v.g.lclock + 1
          ∧ (∃ k, g.gang v.kid = some k ∧ k.clause = c ∧ k.wait = .no)
          ∧ (∀ n ∈ v.k.slices, ∀ sv, (v.g.slice n).trap = some sv → (g.slice n).pc = sv.pc
              ∧ (g.slice n).active = sv.active &&& (v.g.slice n).live ∧ (g.slice n).trap = none ∧ (g.slice n).stack = (v.g.slice n).stack)
          ∧ (∀ p l, l < 32 → l / 4 ∉ v.k.slices → g.pred p l = v.g.pred p l)
          ∧ ∀ sv, (v.g.slice (v.k.slices.headD 0)).trap = some sv → ∀ p : BitVec 3, p ≠ 7 → ∀ l, l < 32 → l / 4 ∈ v.k.slices →
              g.pred p l = (sv.preds.getD p.toNat 0).getLsbD l)

/-- R61, R373, R374. SRGET delivers a register of R61 to each executing lane, a 64-bit one as a pair; a privileged one reads zero outside
a maintenance context. SRSET replaces %fstat, but for its reserved bits, from the lowest executing lane, and %sigreg in each slice from
that slice's lowest; in a maintenance context it writes a privileged register (R4), which then reads as written while the device's own value
stands (the model's choice, log 79); a write of any other register does nothing. R197, R351. PMOFF opens the group's region at this cycle unless one is
open; PMON closes it. -/
def Obligations.SpecialRegisters : Prop :=
  (
    ∀ (s : State) (v : View) (d : BitVec 10) (num : BitVec 8) (a : Src) (gd : Guard),
      (Issues (.srget d num gd) s v →
        (srWide num.toNat = true → WritesPair s v (exec (.srget d num gd) s) false d (v.lanes gd) (v.sreg s num.toNat))
        ∧ (srWide num.toNat = false →
          WritesReg s v (exec (.srget d num gd) s) false d (v.lanes gd) fun l => (v.sreg s num.toNat l).truncate 32))
      ∧ (∀ l, v.sreg s 0x08 l = v.g.lclock ∧ v.sreg s 0x09 l = BitVec.ofNat 64 s.cycle ∧ v.sreg s 0x0A l = v.g.accw.setWidth 64
          ∧ v.sreg s 0x0B l = v.g.fstat.setWidth 64 ∧ v.sreg s 0x0C l = v.g.trapinfo.setWidth 64
          ∧ v.sreg s 0x0D l = (v.g.slice (l / 4)).sig.setWidth 64
          ∧ (v.x.maint = false → ∀ n, 0x40 ≤ n → n ≤ 0x43 → v.sreg s n l = 0))
      ∧ (Issues (.srset num a gd) s v → v.lanes gd = [] → Completes s v (exec (.srset num a gd) s))
      ∧ (∀ l ls, Issues (.srset num a gd) s v → v.lanes gd = l :: ls →
        (num = 0x0B → ∃ t g, exec (.srset num a gd) s = .next t ∧ OnlyGroup s t v.gid g
          ∧ ({ v.g with fstat := g.fstat } : Group).Moved g
          ∧ ∀ k, k < 32 → g.fstat.getLsbD k = ((v.src a l).getLsbD k && (decide (k < 6) || decide (16 ≤ k))))
        ∧ (num = 0x0D → v.Clean → (∀ n ∈ v.k.slices, (v.g.slice n).tokens = 0) →
          ∃ t g, exec (.srset num a gd) s = .next t ∧ OnlyGroup s t v.gid g ∧ v.g.Kept g ∧ ∀ n ∈ v.k.slices,
            (g.slice n).sig = match (v.lanes gd).filter fun l => l / 4 == n with
              | m :: _ => v.src a m
              | [] => (v.g.slice n).sig)
        ∧ (srPriv num.toNat = true → v.x.maint = true → ∃ u : State, Completes u v (exec (.srset num a gd) s) ∧ u = { s with dev := u.dev }
          ∧ ∀ m, v.sreg u num.toNat m = BitVec.ofNat 64 (srcVal v.g v.c a (srWide num.toNat) l % 2 ^ (if srWide num.toNat then 64 else 32))
            ∧ ∀ n, n ≠ num.toNat → v.sreg u n m = v.sreg s n m)
        ∧ (num ≠ 0x0B → num ≠ 0x0D → (srPriv num.toNat = false ∨ v.x.maint = false) → Completes s v (exec (.srset num a gd) s))))
  ∧ (
    ∀ (s : State) (v : View),
      (Issues .pmoff s v → ∃ t g, exec .pmoff s = .next t ∧ OnlyGroup s t v.gid g ∧ ({ v.g with pmoff := g.pmoff } : Group).Moved g
        ∧ g.pmoff = match v.g.pmoff with | some c => some c | none => some s.cycle)
      ∧ (Issues .pmon s v → ∃ t g, exec .pmon s = .next t ∧ OnlyGroup s t v.gid g
        ∧ ({ v.g with pmoff := none, overrun := false } : Group).Moved g))

/-- R260, R279, R310. Every maintenance instruction outside a maintenance context is a protection fault with its clause's address; WEARRD
of the own core is none of them. That the fault is raised with no executing lane too is the model's choice, log 67. -/
def Obligations.Privilege : Prop :=
  ∀ (s : State) (v : View) (i : Instr), Issues i s v → v.x.maint = false → v.k.fence = none →
    ((∃ a b g, i = .tlbinv a b g) ∨ (∃ d a off sb g, i = .pqpop d a off sb g) ∨ (∃ a g, i = .ctxkill a g)
      ∨ (∃ d a b g, i = .cstateRead d a b g ∨ i = .cstateReserve d a b g ∨ i = .cstateRelease d a b g ∨ i = .cdrain d a b g)
      ∨ (∃ d a g, i = .cretire d a g) ∨ (∃ d a f g, i = .wearrd d a f g) ∨ (∃ a w g, i = .tstrun a w g) ∨ (∃ a g, i = .tstabt a g)) →
    exec i s = .next (s.haltGang v i 0x03 v.c.hdr.toNat)

/-- R117, R378, R379. TLBINV, in a maintenance context: it stalls until the group's earlier accesses have been acknowledged, and every
ordinary one that its core issued before (the model's choice, log 26); then no
translation and no cached table entry of a core or a quad that meets its range is left, and all others are; it completes when no access of
the range translated before is in flight, and stalls until then. R198, R315. CTXKILL, in a maintenance context: a context that lives is
dead afterwards, with none of its groups, launches and monitors left; the TDI of a confidential one that is in RUN is in ERROR, and no TDI
changes otherwise; the instruction completes where the context is another's. One that does not live or is dead already, confidential or not,
is left as it is. R136, R324. FLUSHP, once the group's own accesses of .Y have gone out from their core (log 97, the model's choice),
completes at once where the context has nothing outstanding on the host port or a link; otherwise a probe goes out behind what is and its
scoreboard rises; the gang's next clause waits for the scoreboard in either case. With no executing lane each does nothing. -/
def Obligations.Invalidations : Prop :=
  (
    ∀ (s : State) (v : View) (a b : BitVec 10) (gd : Guard), let i : Instr := .tlbinv a b gd
      Issues i s v → v.x.maint = true →
      (v.lanes gd = [] → Completes s v (exec i s))
      ∧ ∀ (l : Nat) (ls : List Nat), v.lanes gd = l :: ls →
      (v.drained s = none → exec i s = .next (s.waits v))
      ∧ ∀ u, v.drained s = some u →
      let x := (v.g.pair a.toNat l).toNat
      let n := (v.g.pair b.toNat l).toNat
      let hit (c va k : Nat) : Prop := (bit x 63 = true ∨ c = bits x 62 57)
        ∧ (if n = 0 then va < 2 ^ 57 ∧ 0 < va + k
           else va < (bits x 56 0 + n + 65535) / 65536 * 65536 ∧ bits x 56 0 / 65536 * 65536 < va + k)
      let flies := ∃ e ∈ s.cores, ∃ o ∈ e.2.rq ++ e.2.wk ++ e.2.yq.map (·.op), ∃ p ∈ o.waiting, hit o.ctx p.va p.len
      ∃ w : State, w.groups = s.groups ∧ w.mem = s.mem ∧ w.teams = s.teams
        ∧ (∀ c e, e ∈ (w.core c).tlb ↔ e ∈ (s.core c).tlb ∧ ¬ hit e.ctx e.va e.size)
        ∧ (∀ q e, e ∈ (w.quad q).tlb ↔ e ∈ (s.quad q).tlb ∧ ¬ hit e.ctx e.va e.size)
        ∧ (∀ q e, e ∈ (w.quad q).walkc ↔ e ∈ (s.quad q).walkc
            ∧ ¬ hit e.ctx (e.prefx * 2 ^ (levelLow e.level + levelBits e.level)) (2 ^ (levelLow e.level + levelBits e.level)))
        ∧ (flies → exec i s = .next (w.waits v))
        ∧ (¬ flies → exec i s = .next ((w.modGroup v.gid (·.impure)).retired v i none)))
  ∧ (
    ∀ (s : State) (v : View) (a : Src) (gd : Guard), let i : Instr := .ctxkill a gd
      Issues i s v → v.x.maint = true →
      (v.lanes gd = [] → Completes s v (exec i s))
      ∧ ∀ (l : Nat) (ls : List Nat), v.lanes gd = l :: ls →
      let k := (v.src a l).toNat % 64
      let x := s.ctx k
      ((x.alive = false ∨ x.dead = true) → k ≠ v.g.ctx →
        GivesReg (s.modGroup v.gid (·.impure)) v (exec i s) 0 [] (fun _ => 0) fun t => t.ctxs = s.ctxs ∧ t.dev = s.dev)
      ∧ (x.alive = true → x.dead = false → ∃ u : State,
        (k ≠ v.g.ctx → exec i s = .next ((u.modGroup v.gid (·.impure)).retired v i none))
        ∧ (k = v.g.ctx → exec i s = .next (u.waits v))
        ∧ (u.ctx k).alive = false ∧ (u.ctx k).dead = true
        ∧ (∀ e ∈ u.groups, e.2.ctx ≠ k) ∧ (∀ e ∈ u.launches, e.2.ctx ≠ k) ∧ (∀ m ∈ u.monitors, m.ctx ≠ k)
        ∧ (x.conf = true → s.dev.tdis.getD x.vf .unlocked = .run → u.dev.tdis.getD x.vf .unlocked = .error)
        ∧ ((x.conf = false ∨ s.dev.tdis.getD x.vf .unlocked ≠ .run) → u.dev.tdis = s.dev.tdis)))
  ∧ (
    ∀ (s : State) (v : View) (sb : BitVec 3) (gd : Guard), Issues (.flushp sb gd) s v →
      let busy := ∃ e ∈ s.cores, ∃ y ∈ e.2.yq, y.op.ctx = v.g.ctx
      let queued := ∃ o ∈ (s.core v.t.core).rq, o.grp = v.gid ∧ o.port ≠ none
      (v.lanes gd = [] → Completes s v (exec (.flushp sb gd) s))
      ∧ (v.lanes gd ≠ [] → queued → exec (.flushp sb gd) s = .next (s.waits v))
      ∧ (v.lanes gd ≠ [] → ¬ queued → ¬ busy → Completes s v (exec (.flushp sb gd) s)
        ∧ ∃ (t : State) (g : Group) (k : Gang), exec (.flushp sb gd) s = .next t ∧ t.group v.gid = some g ∧ g.gang v.kid = some k
          ∧ k.alsoWait = some sb.toNat)
      ∧ ∀ u tag, v.lanes gd ≠ [] → ¬ queued → busy → s.queueUp v (.flushp sb gd) (some sb) = some (u, tag) →
        ∃ (t : State) (o : Op) (g : Group) (k : Gang), exec (.flushp sb gd) s = .next (t.retired v (.flushp sb gd) none)
          ∧ s.GroupsKept (t.retired v (.flushp sb gd) none) ∧ t.mem = s.mem
          ∧ (t.core v.t.core).probes = (s.core v.t.core).probes ++ [o] ∧ o.grp = v.gid ∧ o.ctx = v.g.ctx ∧ o.sb = some sb.toNat ∧ o.tag = tag
          ∧ t.group v.gid = some g ∧ g.gang v.kid = some k ∧ k.alsoWait = some sb.toNat
          ∧ (v.k.slices.Nodup → ∀ n ∈ v.k.slices, (∃ sl, v.g.slices.look n = some sl) → (g.slice n).sbOf sb.toNat = (v.g.slice n).sbOf sb.toNat + 1))

/-- R279, R353. PQPOP, in a maintenance context: with an empty queue it removes nothing and stores nothing; otherwise the oldest notice is
removed and its 32 bytes go to the address as a store. What it returns, 0 or 1, every executing lane has once the operation completes, when its
scoreboard falls (R238; in deterministic mode, where the bytes enter the group's log, at once): the model's choice, log 40. R208, R383. WEARRD gives each executing lane the 64-bit word that
the lane's index, modulo 64, names of a core's wear record: of the own core in any context, of the core each lane names in a maintenance
context; a core that is not there reads zero. -/
def Obligations.NoticesAndWear : Prop :=
  (
    ∀ (s : State) (v : View) (d a : BitVec 10) (off : BitVec 11) (sb : BitVec 3) (gd : Guard) (l : Nat) (ls : List Nat),
      let i : Instr := .pqpop d a off sb gd
      Issues i s v → v.x.maint = true → v.lanes gd = l :: ls →
      let kind (w : Word) : OpKind := .pop d.toNat (BitVec.ofNat 32 (lanesMask (l :: ls))) w
      let access (x : Nat) := v.check s .g true [piece l 0 (addrOf v.g v.c .g (.reg a) off l) 32 x]
      (∀ qs u tag, s.dev.queue = [] → v.x.det = false → access 0 = .ok qs → (s.core v.t.core).noRoom [] = false →
        s.queueUp v i (some sb) = some (u, tag) →
        let t := u.fresh.1.enqueue v.t.core (v.op u.nextUid tag (some sb) (kind 0) 0 [] (u.core v.t.core).pts)
        exec i s = .next ((t.modGroup v.gid (·.impure)).retired v i none) ∧ t.dev.queue = []
          ∧ s.GroupsKept (t.retired v i none))
      ∧ (∀ n ns q u tag, s.dev.queue = n :: ns → v.x.det = false → access n.bits = .ok [q] →
        (s.core v.t.core).noRoom (if s.ownsFor v.t.core q.pa q.len then [] else [q]) = false → s.queueUp v i (some sb) = some (u, tag) →
        let t := (u.fresh.1.modGroup v.gid (·.impure)).enqueue v.t.core (v.op u.nextUid tag (some sb) (kind 1) 0
          [{ q with entry := !s.ownsFor v.t.core q.pa q.len }] (u.core v.t.core).pts)
        exec i s = .next (t.popNotice.retired v i none)
          ∧ t.popNotice.dev.queue = ns ++ (s.dev.heldNotices.take 1).map (fun m => { m with time := s.cycle })
          ∧ t.popNotice.dev.heldNotices = s.dev.heldNotices.drop 1 ∧ s.GroupsKept (t.popNotice.retired v i none))
      ∧ (∀ n ns q, s.dev.queue = n :: ns → v.x.det = true → access n.bits = .ok [q] → v.g.det.used + logEntries .g [q] ≤ 512 →
        ∃ t g, exec i s = .next t ∧ t.group v.gid = some g ∧ t.mem = s.mem ∧ g.det.log = v.g.det.log ++ s.logOf .g [q]
          ∧ t.dev.queue = ns ++ (s.dev.heldNotices.take 1).map (fun m => { m with time := s.cycle })
          ∧ ({ v.g with regs := g.regs } : Group).Kept g
          ∧ ∀ r m, m < 32 → g.reg r m = if r = d.toNat ∧ m ∈ l :: ls then 1 else v.g.reg r m))
  ∧ (
    ∀ (s : State) (core : Nat) (o : Op) (d : Nat) (ls : LaneMask) (w : Word) (a : Group), o.kind = .pop d ls w → s.group o.grp = some a →
      ∃ g, (s.completeOp core o).group o.grp = some g ∧ ({ a with regs := g.regs } : Group).Kept g
        ∧ ∀ r m, m < 32 → g.reg r m = if r = d ∧ ls.getLsbD m = true then w else a.reg r m)
  ∧ (
    ∀ (s : State) (v : View) (d : BitVec 10) (a f : Src) (gd : Guard),
      (Issues (.wearrdSelf d f gd) s v →
        WritesPair s v (exec (.wearrdSelf d f gd) s) false d (v.lanes gd) fun l => s.wearWord v.t.core ((v.src f l).toNat % 64))
      ∧ (Issues (.wearrd d a f gd) s v → v.x.maint = true →
        WritesPair s v (exec (.wearrd d a f gd) s) false d (v.lanes gd) fun l =>
          s.wearWord (v.src a l).toNat ((v.src f l).toNat % 64))
      ∧ (∀ core n, 288 ≤ core → s.wearWord core n = 0)
      ∧ (∀ core, core < 288 → (s.wearWord core 0).extractLsb' 0 32 = 0x57454152#32 ∧ (s.wearWord core 0).extractLsb' 32 9 = BitVec.ofNat 9 core
        ∧ (s.wearWord core 1).toNat = (s.wear core).cwu % 2 ^ 64))

/-- R212, R215, R279, R280, R310. CSTATE, CDRAIN and CRETIRE, in a maintenance context, act once on the core that the lowest executing
lane names and give every executing lane the status word: a read or an action out of range changes no core (what the word shows of a core out
of range is the model's choice, log 102; CSTATE's read form never issues with action 1 or 2, log 10, its clause there being the model's
choice); a reservation holds unless
another context has the core or it is RETIRED; a release needs the own reservation; a drain needs reason 3 or 6; a retirement needs a
DRAINED core and marks its quad. R215, R216, R279, R381. TSTRUN, in a maintenance context, with its core's queue empty and the line of its
status word free: on an idle core that the context has reserved a run starts, with the next run number; otherwise none does. TSTABT marks
the own context's run on its core for abortion and counts it, or does nothing. -/
def Obligations.Maintenance : Prop :=
  (
    ∀ (s : State) (v : View) (d : BitVec 10) (a b : Src) (gd : Guard) (l : Nat) (ls : List Nat),
      v.x.maint = true → v.lanes gd = l :: ls →
      let core := (v.src a l).toNat
      let x := (v.src b l).toNat
      let u := s.modGroup v.gid (·.impure)
      let st := (s.wear core).state
      let gives (i : Instr) (ok : Bool) (P : State → Prop) : Prop := ∃ w : State, w.groups = u.groups ∧ w.mem = s.mem
        ∧ GivesReg w v (exec i s) d (l :: ls) (fun _ => w.coreStatus core ok) P
      (∀ i : Instr, (i = .cstateRead d a b gd ∨ i = .cstateReserve d a b gd ∨ i = .cstateRelease d a b gd ∨ i = .cdrain d a b gd
          ∨ i = .cretire d a gd) → Issues i s v → 288 ≤ core → gives i false fun t => t.dev = s.dev)
      ∧ (core < 288 →
        (Issues (.cstateRead d a b gd) s v → gives (.cstateRead d a b gd) (x == 0) fun t => t.dev = s.dev)
        ∧ (Issues (.cstateReserve d a b gd) s v →
          (st ≠ .retired → (∀ c, s.dev.resv.look core = some c → c = v.g.ctx) →
            gives (.cstateReserve d a b gd) true fun t => t.dev.resv.look core = some v.g.ctx ∧ t.dev.wear = s.dev.wear)
          ∧ ((st = .retired ∨ ∃ c, s.dev.resv.look core = some c ∧ c ≠ v.g.ctx) →
            gives (.cstateReserve d a b gd) false fun t => t.dev = s.dev))
        ∧ (Issues (.cstateRelease d a b gd) s v →
          (s.dev.resv.look core = some v.g.ctx → gives (.cstateRelease d a b gd) true fun t =>
            t.dev.resv = s.dev.resv.del core ∧ t.dev.wear = s.dev.wear)
          ∧ (s.dev.resv.look core ≠ some v.g.ctx → gives (.cstateRelease d a b gd) false fun t => t.dev = s.dev))
        ∧ (Issues (.cdrain d a b gd) s v →
          ((x = 3 ∨ x = 6) → (st = .healthy ∨ st = .derated) → gives (.cdrain d a b gd) true fun t =>
            (t.wear core).state = .drained ∧ (t.wear core).why = x ∧ t.dev.flash.wear = t.dev.wear
              ∧ ∀ k, k < 288 → k ≠ core → t.wear k = (s.wear k).predict)
          ∧ ((x = 3 ∨ x = 6) → st = .drained → gives (.cdrain d a b gd) true fun t => t.dev = s.dev)
          ∧ ((x ≠ 3 ∧ x ≠ 6) ∨ st = .retired → gives (.cdrain d a b gd) false fun t => t.dev = s.dev))
        ∧ (Issues (.cretire d a gd) s v →
          (st = .drained → gives (.cretire d a gd) true fun t => core / 4 ∈ t.dev.retiring ∧ (t.wear core).state = .drained
            ∧ ∀ k, k < 288 → k / 4 = core / 4 → (s.wear k).state ≠ .retired → (t.wear k).state = .drained)
          ∧ (st ≠ .drained → gives (.cretire d a gd) false fun t => t.dev = s.dev))))
  ∧ (
    ∀ (s : State) (v : View) (a : Src) (w : BitVec 10) (gd : Guard) (l : Nat) (ls : List Nat), v.x.maint = true → v.lanes gd = l :: ls →
      let core := (v.src a l).toNat
      (∀ p, Issues (.tstrun a w gd) s v → v.check s .g true [piece l 0 (v.g.pair w.toNat l).toNat 16 0] = .ok [p] →
        (s.core v.t.core).rq = [] → s.lockedFor p.pa = false →
        let ok := decide (core < 288) && s.coreIdle core && s.dev.resv.look core == some v.g.ctx
        ∃ t : State, exec (.tstrun a w gd) s = .next (t.retired v (.tstrun a w gd) none)
          ∧ (ok = true → t.dev.tests = s.dev.tests ++ [⟨core, v.g.ctx, v.t.core, p.pa, (s.wear core).tests + (s.wear core).errs.getD 7 0 + 1, false⟩])
          ∧ (ok = false → t.dev.tests = s.dev.tests))
      ∧ (Issues (.tstabt a gd) s v →
        ((∃ r ∈ s.dev.tests, r.core = core ∧ r.ctx = v.g.ctx ∧ r.aborting = false) →
          ∃ t : State, exec (.tstabt a gd) s = .next t ∧ (∀ r ∈ t.dev.tests, r.core = core → r.aborting = true)
            ∧ (t.wear core).errs.getD 7 0 = (s.wear core).errs.getD 7 0 + 1 ∧ t.mem = s.mem ∧ s.GroupsKept t)
        ∧ ((∀ r ∈ s.dev.tests, r.core = core → r.ctx = v.g.ctx → r.aborting = true) →
          ∃ t : State, exec (.tstabt a gd) s = .next t ∧ t.dev = s.dev ∧ t.mem = s.mem ∧ s.GroupsKept t)))

/-! ### Events of memory -/

/-- R122, R123. A home serves a load of a core without copies: the operation leaves the queue for its reply with the bytes that memory
holds, the lease reaches at least four beyond the core's logical time, which is not before the line's write time, and memory is unchanged.
R122, R124. A home gives a core's store ownership: the line's times become the larger of the core's logical time and one past its lease,
the core owns the line, its store has left the queue, and the next read in the global order finds its bytes there and every other byte as
it was. R124, R294, R296. A home applies an atomic: memory holds the new value and its other bytes are as before, the operation has the
old value and waits for its acknowledgement, and the line's times become the larger of the core's logical time and one past its lease. -/
def Obligations.Homes : Prop :=
  (
    ∀ (s : State) (core : Nat) (o : Op) (p : Piece), LoneRequest s core o p → ((∃ sx, o.kind = .load sx) ∨ o.kind = .ldb) →
      (s.core core).l1 = [] →
      ∃ (t : State) (q : Op), exec (.homeLoadRequest core none .clean) s = .next t ∧ t.mem = s.mem ∧ s.GroupsKept t
        ∧ (t.core core).rq = [] ∧ (t.core core).replies = (s.core core).replies ++ [q] ∧ q.id = o.id ∧ q.ready = true
        ∧ q.pieces = [{ p with got := some (Mem.readN s.mem p.pa p.len) }]
        ∧ (t.line (lineOf p.pa)).wts = (s.line (lineOf p.pa)).wts ∧ (s.core core).pts + 4 ≤ (t.line (lineOf p.pa)).rts
        ∧ (t.core core).pts = max (s.core core).pts (s.line (lineOf p.pa)).wts)
  ∧ (
    ∀ (s : State) (core : Nat) (o : Op) (p : Piece), LoneRequest s core o p → o.kind = .store → p.val < 2 ^ (8 * p.len) →
      (s.core core).l1 = [] → Memory.wf s.mem = true →
      ∃ t : State, exec (.homeStoreApply core none) s = .next t ∧ s.GroupsKept t ∧ (t.core core).rq = []
        ∧ (t.line (lineOf p.pa)).owner = some core
        ∧ (t.line (lineOf p.pa)).wts = max (s.core core).pts ((s.line (lineOf p.pa)).rts + 1)
        ∧ (t.line (lineOf p.pa)).rts = (t.line (lineOf p.pa)).wts
        ∧ (t.homeRead p.pa p.len).2 = p.val
        ∧ ∀ a, (a < p.pa ∨ p.pa + p.len ≤ a) → Mem.read (t.homeRead p.pa p.len).1.mem a = Mem.read s.mem a)
  ∧ (
    ∀ (s : State) (core : Nat) (o : Op) (p : Piece), LoneRequest s core o p → o.kind.isAtomic = true →
      ∃ (t : State) (q : Op), exec (.homeAtomicApply core none) s = .next t ∧ t.groups = s.groups
        ∧ (t.core core).rq = [q] ∧ q.ready = true ∧ q.pieces = [{ p with got := some (Mem.readN s.mem p.pa p.len) }]
        ∧ t.mem = Mem.writeN s.mem p.pa p.len (o.kind.apply (Mem.readN s.mem p.pa p.len) p)
        ∧ (t.line (lineOf p.pa)).wts = max (s.core core).pts ((s.line (lineOf p.pa)).rts + 1) ∧ q.ts = max o.ts (t.line (lineOf p.pa)).wts)

/-- R106, R123, R124, R331. The data of a load, and an acknowledged atomic's, arrive at the group that issued them: the registers of its
lane are written, its scoreboard falls and the operation is gone; a load from the host gets the bytes that the host returns. The
request is then the only one left of its operation. A core's logical time is then not before its atomic's. -/
def Obligations.Replies : Prop :=
  ∀ (s : State) (core : Nat) (o : Op) (p : Piece), o.pieces = [p] → p.lane < 32 → s.tagLive o.ctx o.gen = true → o.poison = none →
    (s.group o.grp).isSome = true →
    ((∃ sx, o.kind = .load sx) → (s.core core).replies.find? (·.id == o.id) = some o →
      ∃ t : State, exec (.loadReply core ⟨o.id, .clean, []⟩) s = .next t ∧ t.mem = s.mem ∧ Received s t o p
        ∧ ∀ q ∈ (t.core core).replies, q.id ≠ o.id)
    ∧ ((∃ op w8, o.kind = .atom op false w8) → (s.core core).rq = [o] → (s.core core).wk = [] → o.ready = true →
      ∃ t : State, exec (.atomicAck core ⟨o.id, []⟩) s = .next t ∧ t.mem = s.mem ∧ Received s t o p ∧ (t.core core).rq = []
        ∧ o.ts ≤ (t.core core).pts)
    ∧ (∀ (y : YOp) (data : List Byte), (∃ sx, o.kind = .load sx) → (s.core core).yq.find? (fun y => y.op.id == o.id && !y.write && s.mayGo core y) = some y →
      (s.core core).rq = [] → p.got = none → y.op = o → y.link = none → (s.core core).lastOf y = true → data.length = p.len →
      ∃ t : State, exec (.sysReadReturn core o.id data) s = .next t ∧ t.mem = s.mem ∧ t.host = s.host
        ∧ Received s t o { p with got := some (Mem.readN (Mem.writeBytes [] 0 data) 0 p.len) })

/-- R106, R137, R199. The oldest write of a core on the host port that may go completes: its bytes are in host memory, unless its context is
dead, and the request has left the port, with the last one of an operation the whole operation; device memory is unchanged. R134, R135. A
write of the host or a peer, with contexts that run, monitors, owners and migrations elsewhere, is in memory afterwards, and no quad holds a
copy of its lines as a sharer; every other byte reads, in the global order, as before. A read returns the bytes as the global order has them
and changes none; where it lies in one line that no core owns and for which the L2 has room, copies stay where they are. R226. What the host
writes into a confidential context's private range is dropped, and it reads zeros there. -/
def Obligations.HostPort : Prop :=
  (
    ∀ (s : State) (core : Nat) (y : YOp), (s.core core).yq.find? (fun y => y.write && s.mayGo core y) = some y → y.link = none →
      (s.core core).rq = [] → y.op.kind = .store →
      ∃ t : State, exec (.sysWriteComplete core) s = .next t ∧ t.mem = s.mem ∧ s.GroupsKept t
        ∧ t.host = (if s.tagLive y.op.ctx y.op.gen then y.op.pieces.foldl (fun m p => Mem.writeN m p.pa p.len p.val) s.host else s.host)
        ∧ ((s.core core).lastOf y = true → ∀ z ∈ (t.core core).yq, z.op.id ≠ y.op.id)
        ∧ ((s.core core).lastOf y = false → (t.core core).yq = (s.core core).yq.erase y))
  ∧ (
    ∀ (s : State) (agent pa : Nat) (data : List Byte), placeOf agent = .memory → agent ≠ 305 → s.silent agent = false →
      s.dev.tripped = false → Memory.wf s.mem = true → data ≠ [] → pa + data.length ≤ 2 ^ 40 →
      let n := data.length
      let byte (t : State) (a : Nat) : Nat := (t.homeRead a 1).2
      ((∀ m ∈ s.migrations, m.held.all (fun h => h.2.2.2 != agent) = true) → (∀ x, pa ≤ x → x < pa + n → s.migrationOf x = none) →
        (agent = 288 → s.privateAt pa n = false) →
        (∃ t : State, exec (.hostPeerWrite agent pa data) s = .next t
          ∧ (∀ a, pa ≤ a → a < pa + n → Mem.read t.mem a = data.getD (a - pa) 0)
          ∧ (∀ a, s.migrationOf a = none → byte t a = if pa ≤ a ∧ a < pa + n then (data.getD (a - pa) 0).toNat else byte s a)
          ∧ ∀ l, pa / 256 ≤ l → l ≤ (pa + n - 1) / 256 → (t.line l).sharers = 0)
        ∧ (∃ t : State, exec (.hostPeerRead agent pa n) s = .next t
          ∧ t.dev.readData = (List.range n).map (fun i => BitVec.ofNat 8 (byte s (pa + i)))
          ∧ ∀ a, s.migrationOf a = none → byte t a = byte s a)
        ∧ (pa / 256 = (pa + n - 1) / 256 → s.l2Room (pa / 256) → (s.line (pa / 256)).owner = none →
          ∃ t : State, exec (.hostPeerRead agent pa n) s = .next t ∧ t.mem = s.mem ∧ t.groups = s.groups ∧ t.cores = s.cores))
      ∧ (agent = 288 → pa / 256 = (pa + n - 1) / 256 → s.privateAt pa n = true →
        exec (.hostPeerWrite agent pa data) s = .next s
        ∧ ∃ t : State, exec (.hostPeerRead agent pa n) s = .next t ∧ t = { s with dev := t.dev } ∧ t.dev.readData = List.replicate n 0))

/-- R125, R129, R132, R133, R136. Logical time ticks by one for each 4,096 cycles, and not else. A router merges a head of one core into
that of another, or of one core one lane's into another's, for one word, where both may be combined. A poll, 1,024 cycles after the last one, whose word satisfies its condition ends
the wait; another leaves it. A fence whose acknowledgements have all come, with no speculative read, is over: its speculative flags and
words are counted, and logical time reaches what was acknowledged. A flush probe returns when nothing older of its context is outstanding.
-/
def Obligations.MemoryHousekeeping : Prop :=
  ∀ s : State,
    (∀ core,
      ((s.core core).ticks < s.cycle / 4096 →
        ∃ t : State, exec (.ptsTick core) s = .next t ∧ t = { s with cores := t.cores } ∧ (∀ c, c ≠ core → t.core c = s.core c)
          ∧ t.core core = { s.core core with pts := (s.core core).pts + 1, ticks := (s.core core).ticks + 1 })
      ∧ (s.cycle / 4096 ≤ (s.core core).ticks → exec (.ptsTick core) s = .next s))
    ∧ (∀ c1 c2 o1 o2 p q, (s.core c1).head = some o1 → (s.core c2).head = some o2 → o1.port = none → o2.port = none →
      mergeable o1.kind o2.kind = true →
      (s.ctx o1.ctx).det = false → (s.ctx o2.ctx).det = false → s.tagLive o1.ctx o1.gen = true → s.tagLive o2.ctx o2.gen = true →
      mergePairs (c1 == c2) o1 o2 = [(p, q)] →
      p.pa = q.pa ∧ p.len = q.len
      ∧ ∃ t : State, exec (.routerMerge c1 c2) s = .next t ∧ t.router = s.router ++ [⟨c2, o2.id, q.lane, c1, o1.id, p.lane⟩] ∧ t.mem = s.mem
        ∧ t.groups = s.groups ∧ (c1 ≠ c2 → t.core c1 = s.core c1))
    ∧ (∀ m g, s.monitors.find? (·.id == m.id) = some m → m.polling = true → (s.ctx m.ctx).det = false → s.group m.grp = some g →
      m.polled + 1024 ≤ s.cycle → s.bad m.pa = false →
      let u := { s with monitors := mapIf (fun (x : Monitor) => x.id == m.id) (fun x => { x with polled := s.cycle }) s.monitors }
      (m.cond.holds (u.homeRead m.pa m.len).2 = true →
        ∃ t a, exec (.mwaitPoll m.id) s = .next t ∧ t.group m.grp = some a ∧ (∀ x ∈ t.monitors, x.id ≠ m.id)
          ∧ ∀ k, a.gang m.gang = some k → k.wait = .no)
      ∧ (m.cond.holds (u.homeRead m.pa m.len).2 = false → s.noSpeculation →
        ∃ t : State, exec (.mwaitPoll m.id) s = .next t ∧ t.groups = s.groups ∧ t.monitors = u.monitors))
    ∧ (∀ m, s.monitors.find? (·.id == m.id) = some m → s.cycle < m.polled + 1024 → exec (.mwaitPoll m.id) s = .next s)
    ∧ (∀ gid kid g k x f, s.group gid = some g → g.gang kid = some k → s.team g.team = some x → k.fence = some f → f.awaits = [] →
      f.reads = [] →
      ∃ t a, exec (.fenceComplete gid kid) s = .next t ∧ t.group gid = some a ∧ a.fstat = commitFlags g.fstat f.flags
        ∧ a.lclock = g.lclock + BitVec.ofNat 64 f.words ∧ a.regs = g.regs ∧ t.mem = s.mem
        ∧ (t.core x.core).pts = max (s.core x.core).pts (max f.ts (s.core x.core).seen)
        ∧ ∀ j, a.gang kid = some j → j.fence = none)
    ∧ (∀ core o, (s.core core).probes.find? (·.id == o.id) = some o → o.kind = .store →
      ((∀ c k y, (c, k) ∈ s.cores → y ∈ k.yq → y.op.ctx = o.ctx → o.id ≤ y.op.id) →
        ∃ t : State, exec (.flushProbeReturn core o.id) s = .next t ∧ (∀ q ∈ (t.core core).probes, q.id ≠ o.id) ∧ s.GroupsKept t ∧ t.mem = s.mem)
      ∧ (∀ c k y, (c, k) ∈ s.cores → y ∈ k.yq → y.op.ctx = o.ctx → y.op.id < o.id → s.linkDown y = false →
        s.tagLive o.ctx o.gen = true → exec (.flushProbeReturn core o.id) s = .next s))

/-- R114, R116, R117. The oldest walk of a core, that a gang still waits for and the L2 TLB of the quad answers, gives the core its
translation and lets the gang go on; one that no gang waits for any more is dropped; where the tables do not map the address, the gang
stops and the context's halt line rises with the cause 0x01. -/
def Obligations.PageWalks : Prop :=
  ∀ (s : State) (core : Nat) (w : Walk) (ws : List Walk), (s.core core).walks = w :: ws →
    (s.wants w = false → ∃ t : State, exec (.pageWalk core) s = .next t ∧ t = { s with cores := t.cores } ∧ (t.core core).walks = ws
      ∧ (t.core core).tlb = (s.core core).tlb)
    ∧ (∀ e, s.wants w = true → tlbFind (s.quad (core / 4)).tlb w.ctx w.va = some e →
      ∃ t : State, exec (.pageWalk core) s = .next t ∧ t.mem = s.mem ∧ s.GroupsKept t ∧ (t.core core).walks = ws
        ∧ tlbFind (t.core core).tlb w.ctx w.va = some e
        ∧ ∀ g k, t.group w.grp = some g → g.gang w.gang = some k → k.walking = none)
    ∧ (∀ g k x e, s.wants w = true → tlbFind (s.quad (core / 4)).tlb w.ctx w.va = none → (s.quad (core / 4)).walkc = [] → s.group w.grp = some g →
      g.gang w.gang = some k → s.team g.team = some x → k.fence = none → k.clause = none → (s.ctx w.ctx).conf = false →
      s.migrations = [] → (∀ l, (s.line l).owner = none) → (s.ctx g.ctx).line = none →
      s.bad ((s.ctx w.ctx).root + 8 * bits w.va 56 45) = false → Mem.readN s.mem ((s.ctx w.ctx).root + 8 * bits w.va 56 45) 8 = e → e % 2 = 0 →
      ∃ t : State, exec (.pageWalk core) s = .next t ∧ (t.ctx g.ctx).line = some 0x01 ∧ (t.core core).walks = ws
        ∧ ∃ a j, t.group w.grp = some a ∧ a.gang w.gang = some j ∧ j.wait = .stopped)

/-! ### Events of the engines -/

/-- R83, R87, R118, R144, R146, R147. The oldest open window of a quad closes; a request that has been skipped for 1,024 cycles is forced;
a pass applies the one request of the window that the arbiter chooses, row by row, to the slots of its team, and the request leaves the
table, the others staying in their order; an operand error spoils its cell and is to be taken by its group at the next clause, with what the
issue record of the request says; of several the first is kept (the model's choice, log 56). -/
def Obligations.MatrixEngine : Prop :=
  ∀ (s : State) (q : Nat),
    (∀ w : Window, (s.quad q).windows.find? (·.isOpen) = some w →
      ∃ t : State, exec (.fusionWindowClose q) s = .next t ∧ t = { s with quads := t.quads } ∧ (∀ n, n ≠ q → t.quad n = s.quad n)
        ∧ t.quad q = { s.quad q with
            windows := (s.quad q).windows.map fun (x : Window) => if x.id = w.id then { x with isOpen := false } else x })
    ∧ (∀ id, ∃ t : State, exec (.mtxEntryForced q id) s = .next t ∧ t = { s with quads := t.quads } ∧ (∀ n, n ≠ q → t.quad n = s.quad n)
        ∧ t.quad q = { s.quad q with
            table := (s.quad q).table.map fun (e : ResEntry) => if e.id = id ∧ 1024 ≤ e.skipped then { e with forced := true } else e })
    ∧ (∀ (w : Window) (e : ResEntry) (b : BSet) (x : Team), s.choosePass q = some w →
      (s.quad q).table.filter (fun r => r.window == w.id) = [e] → ((s.quad q).table.map (·.id)).Nodup → s.setOf e = some b → 0 < b.kg →
      s.team e.team = some x → x.stopping = false → e.kdone = 0 →
      (∀ p ∈ s.groups, p.2.stage ≠ .exiting) →
      let d := fword e.word
      ∃ t : State, exec (.matrixPass q) s = .next t ∧ t.mem = s.mem
        ∧ t.team e.team = some (e.rows.foldl (fun (z : Team) r =>
            (z.macRow ((s.group e.grp).bind (·.run)) d (e.slot + r.lane / 16 * d.nb b.n) (r.lane % 16) b.n b.kg
              (rowElem d.afmt (packRow r.regs)) (s.bElem b) r.bound.toNat).1) x)
        ∧ (t.quad q).table.map (·.id) = ((s.quad q).table.filter fun r => r.window != w.id).map (·.id))
    ∧ (∀ gid g x slot row seg, s.group gid = some g → s.team g.team = some x → row < 16 → seg < (x.lay g.run slot).segs → slot < x.slots →
      Memory.wf x.cells = true →
      ∃ (t : State) (y : Team) (err : OperandError), exec (.matrixOperandError gid slot row seg) s = .next t ∧ t.mem = s.mem
        ∧ err.slot = slot ∧ err.cell = (if (x.lay g.run slot).segs = 1 then row else 2 * row + seg)
        ∧ (∀ e n r, s.mtxEntries.find? (fun e => e.grp == gid && (s.entrySlots e).contains slot) = some e → e.tag = some n →
          s.recordFor gid x.core (some n) = some r →
          err.tag = n ∧ err.clause = r.clause ∧ err.islot = r.islot ∧ err.opa = r.opa ∧ err.opb = r.opb)
        ∧ t.group gid = some { g with operandError := some (g.operandError.getD err) }
        ∧ (∀ n, n ≠ gid → t.group n = s.group n)
        ∧ t.team g.team = some y ∧ y.cell (x.lay g.run slot) row seg = 0x7F80)

/-- R130, R152 to R155. The first operation of a core that has not started starts once nothing earlier is pending that its flip follows: an
access of the core's queue, a weak access or a read of .Y of its group, an ACCST of its team (that it waits for the whole queue of the core,
and not for its group's accesses alone, is the model's choice, log 26); the core's logical time rises to those of its acknowledged stores. A chunk
of a copy and a row of a gather keep what they read for their completion, and move on; a chunk of a scratchpad scan counts its non-zero
elements; a fault halts. R180. In deterministic mode the reads of an operation are made at once, up to one that faults. R83, R151. The next
command of a ring is applied as an MMA of its group where nothing is wrong with it; where something is, the ring stops there with one of the
statuses that apply, and nothing but the operation has changed (which one is free: log 22). R162. A pre-emption request stops a command at one
of its K-groups, from which it goes on (which one is free: log 47). -/
def Obligations.EngineWork : Prop :=
  (
    ∀ (s : State) (core : Nat) (o : EngOp) (x : Team),
      ((s.core core).ops.find? (fun p => !p.started) = some o →
        ((∃ p ∈ (s.core core).rq, p.id < o.id) ∨ (∃ p ∈ (s.core core).wk, p.grp = o.grp ∧ p.id < o.id)
            ∨ (∃ p ∈ (s.core core).replies, p.kind = .accst ∧ p.d = o.team ∧ p.id < o.id)
            ∨ (∃ y ∈ (s.core core).yq, y.op.grp = o.grp ∧ y.write = false ∧ y.op.id < o.id) →
          exec (.asyncOpStart core) s = .next s)
        ∧ (s.asyncRuns core o.ctx = true → (∀ p ∈ (s.core core).rq, o.id ≤ p.id) →
          (∀ p ∈ (s.core core).wk, p.grp = o.grp → o.id ≤ p.id) →
          (∀ p ∈ (s.core core).replies, p.kind = .accst → p.d = o.team → o.id ≤ p.id) →
          (∀ y ∈ (s.core core).yq, y.op.grp = o.grp → y.write = false → o.id ≤ y.op.id) →
          ∃ t : State, exec (.asyncOpStart core) s = .next t ∧ t = { s with cores := t.cores } ∧ (∀ n, n ≠ core → t.core n = s.core n)
            ∧ t.core core = { s.core core with
                ops := (s.core core).ops.map fun (p : EngOp) => if p.id = o.id then { o with started := true } else p
                pts := max (s.core core).pts (s.core core).seen }))
      ∧ (s.engOpOf core o.id = some o → o.started = true → o.ran = false → o.faulted = false → s.asyncRuns core o.ctx = true →
        s.team o.team = some x → (s.ctx o.ctx).det = true → ∀ w p, s.runDet core x o.steps o = (w, p) →
        let t := if p.ran = true then w.setEng core p else w.engOne core p x
        (o.kind = .cpyIn ∨ o.kind = .cpyOut → exec (.cpyChunk core o.id) s = .next t)
          ∧ (o.kind = .gath ∨ o.kind = .scat ∨ o.kind = .nzscan → exec (.asyncRow core o.id) s = .next t))
      ∧ (s.engOpOf core o.id = some o → o.started = true → o.ran = false → o.faulted = false → s.asyncRuns core o.ctx = true →
        s.team o.team = some x → (s.ctx o.ctx).det = false →
        (let va := o.g + o.at_
         let k := min (o.n - o.at_) (4096 - va % 4096)
         let done := decide (o.n ≤ o.at_ + k)
         (∀ w a, o.kind = .cpyIn → s.engRead core o.ctx va k = (w, .ok a) →
            exec (.cpyChunk core o.id) s =
              .next (w.setEng core { o with out := o.out ++ [(o.o + o.at_, k, a)], at_ := o.at_ + k, ran := done }))
          ∧ (∀ w c a, o.kind = .cpyIn → s.engRead core o.ctx va k = (w, .fault c a) →
            exec (.cpyChunk core o.id) s = .next (w.engFault core o .async c a))
          ∧ (∀ w p a, o.kind = .cpyOut → s.engWrite core o va k (x.spadRead (o.o + o.at_) k) = (w, p, .ok a) →
            exec (.cpyChunk core o.id) s =
              .next (w.setEng core { p with at_ := p.at_ + k, ran := decide (p.n ≤ p.at_ + k) })))
        ∧ (let rb := o.field 111 96
           let i := x.spadRead (o.field 159 128 + 4 * o.at_) 4
           let row := o.field 223 192 + o.at_ * rb
           let va := o.field 63 0 + i * o.field 95 64
           let done := decide (o.field 191 160 ≤ o.at_ + 1)
           (o.kind = .gath → bit o.data.toNat 224 = true → i = 0xFFFFFFFF →
            exec (.asyncRow core o.id) s = .next (s.setEng core { o with out := o.out ++ [(row, rb, 0)], at_ := o.at_ + 1, ran := done }))
          ∧ (o.kind = .scat → bit o.data.toNat 224 = true → i = 0xFFFFFFFF →
            exec (.asyncRow core o.id) s = .next (s.setEng core { o with at_ := o.at_ + 1, ran := done }))
          ∧ (∀ w a, o.kind = .gath → ¬ (bit o.data.toNat 224 = true ∧ i = 0xFFFFFFFF) → s.engRead core o.ctx va rb = (w, .ok a) →
            exec (.asyncRow core o.id) s =
              .next (w.setEng core { o with out := o.out ++ [(row, rb, a)], at_ := o.at_ + 1, ran := done }))
          ∧ (∀ w p a, o.kind = .scat → ¬ (bit o.data.toNat 224 = true ∧ i = 0xFFFFFFFF) → s.engWrite core o va rb (x.spadRead row rb) = (w, p, .ok a) →
            exec (.asyncRow core o.id) s = .next (w.setEng core { p with at_ := o.at_ + 1, ran := decide (p.field 191 160 ≤ o.at_ + 1) })))
        ∧ (o.kind = .nzscan → bit o.data.toNat 68 = true →
          let fmt := o.field 67 64
          let w := nzSize fmt
          let k := min 2048 (o.field 127 96 - o.at_)
          let v := x.spadRead (o.field 63 0 + o.at_ * w) (k * w)
          ∃ (t : State) (p : EngOp), exec (.asyncRow core o.id) s = .next t ∧ t = { s with cores := t.cores } ∧ t = s.setEng core p
            ∧ p = { o with at_ := p.at_, m := p.m, out := p.out, ran := p.ran } ∧ p.at_ = o.at_ + k
            ∧ p.ran = decide (o.field 127 96 ≤ o.at_ + k)
            ∧ p.m = o.m + ((List.range k).filter fun j => nzElem fmt (v / 2 ^ (8 * w * j) % 2 ^ (8 * w))).length)))
  ∧ (
    ∀ (s : State) (core : Nat) (o : EngOp) (x : Team), s.engOpOf core o.id = some o → o.kind = .mqrun → o.started = true → o.ran = false →
      s.asyncRuns core o.ctx = true → s.team o.team = some x →
      let y := o.sees x
      let c := o.cmd y o.m
      (s.mtxPending core o.grp o.id none (s.physSlots o.team o.grp c.slots) = true → exec (.mqrunCommandApply core o.id) s = .next s)
      ∧ (s.mtxPending core o.grp o.id none (s.physSlots o.team o.grp c.slots) = false →
        ((o.at_ = 0 → s.mqStatuses o y c = []) → x.stopping = false → o.at_ < c.kg →
          exec (.mqrunCommandApply core o.id) s =
            .next ((s.mqRun o y c c.kg).setEng core { o with m := o.m + 1, at_ := 0, ran := decide (o.field 127 96 ≤ o.m + 1) }))
        ∧ ((o.at_ = 0 → s.mqStatuses o y c = []) → x.stopping = true → o.at_ < c.kg →
          ∃ n hi, o.at_ ≤ hi ∧ hi ≤ c.kg ∧
            let u : State := { s with free := n }
            exec (.mqrunCommandApply core o.id) s =
              if hi = o.at_ then .next u
              else if hi < c.kg then .next ((u.mqRun o y c hi).setEng core { o with at_ := hi })
              else .next ((u.mqRun o y c hi).setEng core { o with m := o.m + 1, at_ := 0, ran := decide (o.field 127 96 ≤ o.m + 1) }))
        ∧ (o.at_ = 0 → s.mqStatuses o y c ≠ [] →
          ∃ st ∈ s.mqStatuses o y c, ∃ n, exec (.mqrunCommandApply core o.id) s =
            .next (({ s with free := n } : State).setEng core { o with status := st, ran := true }))))

/-- R47, R130, R152. An operation whose work is done completes: its writes are in scratchpad, its tiles are on the thread side, it is gone
from its core, and its scoreboard falls in the slices that issued it; the executing lanes of a merge receive its count, or 0xFFFFFFFF
where it failed, and its flags enter %fstat. R153, R158, R159, R314. A copy with a broadcast barrier adds −n to the barrier's word once all its
bytes are written, and halts, with nothing placed, where that word does not translate for a write. R180. In deterministic mode the scoreboard
falls, and neither the writes nor the flip take effect yet: the group has a completion to observe. -/
def Obligations.EngineCompletion : Prop :=
  (∀ (s : State) (core : Nat) (o : EngOp) (x : Team) (g : Group), s.engOpOf core o.id = some o → o.started = true → o.isOver = false →
    o.faulted = false → s.team o.team = some x → s.group o.grp = some g → (s.ctx o.ctx).det = false →
    (∀ e ∈ s.groups, ∀ k ∈ e.2.gangs, ∀ n p, k.wait ≠ .phwait n p) →
    let ended (t : State) (ws : List (Nat × Nat × Nat)) : Prop :=
      (∀ p ∈ (t.core core).ops, p.id ≠ o.id)
        ∧ (∃ y : Team, t.team o.team = some y ∧ y.spad = ws.foldl (fun m w => Mem.writeN m w.1 w.2.1 w.2.2) x.spad
            ∧ ∀ n ∈ o.tiles, y.engineSide n = false)
        ∧ ∃ a : Group, t.group o.grp = some a
          ∧ ∀ n ∈ o.slices, (∃ sl, g.slices.look n = some sl) → (a.slice n).sbOf o.sb = (g.slice n).sbOf o.sb - 1
    (o.ran = true → o.kind ≠ .relmrg → o.bar = none → s.asyncRuns core o.ctx = true →
      ∃ t : State, exec (.asyncOpComplete core o.id) s = .next t ∧ t.mem = s.mem ∧ ended t (o.out ++ o.results))
    ∧ (o.ran = true → o.kind ≠ .relmrg → s.asyncRuns core o.ctx = true → ∀ c w, o.bar = some c →
      (∀ pa, s.translateNow core o.ctx c false true = (w, .ok pa) → w.migrationOf pa = none → w.badIn [(pa, 8)] c = none →
        pa % 256 + 8 ≤ 256 → (∀ e ∈ s.groups, ∀ k ∈ e.2.gangs, k.fence = none) →
        ∃ t : State, exec (.asyncOpComplete core o.id) s = .next t ∧ ended t (o.out ++ o.results)
          ∧ Mem.readN t.mem pa 8 = ((w.homeRead pa 8).2 + (2 ^ 64 - o.n)) % 2 ^ 64)
      ∧ (∀ cause, s.translateNow core o.ctx c false true = (w, .fault cause) →
        exec (.asyncOpComplete core o.id) s = .next (w.engFault core { o with out := o.out ++ o.results } .async cause c)))
    ∧ (o.ran = true → o.kind = .relmrg → s.relRuns core o.ctx = true →
      ∃ t : State, exec (.relmrgComplete core o.id) s = .next t ∧ t.mem = s.mem ∧ ended t o.out
        ∧ ∃ a : Group, t.group o.grp = some a ∧ a.fstat = g.fstat ||| BitVec.ofNat 32 o.g
          ∧ ∀ n l, l < 32 → a.reg n l =
              if n = o.d ∧ l ∈ lanesOf o.lanes then (if o.status = 0 then BitVec.ofNat 32 o.m else 0xFFFFFFFF) else g.reg n l))
  ∧ ∀ (s : State) (core : Nat) (o : EngOp) (g : Group), s.engOpOf core o.id = some o → o.started = true → o.isOver = false → o.ran = true →
    o.faulted = false → o.kind ≠ .relmrg → o.bar = none → s.asyncRuns core o.ctx = true → s.group o.grp = some g → (s.ctx o.ctx).det = true →
    (∀ k ∈ g.gangs, ∀ r n, k.wait ≠ .yield r n) →
    ∃ (t : State) (a : Group), exec (.asyncOpComplete core o.id) s = .next t ∧ t.mem = s.mem ∧ t.teams = s.teams
      ∧ t.engOpOf core o.id = some { o with out := o.out ++ o.results, isOver := true }
      ∧ t.group o.grp = some a ∧ a.det = { g.det with unseen := g.det.unseen ++ [o.id] }
      ∧ ∀ n ∈ o.slices, (∃ sl, g.slices.look n = some sl) → (a.slice n).sbOf o.sb = (g.slice n).sbOf o.sb - 1

/-- R43, R46. A grouping that a gang waits for is computed over a SEALED population in scratchpad: its buffer receives the grouped rows
and the handle becomes GROUPED before the waits end; an OPEN one is not touched, nor, in deterministic mode, one with rows that stand in a
log still (R180). In deterministic mode only a commit groups, and spawned groups start where a round starts (R180; the latter is the model's
choice, log 94). A group of at most 32 spawned lanes starts at the join's
entry, its lanes holding key, left columns and right columns in order, its ranks above every launched one's. -/
def Obligations.RelationEvents : Prop :=
  (∀ (s : State) (h : HRef), s.relDet h = true → exec (.relationGrouping h) s = .next s)
  ∧ (∀ (s : State) (tid : Nat) (x : Team) (l : Launch), s.team tid = some x → s.launch x.launch = some l → (s.ctx l.ctx).det = true →
    exec (.joinSpawnStart tid) s = .next s)
  ∧ (∀ (s : State) (h : HRef) (gid core : Nat) (g : Group) (k : Gang) (ws : List (Nat × Group × Gang × Nat)) (y : Team),
    s.relWaiters h = (gid, g, k, core) :: ws → s.relDet h = false → s.relRuns core g.ctx = true →
    let x := s.handle h
    (x.state = .opened → exec (.relationGrouping h) s = .next s)
    ∧ (x.logged = true → exec (.relationGrouping h) s = .next s)
    ∧ (x.state = .sealed → x.logged = false → x.image.length = x.rows → 0 < x.rows → relSpace x.desc.toNat = true → s.team x.opener = some y →
      y.inWindow (relBase x.desc.toNat) (64 * x.rows) = true → (s.ctx g.ctx).det = false →
      let r := groupRows x.desc.toNat x.image
      let u := s.spadStore x.opener (relBase x.desc.toNat) (64 * x.rows) (packRows r.1)
      exec (.relationGrouping h) s =
        .next ((u.setHandle h { x with state := .grouped, image := r.1, flags := r.2, ts := max x.ts (u.core core).pts }).endRelgrps h)))
  ∧ ∀ (s : State) (tid idx : Nat) (x : Team) (l : Launch) (sp : Spawn) (rest : List Spawn), s.team tid = some x → x.spawns = sp :: rest →
    s.launch x.launch = some l → s.freeIndex tid = some idx → x.residence = .resident → x.stopping = false → s.serves l.ctx = true →
    (s.ctx l.ctx).det = false → s.groupRoom x.core l.part sp.budget = true →
    let lanes := (sp.lanes.drop sp.started).take 32
    ∃ (t : State) (g : Group) (y : Team), exec (.joinSpawnStart tid) s = .next t ∧ t.mem = s.mem ∧ t.group s.nextUid = some g
      ∧ g.team = tid ∧ g.index = idx ∧ g.budget = sp.budget ∧ g.dclock = sp.dclock
      ∧ g.rank0 = 2 ^ 63 + x.index * 2 ^ 31 + sp.q * 2 ^ 20 + sp.started
      ∧ (∀ n, n < 32 → (g.slice (n / 4)).live.getLsbD (n % 4) = decide (n < lanes.length))
      ∧ (∀ n, n < lanes.length → (g.slice (n / 4)).pc = BitVec.ofNat 64 (l.codeBase + sp.entry))
      ∧ (∀ m e, lanes[m]? = some e → g.reg 0 m = e.key.truncate 32 ∧ g.reg 1 m = e.key.extractLsb' 32 32
          ∧ ∀ c, c < (e.left ++ e.right).length → g.reg (2 + c) m = (e.left ++ e.right).getD c 0)
      ∧ t.team tid = some y
      ∧ y.spawns = if sp.lanes.length ≤ sp.started + lanes.length then rest
          else { sp with started := sp.started + lanes.length } :: rest

/-! ### Events of issue and of Distaff -/

/-- R23, R33, R60, R116, R171, R262 to R264. A free port begins the next clause of the ready gang that goes first, at the address of its
header, once all its words have been fetched (the fetches themselves having rolled no gang back); a clause outside the kernel's code is an illegal clause. A ready gang that has held no port for 256 cycles is forced. A REGANG's window that
has been open for 64 cycles closes: no gang stands in it any more but those on the other side of the trap handler's entry. -/
def Obligations.ClauseIssue : Prop :=
  ∀ (s : State) (gid kid : Nat) (g : Group) (k : Gang) (x : Team), s.group gid = some g → g.gang kid = some k → s.team g.team = some x →
    (∀ (core port : Nat) (r : Ready) (l : Launch), port < 4 → s.holder core port = none → pickReady (s.readyGangs core) = some r →
      r.gid = gid → r.kid = kid → s.launch g.launch = some l → k.clause = none → g.operandError = none →
      (∀ w h ws u u', s.fetch x.core g.launch g.ctx (g.pcOf k).toNat = (u, .word w) → decodeHeader w = some h →
        l.holdsCode (g.pcOf k).toNat (8 * (h.count + 1)) = true → (s.ctx g.ctx).det = false →
        u.fetchAll x.core g.launch g.ctx h.count ((g.pcOf k).toNat + 8) = (u', .ok ws) → u'.groups = s.groups →
        ∃ (t : State) (a : Group), exec (.clauseIssue core port) s = .next t ∧ t.mem = u'.mem ∧ t.group gid = some a
          ∧ a.gang kid = some { k with port := some port, forced := none, clause := some (Clause.start (g.pcOf k) w ws), alsoWait := none }
          ∧ (∀ n ∈ k.slices, (∃ sl, g.slices.look n = some sl) → (a.slice n).pc = g.pcOf k + 8)
          ∧ a.regs = g.regs ∧ a.preds = g.preds ∧ ∀ n, n ≠ gid → t.group n = s.group n)
      ∧ (g.handling k = false → l.holdsCode (g.pcOf k).toNat 8 = false →
        exec (.clauseIssue core port) s = .next (s.fetchHalt gid g x k 0x04 0 (g.pcOf k) 0)))
    ∧ (k.port = none → k.forced = none → s.ready g x k = true → k.since + 256 ≤ s.cycle →
      exec (.gangForced gid kid) s = .next (s.modGang gid kid fun j => { j with forced := some s.cycle }))
    ∧ (s.cycle < k.since + 256 → exec (.gangForced gid kid) s = .next s)
    ∧ (∀ addr, (∀ j ∈ g.gangs, j.wait = .regang false addr → s.cycle < j.since + 64) → exec (.regangWindowExpiry gid addr) s = .next s)
    ∧ (∀ addr, k.wait = .regang false addr → k.since + 64 ≤ s.cycle →
      ∃ (t : State) (a : Group), exec (.regangWindowExpiry gid addr) s = .next t ∧ t.group gid = some a ∧ a.regs = g.regs
        ∧ t.mem = s.mem ∧ ∀ j ∈ a.gangs, j.wait = .regang false addr → j ∈ g.gangs ∧ g.inside j ≠ g.inside k)

/-- R164, R166 to R168, R172 to R174. Distaff wakes when a queue's tail is beyond its head. The entry that waits is admitted when no
launch of its context is being bound: a bad record finishes it with status 1, and 2 to 6 say which other check fails first; a kernel record
makes a launch of its whole grid, or of as much of it as its count word says; a node record opens its node with no buffer, and a record of kind
2 closes it: its partly filled buffer starts, and its number is free once it has neither buffer nor launch. That a close waits for an EMIT that
has begun is the model's choice (log 50). The completion record of the oldest finished entry is written, its upper half first. A buffer starts
as a launch of its node's next serial number. -/
def Obligations.Queues : Prop :=
  ∀ (s : State) (c : Nat),
    (∀ w tail, s.serves c = true → s.distRead c (s.ctx c).qbase 8 = (w, some tail) →
      exec (.queueTailWake c) s = .next (w.modCtx c fun x => { x with woken := decide (x.head < tail) }))
    ∧ (∀ e : QEntry, s.serves c = true → (s.ctx c).pendingEntry = some e → s.binding c = false → (s.ctx c).det = false →
      bit e.record.toNat 38 = false →
      let r := e.record.toNat
      (recordBad r (s.ctx c).pmax = true → exec (.admitLaunch c) s = .next (s.finishEntry c e.index 1 0))
      ∧ (recordBad r (s.ctx c).pmax = false →
        let kbase := bits r 191 128
        (kbase % 256 ≠ 0 → exec (.admitLaunch c) s = .next (s.finishEntry c e.index 6 0))
        ∧ (∀ w, kbase % 256 = 0 → s.distRead c kbase 256 = (w, none) → exec (.admitLaunch c) s = .next (w.finishEntry c e.index 6 0))
        ∧ ∀ w k, kbase % 256 = 0 → s.distRead c kbase 256 = (w, some k) →
          let part := bits r 95 64
          let carried := (List.range 1024).filter fun n => bit k (1024 + n)
          let largest := (rolesOf k).foldl (fun (m : Nat) x => max m x.2.2) 0
          let badPart : Prop := bits part 5 0 = 0 ∨ 32 < bits part 5 0 + bits part 11 6 ∨ bits part 31 12 ≠ 0
          let badCarry : Prop := 64 < carried.length ∨ (rolesOf k ≠ [] ∧ ∃ n ∈ carried, largest ≤ n)
          let blocks := bits r 271 256
          let base := bits r 255 192
          (badPart → exec (.admitLaunch c) s = .next (w.finishEntry c e.index 2 0))
          ∧ (¬ badPart → badCarry → exec (.admitLaunch c) s = .next (w.finishEntry c e.index 3 0))
          ∧ (¬ badPart → ¬ badCarry → blocks ≠ 0 → base % 256 ≠ 0 → exec (.admitLaunch c) s = .next (w.finishEntry c e.index 4 0))
          ∧ (∀ u, ¬ badPart → ¬ badCarry → blocks ≠ 0 → base % 256 = 0 → w.pinBank c base blocks = (u, none) →
            exec (.admitLaunch c) s = .next (u.finishEntry c e.index 4 0))
          ∧ (¬ badPart → ¬ badCarry → blocks = 0 → rolesOk k (bits r 333 329 + 1) = false →
            exec (.admitLaunch c) s = .next (w.finishEntry c e.index 6 0)))
      ∧ (∀ w k bank, s.checkRecord c r = (w, .ok k bank) →
        (bits r 33 32 = 0 → bits r 415 352 = 0 → bits r 127 96 ≠ 0 →
          (∀ l : Launch, l.record = BitVec.ofNat 1024 r → l.kernel = BitVec.ofNat 2048 k → l.n = bits r 127 96 → l.node = none →
            w.fittable l = true) →
          ∃ (t : State) (l : Launch), exec (.admitLaunch c) s = .next t ∧ t.launch w.nextUid = some l ∧ l.ctx = c ∧ l.index = e.index
            ∧ l.record = BitVec.ofNat 1024 r ∧ l.kernel = BitVec.ofNat 2048 k ∧ l.n = bits r 127 96 ∧ l.next = 0 ∧ l.bank = bank
            ∧ ∀ a ∈ (t.ctx c).entries, a.index = e.index → a.launch = some w.nextUid)
        ∧ (bits r 33 32 = 0 → bits r 415 352 = 0 → bits r 127 96 = 0 → exec (.admitLaunch c) s = .next (w.finishEntry c e.index 0 0))
        ∧ (bits r 33 32 = 0 → bits r 415 352 = 0 → bits r 127 96 ≠ 0 →
          (∀ l : Launch, l.record = BitVec.ofNat 1024 r → l.kernel = BitVec.ofNat 2048 k → l.n = bits r 127 96 → l.node = none →
            w.fittable l = false) →
          exec (.admitLaunch c) s = .next (w.finishEntry c e.index 5 0))
        ∧ (bits r 33 32 = 0 → bits r 415 352 ≠ 0 →
          (∀ u, w.distRead c (bits r 415 352) 4 = (u, none) → exec (.admitLaunch c) s = .next (u.finishEntry c e.index 1 0))
          ∧ ∀ u x, w.distRead c (bits r 415 352) 4 = (u, some x) →
            let n := min (bits r 127 96) x
            (n = 0 → exec (.admitLaunch c) s = .next (u.finishEntry c e.index 0 0))
            ∧ (n ≠ 0 → (∀ l : Launch, l.record = BitVec.ofNat 1024 r → l.kernel = BitVec.ofNat 2048 k → l.n = n → l.node = none →
                u.fittable l = true) →
              ∃ (t : State) (l : Launch), exec (.admitLaunch c) s = .next t ∧ t.launch u.nextUid = some l ∧ l.ctx = c ∧ l.index = e.index
                ∧ l.record = BitVec.ofNat 1024 r ∧ l.n = n ∧ l.next = 0 ∧ l.bank = bank))
        ∧ (bits r 33 32 = 2 →
          let n := bits r 55 40
          (w.emitting c n = true → exec (.admitLaunch c) s = .next w)
          ∧ (w.emitting c n = false → (w.ctx c).nodes.look n = none → exec (.admitLaunch c) s = .next (w.finishEntry c e.index 0 0))
          ∧ (∀ nd, w.emitting c n = false → (w.ctx c).nodes.look n = some nd → nd.closing = none →
            (nd.bufs = [] → (w.ctx c).nodes.rising = true → (∀ a ∈ w.launches, a.2.ctx = c → a.2.complete = false → ∀ z, a.2.node = some z → z.1 ≠ n) →
              ∃ t : State, exec (.admitLaunch c) s = .next t ∧ (t.ctx c).nodes.look n = none
                ∧ ∀ a ∈ (t.ctx c).entries, a.index = e.index → a.status.isSome = true)
            ∧ ∀ b, nd.bufs = [b] →
              ∃ (t : State) (l : Launch), exec (.admitLaunch c) s = .next t ∧ t.launch w.nextUid = some l
                ∧ l.node = some (n, nd.serial, b.page, b.m, b.dclock) ∧ l.ctx = c
                ∧ (t.ctx c).nodes.look n = some { nd with serial := nd.serial + 1, bufs := [], closing := some e.index }))
        ∧ (bits r 33 32 = 1 → (w.ctx c).nodes.look (bits r 55 40) = none →
          ∃ t : State, exec (.admitLaunch c) s = .next t
            ∧ (t.ctx c).nodes.look (bits r 55 40) = some ⟨BitVec.ofNat 1024 r, BitVec.ofNat 2048 k, bank, 0, [], none⟩
            ∧ ∀ a ∈ (t.ctx c).entries, a.index = e.index → a.status.isSome = true)))
    ∧ (∀ (e : QEntry) (w : State), (s.ctx c).alive = true → (s.ctx c).halted = false → (s.ctx c).deliverable = some e →
      let done := bits e.record.toNat 479 416
      let mark (u : State) : State := u.modCtx c fun x =>
        { x with entries := x.entries.map fun (f : QEntry) => if f.index = e.index then { f with done := true } else f }
      (done = 0 → exec (.launchComplete c) s = .next (mark s))
      ∧ (done ≠ 0 → done % 16 = 0 → s.distWrite c (done + 8) 8 (e.wu % 2 ^ 64) = (w, true) →
        exec (.launchComplete c) s = .next
          (mark (w.distWrite c done 8 (2 ^ 63 + e.teams % 2 ^ 32 * 2 ^ 8 + (e.status.getD 0) % 256)).1)))
    ∧ (∀ n b nd, s.serves c = true → (s.groups.any fun (e : Nat × Group) => e.2.ctx == c && e.2.gangs.any fun k => k.wait == .emit) = true →
      (s.ctx c).rpages = (s.ctx c).pages.length → (s.ctx c).nodes = [(n, nd)] → nd.bufs = [b] → (s.ctx c).pages = [b.page] →
      ∃ (t : State) (l : Launch), exec (.forcedPartialLaunch c) s = .next t ∧ t.launch s.nextUid = some l
        ∧ l.node = some (n, nd.serial, b.page, b.m, b.dclock) ∧ l.n = 1 ∧ l.kernel = nd.kernel ∧ l.bank = nd.bank
        ∧ (t.ctx c).nodes.look n = some { nd with serial := nd.serial + 1, bufs := [] })

/-- R13, R14, R54, R65, R168, R170, R175, R193, R196, R385. A team of a launch of shape 0 is bound to the core where the rules place it:
its window and slots are empty, its groups stand at the kernel's code with their ranks and lanes, their registers zero. The teams
of a request for pre-emption are swapped out together, with everything they hold, once every core has answered; a team resumes as its
company does. A queued phase takes a slot and finds the registers, flags, lanes and address that its record holds; where in the save area
that record stands is the model's choice (log 25). -/
def Obligations.Teams : Prop :=
  ∀ s : State,
    (∀ (lid core : Nat) (l : Launch), s.launch lid = some l → s.serves l.ctx = true → l.next < l.n → l.pclass ≠ 0 → l.shape = 0 →
      l.node = none → (∀ e ∈ s.heldLaunches, e.1 = lid ∨ e.2.goesBefore l = false ∨ s.bindStep e.1 false = none) →
      s.resumable l.prio = false → s.place0 lid l false = some core →
      ∃ t : State, exec (.teamBind lid) s = .next t ∧ t.mem = s.mem
        ∧ t.team (s.nextUid + 1) = some (Team.fresh lid l.next core s.nextUid 0 l.window l.slots (s.nextUid + 1))
        ∧ t.launch lid = some { l with next := l.next + 1, bound := l.bound + 1 }
        ∧ (t.core core).part = BitVec.ofNat 32 l.part ∧ (s.core core).pts ≤ (t.core core).pts
        ∧ ∀ i, i < l.groups → ∃ g : Group, t.group (s.nextUid + 2 + i) = some g ∧ g.index = i ∧ g.team = s.nextUid + 1
            ∧ g.budget = l.budgets.getD i 0 ∧ g.rank0 = (l.next * 32 + i) * 32
            ∧ g.serial = (s.core core).serial + 1 + BitVec.ofNat 32 i ∧ (∀ n m, g.reg n m = 0) ∧ g.preds = [] ∧ g.fstat = 0
            ∧ (∀ n, n < 32 → (g.slice (n / 4)).live.getLsbD (n % 4) = decide (n ≤ l.field 338 334))
            ∧ ∀ n, n ≤ l.field 338 334 → n < 32 → (g.slice (n / 4)).pc = BitVec.ofNat 64 l.codeBase)
    ∧ (∀ (tid : Nat) (x : Team) (l : Launch), s.team tid = some x → s.launch x.launch = some l → s.serves l.ctx = true →
      (x.residence = .resident → x.stopping = true → s.pinned tid x = true → exec (.preemptionSave tid) s = .next s)
      ∧ (x.residence = .resident → x.stopping = true → s.allAnswered = true →
        (∀ e ∈ s.groups, ∀ k ∈ e.2.gangs, ∀ a, k.wait ≠ .regang false a) →
        ∃ (t : State) (y : Team), exec (.preemptionSave tid) s = .next t ∧ t.mem = s.mem ∧ t.team tid = some y
          ∧ y.residence = .swappedOut ∧ y.spad = x.spad ∧ y.acc = x.acc ∧ y.cells = x.cells ∧ y.owner = x.owner ∧ y.handles = x.handles
          ∧ y.spawns = x.spawns
          ∧ (∀ o ∈ (t.core x.core).ops, o.team ≠ tid)
          ∧ ∀ gid g, s.group gid = some g → ∃ a, t.group gid = some a ∧ a.regs = g.regs ∧ a.preds = g.preds ∧ a.slices = g.slices
              ∧ a.fstat = g.fstat ∧ a.run = g.run ∧ a.rets = g.rets)
      ∧ (∀ w, x.residence = .swappedOut → s.hasWork tid x = true →
        (∀ e ∈ s.heldLaunches, e.2.prio < l.prio ∨ (e.2.prio = l.prio ∧ x.stopping = true) ∨ s.heldBack e.1 = true) →
        s.resume tid = some w → exec (.teamResume tid) s = .next w))
    ∧ ∀ (core gid place : Nat) (q : List Nat) (g : Group) (x : Team) (l : Launch) (w : State) (r : Nat), (s.core core).phaseQ = gid :: q →
      s.group gid = some g → s.team g.team = some x → s.launch g.launch = some l → g.record = some place → x.residence = .resident →
      (s.ctx l.ctx).det = false → x.stopping = false → s.serves l.ctx = true → s.groupRoom core l.part g.budget = true → w.dev.poison = [] →
      let carried := (l.carry g.budget).length
      ((s.newSerial core).1.modCore core fun k => { k with phaseQ := q }).distRead l.ctx ((s.ctx l.ctx).save + recordAt place)
        (256 + 128 * carried) = (w, some r) →
      recordGood r carried = true →
      ∃ (t : State) (a : Group), exec (.phaseStart core true) s = .next t ∧ t.group gid = some a ∧ a.regs = recordRegs r
        ∧ a.fstat = BitVec.ofNat 32 (bits r 255 224) ∧ a.serial = (s.core core).serial + 1 ∧ a.stage = .running
        ∧ (∀ n, n < 32 → (a.slice (n / 4)).live.getLsbD (n % 4) = r.testBit (192 + n))
        ∧ ∀ n, n < 32 → r.testBit (192 + n) = true → (a.slice (n / 4)).pc = BitVec.ofNat 64 (l.codeBase + bits r 159 128)

/-- R178 to R180. A round commits when all groups of its launch have ended their quanta, and not before; while operations are held the
first of them is let go, and after the last the next round starts in every group; where a copy's barrier word does not translate, its fault
comes first (R314). That a commit takes a ROUND_COMMIT for each held operation and one more is the model's choice (log 52), and so is that
the next round waits for the spawned groups and the phases that are due (log 94). -/
def Obligations.Rounds : Prop :=
  ∀ (s : State) (lid : Nat) (l : Launch), s.launch lid = some l → (s.ctx l.ctx).det = true → s.serves l.ctx = true →
    (l.grants = none → s.roundOver lid = false → exec (.roundCommit lid) s = .next s)
    ∧ (l.grants = none → s.roundOver lid = true → ∀ core o cause c, s.barFault lid = some (core, o, cause, c) →
        exec (.roundCommit lid) s = .next (s.engFault core o .async cause c))
    ∧ (l.grants = none → s.roundOver lid = true → s.barFault lid = none → ∃ t : State, exec (.roundCommit lid) s = .next t
        ∧ ∀ m, t.launch lid = some m → m.grants.isSome = true)
    ∧ (∀ held, l.grants = some held → (∀ n g, (n, g) ∈ s.groups → g.launch = lid → g.det.granted = none) →
      (∀ e rest, held.filter s.holdsSync = e :: rest →
        ∃ (t : State) (a : Group), exec (.roundCommit lid) s = .next t ∧ t.launch lid = some { l with grants := some rest }
          ∧ t.group e.1 = some a ∧ a.det.granted = some e.2 ∧ (∀ j, a.gang e.2 = some j → j.wait = .no) ∧ t.mem = s.mem)
      ∧ (held.filter s.holdsSync = [] → (∀ e ∈ s.teams, e.2.launch = lid → s.team e.1 = some e.2 ∧ s.phaseLaunch e.2.core ≠ some lid) →
        (∀ e ∈ s.teams, e.2.launch = lid → e.2.residence = .resident → e.2.spawns = []) → s.startsDue lid = true →
        exec (.roundCommit lid) s = .next (s.modLaunch lid fun m => { m with grants := some [] }))
      ∧ (held.filter s.holdsSync = [] → (∀ e ∈ s.teams, e.2.launch = lid → s.team e.1 = some e.2 ∧ s.phaseLaunch e.2.core ≠ some lid) →
        (∀ e ∈ s.teams, e.2.launch = lid → e.2.residence = .resident → e.2.spawns = []) → s.startsDue lid = false →
        ∃ t : State, exec (.roundCommit lid) s = .next t ∧ t.launch lid = some { l with grants := none, round := l.round + 1 } ∧ t.mem = s.mem
          ∧ ∀ n g, s.group n = some g → g.launch = lid → ∃ a, t.group n = some a ∧ a.regs = g.regs ∧ a.det.ended = false
              ∧ a.det.granted = none ∧ ∀ k ∈ a.gangs, ∀ b, k.wait ≠ .round b))

/-- R184 to R187, R197, R199. A serving engine that is quiescent writes its record in the halt area, then no longer serves; with no engine
left the context is halted and its header written. Before that neither happens. A PMOFF region of 2^22 cycles ends with the group's next
instruction to fault. The number of a dead context is free again, with the next generation, once no request bears its tag. The layout of a
stop record where R186 gives none is the model's choice (log 53), and so is that the region stays open when the watchdog has expired (log
54). -/
def Obligations.Halting : Prop :=
  ∀ (s : State) (c : Nat),
    let x := s.ctx c
    (∀ (core : Nat) (eng : Engine) (w : State), x.alive = true → (∃ a, x.line = some a) → x.halted = false → x.serving.contains (core, eng) = true →
      (s.quiescent c core eng = false → exec (.engineStopRecord c core eng) s = .next s)
      ∧ (s.quiescent c core eng = true →
        s.distWrite c (x.save + 0x1000 + 64 * x.nrec) 64 ((x.recordOf core eng).bits s.dev.mapno) = (w, true) →
        ∃ t : State, exec (.engineStopRecord c core eng) s = .next t ∧ t.mem = w.mem
          ∧ (t.ctx c).nrec = x.nrec + 1 ∧ (t.ctx c).serving = x.serving.filter fun e => e != (core, eng)))
    ∧ (x.alive = true → (∃ a, x.line = some a) → x.halted = false →
      (x.serving ≠ [] → exec (.haltComplete c) s = .next s)
      ∧ (x.serving = [] → ∀ w, (s.modCtx c fun y => { y with halted := true, hseq := y.hseq + 1 }).distWrite c x.save 32
          ({ x with halted := true, hseq := x.hseq + 1 } : Ctx).header = (w, true) →
        ∃ t : State, exec (.haltComplete c) s = .next t ∧ t.mem = w.mem ∧ (t.ctx c).halted = true ∧ (t.ctx c).hseq = x.hseq + 1))
    ∧ (∀ grp g, s.group grp = some g →
      (∀ since, g.pmoff = some since → since + 2 ^ 22 ≤ s.cycle →
        ∃ t : State, exec (.watchdogExpiry grp) s = .next t ∧ t = { s with groups := t.groups }
          ∧ t.group grp = some { g with overrun := true } ∧ ∀ n, n ≠ grp → t.group n = s.group n)
      ∧ ((∀ since, g.pmoff = some since → s.cycle < since + 2 ^ 22) → exec (.watchdogExpiry grp) s = .next s))
    ∧ (x.dead = true → s.tagged c = true → exec (.deadDrainComplete c) s = .next s)
    ∧ (x.dead = true → s.tagged c = false →
      exec (.deadDrainComplete c) s = .next (s.modCtx c fun y => { y with dead := false, gen := (y.gen + 1) % 64 }))

/-! ### Ageing, tests, resets and the host -/

/-- R204 to R206, R209, R212, R214. A measurement adds the largest increment to a core's cumulative wear, counts its interval and moves
the core by the thresholds; a charge adds to a context its one share of the core's accrual, and to each launch its own; a flash write leaves flash with every record; a quad
under CRETIRE whose cores are idle and drained gives its logical number to a spare of its die. Host memory changes in the event ring only.
That an accrual and its busy cycles are what the event says, that cycles above the capacity, or of a launch that the core has not served, are
no measurement, and that what has been charged counts towards the next reading is the model's choice (logs 55 and 95). -/
def Obligations.Ageing : Prop :=
  ∀ s : State,
    let offRing (t : State) : Prop := ∀ x, (∀ a k, s.dev.ring = some (a, k) → x < a ∨ a + 32 * 2 ^ k ≤ x) → Mem.read t.host x = Mem.read s.host x
    (∀ (core : Nat) (r : Reading), core < 288 →
      let w := s.wear core
      let cwu := w.cwu + max (largest r.incs) (s.dev.charged.getD core 0)
      let drift := largest ((List.range 4).map fun i => r.drifts.getD i 0)
      ∃ t : State, exec (.monitorMeasurement core r) s = .next t ∧ t = { s with dev := t.dev } ∧ (t.wear core).cwu = cwu
        ∧ (t.wear core).hours = w.hours + 1 ∧ (t.wear core).tpeak = max w.tpeak r.temp
        ∧ t.dev.tempc.getD core 0 = BitVec.ofInt 32 r.temp ∧ t.dev.charged.getD core 0 = 0
        ∧ (∀ n, n < 288 → n ≠ core → t.wear n = { s.wear n with rate := (t.wear n).rate, eol := (t.wear n).eol })
        ∧ (t.wear core).state =
          if w.state = .drained ∨ w.state = .retired then w.state
          else if 6000 < drift ∨ 95 * 2 ^ 48 ≤ 100 * cwu then .drained
          else if w.state = .derated ∨ 3000 < drift ∨ 70 * 2 ^ 48 ≤ 100 * cwu then .derated
          else .healthy)
    ∧ (∀ core acc cycles busy, (288 ≤ core ∨ 5 * cycles < (busy.map fun (b : Nat × Nat × Nat) => b.2.2).sum
          ∨ ∃ b ∈ busy, (s.servedBy core).contains (b.1, b.2.1) = false) →
      exec (.wearCharge core acc cycles busy) s = .next s)
    ∧ (∀ core acc cycles c l1 l2 b1 b2 l m, core < 288 → b1 + b2 ≤ 5 * cycles → (s.ctx c).alive = true → l1 ≠ l2 →
      s.launch l1 = some l → s.launch l2 = some m → l.ctx = c → m.ctx = c → (c, l1) ∈ s.servedBy core → (c, l2) ∈ s.servedBy core →
      ∃ t : State, exec (.wearCharge core acc cycles [(c, l1, b1), (c, l2, b2)]) s = .next t
        ∧ t.ctx c = { s.ctx c with wu := (s.ctx c).wu + acc * (b1 + b2) / (5 * cycles) }
        ∧ t.launch l1 = some { l with wu := l.wu + acc * b1 / (5 * cycles) } ∧ t.launch l2 = some { m with wu := m.wu + acc * b2 / (5 * cycles) })
    ∧ (∀ core acc cycles c lid b l, core < 288 → b ≤ 5 * cycles → (s.ctx c).alive = true → s.launch lid = some l → l.ctx = c →
      (c, lid) ∈ s.servedBy core →
      ∃ t : State, exec (.wearCharge core acc cycles [(c, lid, b)]) s = .next t
        ∧ t.ctx c = { s.ctx c with wu := (s.ctx c).wu + acc * b / (5 * cycles) }
        ∧ t.launch lid = some { l with wu := l.wu + acc * b / (5 * cycles) } ∧ t.mem = s.mem ∧ t.groups = s.groups
        ∧ t.dev.charged.getD core 0 = s.dev.charged.getD core 0 + acc)
    ∧ (s.flashDue = false → exec .wearFlashWrite s = .next s)
    ∧ (s.flashDue = true → ∃ t : State, exec .wearFlashWrite s = .next t ∧ t = { s with dev := t.dev, host := t.host }
        ∧ offRing t ∧ t.dev.flash.wear = t.dev.wear ∧ ∀ c, c < 288 → t.wear c = (s.wear c).predict)
    ∧ (∀ q, s.dev.retiring.contains q = true → (∃ i, i < 4 ∧ s.coreIdle (4 * q + i) = false) → exec (.quadRetirement q) s = .next s)
    ∧ (∀ q, s.dev.retiring.contains q = true → (∀ i, i < 4 → s.coreIdle (4 * q + i) = true ∧ (s.wear (4 * q + i)).state = .drained) →
      ∃ t : State, exec (.quadRetirement q) s = .next t ∧ t = { s with dev := t.dev, host := t.host }
        ∧ offRing t ∧ t.dev.mapno = s.dev.mapno + 1
        ∧ t.dev.map = s.dev.map.map (fun m => if m = some q then (s.spares (q / 18)).head? else m) ∧ t.dev.flash.map = t.dev.map
        ∧ (∀ i, i < 4 → (t.wear (4 * q + i)).state = .retired) ∧ t.dev.retiring.contains q = false)

/-- R215 to R218. A notice asks for a core's test every eight hours; four hours later it is overdue. A test's verdict, or its abort, is
written to its status word, and the test is over. A cap sets an island's step, never 0 for a quad with a core past HEALTHY, and
6 or 7 only for an idle quad; of the quads the busiest is lowered first, and none rises while heat throttles it; heat lowers it by one; at the
trip every context dies. That a core is noticed again after a test that is overdue, that the end of throttling leaves the step, and which
number an island has is the model's choice (logs 58, 59 and 80). -/
def Obligations.TestsAndHeat : Prop :=
  ∀ s : State,
    (∀ core, core < 288 →
      let last := match s.dev.testDue.look core with | some e => e.1 | none => 0
      ((s.wear core).hours < last + 2880 → exec (.testDueNotice core) s = .next s)
      ∧ (last + 2880 ≤ (s.wear core).hours → ∃ t : State, exec (.testDueNotice core) s = .next t ∧ t = { s with dev := t.dev }
          ∧ t.dev.testDue.look core = some ((s.wear core).hours, false) ∧ t.dev.nseq = s.dev.nseq + 1))
    ∧ (∀ core since, core < 288 → s.dev.testDue.look core = some (since, false) →
      ((s.wear core).hours < since + 1440 → exec (.testOverdue core) s = .next s)
      ∧ (since + 1440 ≤ (s.wear core).hours → ∃ t : State, exec (.testOverdue core) s = .next t ∧ t = { s with dev := t.dev }
          ∧ (t.wear core).overdue = (s.wear core).overdue + 1 ∧ t.dev.testDue.look core = some (since, true)
          ∧ (t.wear core).state = if (s.wear core).state = .healthy then .derated else (s.wear core).state))
    ∧ (∀ core (r : TestRun) (got : Word), s.testOn core false = some r → s.lockedFor r.pa = false →
      let pass := got = Config.expectSignature core
      let u := s.writeStatus r.issuer r.pa (Config.expectSignature core).toNat got.toNat r.run (if pass then 2 else 3)
      ∃ t : State, exec (.testRunComplete core got) s = .next t ∧ t.mem = u.mem ∧ t.cores = u.cores ∧ t.dir = u.dir
        ∧ (t.wear core).tests = (s.wear core).tests + 1 ∧ ∀ x ∈ t.dev.tests, x.core ≠ core)
    ∧ (∀ core (r : TestRun), s.testOn core true = some r → s.lockedFor r.pa = false →
      let u := s.writeStatus r.issuer r.pa (Config.expectSignature core).toNat 0 r.run 4
      ∃ t : State, exec (.testAbortComplete core) s = .next t ∧ t.mem = u.mem ∧ t.cores = u.cores ∧ t.dir = u.dir
        ∧ ∀ x ∈ t.dev.tests, x.core ≠ core)
    ∧ (∀ (island : Nat) (step : BitVec 3), island < 128 →
      let now := s.dev.islands.getD island 0
      ((∃ i, i < 4 ∧ s.coreIdle (4 * island + i) = false) → island < 72 → 6 ≤ step.toNat → exec (.powerCap island step) s = .next s)
      ∧ (island < 72 → now.toNat < step.toNat → step.toNat < 6 → (∃ r, r < 72 ∧ (s.dev.islands.getD r 0).toNat < 5 ∧ s.quadLoad island < s.quadLoad r) →
        exec (.powerCap island step) s = .next s)
      ∧ (s.dev.throttled.contains island = true → step.toNat < now.toNat → exec (.powerCap island step) s = .next s)
      ∧ ((72 ≤ island ∨ step.toNat < 6 ∨ ∀ i, i < 4 → s.coreIdle (4 * island + i) = true) →
        (72 ≤ island ∨ step.toNat ≤ now.toNat ∨ 6 ≤ step.toNat ∨ ∀ r, r < 72 → 5 ≤ (s.dev.islands.getD r 0).toNat ∨ s.quadLoad r ≤ s.quadLoad island) →
        (s.dev.throttled.contains island = false ∨ now.toNat ≤ step.toNat) →
        ∃ t : State, exec (.powerCap island step) s = .next t ∧ t = { s with dev := t.dev }
          ∧ t.dev.islands.getD island 0 = if island < 72 ∧ wornQuad s.dev.wear island = true ∧ step = 0 then 1 else step))
    ∧ (∀ island, island < 128 →
      (∃ t : State, exec (.thermalThrottle island true) s = .next t ∧ t = { s with dev := t.dev } ∧ t.dev.throttled.contains island = true
        ∧ ((s.dev.islands.getD island 0).toNat < 5 → t.dev.islands.getD island 0 = s.dev.islands.getD island 0 + 1))
      ∧ ∃ t : State, exec (.thermalThrottle island false) s = .next t ∧ t = { s with dev := t.dev } ∧ t.dev.throttled.contains island = false
        ∧ t.dev.islands = s.dev.islands)
    ∧ ((∀ c, (s.ctx c).alive = true → (s.ctx c).dead = false) →
      ∃ t : State, exec .thermalTrip s = .next t ∧ t.dev.tripped = true ∧ ∀ c, c < 64 → (t.ctx c).alive = false)

/-- R4, R61, R120, R123, R176, R209, R214, R228, R229. A cold reset leaves zeroed memory, no context and no work, the map that flash
holds, the wear records, after a loss of power those of flash with its 60 s added and written back, a quad with a core past HEALTHY at step
1, and pinned lines reinstated; without an accepted image bring-up stops. A warm reset keeps %cycle, logical time, wear and the
posting number. A loss of power leaves flash. The reset of a die is notified and empties its TLBs (log 24). That memory reads zero after a
reset of any kind is inferred (log 44); what a warm reset keeps beyond what the rules name, and that the host's memory stays, is the model's
choice (logs 3 and 64). -/
def Obligations.Resets : Prop :=
  ∀ s : State,
    (∀ a b, s.dev.chooseBank 1 = some a → s.dev.chooseBank 2 = some b →
      ∃ t : State, exec .coldReset s = .next t ∧ t.mem = [] ∧ t.cycle = 0 ∧ t.groups = [] ∧ t.teams = [] ∧ t.ctxs = [] ∧ t.cores = []
        ∧ t.quads = [] ∧ t.launches = [] ∧ t.dev.boot = 6 ∧ t.dev.map = s.dev.flash.map ∧ t.dev.mapno = s.dev.flash.mapno
        ∧ t.dev.queue = [] ∧ t.dev.nseq = 0 ∧ t.host = s.host ∧ (∀ n ∈ s.dev.flash.pins, (t.line n).pinned.isSome = true)
        ∧ t.dev.lost = false ∧ (∀ q, q < 72 → wornQuad t.dev.wear q = true → t.dev.islands.getD q 0 = 1)
        ∧ (s.dev.lost = false → t.dev.wear = s.dev.wear)
        ∧ (s.dev.lost = true → t.dev.flash.wear = t.dev.wear ∧ ∀ n, n < 288 →
            (t.wear n).cwu = (s.dev.flash.wear.getD n Wear.fresh).cwu + 6 * s.dev.flash.accel.getD n 0))
    ∧ (s.dev.chooseBank 1 = none ∨ s.dev.chooseBank 2 = none → ∃ t : State, exec .coldReset s = .next t ∧ t.dev.boot = 0xE0
        ∧ t.dev.lost = s.dev.lost)
    ∧ (s.dev.boot = 0 → exec .warmReset s = .next s)
    ∧ (s.dev.boot ≠ 0 → s.dev.lost = false → ∃ t : State, exec .warmReset s = .next t ∧ t.mem = [] ∧ t.groups = [] ∧ t.ctxs = [] ∧ t.cycle = s.cycle
        ∧ t.dev.wear = s.dev.wear ∧ t.dev.nseq = s.dev.nseq ∧ ∀ n, (t.core n).pts = (s.core n).pts)
    ∧ (∃ t : State, exec .powerLoss s = .next t ∧ t.mem = [] ∧ t.groups = [] ∧ t.ctxs = [] ∧ t.dev.boot = 0 ∧ t.dev.flash = s.dev.flash
        ∧ t.dev.lost = true ∧ t.dev.wear = [] ∧ t.host = s.host)
    ∧ ∀ die, die < 4 → ∃ t : State, exec (.dieReset die) s = .next t ∧ t.mem = s.mem ∧ t.groups = s.groups
        ∧ t.dev.nseq = s.dev.nseq + 1 ∧ (∀ n, n / 72 = die → (t.core n).tlb = []) ∧ ∀ q, q / 18 = die → (t.quad q).tlb = []

/-- R119, R163, R184, R185, R188, R198, R208, R223 to R226, R232. On an empty ring a command that is carried out answers 0 in its entry, and
one that is refused answers some other number and changes nothing else (which number is free: log 23); head follows tail. What each
accepted command does. Entries that the host has written before go first: one of no command's code is answered with a reason, one that is this
command with its arguments is carried out, and one of another command, or with other arguments, makes this one wait. That MIGRATE is answered
when the copy begins, that TLBINV waits for what is in flight before it answers, the number of a context's PASID, and where the arguments lie
in an entry, SETROUTE's apart, are the model's choice (logs 60, 61, 95 and 107). -/
def Obligations.HostCommands : Prop :=
  ∀ (s : State) (ring c : Nat), s.dev.boot = 6 → s.dev.tripped = false → ring ≤ 16 →
    let r := s.ringOf ring
    let place := r.head % ringEntries ring
    let answers (t : State) (code k : Nat) (args : List Byte) (n : Nat) : Prop :=
      let e := r.entries.put (r.tail % ringEntries ring) (freshEntry code k args)
      t.ringOf ring = ⟨r.tail + 1, r.head + 1, e.put place (withStatus (e.getD place 0) n)⟩
    let refused (i : Instr) (code k : Nat) (args : List Byte) : Prop := ∃ (t : State) (n : Nat), exec i s = .next t ∧ n ≠ 0 ∧ n < 256
      ∧ answers t code k args n
      ∧ t = { s with free := t.free, dev := { s.dev with rings := t.dev.rings } }
    (r.head < r.tail →
      let e := r.entries.getD place 0
      ((entryCode e = 0 ∨ 9 < entryCode e) → ∃ (t : State) (n : Nat), exec (.killctx ring c) s = .next t ∧ n ≠ 0 ∧ n < 256
        ∧ t.ringOf ring = { r with head := r.head + 1, entries := r.entries.put place (withStatus e n) } ∧ t.ctxs = s.ctxs ∧ t.mem = s.mem)
      ∧ (1 ≤ entryCode e → entryCode e ≤ 9 → (entryCode e ≠ 2 ∨ entryCtx e ≠ c % 256 ∨ entryArgs e ≠ argBytes []) →
        exec (.killctx ring c) s = .next s)
      ∧ (entryCode e = 2 → entryCtx e = c % 256 → entryArgs e = argBytes [] → s.mayName ring c true = true → (s.ctx c).dead = false →
        ∃ t : State, exec (.killctx ring c) s = .next t ∧ (t.ctx c).alive = false ∧ (t.ctx c).dead = true
          ∧ t.ringOf ring = { r with head := r.head + 1, entries := r.entries.put place (withStatus e 0) })
      ∧ (∀ rc args, ring = 0 → rc = r.entries.getD place 0 → entryCode rc = 7 → entryArgs rc ≠ argBytes args → exec (.setroute 0 args) s = .next s))
    ∧ (r.tail ≤ r.head →
      (∀ (rec_ : BitVec 512) vf base size ats, ctxRecordBad rec_.toNat = true →
        refused (.createctx ring c rec_ vf base size ats) 1 c (Config.createArgs rec_ vf base size ats))
      ∧ (∀ (rec_ : BitVec 512) vf base size ats, c < 64 → (s.ctx c).alive = false → (s.ctx c).dead = false → (s.ctx c).zeroing = false →
        ctxRecordBad rec_.toNat = false → bit rec_.toNat 170 = false → bit rec_.toNat 169 = false → vf ≤ 16 → (ring = 0 ∨ ring = vf) →
        let x : Ctx := { Ctx.fresh with
          alive := true, gen := (s.ctx c).gen, record := rec_, vf := vf, ats := ats, pasid := Config.pasid s.nextUid }
        let args := Config.createArgs rec_ vf base size ats
        let u := (s.submit ring 1 c args).fresh.1.modCtx c fun _ => x
        (u.saveMapped c x.save = false → refused (.createctx ring c rec_ vf base size ats) 1 c args)
        ∧ (u.saveMapped c x.save = true →
          ∃ t : State, exec (.createctx ring c rec_ vf base size ats) s = .next t ∧ answers t 1 c args 0 ∧ t.ctx c = x
            ∧ t.mem = (u.clearSave c x.save).mem))
      ∧ (s.mayName ring c true = false → refused (.killctx ring c) 2 c [])
      ∧ (s.mayName ring c true = true → (s.ctx c).dead = false →
        ∃ t : State, exec (.killctx ring c) s = .next t ∧ answers t 2 c [] 0 ∧ (t.ctx c).alive = false ∧ (t.ctx c).dead = true)
      ∧ ((s.mayName ring c false && (s.ctx c).halted) = false → refused (.resume ring c) 3 c [])
      ∧ (s.mayName ring c false = true → (s.ctx c).halted = true →
        let u := (s.submit ring 3 c []).modCtx c fun x => { x with line := none, halted := false, serving := [], reports := [] }
        ∀ w, u.distWrite c (u.ctx c).save 32 (u.ctx c).header = (w, true) →
        ∃ t : State, exec (.resume ring c) s = .next t ∧ answers t 3 c [] 0 ∧ t.mem = w.mem ∧ (t.ctx c).halted = false ∧ (t.ctx c).line = none
          ∧ ∀ n g, t.group n = some g → g.ctx = c → ∀ k ∈ g.gangs, k.wait ≠ .stopped)
      ∧ (∀ va : Dword, s.mayName ring c false = true → s.dev.queue.length < 256 → s.dev.heldNotices = [] →
        ∃ t : State, exec (.notifymap ring c va) s = .next t ∧ answers t 4 c (argWords [va.toNat]) 0
          ∧ t.dev.queue = s.dev.queue ++ [⟨1, c, s.dev.nseq, s.cycle, BitVec.ofNat 128 (va.toNat % 2 ^ 57)⟩])
      ∧ (∀ base size, s.mayName ring c false = true →
        (s.translatedInFlight (invRange (some c) base size) = true → exec (.hostTlbinv ring c base size) s = .next s)
        ∧ (s.translatedInFlight (invRange (some c) base size) = false →
          ∃ t : State, exec (.hostTlbinv ring c base size) s = .next t ∧ answers t 5 c (argWords [base, size]) 0 ∧ t.mem = s.mem
            ∧ ∀ n, ∀ e ∈ (t.core n).tlb, (invRange (some c) base size).meets e.ctx e.va e.size = false))
      ∧ (ring ≠ 0 → (∀ (va : Dword) dst, refused (.migrate ring c va dst) 6 c (argWords [va.toNat, dst]))
          ∧ (∀ args, refused (.setroute ring args) 7 0 args)
          ∧ (∀ a k, refused (.evring ring a k) 8 0 (argWords [a, k])) ∧ ∀ a, refused (.wearcopy ring c a) 9 0 (argWords [c, a]))
      ∧ (ring = 0 →
        (∀ (va : Dword) dst a e tl, s.mayName 0 c false = true → canonical va.toNat = true →
          leafOf (s.submit 0 6 c (argWords [va.toNat, dst])) c va.toNat 4 (s.ctx c).root = some (a, e, tl) → s.mayMigrate c tl dst = true →
          ∃ t : State, exec (.migrate 0 c va dst) s = .next t ∧ answers t 6 c (argWords [va.toNat, dst]) 0 ∧ t.mem = s.mem
            ∧ t.migrations = s.migrations ++ [⟨c, tl.va, tl.size, tl.pa, dst, false, []⟩])
        ∧ (∀ (a b : Byte) rest, a.toNat ≤ 15 → b.toNat ≤ 15 → (∀ x ∈ rest, x = 0) →
          ∃ t : State, exec (.setroute 0 (a :: b :: rest)) s = .next t ∧ answers t 7 0 (a :: b :: rest) 0 ∧ t.dev.routes = s.dev.routes.put a.toNat b.toNat)
        ∧ (∀ a k, s.dev.heldEvents.length ≤ 2 ^ k → s.dev.lostEvents = 0 →
          ∃ t : State, exec (.evring 0 a k) s = .next t ∧ answers t 8 0 (argWords [a, k]) 0 ∧ t.dev.ring = some (a, k)
            ∧ t.dev.delivered = s.dev.delivered ++ s.dev.heldEvents ∧ t.dev.heldEvents = []
            ∧ ∀ x, (x < a ∨ a + 32 * 2 ^ k ≤ x) → Mem.read t.host x = Mem.read s.host x)
        ∧ (∀ a, c < 288 → ∃ t : State, exec (.wearcopy 0 c a) s = .next t ∧ answers t 9 0 (argWords [c, a]) 0
            ∧ t.host = Mem.writeN s.host a 512 ((s.wear c).bits c))))

/-- R119, R226, R230. The events of migrations, of TDISP and of the links. MIGRATION_SWITCH: the new page has the old one's bytes, the leaf
entry that maps the page, where the walk of the tables finds it, has the new base, and no other byte has changed; no TLB holds the page's
translation any more. MIGRATION_RELEASE: the locks clear once no access under the old translation waits, and not before. LOCK_INTERFACE,
START_INTERFACE, STOP_INTERFACE and TDI_ERROR move a TDI between its states, the last two killing the VF's confidential contexts; in CXL
mode they do nothing. PRIVATE_RANGE_ZEROED: the range is zero, the context's number is free, and its TDI is unlocked once no
other range of its VF is to be zeroed, if it is in ERROR; a TDI shows ERROR while a range is zeroed after STOP_INTERFACE, which is the model's
choice (log 63). FLIT_RECEIVE counts flits with errors, and a good one ends a row of fewer than eight; LINK_RETRAIN retrains a link after
eight, with a notice, and with an event if that fails. -/
def Obligations.Ports : Prop :=
  ∀ s : State,
    (∀ m : Migration, s.migrations = [m] →
      (m.switched = false → exec (.migrationRelease 0) s = .next s)
      ∧ (∀ c k o p, (c, k) ∈ s.cores → o ∈ k.rq ++ k.wk → p ∈ o.waiting → overlap p.pa p.len m.p m.size = true →
        exec (.migrationRelease 0) s = .next s)
      ∧ (m.switched = true → (∀ e ∈ s.cores, ∀ o ∈ e.2.rq ++ e.2.wk, ∀ p ∈ o.waiting, overlap p.pa p.len m.p m.size = false) →
        exec (.migrationRelease 0) s = .next { s with migrations := [] })
      ∧ (m.switched = false → m.held = [] → s.monitors = [] → (∀ l, (s.line l).owner = none) → Memory.wf s.mem = true →
        overlap m.p m.size m.q m.size = false →
        let v := (s.recallRange m.p m.size).recallRange m.q m.size
        let u := ({ v with mem := m.copy v.mem }.moveTimes m).follow m
        ∃ t : State, exec (.migrationSwitch 0) s = .next t ∧ t.migrations = [{ m with switched := true }]
          ∧ (∀ n, ∀ e ∈ (t.core n).tlb, (invRange (some m.ctx) m.va m.size).meets e.ctx e.va e.size = false)
          ∧ ∀ a e tl, leafOf u m.ctx m.va 4 (u.ctx m.ctx).root = some (a, e, tl) → tl.pa = m.p →
            Mem.readN t.mem a 8 = (e - entryAddr e + m.q) % 2 ^ 64
            ∧ ∀ b, (b < a ∨ a + 8 ≤ b) →
              Mem.read t.mem b = if m.q ≤ b ∧ b < m.q + m.size then Mem.read s.mem (m.p + (b - m.q)) else Mem.read s.mem b))
    ∧ (∀ vf, s.tdisp vf = false → exec (.lockInterface vf) s = .next s ∧ exec (.startInterface vf) s = .next s
        ∧ exec (.stopInterface vf) s = .next s ∧ exec (.tdiError vf) s = .next s)
    ∧ (∀ vf, s.tdisp vf = true →
      (s.tdi vf = .unlocked → exec (.lockInterface vf) s = .next (s.setTdi vf .locked) ∧ exec (.startInterface vf) s = .next s
        ∧ exec (.stopInterface vf) s = .next s ∧ exec (.tdiError vf) s = .next s)
      ∧ (s.tdi vf = .locked → exec (.startInterface vf) s = .next (s.setTdi vf .run) ∧ exec (.lockInterface vf) s = .next s)
      ∧ ((s.tdi vf = .locked ∨ s.tdi vf = .run) →
        ∃ t : State, exec (.tdiError vf) s = .next t ∧ t.tdi vf = .error
          ∧ ∀ c, (s.ctx c).conf = true → (s.ctx c).vf = vf → (s.ctx c).alive = true → (s.ctx c).dead = false → (t.ctx c).dead = true)
      ∧ (s.tdi vf ≠ .unlocked →
        ((∀ e ∈ s.ctxs, e.2.vf ≠ vf) → exec (.stopInterface vf) s = .next (s.setTdi vf .unlocked))
        ∧ ∀ c, (s.ctx c).conf = true → (s.ctx c).vf = vf → (s.ctx c).alive = true → (s.ctx c).dead = false →
          ∃ t : State, exec (.stopInterface vf) s = .next t ∧ (t.ctx c).dead = true ∧ (t.ctx c).zeroing = true ∧ t.tdi vf = .error))
    ∧ (∀ c, (s.ctx c).zeroing = true → (s.ctx c).dead = false → (∀ l, (s.line l).owner = none) → Memory.wf s.mem = true →
      ∃ t : State, exec (.privateRangeZeroed c) s = .next t ∧ t.ctx c = { Ctx.fresh with gen := (s.ctx c).gen }
        ∧ (∀ a, Mem.read t.mem a = if (s.ctx c).base ≤ a ∧ a < (s.ctx c).base + (s.ctx c).size then 0 else Mem.read s.mem a)
        ∧ (s.tdi (s.ctx c).vf = .error → (s.modCtx c fun x => { Ctx.fresh with gen := x.gen }).zeroingVf (s.ctx c).vf = false →
          t.tdi (s.ctx c).vf = .unlocked)
        ∧ (s.tdi (s.ctx c).vf ≠ .error → t.dev.tdis = s.dev.tdis))
    ∧ (∀ link, link < 16 →
      ((s.skein link).up = true → exec (.flitReceive link true) s =
            .next (if (s.skein link).failures < 8 then s.setLink link ⟨true, 0, false⟩ else s)
        ∧ exec (.flitReceive link false) s = .next (s.setLink link ⟨true, (s.skein link).failures + 1, true⟩))
      ∧ ((s.skein link).up = true → (s.skein link).failures < 8 → ∀ good, exec (.linkRetrain link good) s = .next s)
      ∧ ((s.skein link).up = true → 8 ≤ (s.skein link).failures →
        let u := s.postNotice 2 0 (BitVec.ofNat 128 link)
        exec (.linkRetrain link true) s = .next (u.setLink link ⟨true, 0, false⟩)
        ∧ exec (.linkRetrain link false) s = .next ((u.setLink link ⟨false, 8, false⟩).postEvent 5 0 link)))

/-- R221, R227. What the host's port answers. ATS_TRANSLATION: an answer that no request waits for changes nothing; one that grants lets go
the requests whose pages are all granted, a read where only reading is; where some request still lacks what it needs, a page request goes
out. PRI_RESPONSE ends a page request; a failed one, and PRI_TIMEOUT, halt the context with the cause 0x03. ATS_INVALIDATION drops a
translation that no request uses, and waits for one that does. SPDM_REQUEST is answered with the algorithms of R227 from the row of requests, the measurements, the
certificates and the interface reports (what the answer's bytes are, is free: log 6). -/
def Obligations.HostAnswers : Prop :=
  ∀ s : State,
    (∀ c page, s.dev.priPages.contains (c, page) = false → ∀ grant,
      let held := s.dev.atsPages.filter fun e => !(e.1 == c && e.2.1 == page)
      (s.atsLacks c page = false → exec (.atsTranslation c page grant) s = .next s)
      ∧ (s.atsLacks c page = true →
        exec (.atsTranslation c page none) s = .next { s with dev := { s.dev with priPages := s.dev.priPages ++ [(c, page)] } }
        ∧ (∃ t : State, exec (.atsTranslation c page (some true)) s = .next t ∧ t = { s with cores := t.cores, dev := t.dev }
          ∧ t.dev = { s.dev with atsPages := held ++ [(c, page, true)] }
          ∧ ∀ n, ∀ y ∈ (t.core n).yq, y.op.ctx = c → (∀ p ∈ y.op.pieces, p.pa / 4096 = page) → y.ats = false)
        ∧ (∀ n k y, (n, k) ∈ s.cores → y ∈ k.yq → y.waitsFor c page = true → y.writes = true →
          ∃ t : State, exec (.atsTranslation c page (some false)) s = .next t ∧ t = { s with cores := t.cores, dev := t.dev }
            ∧ t.dev = { s.dev with atsPages := held ++ [(c, page, false)], priPages := s.dev.priPages ++ [(c, page)] }
            ∧ ∀ n, ∀ z ∈ (t.core n).yq, z.op.ctx = c → z.writes = false → (∀ p ∈ z.op.pieces, p.pa / 4096 = page) → z.ats = false)))
    ∧ (∀ c page, (s.dev.priPages.contains (c, page) = false → ∀ good, exec (.priResponse c page good) s = .next s)
      ∧ (s.dev.priPages.contains (c, page) = true →
        let u : State := { s with dev := { s.dev with priPages := s.dev.priPages.filter fun e => e != (c, page) } }
        exec (.priResponse c page true) s = .next u ∧ exec (.priTimeout c page) s = exec (.priResponse c page false) s
          ∧ ((s.ctx c).alive = true → (s.ctx c).line = none →
              (s.cores.any fun (e : Nat × Core) => e.2.yq.any fun y => y.waitsFor c page) = true →
              ∃ t : State, exec (.priTimeout c page) s = .next t ∧ (t.ctx c).line = some 0x03 ∧ t.mem = s.mem ∧ t.groups = s.groups)))
    ∧ (∀ c page,
      let busy := s.cores.any fun (e : Nat × Core) => e.2.yq.any fun y => !y.ats && y.op.ctx == c && y.onPage page
      (busy = true → exec (.atsInvalidation c page) s = .next s)
      ∧ (busy = false → exec (.atsInvalidation c page) s =
          .next { s with dev := { s.dev with atsPages := s.dev.atsPages.filter fun e => !(e.1 == c && e.2.1 == page) } }))
    ∧ (∀ req,
      let row := s.dev.spdmIn ++ [req]
      (s.dev.boot ≠ 6 → exec (.spdmRequest req) s = .next s)
      ∧ (s.dev.boot = 6 → ∃ t : State, exec (.spdmRequest req) s = .next t
        ∧ t = { s with dev := { s.dev with
            spdmIn := row
            spdmOut := s.dev.spdmOut ++ [Config.spdmAnswer spdmAlgorithms row s.dev.measurements s.dev.certificates s.interfaceReports]
            ideKeys := t.dev.ideKeys } }
        ∧ (Config.ideProgram row = none → t.dev.ideKeys = s.dev.ideKeys)
        ∧ ∀ n key, Config.ideProgram row = some (n, key) → t.dev.ideKeys = if n ≤ 8 then s.dev.ideKeys.put n key else s.dev.ideKeys))

/-! ### The whole machine -/

/-- R247 to R260. One word of each class, written out from its encoding. -/
def Obligations.DecodedWords : Prop :=
  decodeTableWord 64 0x00400802006001C0 = some (.iadd ⟨false, 1, .reg 2, .reg 3, ⟨false, 7⟩⟩)
  ∧ decodeTableWord 64 0x0C002002000019C7 = some (.cvt ⟨false, 4, .reg 2, ⟨false, 7⟩⟩ .f16 .f32 .inf .rd)
  ∧ decodeTableWord 64 0x2240300A018001C2 = some (.ared ⟨false, .add, true, true, .reg 10, .reg 12, 0, ⟨false, 7⟩, .g, 2⟩)
  ∧ decodeTableWord 64 0x40C1A033002001C8 = some (.gscan 0x34 (.reg 0x33) true .add .n32 ⟨false, 7⟩)
  ∧ decodeTableWord 64 0x62C02802000001C0 = some (.accmov 5 2 ⟨false, 7⟩)
  ∧ decodeTableWord 64 0x82000000012001C1 = some (.ownE (.reg 0) (.reg 9) ⟨false, 7⟩)
  ∧ decodeTableWord 64 0x8400480402800DC0 = some (.relent 9 (.reg 4) (.reg 20) ⟨false, 3⟩ ⟨false, 7⟩)
  ∧ decodeTableWord 64 0xA3000000000009C2 = some (.yield 2 2 ⟨false, 7⟩)
  ∧ decodeTableWord 64 0xC2012022000001C1 = some (.pqpop 0x24 0x22 0 1 ⟨false, 7⟩)
  ∧ decodeTableWord 64 0xE0000000000001C0 = none

/-- R244 to R262. Every well-formed instruction's word decodes to it, and a word that decodes is its instruction's word: no bit of a word
is without meaning, and no two instructions share one. The two further forms of CSTATE have the word of its first (log 10). -/
def Obligations.RoundTrip : Prop :=
  (∀ i : Instr, i.wf = true → ∃ w, encode i = some w ∧ decode w = .ok i)
  ∧ (∀ (w : Dword) (i : Instr), decode w = .ok i → i.wf = true ∧ encode i = some w)
  ∧ ∀ d a b g, encode (.cstateReserve d a b g) = encode (.cstateRead d a b g) ∧ encode (.cstateRelease d a b g) = encode (.cstateRead d a b g)

/-- R15, R61, R116, R171, R218, R244, R245, R262 to R264. Where the turn is a port's, and the gang that holds it stands at a slot whose word,
of those that its core fetched for the clause, is of the clause's class and decodes, the step is that instruction's meaning, with the gang
as the issuing one and a cycle passed. A fetched word is what memory holds at the address, or what the instruction cache still holds of it.
Where the turn is an event, the step is the event's meaning; that the turn is a choice of the model's agenda: log 1. Without a clock only
a reset, the loss of power or a read of the status word comes to pass. -/
def Obligations.StepRunsDecoded : Prop :=
  (∀ (s u : State), s.clocked = true →
    (∀ (core port gid : Nat) (g : Group) (x : Team) (k : Gang) (c : Clause) (i : Instr), s.takeTurn = (.issue core port, u) →
      let u := { u with cycle := s.cycle + 1 }
      let w := c.words.getD c.slot 0
      u.holder core port = some (gid, g, x, k) → k.clause = some c → k.walking = none → (u.ctx g.ctx).halted = false →
      u.awaitsPage g x k = false → c.words ≠ [] →
      wordClass w = c.header.cls → decode w = .ok i → (i.endsClause = true → c.slot + 1 = c.count) →
      let t := { u with focus := some (gid, k.id) }
      t.view.isSome = true → step s = exec (resolve i t) t)
    ∧ (∀ i : Instr, s.takeTurn = (.event i, u) → i.isEvent = true → step s = exec i { u with cycle := s.cycle + 1 })
    ∧ ∀ n, s.takeTurn = (.tick n, u) → step s = .next { u with cycle := s.cycle + 1 + n })
  ∧ (∀ (s u : State) (x : Turn), s.clocked = false → s.takeTurn = (x, u) → unclocked x = false → step s = .next u)
  ∧ ∀ (s : State) (core lid ctx a : Nat) (e : TlbEntry), a % 8 = 0 → canonical a = true → tlbFind (s.core core).tlb ctx a = some e →
    e.host = false → e.x = true →
    (∀ z, ((s.core core).icache.find? fun e => e.1 == lid && e.2.1 == a) = some z → s.fetch core lid ctx a = (s, .word z.2.2))
    ∧ (((s.core core).icache.find? fun e => e.1 == lid && e.2.1 == a) = none →
      let r := s.homeRead (e.pa + (a - e.va)) 8
      r.1.bad (e.pa + (a - e.va)) = false → (s.fetch core lid ctx a).2 = .word (BitVec.ofNat 64 r.2))

/-- R1, R9, R123, R163, R208, R229. What reset and bring-up leave: the identities of the functions, memory reads zero and is in canonical form, logical time is 0 on every
core, no context, launch, team or group exists, every core is HEALTHY without wear. (That logical quad 16d + i lies on physical quad 18d +
i: log 4.) -/
def Obligations.ResetValues : Prop :=
  State.reset.memoryWf = true ∧ (∀ a, Mem.read State.reset.mem a = 0) ∧ (∀ c, (State.reset.core c).pts = 0)
  ∧ (∀ c, (State.reset.ctx c).alive = false ∧ (State.reset.ctx c).dead = false) ∧ (∀ n, State.reset.group n = none)
  ∧ (∀ n, State.reset.team n = none) ∧ (∀ n, State.reset.launch n = none) ∧ State.reset.cycle = 0
  ∧ (∀ l, State.reset.line l = DirEntry.fresh) ∧ (∀ c, State.reset.wear c = Wear.fresh) ∧ Wear.fresh.state = .healthy
  ∧ State.reset.dev.pf = ⟨0x1F4C, 0x0960, 0x21⟩ ∧ State.reset.dev.vf = ⟨0x1F4C, 0x0961, 0x21⟩
  ∧ State.reset.dev.boot = 6 ∧ State.reset.dev.mapno = 0 ∧ State.reset.dev.map.length = 64
  ∧ ∀ n, n < 64 → State.reset.dev.map.getD n none = some (18 * (n / 16) + n % 16)

/-- Every step of the machine leads to a next state: it has no fault and no refusal that a run could meet. (The spec gives every
instruction and event an effect, exceptions included.) -/
def Obligations.StepGoesOn : Prop :=
  ∀ s : State, ∃ t, step s = .next t

/-- Every step keeps device memory and host memory in canonical form: addresses rising, no byte listed that an unlisted address reads as.
-/
def Obligations.StepKeepsMemory : Prop :=
  ∀ s t : State, s.memoryWf = true → step s = .next t → t.memoryWf = true

/-- R60, R141, R187, R197, R198, R246, R262, R291. Before an instruction's own effect: with no issuing gang there is nothing to act in; nothing
issues in a dead or halted context; after the watchdog has expired the next instruction is a watchdog fault; an operand that may not be
read or written is an illegal instruction; a write of a span whose set an MMA names waits, and so do an instruction whose scoreboard stands
at 63 and one whose descriptor an ACCST has still to write. The fault without an issuing gang is the model's own, which no step meets (log
69); that the watchdog's region stays open until the next instruction is the model's choice too (log 54). -/
def Obligations.IssueChecks : Prop :=
  ∀ (i : Instr) (s : State), i.isEvent = false →
    (s.view = none → exec i s = .fault .noIssuingGang)
    ∧ ∀ v : View, s.view = some v →
      ((v.x.alive = false ∨ v.x.halted = true) → exec i s = .next s)
      ∧ (v.x.alive = true → v.x.halted = false → v.roundHolds i = false → v.fenceHolds i = false →
        (v.g.overrun = true → exec i s =
          .next ((s.modGroup v.gid fun g => { g with overrun := false, pmoff := none }).haltGang v i 0x07 0))
        ∧ (v.g.overrun = false → operandsOk v.g v.c i = false → v.k.fence = none → exec i s = .next (s.haltGang v i 0x04 0))
        ∧ (v.g.overrun = false → operandsOk v.g v.c i = true →
          (s.spanHeld v i = true ∨ (∃ n, sbNamed i = some n ∧ v.sbFull n = true)
            ∨ (s.core v.t.core).storing v.g.team (v.descRange i) = true) → exec i s = .next s))
end

