-- ==== Sys2Proof/Laws/Tables.lean ====
section
/-! SUPPORT. Laws of tables and of memory: a read after a write, and the canonical form that every memory operation keeps. -/
namespace Sys2Proof.Machine

/-! ### Tables -/

theorem Tab.look_put_same {α : Type} (t : Tab α) (n : Nat) (v : α) : (t.put n v).look n = some v := by
  induction t with
  | nil => simp [Tab.put, Tab.look]
  | cons e t ih =>
    obtain ⟨k, w⟩ := e
    simp only [Tab.put]
    split
    · simp [Tab.look]
    · split
      · simp [Tab.look]
      · rename_i h1 h2
        simp [Tab.look, show k ≠ n from fun h => h2 h.symm, ih]

theorem Tab.look_put_other {α : Type} (t : Tab α) {n m : Nat} (v : α) (h : m ≠ n) : (t.put n v).look m = t.look m := by
  induction t with
  | nil => simp [Tab.put, Tab.look, Ne.symm h]
  | cons e t ih =>
    obtain ⟨k, w⟩ := e
    simp only [Tab.put]
    split
    · simp [Tab.look, Ne.symm h]
    · split
      · rename_i h1 h2
        subst h2
        simp [Tab.look, Ne.symm h]
      · simp only [Tab.look]
        split
        · rfl
        · exact ih

theorem Tab.look_put {α : Type} (t : Tab α) (n m : Nat) (v : α) :
    (t.put n v).look m = if m = n then some v else t.look m := by
  split
  · rename_i h; subst h; exact Tab.look_put_same t m v
  · rename_i h; exact Tab.look_put_other t v h

theorem Tab.look_alter_same {α : Type} (t : Tab α) (n : Nat) (f : α → α) : (t.alter n f).look n = (t.look n).map f := by
  induction t with
  | nil => rfl
  | cons e t ih =>
    obtain ⟨k, w⟩ := e
    simp only [Tab.alter]
    split
    · rename_i h; simp [Tab.look, h]
    · rename_i h; simp [Tab.look, h, ih]

theorem Tab.look_alter_other {α : Type} (t : Tab α) {n m : Nat} (f : α → α) (h : m ≠ n) : (t.alter n f).look m = t.look m := by
  induction t with
  | nil => rfl
  | cons e t ih =>
    obtain ⟨k, w⟩ := e
    simp only [Tab.alter]
    split
    · rename_i hk; subst hk; simp [Tab.look, Ne.symm h]
    · simp only [Tab.look]
      split
      · rfl
      · exact ih

theorem Tab.look_del_other {α : Type} (t : Tab α) {n m : Nat} (h : m ≠ n) : (t.del n).look m = t.look m := by
  induction t with
  | nil => rfl
  | cons e t ih =>
    obtain ⟨k, w⟩ := e
    simp only [Tab.del]
    split
    · rename_i hk; subst hk; simp [Tab.look, Ne.symm h]
    · simp only [Tab.look]
      split
      · rfl
      · exact ih

/-- Two changes of one entry are one. -/
theorem Tab.alter_alter {α : Type} (t : Tab α) (n : Nat) (f g : α → α) :
    (t.alter n f).alter n g = t.alter n (fun x => g (f x)) := by
  induction t with
  | nil => rfl
  | cons e t ih =>
    obtain ⟨k, w⟩ := e
    simp only [Tab.alter]
    split
    · rename_i h; simp [Tab.alter, h]
    · rename_i h; simp [Tab.alter, h, ih]

/-! ### Memory -/

theorem Mem.read_write_same (m : List Host.Cell) (a : Nat) (v : Byte) : Memory.wf m = true → Mem.read (Mem.write m a v) a = v := by
  have low : ∀ (t : List Host.Cell) (b : Nat), Memory.wf t = true → Mem.wfAbove (some b) t = true → ∀ x, x ≤ b → Mem.read t x = 0 := by
    intro t
    induction t with
    | nil => intros; rfl
    | cons e t ih =>
      obtain ⟨k, w⟩ := e
      intro b _ h x hx
      simp only [Mem.wfAbove, aboveBound, Bool.and_eq_true, decide_eq_true_eq] at h
      obtain ⟨⟨hk, hw⟩, ht⟩ := h
      have : k ≠ x := by omega
      simp only [Mem.read, this, if_false]
      refine ih k ?_ ht x (by omega)
      cases t with
      | nil => rfl
      | cons e' t' =>
        obtain ⟨k', w'⟩ := e'
        simp only [Mem.wfAbove, Bool.and_eq_true] at ht
        simp only [Memory.wf, Mem.wfAbove, Bool.and_eq_true]
        exact ⟨⟨rfl, ht.1.2⟩, ht.2⟩
  have tail : ∀ (k : Nat) (w : Byte) (t : List Host.Cell), Memory.wf ((k, w) :: t) = true →
      Mem.wfAbove (some k) t = true ∧ Memory.wf t = true := by
    intro k w t h
    simp only [Memory.wf, Mem.wfAbove, Bool.and_eq_true] at h
    refine ⟨h.2, ?_⟩
    cases t with
    | nil => rfl
    | cons e' t' =>
      obtain ⟨k', w'⟩ := e'
      have h2 := h.2
      simp only [Mem.wfAbove, Bool.and_eq_true] at h2
      simp only [Memory.wf, Mem.wfAbove, Bool.and_eq_true]
      exact ⟨⟨rfl, h2.1.2⟩, h2.2⟩
  induction m with
  | nil =>
    intro _
    simp only [Mem.write]
    split
    · rename_i h; simp [Mem.read, h]
    · simp [Mem.read]
  | cons e t ih =>
    obtain ⟨k, w⟩ := e
    intro h
    obtain ⟨h1, h2⟩ := tail k w t h
    simp only [Mem.write]
    split
    · rename_i hk
      split
      · rename_i hv
        have : k ≠ a := by omega
        simp only [Mem.read, this, if_false, hv]
        exact low t k h2 h1 a (by omega)
      · simp [Mem.read]
    · split
      · rename_i hk
        split
        · rename_i hv; rw [hv]; exact low t k h2 h1 a (by omega)
        · simp [Mem.read]
      · rename_i hk1 hk2
        have : k ≠ a := fun h => hk2 h.symm
        simp only [Mem.read, this, if_false]
        exact ih h2

theorem Mem.read_write_other (m : List Host.Cell) {a b : Nat} (v : Byte) (h : b ≠ a) :
    Mem.read (Mem.write m a v) b = Mem.read m b := by
  induction m with
  | nil =>
    simp only [Mem.write]
    split
    · rfl
    · simp [Mem.read, Ne.symm h]
  | cons e t ih =>
    obtain ⟨k, w⟩ := e
    simp only [Mem.write]
    split
    · split
      · rfl
      · simp [Mem.read, Ne.symm h]
    · split
      · rename_i hk
        subst hk
        split <;> simp [Mem.read, Ne.symm h]
      · simp only [Mem.read]
        split
        · rfl
        · exact ih

/-- Bytes outside an interval are not written. -/
theorem Mem.read_writeN_outside (n : Nat) : ∀ (m : List Host.Cell) (a v : Nat) {b : Nat}, (b < a ∨ a + n ≤ b) →
    Mem.read (Mem.writeN m a n v) b = Mem.read m b := by
  induction n with
  | zero => intros; rfl
  | succ n ih =>
    intro m a v b h
    simp only [Mem.writeN]
    rw [ih _ _ _ (by omega), Mem.read_write_other _ _ (by omega)]

theorem Mem.wfAbove_mono {m : List Host.Cell} {b c : Nat} (h : Mem.wfAbove (some c) m = true) (hb : b ≤ c) :
    Mem.wfAbove (some b) m = true := by
  cases m with
  | nil => rfl
  | cons e t =>
    obtain ⟨k, w⟩ := e
    simp only [Mem.wfAbove, aboveBound, Bool.and_eq_true, decide_eq_true_eq] at h ⊢
    exact ⟨⟨by omega, h.1.2⟩, h.2⟩

theorem Mem.wfAbove_none {m : List Host.Cell} {k : Nat} (h : Mem.wfAbove (some k) m = true) : Mem.wfAbove none m = true := by
  cases m with
  | nil => rfl
  | cons e t =>
    obtain ⟨k', w'⟩ := e
    simp only [Mem.wfAbove, Bool.and_eq_true] at h ⊢
    exact ⟨⟨rfl, h.1.2⟩, h.2⟩

theorem aboveBound_of {a : Nat} {o : Option Nat} (ha : ∀ b, o = some b → b < a) : aboveBound o a = true := by
  cases o with
  | none => rfl
  | some b => simpa [aboveBound] using ha b rfl

theorem Mem.wfAbove_write {m : List Host.Cell} {a : Nat} {v : Byte} {o : Option Nat} (h : Mem.wfAbove o m = true)
    (ha : ∀ b, o = some b → b < a) : Mem.wfAbove o (Mem.write m a v) = true := by
  have nz : ∀ {x : Byte}, ¬x = 0 → (x != 0) = true := fun hx => by simpa using hx
  induction m generalizing o with
  | nil =>
    simp only [Mem.write]
    split
    · rfl
    · rename_i hv
      simp only [Mem.wfAbove, Bool.and_eq_true]
      exact ⟨⟨aboveBound_of ha, nz hv⟩, trivial⟩
  | cons e t ih =>
    obtain ⟨k, w⟩ := e
    simp only [Mem.wfAbove, Bool.and_eq_true] at h
    obtain ⟨⟨h1, h2⟩, h3⟩ := h
    simp only [Mem.write]
    split
    · rename_i hk
      split
      · simp only [Mem.wfAbove, Bool.and_eq_true]; exact ⟨⟨h1, h2⟩, h3⟩
      · rename_i hv
        simp only [Mem.wfAbove, aboveBound, Bool.and_eq_true, decide_eq_true_eq]
        exact ⟨⟨aboveBound_of ha, nz hv⟩, ⟨hk, h2⟩, h3⟩
    · split
      · rename_i hk
        subst hk
        split
        · cases o with
          | none => exact Mem.wfAbove_none h3
          | some b => exact Mem.wfAbove_mono h3 (by have := ha b rfl; omega)
        · rename_i hv
          simp only [Mem.wfAbove, Bool.and_eq_true]
          exact ⟨⟨h1, nz hv⟩, h3⟩
      · rename_i hk1 hk2
        simp only [Mem.wfAbove, Bool.and_eq_true]
        refine ⟨⟨h1, h2⟩, ih h3 ?_⟩
        intro b hb
        cases hb
        omega

/-- Writing a byte keeps the canonical form. -/
theorem Memory.wf_write {m : List Host.Cell} (a : Nat) (v : Byte) (h : Memory.wf m = true) : Memory.wf (Mem.write m a v) = true :=
  Mem.wfAbove_write h (by simp)

/-- Writing a value of any width keeps it. -/
theorem Memory.wf_writeN (n : Nat) : ∀ {m : List Host.Cell} (a v : Nat), Memory.wf m = true → Memory.wf (Mem.writeN m a n v) = true := by
  induction n with
  | zero => intro m a v h; exact h
  | succ n ih => intro m a v h; exact ih _ _ (Memory.wf_write _ _ h)

/-- Writing a list of bytes keeps it. -/
theorem Memory.wf_writeBytes (bs : List Byte) : ∀ {m : List Host.Cell} (a : Nat), Memory.wf m = true →
    Memory.wf (Mem.writeBytes m a bs) = true := by
  induction bs with
  | nil => intro m a h; exact h
  | cons b bs ih => intro m a h; exact ih _ (Memory.wf_write _ _ h)

theorem Mem.wfAbove_filter {m : List Host.Cell} (p : Host.Cell → Bool) {o : Option Nat} (h : Mem.wfAbove o m = true) :
    Mem.wfAbove o (m.filter p) = true := by
  induction m generalizing o with
  | nil => rfl
  | cons e t ih =>
    obtain ⟨k, w⟩ := e
    simp only [Mem.wfAbove, Bool.and_eq_true] at h
    obtain ⟨⟨h1, h2⟩, h3⟩ := h
    have ht : Mem.wfAbove o t = true := by
      cases o with
      | none => exact Mem.wfAbove_none h3
      | some b => exact Mem.wfAbove_mono h3 (by have := of_decide_eq_true h1; omega)
    simp only [List.filter]
    split
    · simp only [Mem.wfAbove, Bool.and_eq_true]; exact ⟨⟨h1, h2⟩, ih h3⟩
    · exact ih ht

/-- Zeroing an interval keeps it. -/
theorem Memory.wf_clear {m : List Host.Cell} (a n : Nat) (h : Memory.wf m = true) : Memory.wf (Mem.clear m a n) = true :=
  Mem.wfAbove_filter _ h

end Sys2Proof.Machine
end

