-- ==== Sys2Proof/Laws/State.lean ====
section
/-! SUPPORT. What each update of State leaves of each field, and what the accessors read after it. -/
namespace Sys2Proof.Machine

/-! ### modGroup -/

@[simp] theorem State.modGroup_agenda (s : State) (g : Nat) (f : Group → Group) : (s.modGroup g f).agenda = s.agenda := rfl
@[simp] theorem State.modGroup_free (s : State) (g : Nat) (f : Group → Group) : (s.modGroup g f).free = s.free := rfl
@[simp] theorem State.modGroup_focus (s : State) (g : Nat) (f : Group → Group) : (s.modGroup g f).focus = s.focus := rfl
@[simp] theorem State.modGroup_nextUid (s : State) (g : Nat) (f : Group → Group) : (s.modGroup g f).nextUid = s.nextUid := rfl
@[simp] theorem State.modGroup_cycle (s : State) (g : Nat) (f : Group → Group) : (s.modGroup g f).cycle = s.cycle := rfl
@[simp] theorem State.modGroup_mem (s : State) (g : Nat) (f : Group → Group) : (s.modGroup g f).mem = s.mem := rfl
@[simp] theorem State.modGroup_host (s : State) (g : Nat) (f : Group → Group) : (s.modGroup g f).host = s.host := rfl
@[simp] theorem State.modGroup_dir (s : State) (g : Nat) (f : Group → Group) : (s.modGroup g f).dir = s.dir := rfl
@[simp] theorem State.modGroup_l2 (s : State) (g : Nat) (f : Group → Group) : (s.modGroup g f).l2 = s.l2 := rfl
@[simp] theorem State.modGroup_monitors (s : State) (g : Nat) (f : Group → Group) : (s.modGroup g f).monitors = s.monitors := rfl
@[simp] theorem State.modGroup_router (s : State) (g : Nat) (f : Group → Group) : (s.modGroup g f).router = s.router := rfl
@[simp] theorem State.modGroup_migrations (s : State) (g : Nat) (f : Group → Group) : (s.modGroup g f).migrations = s.migrations := rfl
@[simp] theorem State.modGroup_groups (s : State) (g : Nat) (f : Group → Group) : (s.modGroup g f).groups = s.groups.alter g f := rfl
@[simp] theorem State.modGroup_teams (s : State) (g : Nat) (f : Group → Group) : (s.modGroup g f).teams = s.teams := rfl
@[simp] theorem State.modGroup_clusters (s : State) (g : Nat) (f : Group → Group) : (s.modGroup g f).clusters = s.clusters := rfl
@[simp] theorem State.modGroup_launches (s : State) (g : Nat) (f : Group → Group) : (s.modGroup g f).launches = s.launches := rfl
@[simp] theorem State.modGroup_ctxs (s : State) (g : Nat) (f : Group → Group) : (s.modGroup g f).ctxs = s.ctxs := rfl
@[simp] theorem State.modGroup_cores (s : State) (g : Nat) (f : Group → Group) : (s.modGroup g f).cores = s.cores := rfl
@[simp] theorem State.modGroup_quads (s : State) (g : Nat) (f : Group → Group) : (s.modGroup g f).quads = s.quads := rfl
@[simp] theorem State.modGroup_dev (s : State) (g : Nat) (f : Group → Group) : (s.modGroup g f).dev = s.dev := rfl

/-! ### modTeam -/

@[simp] theorem State.modTeam_agenda (s : State) (t : Nat) (f : Team → Team) : (s.modTeam t f).agenda = s.agenda := rfl
@[simp] theorem State.modTeam_free (s : State) (t : Nat) (f : Team → Team) : (s.modTeam t f).free = s.free := rfl
@[simp] theorem State.modTeam_focus (s : State) (t : Nat) (f : Team → Team) : (s.modTeam t f).focus = s.focus := rfl
@[simp] theorem State.modTeam_nextUid (s : State) (t : Nat) (f : Team → Team) : (s.modTeam t f).nextUid = s.nextUid := rfl
@[simp] theorem State.modTeam_cycle (s : State) (t : Nat) (f : Team → Team) : (s.modTeam t f).cycle = s.cycle := rfl
@[simp] theorem State.modTeam_mem (s : State) (t : Nat) (f : Team → Team) : (s.modTeam t f).mem = s.mem := rfl
@[simp] theorem State.modTeam_host (s : State) (t : Nat) (f : Team → Team) : (s.modTeam t f).host = s.host := rfl
@[simp] theorem State.modTeam_dir (s : State) (t : Nat) (f : Team → Team) : (s.modTeam t f).dir = s.dir := rfl
@[simp] theorem State.modTeam_l2 (s : State) (t : Nat) (f : Team → Team) : (s.modTeam t f).l2 = s.l2 := rfl
@[simp] theorem State.modTeam_monitors (s : State) (t : Nat) (f : Team → Team) : (s.modTeam t f).monitors = s.monitors := rfl
@[simp] theorem State.modTeam_router (s : State) (t : Nat) (f : Team → Team) : (s.modTeam t f).router = s.router := rfl
@[simp] theorem State.modTeam_migrations (s : State) (t : Nat) (f : Team → Team) : (s.modTeam t f).migrations = s.migrations := rfl
@[simp] theorem State.modTeam_groups (s : State) (t : Nat) (f : Team → Team) : (s.modTeam t f).groups = s.groups := rfl
@[simp] theorem State.modTeam_teams (s : State) (t : Nat) (f : Team → Team) : (s.modTeam t f).teams = s.teams.alter t f := rfl
@[simp] theorem State.modTeam_clusters (s : State) (t : Nat) (f : Team → Team) : (s.modTeam t f).clusters = s.clusters := rfl
@[simp] theorem State.modTeam_launches (s : State) (t : Nat) (f : Team → Team) : (s.modTeam t f).launches = s.launches := rfl
@[simp] theorem State.modTeam_ctxs (s : State) (t : Nat) (f : Team → Team) : (s.modTeam t f).ctxs = s.ctxs := rfl
@[simp] theorem State.modTeam_cores (s : State) (t : Nat) (f : Team → Team) : (s.modTeam t f).cores = s.cores := rfl
@[simp] theorem State.modTeam_quads (s : State) (t : Nat) (f : Team → Team) : (s.modTeam t f).quads = s.quads := rfl
@[simp] theorem State.modTeam_dev (s : State) (t : Nat) (f : Team → Team) : (s.modTeam t f).dev = s.dev := rfl

/-! ### modCluster -/

@[simp] theorem State.modCluster_agenda (s : State) (c : Nat) (f : Cluster → Cluster) : (s.modCluster c f).agenda = s.agenda := rfl
@[simp] theorem State.modCluster_free (s : State) (c : Nat) (f : Cluster → Cluster) : (s.modCluster c f).free = s.free := rfl
@[simp] theorem State.modCluster_focus (s : State) (c : Nat) (f : Cluster → Cluster) : (s.modCluster c f).focus = s.focus := rfl
@[simp] theorem State.modCluster_nextUid (s : State) (c : Nat) (f : Cluster → Cluster) : (s.modCluster c f).nextUid = s.nextUid := rfl
@[simp] theorem State.modCluster_cycle (s : State) (c : Nat) (f : Cluster → Cluster) : (s.modCluster c f).cycle = s.cycle := rfl
@[simp] theorem State.modCluster_mem (s : State) (c : Nat) (f : Cluster → Cluster) : (s.modCluster c f).mem = s.mem := rfl
@[simp] theorem State.modCluster_host (s : State) (c : Nat) (f : Cluster → Cluster) : (s.modCluster c f).host = s.host := rfl
@[simp] theorem State.modCluster_dir (s : State) (c : Nat) (f : Cluster → Cluster) : (s.modCluster c f).dir = s.dir := rfl
@[simp] theorem State.modCluster_l2 (s : State) (c : Nat) (f : Cluster → Cluster) : (s.modCluster c f).l2 = s.l2 := rfl
@[simp] theorem State.modCluster_monitors (s : State) (c : Nat) (f : Cluster → Cluster) : (s.modCluster c f).monitors = s.monitors := rfl
@[simp] theorem State.modCluster_router (s : State) (c : Nat) (f : Cluster → Cluster) : (s.modCluster c f).router = s.router := rfl
@[simp] theorem State.modCluster_migrations (s : State) (c : Nat) (f : Cluster → Cluster) : (s.modCluster c f).migrations = s.migrations := rfl
@[simp] theorem State.modCluster_groups (s : State) (c : Nat) (f : Cluster → Cluster) : (s.modCluster c f).groups = s.groups := rfl
@[simp] theorem State.modCluster_teams (s : State) (c : Nat) (f : Cluster → Cluster) : (s.modCluster c f).teams = s.teams := rfl
@[simp] theorem State.modCluster_clusters (s : State) (c : Nat) (f : Cluster → Cluster) : (s.modCluster c f).clusters = s.clusters.alter c f := rfl
@[simp] theorem State.modCluster_launches (s : State) (c : Nat) (f : Cluster → Cluster) : (s.modCluster c f).launches = s.launches := rfl
@[simp] theorem State.modCluster_ctxs (s : State) (c : Nat) (f : Cluster → Cluster) : (s.modCluster c f).ctxs = s.ctxs := rfl
@[simp] theorem State.modCluster_cores (s : State) (c : Nat) (f : Cluster → Cluster) : (s.modCluster c f).cores = s.cores := rfl
@[simp] theorem State.modCluster_quads (s : State) (c : Nat) (f : Cluster → Cluster) : (s.modCluster c f).quads = s.quads := rfl
@[simp] theorem State.modCluster_dev (s : State) (c : Nat) (f : Cluster → Cluster) : (s.modCluster c f).dev = s.dev := rfl

/-! ### modLaunch -/

@[simp] theorem State.modLaunch_agenda (s : State) (l : Nat) (f : Launch → Launch) : (s.modLaunch l f).agenda = s.agenda := rfl
@[simp] theorem State.modLaunch_free (s : State) (l : Nat) (f : Launch → Launch) : (s.modLaunch l f).free = s.free := rfl
@[simp] theorem State.modLaunch_focus (s : State) (l : Nat) (f : Launch → Launch) : (s.modLaunch l f).focus = s.focus := rfl
@[simp] theorem State.modLaunch_nextUid (s : State) (l : Nat) (f : Launch → Launch) : (s.modLaunch l f).nextUid = s.nextUid := rfl
@[simp] theorem State.modLaunch_cycle (s : State) (l : Nat) (f : Launch → Launch) : (s.modLaunch l f).cycle = s.cycle := rfl
@[simp] theorem State.modLaunch_mem (s : State) (l : Nat) (f : Launch → Launch) : (s.modLaunch l f).mem = s.mem := rfl
@[simp] theorem State.modLaunch_host (s : State) (l : Nat) (f : Launch → Launch) : (s.modLaunch l f).host = s.host := rfl
@[simp] theorem State.modLaunch_dir (s : State) (l : Nat) (f : Launch → Launch) : (s.modLaunch l f).dir = s.dir := rfl
@[simp] theorem State.modLaunch_l2 (s : State) (l : Nat) (f : Launch → Launch) : (s.modLaunch l f).l2 = s.l2 := rfl
@[simp] theorem State.modLaunch_monitors (s : State) (l : Nat) (f : Launch → Launch) : (s.modLaunch l f).monitors = s.monitors := rfl
@[simp] theorem State.modLaunch_router (s : State) (l : Nat) (f : Launch → Launch) : (s.modLaunch l f).router = s.router := rfl
@[simp] theorem State.modLaunch_migrations (s : State) (l : Nat) (f : Launch → Launch) : (s.modLaunch l f).migrations = s.migrations := rfl
@[simp] theorem State.modLaunch_groups (s : State) (l : Nat) (f : Launch → Launch) : (s.modLaunch l f).groups = s.groups := rfl
@[simp] theorem State.modLaunch_teams (s : State) (l : Nat) (f : Launch → Launch) : (s.modLaunch l f).teams = s.teams := rfl
@[simp] theorem State.modLaunch_clusters (s : State) (l : Nat) (f : Launch → Launch) : (s.modLaunch l f).clusters = s.clusters := rfl
@[simp] theorem State.modLaunch_launches (s : State) (l : Nat) (f : Launch → Launch) : (s.modLaunch l f).launches = s.launches.alter l f := rfl
@[simp] theorem State.modLaunch_ctxs (s : State) (l : Nat) (f : Launch → Launch) : (s.modLaunch l f).ctxs = s.ctxs := rfl
@[simp] theorem State.modLaunch_cores (s : State) (l : Nat) (f : Launch → Launch) : (s.modLaunch l f).cores = s.cores := rfl
@[simp] theorem State.modLaunch_quads (s : State) (l : Nat) (f : Launch → Launch) : (s.modLaunch l f).quads = s.quads := rfl
@[simp] theorem State.modLaunch_dev (s : State) (l : Nat) (f : Launch → Launch) : (s.modLaunch l f).dev = s.dev := rfl

/-! ### modCore -/

@[simp] theorem State.modCore_agenda (s : State) (c : Nat) (f : Core → Core) : (s.modCore c f).agenda = s.agenda := rfl
@[simp] theorem State.modCore_free (s : State) (c : Nat) (f : Core → Core) : (s.modCore c f).free = s.free := rfl
@[simp] theorem State.modCore_focus (s : State) (c : Nat) (f : Core → Core) : (s.modCore c f).focus = s.focus := rfl
@[simp] theorem State.modCore_nextUid (s : State) (c : Nat) (f : Core → Core) : (s.modCore c f).nextUid = s.nextUid := rfl
@[simp] theorem State.modCore_cycle (s : State) (c : Nat) (f : Core → Core) : (s.modCore c f).cycle = s.cycle := rfl
@[simp] theorem State.modCore_mem (s : State) (c : Nat) (f : Core → Core) : (s.modCore c f).mem = s.mem := rfl
@[simp] theorem State.modCore_host (s : State) (c : Nat) (f : Core → Core) : (s.modCore c f).host = s.host := rfl
@[simp] theorem State.modCore_dir (s : State) (c : Nat) (f : Core → Core) : (s.modCore c f).dir = s.dir := rfl
@[simp] theorem State.modCore_l2 (s : State) (c : Nat) (f : Core → Core) : (s.modCore c f).l2 = s.l2 := rfl
@[simp] theorem State.modCore_monitors (s : State) (c : Nat) (f : Core → Core) : (s.modCore c f).monitors = s.monitors := rfl
@[simp] theorem State.modCore_router (s : State) (c : Nat) (f : Core → Core) : (s.modCore c f).router = s.router := rfl
@[simp] theorem State.modCore_migrations (s : State) (c : Nat) (f : Core → Core) : (s.modCore c f).migrations = s.migrations := rfl
@[simp] theorem State.modCore_groups (s : State) (c : Nat) (f : Core → Core) : (s.modCore c f).groups = s.groups := rfl
@[simp] theorem State.modCore_teams (s : State) (c : Nat) (f : Core → Core) : (s.modCore c f).teams = s.teams := rfl
@[simp] theorem State.modCore_clusters (s : State) (c : Nat) (f : Core → Core) : (s.modCore c f).clusters = s.clusters := rfl
@[simp] theorem State.modCore_launches (s : State) (c : Nat) (f : Core → Core) : (s.modCore c f).launches = s.launches := rfl
@[simp] theorem State.modCore_ctxs (s : State) (c : Nat) (f : Core → Core) : (s.modCore c f).ctxs = s.ctxs := rfl
@[simp] theorem State.modCore_cores (s : State) (c : Nat) (f : Core → Core) : (s.modCore c f).cores = s.cores.put c (f (s.core c)) := rfl
@[simp] theorem State.modCore_quads (s : State) (c : Nat) (f : Core → Core) : (s.modCore c f).quads = s.quads := rfl
@[simp] theorem State.modCore_dev (s : State) (c : Nat) (f : Core → Core) : (s.modCore c f).dev = s.dev := rfl

/-! ### modQuad -/

@[simp] theorem State.modQuad_agenda (s : State) (q : Nat) (f : Quad → Quad) : (s.modQuad q f).agenda = s.agenda := rfl
@[simp] theorem State.modQuad_free (s : State) (q : Nat) (f : Quad → Quad) : (s.modQuad q f).free = s.free := rfl
@[simp] theorem State.modQuad_focus (s : State) (q : Nat) (f : Quad → Quad) : (s.modQuad q f).focus = s.focus := rfl
@[simp] theorem State.modQuad_nextUid (s : State) (q : Nat) (f : Quad → Quad) : (s.modQuad q f).nextUid = s.nextUid := rfl
@[simp] theorem State.modQuad_cycle (s : State) (q : Nat) (f : Quad → Quad) : (s.modQuad q f).cycle = s.cycle := rfl
@[simp] theorem State.modQuad_mem (s : State) (q : Nat) (f : Quad → Quad) : (s.modQuad q f).mem = s.mem := rfl
@[simp] theorem State.modQuad_host (s : State) (q : Nat) (f : Quad → Quad) : (s.modQuad q f).host = s.host := rfl
@[simp] theorem State.modQuad_dir (s : State) (q : Nat) (f : Quad → Quad) : (s.modQuad q f).dir = s.dir := rfl
@[simp] theorem State.modQuad_l2 (s : State) (q : Nat) (f : Quad → Quad) : (s.modQuad q f).l2 = s.l2 := rfl
@[simp] theorem State.modQuad_monitors (s : State) (q : Nat) (f : Quad → Quad) : (s.modQuad q f).monitors = s.monitors := rfl
@[simp] theorem State.modQuad_router (s : State) (q : Nat) (f : Quad → Quad) : (s.modQuad q f).router = s.router := rfl
@[simp] theorem State.modQuad_migrations (s : State) (q : Nat) (f : Quad → Quad) : (s.modQuad q f).migrations = s.migrations := rfl
@[simp] theorem State.modQuad_groups (s : State) (q : Nat) (f : Quad → Quad) : (s.modQuad q f).groups = s.groups := rfl
@[simp] theorem State.modQuad_teams (s : State) (q : Nat) (f : Quad → Quad) : (s.modQuad q f).teams = s.teams := rfl
@[simp] theorem State.modQuad_clusters (s : State) (q : Nat) (f : Quad → Quad) : (s.modQuad q f).clusters = s.clusters := rfl
@[simp] theorem State.modQuad_launches (s : State) (q : Nat) (f : Quad → Quad) : (s.modQuad q f).launches = s.launches := rfl
@[simp] theorem State.modQuad_ctxs (s : State) (q : Nat) (f : Quad → Quad) : (s.modQuad q f).ctxs = s.ctxs := rfl
@[simp] theorem State.modQuad_cores (s : State) (q : Nat) (f : Quad → Quad) : (s.modQuad q f).cores = s.cores := rfl
@[simp] theorem State.modQuad_quads (s : State) (q : Nat) (f : Quad → Quad) : (s.modQuad q f).quads = s.quads.put q (f (s.quad q)) := rfl
@[simp] theorem State.modQuad_dev (s : State) (q : Nat) (f : Quad → Quad) : (s.modQuad q f).dev = s.dev := rfl

/-! ### modCtx -/

@[simp] theorem State.modCtx_agenda (s : State) (c : Nat) (f : Ctx → Ctx) : (s.modCtx c f).agenda = s.agenda := rfl
@[simp] theorem State.modCtx_free (s : State) (c : Nat) (f : Ctx → Ctx) : (s.modCtx c f).free = s.free := rfl
@[simp] theorem State.modCtx_focus (s : State) (c : Nat) (f : Ctx → Ctx) : (s.modCtx c f).focus = s.focus := rfl
@[simp] theorem State.modCtx_nextUid (s : State) (c : Nat) (f : Ctx → Ctx) : (s.modCtx c f).nextUid = s.nextUid := rfl
@[simp] theorem State.modCtx_cycle (s : State) (c : Nat) (f : Ctx → Ctx) : (s.modCtx c f).cycle = s.cycle := rfl
@[simp] theorem State.modCtx_mem (s : State) (c : Nat) (f : Ctx → Ctx) : (s.modCtx c f).mem = s.mem := rfl
@[simp] theorem State.modCtx_host (s : State) (c : Nat) (f : Ctx → Ctx) : (s.modCtx c f).host = s.host := rfl
@[simp] theorem State.modCtx_dir (s : State) (c : Nat) (f : Ctx → Ctx) : (s.modCtx c f).dir = s.dir := rfl
@[simp] theorem State.modCtx_l2 (s : State) (c : Nat) (f : Ctx → Ctx) : (s.modCtx c f).l2 = s.l2 := rfl
@[simp] theorem State.modCtx_monitors (s : State) (c : Nat) (f : Ctx → Ctx) : (s.modCtx c f).monitors = s.monitors := rfl
@[simp] theorem State.modCtx_router (s : State) (c : Nat) (f : Ctx → Ctx) : (s.modCtx c f).router = s.router := rfl
@[simp] theorem State.modCtx_migrations (s : State) (c : Nat) (f : Ctx → Ctx) : (s.modCtx c f).migrations = s.migrations := rfl
@[simp] theorem State.modCtx_groups (s : State) (c : Nat) (f : Ctx → Ctx) : (s.modCtx c f).groups = s.groups := rfl
@[simp] theorem State.modCtx_teams (s : State) (c : Nat) (f : Ctx → Ctx) : (s.modCtx c f).teams = s.teams := rfl
@[simp] theorem State.modCtx_clusters (s : State) (c : Nat) (f : Ctx → Ctx) : (s.modCtx c f).clusters = s.clusters := rfl
@[simp] theorem State.modCtx_launches (s : State) (c : Nat) (f : Ctx → Ctx) : (s.modCtx c f).launches = s.launches := rfl
@[simp] theorem State.modCtx_ctxs (s : State) (c : Nat) (f : Ctx → Ctx) : (s.modCtx c f).ctxs = s.ctxs.put c (f (s.ctx c)) := rfl
@[simp] theorem State.modCtx_cores (s : State) (c : Nat) (f : Ctx → Ctx) : (s.modCtx c f).cores = s.cores := rfl
@[simp] theorem State.modCtx_quads (s : State) (c : Nat) (f : Ctx → Ctx) : (s.modCtx c f).quads = s.quads := rfl
@[simp] theorem State.modCtx_dev (s : State) (c : Nat) (f : Ctx → Ctx) : (s.modCtx c f).dev = s.dev := rfl

/-! ### modLine -/

@[simp] theorem State.modLine_agenda (s : State) (n : Nat) (f : DirEntry → DirEntry) : (s.modLine n f).agenda = s.agenda := rfl
@[simp] theorem State.modLine_free (s : State) (n : Nat) (f : DirEntry → DirEntry) : (s.modLine n f).free = s.free := rfl
@[simp] theorem State.modLine_focus (s : State) (n : Nat) (f : DirEntry → DirEntry) : (s.modLine n f).focus = s.focus := rfl
@[simp] theorem State.modLine_nextUid (s : State) (n : Nat) (f : DirEntry → DirEntry) : (s.modLine n f).nextUid = s.nextUid := rfl
@[simp] theorem State.modLine_cycle (s : State) (n : Nat) (f : DirEntry → DirEntry) : (s.modLine n f).cycle = s.cycle := rfl
@[simp] theorem State.modLine_mem (s : State) (n : Nat) (f : DirEntry → DirEntry) : (s.modLine n f).mem = s.mem := rfl
@[simp] theorem State.modLine_host (s : State) (n : Nat) (f : DirEntry → DirEntry) : (s.modLine n f).host = s.host := rfl
@[simp] theorem State.modLine_dir (s : State) (n : Nat) (f : DirEntry → DirEntry) : (s.modLine n f).dir = s.dir.put n (f (s.line n)) := rfl
@[simp] theorem State.modLine_l2 (s : State) (a : Nat) (f : DirEntry → DirEntry) : (s.modLine a f).l2 = s.l2 := rfl
@[simp] theorem State.modLine_monitors (s : State) (n : Nat) (f : DirEntry → DirEntry) : (s.modLine n f).monitors = s.monitors := rfl
@[simp] theorem State.modLine_router (s : State) (n : Nat) (f : DirEntry → DirEntry) : (s.modLine n f).router = s.router := rfl
@[simp] theorem State.modLine_migrations (s : State) (n : Nat) (f : DirEntry → DirEntry) : (s.modLine n f).migrations = s.migrations := rfl
@[simp] theorem State.modLine_groups (s : State) (n : Nat) (f : DirEntry → DirEntry) : (s.modLine n f).groups = s.groups := rfl
@[simp] theorem State.modLine_teams (s : State) (n : Nat) (f : DirEntry → DirEntry) : (s.modLine n f).teams = s.teams := rfl
@[simp] theorem State.modLine_clusters (s : State) (n : Nat) (f : DirEntry → DirEntry) : (s.modLine n f).clusters = s.clusters := rfl
@[simp] theorem State.modLine_launches (s : State) (n : Nat) (f : DirEntry → DirEntry) : (s.modLine n f).launches = s.launches := rfl
@[simp] theorem State.modLine_ctxs (s : State) (n : Nat) (f : DirEntry → DirEntry) : (s.modLine n f).ctxs = s.ctxs := rfl
@[simp] theorem State.modLine_cores (s : State) (n : Nat) (f : DirEntry → DirEntry) : (s.modLine n f).cores = s.cores := rfl
@[simp] theorem State.modLine_quads (s : State) (n : Nat) (f : DirEntry → DirEntry) : (s.modLine n f).quads = s.quads := rfl
@[simp] theorem State.modLine_dev (s : State) (n : Nat) (f : DirEntry → DirEntry) : (s.modLine n f).dev = s.dev := rfl

/-! ### fresh -/

@[simp] theorem State.fresh_agenda (s : State) : s.fresh.1.agenda = s.agenda := rfl
@[simp] theorem State.fresh_free (s : State) : s.fresh.1.free = s.free := rfl
@[simp] theorem State.fresh_focus (s : State) : s.fresh.1.focus = s.focus := rfl
@[simp] theorem State.fresh_nextUid (s : State) : s.fresh.1.nextUid = s.nextUid + 1 := rfl
@[simp] theorem State.fresh_cycle (s : State) : s.fresh.1.cycle = s.cycle := rfl
@[simp] theorem State.fresh_mem (s : State) : s.fresh.1.mem = s.mem := rfl
@[simp] theorem State.fresh_host (s : State) : s.fresh.1.host = s.host := rfl
@[simp] theorem State.fresh_dir (s : State) : s.fresh.1.dir = s.dir := rfl
@[simp] theorem State.fresh_l2 (s : State) : s.fresh.1.l2 = s.l2 := rfl
@[simp] theorem State.fresh_monitors (s : State) : s.fresh.1.monitors = s.monitors := rfl
@[simp] theorem State.fresh_router (s : State) : s.fresh.1.router = s.router := rfl
@[simp] theorem State.fresh_migrations (s : State) : s.fresh.1.migrations = s.migrations := rfl
@[simp] theorem State.fresh_groups (s : State) : s.fresh.1.groups = s.groups := rfl
@[simp] theorem State.fresh_teams (s : State) : s.fresh.1.teams = s.teams := rfl
@[simp] theorem State.fresh_clusters (s : State) : s.fresh.1.clusters = s.clusters := rfl
@[simp] theorem State.fresh_launches (s : State) : s.fresh.1.launches = s.launches := rfl
@[simp] theorem State.fresh_ctxs (s : State) : s.fresh.1.ctxs = s.ctxs := rfl
@[simp] theorem State.fresh_cores (s : State) : s.fresh.1.cores = s.cores := rfl
@[simp] theorem State.fresh_quads (s : State) : s.fresh.1.quads = s.quads := rfl
@[simp] theorem State.fresh_dev (s : State) : s.fresh.1.dev = s.dev := rfl

/-! ### Accessors -/

theorem State.group_modGroup (s : State) (g : Nat) (f : Group → Group) : (s.modGroup g f).group g = (s.group g).map f :=
  Tab.look_alter_same _ _ _

theorem State.group_modGroup_other (s : State) {g n : Nat} (f : Group → Group) (h : n ≠ g) : (s.modGroup g f).group n = s.group n :=
  Tab.look_alter_other _ _ h

theorem State.team_modTeam (s : State) (t : Nat) (f : Team → Team) : (s.modTeam t f).team t = (s.team t).map f :=
  Tab.look_alter_same _ _ _

theorem State.team_modTeam_other (s : State) {t n : Nat} (f : Team → Team) (h : n ≠ t) : (s.modTeam t f).team n = s.team n :=
  Tab.look_alter_other _ _ h

theorem State.launch_modLaunch (s : State) (l : Nat) (f : Launch → Launch) : (s.modLaunch l f).launch l = (s.launch l).map f :=
  Tab.look_alter_same _ _ _

theorem State.core_modCore (s : State) (c n : Nat) (f : Core → Core) :
    (s.modCore c f).core n = if n = c then f (s.core c) else s.core n := by
  simp only [State.core, State.modCore, Tab.getD, Tab.look_put]
  split <;> simp

theorem State.quad_modQuad (s : State) (q n : Nat) (f : Quad → Quad) :
    (s.modQuad q f).quad n = if n = q then f (s.quad q) else s.quad n := by
  simp only [State.quad, State.modQuad, Tab.getD, Tab.look_put]
  split <;> simp

theorem State.ctx_modCtx (s : State) (c n : Nat) (f : Ctx → Ctx) :
    (s.modCtx c f).ctx n = if n = c then f (s.ctx c) else s.ctx n := by
  simp only [State.ctx, State.modCtx, Tab.getD, Tab.look_put]
  split <;> simp

theorem State.line_modLine (s : State) (a n : Nat) (f : DirEntry → DirEntry) :
    (s.modLine a f).line n = if n = a then f (s.line a) else s.line n := by
  simp only [State.line, State.modLine, Tab.getD, Tab.look_put]
  split <;> simp

@[simp] theorem State.group_modTeam (s : State) (t n : Nat) (f : Team → Team) : (s.modTeam t f).group n = s.group n := rfl
@[simp] theorem State.group_modCore (s : State) (c n : Nat) (f : Core → Core) : (s.modCore c f).group n = s.group n := rfl
@[simp] theorem State.group_modQuad (s : State) (q n : Nat) (f : Quad → Quad) : (s.modQuad q f).group n = s.group n := rfl
@[simp] theorem State.group_modCtx (s : State) (c n : Nat) (f : Ctx → Ctx) : (s.modCtx c f).group n = s.group n := rfl
@[simp] theorem State.team_modGroup (s : State) (g n : Nat) (f : Group → Group) : (s.modGroup g f).team n = s.team n := rfl
@[simp] theorem State.team_modCore (s : State) (c n : Nat) (f : Core → Core) : (s.modCore c f).team n = s.team n := rfl
@[simp] theorem State.core_modGroup (s : State) (g n : Nat) (f : Group → Group) : (s.modGroup g f).core n = s.core n := rfl
@[simp] theorem State.core_modTeam (s : State) (t n : Nat) (f : Team → Team) : (s.modTeam t f).core n = s.core n := rfl
@[simp] theorem State.core_modCtx (s : State) (c n : Nat) (f : Ctx → Ctx) : (s.modCtx c f).core n = s.core n := rfl
@[simp] theorem State.ctx_modGroup (s : State) (g n : Nat) (f : Group → Group) : (s.modGroup g f).ctx n = s.ctx n := rfl
@[simp] theorem State.ctx_modTeam (s : State) (t n : Nat) (f : Team → Team) : (s.modTeam t f).ctx n = s.ctx n := rfl
@[simp] theorem State.ctx_modCore (s : State) (c n : Nat) (f : Core → Core) : (s.modCore c f).ctx n = s.ctx n := rfl
@[simp] theorem State.quad_modGroup (s : State) (g n : Nat) (f : Group → Group) : (s.modGroup g f).quad n = s.quad n := rfl

/-- Two changes of one group are one. -/
theorem State.modGroup_modGroup (s : State) (g : Nat) (f h : Group → Group) :
    (s.modGroup g f).modGroup g h = s.modGroup g (fun x => h (f x)) := by
  simp [State.modGroup, Tab.alter_alter]

end Sys2Proof.Machine
end

