-- ==== Sys2Proof/Laws/Group.lean ====
section
/-! SUPPORT. Registers and predicates after a write, and what retiring a word and closing a window leave of a group. -/
namespace Sys2Proof.Machine

/-! ### Registers and predicates -/

theorem regKey_inj {n l m k : Nat} (hl : l < 32) (hk : k < 32) : regKey n l = regKey m k ↔ n = m ∧ l = k := by
  unfold regKey
  constructor
  · intro h; omega
  · rintro ⟨rfl, rfl⟩; rfl

theorem Group.reg_setReg (g : Group) {n l m k : Nat} (w : Word) (hl : l < 32) (hk : k < 32) :
    (g.setReg n l w).reg m k = if m = n ∧ k = l then w else g.reg m k := by
  simp only [Group.setReg, Group.reg, Tab.look_put]
  by_cases h : m = n ∧ k = l
  · obtain ⟨rfl, rfl⟩ := h; simp
  · have : regKey m k ≠ regKey n l := fun e => h ((regKey_inj hk hl).1 e)
    simp [h, this]

theorem Group.setRegs_cons (g : Group) (n l : Nat) (ls : List Nat) (f : Nat → Word) :
    g.setRegs n (l :: ls) f = (g.setReg n l (f l)).setRegs n ls f := rfl

/-- Registers after a write of register n in some lanes. -/
theorem Group.reg_setRegs (ls : List Nat) : ∀ (g : Group) {n m k : Nat} (f : Nat → Word), (∀ l ∈ ls, l < 32) → k < 32 →
    (g.setRegs n ls f).reg m k = if m = n ∧ k ∈ ls then f k else g.reg m k := by
  induction ls with
  | nil => intro g n m k f _ _; simp [Group.setRegs]
  | cons l ls ih =>
    intro g n m k f h hk
    rw [Group.setRegs_cons, ih _ f (fun x hx => h x (List.mem_cons_of_mem _ hx)) hk,
      Group.reg_setReg g (f l) (h l List.mem_cons_self) hk]
    by_cases h1 : m = n <;> by_cases h2 : k = l <;> by_cases h3 : k ∈ ls <;> simp_all

/-- A write of registers changes nothing but registers. -/
theorem Group.setRegs_eq (ls : List Nat) : ∀ (g : Group) (n : Nat) (f : Nat → Word),
    g.setRegs n ls f = { g with regs := (g.setRegs n ls f).regs } := by
  induction ls with
  | nil => intros; rfl
  | cons l ls ih => intro g n f; rw [Group.setRegs_cons, ih]; rfl

theorem Group.setPairs_eq (g : Group) (n : Nat) (ls : List Nat) (f : Nat → Dword) :
    g.setPairs n ls f = { g with regs := (g.setPairs n ls f).regs } := by
  simp only [Group.setPairs]
  rw [Group.setRegs_eq, Group.setRegs_eq ls g]

theorem setLane_bit (m : LaneMask) (l k : Nat) (b : Bool) (hl : l < 32) (hk : k < 32) :
    (setLane m l b).getLsbD k = if k = l then b else m.getLsbD k := by
  by_cases h : k = l
  · subst h; cases b <;> simp [setLane, hk]
  · cases b
    · simp only [setLane, h, if_false, Bool.false_eq_true, BitVec.getLsbD_and, BitVec.getLsbD_not, BitVec.getLsbD_twoPow]
      simp [hk, Ne.symm h]
    · simp only [setLane, h, if_true, if_false, BitVec.getLsbD_or, BitVec.getLsbD_twoPow]
      simp [Ne.symm h]

theorem Group.pred_setPred (g : Group) (p q : BitVec 3) {l k : Nat} (b : Bool) (hl : l < 32) (hk : k < 32) :
    (g.setPred p l b).pred q k = if q = p ∧ q ≠ 7 ∧ k = l then b else g.pred q k := by
  simp only [Group.setPred, Group.pred]
  by_cases hp : p = 7
  · subst hp
    by_cases hq : q = 7
    · simp [hq]
    · simp only [if_true, hq, if_false, false_and]
  · simp only [hp, if_false]
    by_cases hq : q = 7
    · simp [hq]
    · simp only [hq, if_false, Tab.getD, Tab.look_put]
      by_cases h : q.toNat = p.toNat
      · have h' : q = p := BitVec.eq_of_toNat_eq h
        subst h'
        simp only [if_true, Option.getD_some, ne_eq, hq, not_false_eq_true, true_and]
        rw [setLane_bit _ _ _ _ hl hk]
      · have h' : q ≠ p := fun e => h (by rw [e])
        simp [h, h']

theorem Group.setPreds_cons (g : Group) (p : BitVec 3) (l : Nat) (ls : List Nat) (f : Nat → Bool) :
    g.setPreds p (l :: ls) f = (g.setPred p l (f l)).setPreds p ls f := rfl

/-- Predicates after a write of predicate p in some lanes. -/
theorem Group.pred_setPreds (ls : List Nat) : ∀ (g : Group) {p q : BitVec 3} {k : Nat} (f : Nat → Bool), (∀ l ∈ ls, l < 32) →
    k < 32 → (g.setPreds p ls f).pred q k = if q = p ∧ q ≠ 7 ∧ k ∈ ls then f k else g.pred q k := by
  induction ls with
  | nil => intro g p q k f _ _; simp [Group.setPreds]
  | cons l ls ih =>
    intro g p q k f h hk
    rw [Group.setPreds_cons, ih _ f (fun x hx => h x (List.mem_cons_of_mem _ hx)) hk,
      Group.pred_setPred g p q (f l) (h l List.mem_cons_self) hk]
    by_cases h1 : q = p <;> by_cases h2 : q = 7 <;> by_cases h3 : k = l <;> by_cases h4 : k ∈ ls <;> simp_all

theorem Group.setPred_eq (g : Group) (p : BitVec 3) (l : Nat) (b : Bool) :
    g.setPred p l b = { g with preds := (g.setPred p l b).preds } := by
  unfold Group.setPred; split <;> rfl

theorem Group.setPreds_eq (ls : List Nat) : ∀ (g : Group) (p : BitVec 3) (f : Nat → Bool),
    g.setPreds p ls f = { g with preds := (g.setPreds p ls f).preds } := by
  induction ls with
  | nil => intros; rfl
  | cons l ls ih => intro g p f; rw [Group.setPreds_cons, ih, Group.setPred_eq]

/-- Lanes are numbered below 32 (R12). -/
theorem Group.activeLanes_lt (g : Group) (ns : List Nat) : ∀ l ∈ g.activeLanes ns, l < 32 := by
  intro l h
  simp only [Group.activeLanes, List.mem_flatMap, List.mem_filter, Bool.and_eq_true, decide_eq_true_eq] at h
  obtain ⟨_, _, _, h, _⟩ := h
  exact h

theorem View.active_lt (v : View) : ∀ l ∈ v.active, l < 32 := Group.activeLanes_lt _ _

theorem View.lanes_lt (v : View) (gd : Guard) : ∀ l ∈ v.lanes gd, l < 32 := by
  intro l h
  exact v.active_lt l (List.mem_filter.1 h).1

/-! ### Groups that have moved on -/

theorem Slice.Moved.refl (a : Slice) : a.Moved a := rfl

theorem Slice.Moved.trans {a b c : Slice} (h : a.Moved b) (k : b.Moved c) : a.Moved c := by
  unfold Slice.Moved at *
  rw [k, h]

theorem Group.Moved.refl (a : Group) : a.Moved a := ⟨rfl, fun _ => Slice.Moved.refl _⟩

theorem Group.Moved.trans {a b c : Group} (h : a.Moved b) (k : b.Moved c) : a.Moved c :=
  ⟨by rw [k.rest, h.rest], fun n => (h.slices n).trans (k.slices n)⟩

theorem Group.moved_gangs (g : Group) (ks : List Gang) (n : Nat) : g.Moved { g with gangs := ks, nextGang := n } :=
  ⟨rfl, fun _ => Slice.Moved.refl _⟩

theorem Group.moved_modGang (g : Group) (k : Nat) (f : Gang → Gang) : g.Moved (g.modGang k f) := g.moved_gangs _ _

theorem Tab.look_map {α : Type} (t : Tab α) (p : Nat → Bool) (f : α → α) (n : Nat) :
    Tab.look (t.map fun e => if p e.1 then (e.1, f e.2) else e) n = (t.look n).map fun x => if p n then f x else x := by
  induction t with
  | nil => rfl
  | cons e t ih =>
    obtain ⟨k, w⟩ := e
    by_cases hp : p k = true
    · by_cases hk : k = n
      · subst hk; simp [Tab.look, hp]
      · simp [Tab.look, hp, hk, ih]
    · by_cases hk : k = n
      · subst hk; simp [Tab.look, hp]
      · simp [Tab.look, hp, hk, ih]

theorem Group.moved_modSlices (g : Group) (ns : List Nat) (f : Slice → Slice) (h : ∀ sl : Slice, sl.Moved (f sl)) :
    g.Moved (g.modSlices ns f) := by
  refine ⟨rfl, fun n => ?_⟩
  simp only [Group.slice, Group.modSlices, Tab.getD]
  have e := Tab.look_map g.slices (fun m => ns.contains m) f n
  rw [e]
  cases g.slices.look n with
  | none => exact Slice.Moved.refl _
  | some sl =>
    simp only [Option.map_some, Option.getD_some]
    split
    · exact h sl
    · exact Slice.Moved.refl _

theorem Slice.moved_sign (frozen : Bool) (op : Option Nat) (extra : Word) (sl : Slice) : sl.Moved (sl.sign frozen op extra) := by
  simp only [Slice.Moved, Slice.sign]

theorem Group.moved_countWord (g : Group) (k : Gang) : g.Moved (g.countWord k) := by
  unfold Group.countWord
  split
  · exact ⟨rfl, fun _ => Slice.Moved.refl _⟩
  · exact g.moved_modGang _ _

/-- Retiring a word moves a group on and changes nothing else of it. -/
theorem Group.moved_retire (g : Group) (kid now : Nat) (op : Option Nat) (extra : Word) (br : Bool)
    (lat : Option (List Nat × (Nat → Word))) : g.Moved (g.retire kid now op extra br lat) := by
  unfold Group.retire
  split
  · exact Group.Moved.refl g
  · rename_i k _
    have h1 : g.Moved ((g.countWord k).modSlices k.slices (Slice.sign g.inHandler op extra)) :=
      (g.moved_countWord k).trans ((g.countWord k).moved_modSlices _ _ (Slice.moved_sign _ _ _))
    have h2 : ∀ (a : Group) (x : Option Nat), a.Moved { a with det := { a.det with granted := x } } :=
      fun a x => ⟨rfl, fun _ => Slice.Moved.refl _⟩
    have h3 := h1.trans (h2 _ (if ((g.countWord k).modSlices k.slices (Slice.sign g.inHandler op extra)).det.granted == some kid
      then none else ((g.countWord k).modSlices k.slices (Slice.sign g.inHandler op extra)).det.granted))
    split
    · exact h3
    · split
      · exact h3.trans (Group.moved_modGang _ _ _)
      · split
        · exact (h3.trans (Group.moved_modSlices _ _ _ fun sl => by rfl)).trans (Group.moved_modGang _ _ _)
        · exact (h3.trans (Group.moved_modSlices _ _ _ fun sl => by rfl)).trans (Group.moved_modGang _ _ _)

theorem Group.moved_foldl {α : Type} (f : Group → α → Group) (h : ∀ (g : Group) (x : α), g.Moved (f g x)) (xs : List α) :
    ∀ g : Group, g.Moved (xs.foldl f g) := by
  induction xs with
  | nil => exact fun g => Group.Moved.refl g
  | cons x xs ih => exact fun g => (h g x).trans (ih _)

theorem Group.moved_closeWindow (g : Group) (all : Bool) (addr : Dword) (inH : Bool) (now : Nat) :
    g.Moved (g.closeWindow all addr inH now) := by
  simp only [Group.closeWindow]
  have h1 := Group.moved_foldl (fun (g : Group) (k : Gang) =>
      (g.modGang k.id fun k => { k with wait := .no }).retire k.id now (some 0x28A) 0 false none)
    (fun g k => (g.moved_modGang _ _).trans (Group.moved_retire _ _ _ _ _ _ _))
    (g.gangs.filter (g.inWindow all addr inH)) g
  split
  · exact h1
  · exact h1.trans (Group.moved_gangs _ _ _)

theorem Group.moved_ite {c : Prop} [Decidable c] {g a b : Group} (ha : g.Moved a) (hb : g.Moved b) : g.Moved (if c then a else b) := by
  split
  · exact ha
  · exact hb

/-- Closing windows moves a group on and changes nothing else of it. -/
theorem Group.moved_closeWindows (g : Group) (now : Nat) : g.Moved (g.closeWindows now) := by
  unfold Group.closeWindows
  refine Group.moved_foldl _ (fun g k0 => ?_) _ g
  split
  · exact Group.Moved.refl g
  · split
    · exact Group.moved_ite (g.moved_closeWindow _ _ _ _) (Group.Moved.refl g)
    · exact Group.Moved.refl g

theorem Group.moved_meetAgain (g : Group) (now : Nat) : g.Moved (g.meetAgain now) := by
  unfold Group.meetAgain
  split
  · exact Group.Moved.refl g
  · split
    · exact g.moved_modGang _ _
    · exact Group.Moved.refl g

theorem Group.moved_ungrant (g : Group) (kid : Nat) : g.Moved (g.ungrant kid) := by
  unfold Group.ungrant
  split
  · exact Group.Moved.refl g
  · split
    · exact ⟨rfl, fun _ => Slice.Moved.refl _⟩
    · exact Group.Moved.refl g

/-- A group that has moved on reads as before. -/
theorem Group.Moved.reg {a b : Group} (h : a.Moved b) (n l : Nat) : b.reg n l = a.reg n l := by
  rw [h.rest]; rfl

theorem Group.Moved.pred {a b : Group} (h : a.Moved b) (p : BitVec 3) (l : Nat) : b.pred p l = a.pred p l := by
  rw [h.rest]; rfl

theorem Group.Moved.fstat {a b : Group} (h : a.Moved b) : b.fstat = a.fstat := by rw [h.rest]
theorem Group.Moved.regs {a b : Group} (h : a.Moved b) : b.regs = a.regs := by rw [h.rest]
theorem Group.Moved.preds {a b : Group} (h : a.Moved b) : b.preds = a.preds := by rw [h.rest]

/-! ### The latch of a word that has retired (R59) -/

theorem mapIf_find {α : Type} (f : α → α) (p q : α → Bool) (h : ∀ x, q (f x) = q x) (xs : List α) :
    (mapIf p f xs).find? q = (xs.find? q).map fun x => if p x then f x else x := by
  induction xs with
  | nil => rfl
  | cons x xs ih =>
    have e : mapIf p f (x :: xs) = (if p x then f x else x) :: mapIf p f xs := by simp [mapIf]
    have h' : q (if p x then f x else x) = q x := by split <;> simp [h]
    rw [e, List.find?_cons, List.find?_cons, h', ih]
    cases q x <;> rfl

/-- A gang after a change of a gang that keeps its name. -/
theorem Group.gang_modGang (g : Group) (n m : Nat) (f : Gang → Gang) (h : ∀ k, (f k).id = k.id) :
    (g.modGang n f).gang m = (g.gang m).map fun k => if k.id == n then f k else k := by
  simp only [Group.gang, Group.modGang]
  exact mapIf_find f _ _ (fun x => by rw [h]) _

theorem Group.gang_id {g : Group} {n : Nat} {k : Gang} (h : g.gang n = some k) : k.id = n := by
  have := List.find?_some h
  simpa using this

theorem Group.gangs_modGang (g : Group) (n : Nat) (f : Gang → Gang) (h : ∀ k, (f k).wait = k.wait) :
    ∀ k ∈ (g.modGang n f).gangs, ∃ j ∈ g.gangs, k.wait = j.wait := by
  intro k hk
  simp only [Group.modGang, mapIf, List.mem_map] at hk
  obtain ⟨j, hj, rfl⟩ := hk
  exact ⟨j, hj, by split <;> simp [h]⟩

/-- Lanes of a latch table: those of other slots stay, those of the slot are what is put. -/
theorem lats_foldl (k : Nat) (f : Nat → Word) (ls : List Nat) : ∀ (t : Tab Word) {l : Nat}, l < 32 → (∀ x ∈ ls, x < 32) →
    (ls.foldl (fun t x => t.put (32 * k + x) (f x)) t).getD (32 * k + l) 0 = if ls.contains l then f l else t.getD (32 * k + l) 0 := by
  induction ls with
  | nil => intros; simp
  | cons x xs ih =>
    intro t l hl h
    rw [List.foldl_cons, ih _ hl fun y hy => h y (List.mem_cons_of_mem _ hy)]
    simp only [Tab.getD, Tab.look_put]
    by_cases h1 : l = x
    · subst h1; simp
    · have : 32 * k + l ≠ 32 * k + x := by omega
      simp [h1]

theorem lats_filter (k l : Nat) (t : Tab Word) (hl : l < 32) :
    Tab.getD (t.filter fun e => e.1 / 32 != k) (32 * k + l) 0 = 0 := by
  induction t with
  | nil => rfl
  | cons e t ih =>
    by_cases h : e.1 / 32 = k
    · simpa [h] using ih
    · have : e.1 ≠ 32 * k + l := by intro e'; apply h; omega
      have h1 : (List.filter (fun e => e.1 / 32 != k) (e :: t)) = e :: List.filter (fun e => e.1 / 32 != k) t := by simp [h]
      rw [h1]
      simp only [Tab.getD, Tab.look, this, if_false] at ih ⊢
      exact ih

/-- What a clause's latch of the current slot reads after it has been written. -/
theorem Clause.latch_spec (c : Clause) (ls : List Nat) (f : Nat → Word) (h : ∀ x ∈ ls, x < 32) :
    (c.latch (some (ls, f))).latOk.getLsbD (c.slot % 8) = true
      ∧ ∀ l, l < 32 → (c.latch (some (ls, f))).lats.getD (32 * (c.slot % 8) + l) 0 = if ls.contains l then f l else 0 := by
  constructor
  · have : c.slot % 8 < 8 := Nat.mod_lt _ (by decide)
    simp [Clause.latch, this]
  · intro l hl
    simp only [Clause.latch]
    rw [lats_foldl _ _ _ _ hl h, lats_filter _ _ _ hl]

/-- The issuing gang after its word has retired inside its clause. -/
theorem Group.retire_latch {g : Group} {kid : Nat} {k : Gang} {c : Clause} (hk : g.gang kid = some k) (hc : k.clause = some c)
    (hs : c.slot + 1 ≠ c.count) (now : Nat) (op : Option Nat) (extra : Word) (lat : Option (List Nat × (Nat → Word))) :
    ∃ k', (g.retire kid now op extra false lat).gang kid = some k'
      ∧ k'.clause = some { c.latch lat with slot := c.slot + 1 } := by
  have e : ∀ g : Group, (g.modSlices k.slices (Slice.sign g.inHandler op extra)).gangs = g.gangs := fun _ => rfl
  simp only [Group.retire, hk, hc, hs, if_false, Bool.false_eq_true]
  have h1 : ∃ k1, (g.countWord k).gang kid = some k1 := by
    unfold Group.countWord
    split
    · exact ⟨k, hk⟩
    · rw [Group.gang_modGang, hk]
      · exact ⟨_, rfl⟩
      · exact fun _ => rfl
  obtain ⟨k1, hk1⟩ := h1
  have hid := Group.gang_id hk1
  rw [Group.gang_modGang]
  · refine ⟨{ k1 with clause := some { c.latch lat with slot := c.slot + 1 }, emitted := 0, emitLeft := [], emitReads := [] }, ?_, rfl⟩
    simp only [Group.gang, Group.modSlices] at hk1 ⊢
    rw [hk1]
    simp [hid]
  · exact fun _ => rfl

/-- Retiring changes no gang's wait. -/
theorem Group.retire_waits (g : Group) (kid now : Nat) (op : Option Nat) (extra : Word) (br : Bool)
    (lat : Option (List Nat × (Nat → Word))) : ∀ k ∈ (g.retire kid now op extra br lat).gangs, ∃ j ∈ g.gangs, k.wait = j.wait := by
  have hs : ∀ (g : Group) (k : Gang), ∀ x ∈ (g.countWord k).gangs, ∃ j ∈ g.gangs, x.wait = j.wait := by
    intro g k x hx
    unfold Group.countWord at hx
    split at hx
    · exact ⟨x, hx, rfl⟩
    · exact Group.gangs_modGang g k.id _ (by intro _; rfl) _ hx
  have ht : ∀ {a b : Group}, (∀ x ∈ a.gangs, ∃ j ∈ g.gangs, x.wait = j.wait) → (∀ x ∈ b.gangs, ∃ j ∈ a.gangs, x.wait = j.wait) →
      ∀ x ∈ b.gangs, ∃ j ∈ g.gangs, x.wait = j.wait := by
    intro a b h1 h2 x hx
    obtain ⟨y, hy, e⟩ := h2 x hx
    obtain ⟨z, hz, e'⟩ := h1 y hy
    exact ⟨z, hz, e.trans e'⟩
  have hl : ∀ k : Gang, (k.leaveClause now).wait = k.wait := fun _ => rfl
  unfold Group.retire
  split
  · exact fun k hk => ⟨k, hk, rfl⟩
  · rename_i k _
    split
    · exact hs g k
    · split
      · exact ht (hs g k) (Group.gangs_modGang _ _ _ hl)
      · split
        · exact ht (hs g k) (Group.gangs_modGang _ _ _ (by intro _; rfl))
        · exact ht (hs g k) (Group.gangs_modGang _ _ _ (by intro _; rfl))

/-- Where no gang stands at a REGANG, no window closes. -/
theorem Group.closeWindows_none (g : Group) (now : Nat) (h : ∀ k ∈ g.gangs, ∀ all a, k.wait ≠ .regang all a) :
    g.closeWindows now = g := by
  unfold Group.closeWindows
  have : ∀ ks : List Gang, ks.foldl (fun (g : Group) (k0 : Gang) => match g.gang k0.id with
    | none => g
    | some k => match k.wait with
      | .regang all addr =>
        let inH := g.inside k
        let others := g.gangs.filter fun j => !g.inWindow all addr inH j && (g.inside j == inH || (all && !inH))
        let done := if all then others.isEmpty else others.all fun j => j.wait.counts addr
        if done then g.closeWindow all addr inH now else g
      | _ => g) g = g := by
    intro ks
    induction ks with
    | nil => rfl
    | cons x xs ih =>
      rw [List.foldl_cons]
      have : (match g.gang x.id with
        | none => g
        | some k => match k.wait with
          | .regang all addr =>
            let inH := g.inside k
            let others := g.gangs.filter fun j => !g.inWindow all addr inH j && (g.inside j == inH || (all && !inH))
            let done := if all then others.isEmpty else others.all fun j => j.wait.counts addr
            if done then g.closeWindow all addr inH now else g
          | _ => g) = g := by
        split
        · rfl
        · rename_i k hk
          split
          · rename_i all addr hw
            exact absurd hw (h k (List.mem_of_find?_eq_some hk) all addr)
          · rfl
      rw [this]; exact ih
  exact this _

theorem Group.meetAgain_clause {g : Group} {kid now : Nat} {k : Gang} (h : g.gang kid = some k) :
    ∃ k', (g.meetAgain now).gang kid = some k' ∧ k'.clause = k.clause := by
  unfold Group.meetAgain
  split
  · exact ⟨k, h, rfl⟩
  · split
    · rw [Group.gang_modGang, h]
      · refine ⟨_, rfl, ?_⟩
        dsimp only
        split <;> rfl
      · exact fun _ => rfl
    · exact ⟨k, h, rfl⟩

/-- The latch of an instruction that has completed, as the group stands after the issue. -/
theorem Group.latches {v : View} {g : Group} {now : Nat} {op : Option Nat} {extra : Word} {ls : List Nat} {f : Nat → Word}
    (hk : ∃ k, g.gang v.kid = some k ∧ k.clause = some v.c) (hw : ∀ k ∈ g.gangs, ∃ j ∈ v.g.gangs, k.wait = j.wait)
    (hl : ∀ l ∈ ls, l < 32) :
    Latches v (((g.retire v.kid now op extra false (some (ls, f))).closeWindows now).meetAgain now) ls f := by
  intro hs hr
  obtain ⟨k, h1, h2⟩ := hk
  obtain ⟨k', h3, h4⟩ := Group.retire_latch h1 h2 hs now op extra (some (ls, f))
  have e : ∀ x ∈ (g.retire v.kid now op extra false (some (ls, f))).gangs, ∀ all a, x.wait ≠ .regang all a := by
    intro x hx all a he
    obtain ⟨y, hy, e1⟩ := Group.retire_waits _ _ _ _ _ _ _ x hx
    obtain ⟨z, hz, e2⟩ := hw y hy
    exact hr z hz all a (by rw [← e2, ← e1, he])
  rw [Group.closeWindows_none _ _ e]
  obtain ⟨k2, h5, h6⟩ := Group.meetAgain_clause (now := now) h3
  have hL := Clause.latch_spec v.c ls f hl
  exact ⟨k2, { v.c.latch (some (ls, f)) with slot := v.c.slot + 1 }, h5, by rw [h6, h4], rfl, rfl, hL.1, hL.2⟩

end Sys2Proof.Machine
end

