-- ==== Sys2Proof/Laws/Issue.lean ====
section
/-! SUPPORT. What an issue does once nothing stands in an instruction's way: one lemma for the way in, one for each way out. -/
namespace Sys2Proof.Machine

/-- What a view names is in the state. -/
theorem State.view_spec {s : State} {v : View} (h : s.view = some v) :
    s.focus = some (v.gid, v.kid) ∧ s.group v.gid = some v.g ∧ v.g.gang v.kid = some v.k ∧ v.k.clause = some v.c
      ∧ v.x = s.ctx v.g.ctx ∧ (∃ t, s.team v.g.team = some t ∧ v.t = s.ownView v.gid v.g t) ∧ s.launch v.g.launch = some v.l := by
  unfold State.view at h
  split at h
  · cases h
  · rename_i gid kid hf
    split at h
    · cases h
    · rename_i g hg
      split at h
      · rename_i k t l hk ht hl
        split at h
        · cases h
        · rename_i c hc
          cases h
          exact ⟨hf, hg, hk, hc, rfl, ⟨t, ht, rfl⟩, hl⟩
      · cases h

/-- The way in: an instruction with nothing in its way comes to its own effect. -/
theorem issue_of_issues {i : Instr} {s : State} {v : View} (h : Issues i s v) (body : View → State → Res) :
    issue i s body = .next (s.finish s v i (body v s)) := by
  simp only [issue, h.view, State.issueIn, h.alive, h.running, h.round, h.fence, h.watchdog, h.operands, h.span, h.room, h.written, h.pop, State.run]
  rfl

/-- Any issue of a gang that the state names is a next state. -/
theorem issue_next (i : Instr) {s : State} {v : View} (h : s.view = some v) (body : View → State → Res) :
    ∃ t, issue i s body = .next t := by
  simp only [issue, h]
  exact ⟨_, rfl⟩

/-- The way out of an instruction that completes. -/
theorem issue_ok {i : Instr} {s : State} {v : View} (h : Issues i s v) {body : View → State → Res} {t : State}
    {lat : Option (List Nat × (Nat → Word))} (hb : body v s = .ok t lat) : issue i s body = .next (t.retired v i lat) := by
  rw [issue_of_issues h, hb]; rfl

/-- The way out of an instruction that waits, or that has retired by itself. -/
theorem issue_hold {i : Instr} {s : State} {v : View} (h : Issues i s v) {body : View → State → Res} {t : State}
    (hb : body v s = .hold t) : issue i s body = .next (t.waits v) := by
  rw [issue_of_issues h, hb]; rfl

/-- The way out of a class H cause; of a gang that speculates it is held (R129). -/
theorem issue_halt {i : Instr} {s : State} {v : View} (h : Issues i s v) {body : View → State → Res} {c a : Nat}
    (hb : body v s = .halt c a) : issue i s body = .next (if v.k.fence.isSome then s else s.haltGang v i c a) := by
  rw [issue_of_issues h, hb]; rfl

/-- The way out of a class T cause. -/
theorem issue_trap {i : Instr} {s : State} {v : View} (h : Issues i s v) {body : View → State → Res} {c a : Nat}
    (hb : body v s = .trap c a) :
    issue i s body = .next (if v.k.fence.isSome then s
      else s.trapped v i c a) := by
  rw [issue_of_issues h, hb]; rfl

/-- A group whose gangs stand as the view's: the issuing gang in its clause, and no wait that the view's group has not. -/
def Group.StandsAs (g : Group) (v : View) : Prop :=
  (∃ k, g.gang v.kid = some k ∧ k.clause = some v.c) ∧ ∀ k ∈ g.gangs, ∃ j ∈ v.g.gangs, k.wait = j.wait

theorem Group.standsAs_of_gangs {s : State} {v : View} (h : s.view = some v) {g : Group} (e : g.gangs = v.g.gangs) :
    g.StandsAs v := by
  obtain ⟨_, _, hk, hc, _⟩ := State.view_spec h
  refine ⟨⟨v.k, ?_, hc⟩, fun k hk' => ⟨k, by rw [← e]; exact hk', rfl⟩⟩
  unfold Group.gang at hk ⊢
  rw [e]; exact hk

theorem Group.standsAs_raise {s : State} {v : View} (h : s.view = some v) (fl : Word) {g : Group}
    (e : g.gangs = (v.g.raise v.kid fl).gangs) : g.StandsAs v := by
  obtain ⟨_, _, hk, hc, _⟩ := State.view_spec h
  have hg : ∀ m, g.gang m = (v.g.raise v.kid fl).gang m := by intro m; unfold Group.gang; rw [e]
  cases hf : v.k.fence with
  | none =>
    have e2 : (v.g.raise v.kid fl).gangs = v.g.gangs := by simp [Group.raise, hk, hf]
    exact Group.standsAs_of_gangs h (e.trans e2)
  | some f =>
    have e2 : v.g.raise v.kid fl = v.g.modGang v.kid fun k => { k with fence := some { f with flags := f.flags ||| fl } } := by
      simp [Group.raise, hk, hf]
    refine ⟨?_, ?_⟩
    · rw [hg, e2, Group.gang_modGang, hk]
      · refine ⟨_, rfl, ?_⟩
        dsimp only
        split <;> exact hc
      · exact fun _ => rfl
    · rw [e, e2]
      exact Group.gangs_modGang _ _ _ (by intro _; rfl)

/-- What retiring leaves of the groups. -/
theorem State.retired_group {s : State} {v : View} {i : Instr} {lat : Option (List Nat × (Nat → Word))} {g : Group}
    (h : s.group v.gid = some g) : ∃ g', (s.retired v i lat).group v.gid = some g' ∧ g.Moved g'
      ∧ ∀ ls f, lat = some (ls, f) → g.StandsAs v → (∀ l ∈ ls, l < 32) → Latches v g' ls f := by
  have e : (s.retired v i lat).group v.gid
      = some (((g.retire v.kid s.cycle (signOp i) (extraOf i) false lat).closeWindows s.cycle).meetAgain s.cycle) := by
    simp only [State.retired, State.closeWindows, State.modGroup_modGroup, State.group_modGroup, h, Option.map_some]
    rfl
  refine ⟨_, e, ((g.moved_retire _ _ _ _ _ _).trans (Group.moved_closeWindows _ _)).trans (Group.moved_meetAgain _ _), ?_⟩
  rintro ls f rfl hs hl
  exact Group.latches hs.1 hs.2 hl

theorem State.retired_other {s : State} {v : View} {i : Instr} {lat : Option (List Nat × (Nat → Word))} {n : Nat} (h : n ≠ v.gid) :
    (s.retired v i lat).group n = s.group n := by
  simp only [State.retired, State.closeWindows, State.modGroup_modGroup, State.group_modGroup_other _ _ h]

/-- Retiring changes groups only. -/
theorem State.retired_rest (s : State) (v : View) (i : Instr) (lat : Option (List Nat × (Nat → Word))) :
    s.retired v i lat = { s with groups := (s.retired v i lat).groups } := rfl

/-- The way out of an instruction whose own effect is a change of its group: the frame, the group as its effect leaves it, moved on,
and the latch. -/
theorem issue_modGroup {i : Instr} {s u : State} {v : View} (h : Issues i s v) {body : View → State → Res} {f : Group → Group}
    {lat : Option (List Nat × (Nat → Word))} (hb : body v s = .ok (u.modGroup v.gid f) lat) (hu : u.groups = s.groups := by rfl) :
    ∃ t g, issue i s body = .next t ∧ OnlyGroup u t v.gid g ∧ (f v.g).Moved g
      ∧ ∀ ls f', lat = some (ls, f') → (f v.g).StandsAs v → (∀ l ∈ ls, l < 32) → Latches v g ls f' := by
  have hu' : u.group v.gid = some v.g := by
    have := (State.view_spec h.view).2.1
    unfold State.group at this ⊢
    rw [hu]; exact this
  have hg : (u.modGroup v.gid f).group v.gid = some (f v.g) := by
    rw [State.group_modGroup, hu']; rfl
  obtain ⟨g, h1, h2, h3⟩ := State.retired_group (i := i) (lat := lat) hg
  refine ⟨_, g, issue_ok h hb, ⟨h1, ?_, rfl, fun _ => rfl⟩, h2, h3⟩
  intro n hn
  rw [State.retired_other hn, State.group_modGroup_other _ _ hn]

/-- The same where the effect is none. -/
theorem issue_same {i : Instr} {s u : State} {v : View} (h : Issues i s v) {body : View → State → Res}
    {lat : Option (List Nat × (Nat → Word))} (hb : body v s = .ok u lat) (hu : u.groups = s.groups := by rfl) :
    ∃ t g, issue i s body = .next t ∧ OnlyGroup u t v.gid g ∧ v.g.Moved g
      ∧ ∀ ls f', lat = some (ls, f') → (∀ l ∈ ls, l < 32) → Latches v g ls f' := by
  have hu' : u.group v.gid = some v.g := by
    have := (State.view_spec h.view).2.1
    unfold State.group at this ⊢
    rw [hu]; exact this
  obtain ⟨g, h1, h2, h3⟩ := State.retired_group (i := i) (lat := lat) hu'
  exact ⟨_, g, issue_ok h hb, ⟨h1, fun n hn => State.retired_other hn, rfl, fun _ => rfl⟩, h2,
    fun ls f' e hl => h3 ls f' e (Group.standsAs_of_gangs h.view rfl) hl⟩

/-- An instruction that writes one register in its executing lanes. -/
theorem issue_put {i : Instr} {s u : State} {v : View} (h : Issues i s v) {body : View → State → Res} {nw : Bool} {d : BitVec 10}
    {ls : List Nat} {f : Nat → Word} (hl : ∀ l ∈ ls, l < 32) (hb : body v s = v.put u nw d ls f) (hu : u.groups = s.groups := by rfl) :
    WritesReg u v (issue i s body) nw d ls f := by
  cases nw with
  | true =>
    obtain ⟨t, g, h1, h2, h3, h0⟩ := issue_same h hb hu
    refine ⟨t, g, h1, h2, fun n l _ => by simpa using h3.reg n l, ?_, h0 _ _ rfl hl⟩
    rw [h3.regs]; exact h3
  | false =>
    obtain ⟨t, g, h1, h2, h3, h0⟩ := issue_modGroup h hb hu
    refine ⟨t, g, h1, h2, fun n l hk => ?_, ?_⟩
    · rw [h3.reg, Group.reg_setRegs _ _ _ hl hk]
      by_cases a : n = d.toNat <;> by_cases b : l ∈ ls <;> simp [a, b]
    · rw [h3.regs, ← Group.setRegs_eq]
      exact ⟨h3, h0 _ _ rfl (Group.standsAs_of_gangs h.view (by rw [Group.setRegs_eq])) hl⟩

/-- An instruction that writes one predicate in its executing lanes. -/
theorem issue_putPred {i : Instr} {s u : State} {v : View} (h : Issues i s v) {body : View → State → Res} {nw : Bool} {pd : BitVec 3}
    {ls : List Nat} {f : Nat → Bool} (hl : ∀ l ∈ ls, l < 32) (hb : body v s = v.putPred u nw pd ls f) (hu : u.groups = s.groups := by rfl) :
    WritesPred u v (issue i s body) nw pd ls f := by
  cases nw with
  | true =>
    obtain ⟨t, g, h1, h2, h3, h0⟩ := issue_same h hb hu
    refine ⟨t, g, h1, h2, fun p l _ => by simpa using h3.pred p l, ?_, h0 _ _ rfl hl⟩
    rw [h3.preds]; exact h3
  | false =>
    obtain ⟨t, g, h1, h2, h3, h0⟩ := issue_modGroup h hb hu
    refine ⟨t, g, h1, h2, fun p l hk => ?_, ?_⟩
    · rw [h3.pred, Group.pred_setPreds _ _ _ hl hk]
      by_cases a : p = pd <;> by_cases b : l ∈ ls <;> by_cases c : p = 7 <;> simp [a, b, c]
    · rw [h3.preds, ← Group.setPreds_eq]
      exact ⟨h3, h0 _ _ rfl (Group.standsAs_of_gangs h.view (by rw [Group.setPreds_eq])) hl⟩

/-- The flags of the issuing gang: in %fstat, or with its fence's, which is where its gangs stand. -/
theorem View.raise_spec {s : State} {v : View} (h : s.view = some v) (fl : Word) :
    ({ v.g with fstat := v.flagged fl } : Group).Moved (v.g.raise v.kid fl) := by
  obtain ⟨_, _, hk, _⟩ := State.view_spec h
  simp only [Group.raise, hk, Option.bind_some, View.flagged]
  cases v.k.fence with
  | none => exact Group.Moved.refl _
  | some f => exact Group.moved_modGang _ _ _

theorem Group.moved_withRegs {a b : Group} (h : a.Moved b) (r : Tab Word) :
    ({ a with regs := r } : Group).Moved { b with regs := r } := by
  refine ⟨?_, h.slices⟩
  have e := h.rest
  generalize hb : b = c at e ⊢
  rw [e]

theorem Group.moved_withPreds {a b : Group} (h : a.Moved b) (r : Tab LaneMask) :
    ({ a with preds := r } : Group).Moved { b with preds := r } := by
  refine ⟨?_, h.slices⟩
  have e := h.rest
  generalize hb : b = c at e ⊢
  rw [e]

/-- An instruction that writes one register with float flags. -/
theorem issue_putF {i : Instr} {s u : State} {v : View} (h : Issues i s v) {body : View → State → Res} {nw : Bool} {d : BitVec 10}
    {ls : List Nat} {f : Nat → Word × Word} (hl : ∀ l ∈ ls, l < 32) (hb : body v s = v.putF u nw d ls f) (hu : u.groups = s.groups := by rfl) :
    WritesFloat u v (issue i s body) nw d ls f := by
  have hr := View.raise_spec h.view (flagsOf ls fun l => (f l).2)
  cases nw with
  | true =>
    obtain ⟨t, g, h1, h2, h3, h0⟩ := issue_modGroup h (f := (·.raise v.kid (flagsOf ls fun l => (f l).2))) hb hu
    have h4 := hr.trans h3
    refine ⟨t, g, h1, h2, fun n l _ => by rw [h4.reg]; simp [Group.reg], ?_⟩
    rw [h4.regs]; exact ⟨h4, h0 _ _ rfl (Group.standsAs_raise h.view _ rfl) hl⟩
  | false =>
    have hb' : body v s = .ok (u.modGroup v.gid fun g =>
        (g.raise v.kid (flagsOf ls fun l => (f l).2)).setRegs d.toNat ls fun l => (f l).1) (some (ls, fun l => (f l).1)) := by
      rw [hb, View.putF, View.put]; simp [State.modGroup_modGroup, flagsOf]
    obtain ⟨t, g, h1, h2, h3, h0⟩ := issue_modGroup h hb' hu
    refine ⟨t, g, h1, h2, fun n l hk => ?_, ?_⟩
    · rw [h3.reg, Group.reg_setRegs _ _ _ hl hk, hr.reg]
      by_cases a : n = d.toNat <;> by_cases b : l ∈ ls <;> simp [a, b, Group.reg]
    · rw [Group.setRegs_eq] at h3
      have h5 := Group.moved_withRegs hr ((v.g.raise v.kid (flagsOf ls fun l => (f l).2)).setRegs d.toNat ls fun l => (f l).1).regs
      have h6 := h5.trans h3
      rw [h3.regs]; exact ⟨h6, h0 _ _ rfl (Group.standsAs_raise h.view (flagsOf ls fun l => (f l).2) (by rw [Group.setRegs_eq])) hl⟩

/-- An instruction that writes one predicate with float flags. -/
theorem issue_putPredF {i : Instr} {s u : State} {v : View} (h : Issues i s v) {body : View → State → Res} {nw : Bool}
    {pd : BitVec 3} {ls : List Nat} {f : Nat → Bool × Word} (hl : ∀ l ∈ ls, l < 32)
    (hb : body v s = v.putPred (u.modGroup v.gid (·.raise v.kid (flagsOf ls fun l => (f l).2))) nw pd ls fun l => (f l).1) (hu : u.groups = s.groups := by rfl) :
    WritesPredFloat u v (issue i s body) nw pd ls f := by
  have hr := View.raise_spec h.view (flagsOf ls fun l => (f l).2)
  cases nw with
  | true =>
    obtain ⟨t, g, h1, h2, h3, h0⟩ := issue_modGroup h (f := (·.raise v.kid (flagsOf ls fun l => (f l).2))) hb hu
    have h4 := hr.trans h3
    refine ⟨t, g, h1, h2, fun n l _ => by rw [h4.pred]; simp [Group.pred], ?_⟩
    rw [h4.preds]; exact ⟨h4, h0 _ _ rfl (Group.standsAs_raise h.view _ rfl) hl⟩
  | false =>
    have hb' : body v s = .ok (u.modGroup v.gid fun g =>
        (g.raise v.kid (flagsOf ls fun l => (f l).2)).setPreds pd ls fun l => (f l).1)
          (some (ls, fun l => if (f l).1 then 1 else 0)) := by
      rw [hb, View.putPred]; simp [State.modGroup_modGroup]
    obtain ⟨t, g, h1, h2, h3, h0⟩ := issue_modGroup h hb' hu
    refine ⟨t, g, h1, h2, fun p l hk => ?_, ?_⟩
    · rw [h3.pred, Group.pred_setPreds _ _ _ hl hk, hr.pred]
      by_cases a : p = pd <;> by_cases b : l ∈ ls <;> by_cases c : p = 7 <;> simp [a, b, c, Group.pred]
    · rw [Group.setPreds_eq] at h3
      have h5 := Group.moved_withPreds hr ((v.g.raise v.kid (flagsOf ls fun l => (f l).2)).setPreds pd ls fun l => (f l).1).preds
      have h6 := h5.trans h3
      rw [h3.preds]; exact ⟨h6, h0 _ _ rfl (Group.standsAs_raise h.view (flagsOf ls fun l => (f l).2) (by rw [Group.setPreds_eq])) hl⟩

/-- An instruction that writes a pair in its executing lanes. -/
theorem issue_putPair {i : Instr} {s u : State} {v : View} (h : Issues i s v) {body : View → State → Res} {nw : Bool} {d : BitVec 10}
    {ls : List Nat} {f : Nat → Dword} {lat : Option (List Nat × (Nat → Word))} (hl : ∀ l ∈ ls, l < 32)
    (hlat : lat = some (ls, fun l => (f l).truncate 32))
    (hb : body v s = .ok (if nw then u else u.modGroup v.gid fun g => g.setPairs d.toNat ls f) lat) (hu : u.groups = s.groups := by rfl) :
    WritesPair u v (issue i s body) nw d ls f := by
  cases nw with
  | true =>
    obtain ⟨t, g, h1, h2, h3, h0⟩ := issue_same h hb hu
    refine ⟨t, g, h1, h2, fun n l _ => by simpa using h3.reg n l, ?_, h0 _ _ hlat hl⟩
    rw [h3.regs]; exact h3
  | false =>
    obtain ⟨t, g, h1, h2, h3, h0⟩ := issue_modGroup h hb hu
    refine ⟨t, g, h1, h2, fun n l hk => ?_, ?_⟩
    · rw [h3.reg, Group.setPairs, Group.reg_setRegs _ _ _ hl hk, Group.reg_setRegs _ _ _ hl hk]
      by_cases a : n = d.toNat <;> by_cases a' : n = d.toNat + 1 <;> by_cases b : l ∈ ls <;> simp [a, a', b]
    · rw [h3.regs, ← Group.setPairs_eq]
      exact ⟨h3, h0 _ _ hlat (Group.standsAs_of_gangs h.view (by rw [Group.setPairs_eq])) hl⟩

/-- An instruction whose own effect is elsewhere than in the groups, or none. -/
theorem issue_completes {i : Instr} {s u : State} {v : View} (h : Issues i s v) {body : View → State → Res}
    {lat : Option (List Nat × (Nat → Word))} (hb : body v s = .ok u lat) (hu : u.groups = s.groups := by rfl) :
    Completes u v (issue i s body) := by
  obtain ⟨t, g, h1, h2, h3, _⟩ := issue_same h hb hu
  exact ⟨t, g, h1, h2, h3⟩

end Sys2Proof.Machine
end

