-- ==== Sys2Proof/Laws/Mem.lean ====
section
/-! SUPPORT. What memory operations leave of the groups when they issue: the values that software reads are kept. -/
namespace Sys2Proof.Machine

theorem Group.Kept.refl (a : Group) : a.Kept a := rfl

theorem Group.Kept.trans {a b c : Group} (h : a.Kept b) (k : b.Kept c) : a.Kept c := by
  unfold Group.Kept at *
  rw [k, h]

theorem Group.Moved.kept {a b : Group} (h : a.Moved b) : a.Kept b := by
  have := h.rest
  unfold Group.Kept
  rw [this]

theorem State.GroupsKept.refl (s : State) : s.GroupsKept s := by
  intro n
  cases h : s.group n with
  | none => exact .inl ⟨rfl, rfl⟩
  | some a => exact .inr ⟨a, a, rfl, rfl, Group.Kept.refl a⟩

theorem State.GroupsKept.trans {s t u : State} (h : s.GroupsKept t) (k : t.GroupsKept u) : s.GroupsKept u := by
  intro n
  rcases h n with ⟨h1, h2⟩ | ⟨a, b, h1, h2, h3⟩
  · rcases k n with ⟨k1, k2⟩ | ⟨c, d, k1, _, _⟩
    · exact .inl ⟨h1, k2⟩
    · rw [h2] at k1; cases k1
  · rcases k n with ⟨k1, k2⟩ | ⟨c, d, k1, k2, k3⟩
    · rw [h2] at k1; cases k1
    · rw [h2] at k1; cases k1
      exact .inr ⟨a, d, h1, k2, h3.trans k3⟩

/-- A state with the same groups. -/
theorem State.groupsKept_of_groups {s t : State} (h : t.groups = s.groups) : s.GroupsKept t := by
  intro n
  have e : t.group n = s.group n := by unfold State.group; rw [h]
  rw [e]
  exact State.GroupsKept.refl s n

/-- A change of one group that keeps its values. -/
theorem State.groupsKept_modGroup (s : State) (gid : Nat) (f : Group → Group) (h : ∀ g : Group, g.Kept (f g)) :
    s.GroupsKept (s.modGroup gid f) := by
  intro n
  by_cases e : n = gid
  · subst e
    rw [State.group_modGroup]
    cases hg : s.group n with
    | none => exact .inl ⟨rfl, rfl⟩
    | some a => exact .inr ⟨a, f a, rfl, rfl, h a⟩
  · rw [State.group_modGroup_other _ _ e]
    exact State.GroupsKept.refl s n

theorem State.groupsKept_modGang (s : State) (gid kid : Nat) (f : Gang → Gang) : s.GroupsKept (s.modGang gid kid f) :=
  s.groupsKept_modGroup gid _ fun _ => rfl

theorem State.groupsKept_foldl {α : Type} (f : State → α → State) (h : ∀ (s : State) (x : α), s.GroupsKept (f s x)) (xs : List α) :
    ∀ s : State, s.GroupsKept (xs.foldl f s) := by
  induction xs with
  | nil => exact State.GroupsKept.refl
  | cons x xs ih => exact fun s => (h s x).trans (ih _)

theorem State.groupsKept_foldl2 {α β : Type} (f : State × β → α → State × β) (h : ∀ (a : State × β) (x : α), a.1.GroupsKept (f a x).1) (xs : List α) :
    ∀ a : State × β, a.1.GroupsKept (xs.foldl f a).1 := by
  induction xs with
  | nil => exact fun a => State.GroupsKept.refl a.1
  | cons x xs ih => exact fun a => (h a x).trans (ih _)

theorem Group.kept_wakeYields (g : Group) (now : Nat) : g.Kept (g.wakeYields now) := by
  have : ∀ (ks : List Gang) (g : Group), g.Kept (ks.foldl (fun (g : Group) (k : Gang) =>
      match k.wait with
      | .yield label sb =>
        if k.slices.all fun n => (g.slice n).sbOf sb == 0 then
          (g.modSlices k.slices fun sl => { sl with pc := label, popDone := false }).modGang k.id fun k =>
            { k with wait := .no, since := now }
        else g
      | _ => g) g) := by
    intro ks
    induction ks with
    | nil => exact Group.Kept.refl
    | cons k ks ih =>
      intro g
      refine Group.Kept.trans ?_ (ih _)
      dsimp only
      split
      · split
        · exact rfl
        · exact Group.Kept.refl g
      · exact Group.Kept.refl g
  exact this _ g

theorem State.groupsKept_sbDone (s : State) (gid : Nat) (ns : List Nat) (n : Nat) : s.GroupsKept (s.sbDone gid ns n) :=
  s.groupsKept_modGroup gid _ fun g => by
    have h : g.Kept ((g.sbDown ns n).wakeYields s.cycle) :=
      Group.Kept.trans (b := g.sbDown ns n) rfl (Group.kept_wakeYields _ _)
    dsimp only
    split
    · exact h.trans rfl
    · exact h

theorem State.groupsKept_acked (s : State) (o : Op) : s.GroupsKept (s.acked o) := s.groupsKept_modGroup _ _ fun _ => rfl

/-- A store's completion gives no register a value. -/
theorem State.groupsKept_completeOp (s : State) (core : Nat) (o : Op) (h : o.kind = .store ∨ o.kind = .stb) :
    s.GroupsKept (s.completeOp core o) := by
  unfold State.completeOp
  dsimp only
  refine State.GroupsKept.trans ?_ (State.groupsKept_acked _ _)
  have h1 : ∀ s : State, s.GroupsKept (match o.kind with | .pop .. => s.modGroup o.grp fun g => g.givePop o | _ => s) := fun s => by
    rcases h with h | h <;> rw [h] <;> exact State.GroupsKept.refl s
  refine State.GroupsKept.trans ?_ (h1 _)
  cases o.sb with
  | none => exact State.groupsKept_of_groups rfl
  | some n =>
    show s.GroupsKept (State.sbDone _ _ _ _)
    exact State.GroupsKept.trans (State.groupsKept_of_groups (by rfl)) (State.groupsKept_sbDone _ _ _ _)

theorem State.groups_recallOwner (s : State) (line : Nat) : (s.recallOwner line).groups = s.groups := by
  unfold State.recallOwner
  split
  · rfl
  · dsimp only
    split <;> rfl

/-- A store under ownership touches no group: a line that a monitor holds is not stored to in this way. -/
theorem State.groups_storeL1 (s : State) (core : Nat) (o : Op) (p : Piece) (h : s.ownsFor core p.pa p.len = true) :
    (s.storeL1 core o p).1.groups = s.groups := by
  simp only [State.ownsFor, State.lineAt, Bool.and_eq_true, Bool.not_eq_true'] at h
  show (s.ownedStore core p.pa p.len p.val).1.groups = s.groups
  unfold State.ownedStore
  dsimp only
  rw [if_neg (by rw [h.1.1.2, h.1.2]; decide), if_pos h.1.1.1]
  rfl

theorem State.groupsKept_readL1 (s : State) (core : Nat) (o : Op) (p : Piece) : s.GroupsKept (s.readL1 core o p).1 := by
  unfold State.readL1
  dsimp only
  split
  · exact State.GroupsKept.refl s
  · have h : ∀ (s u : State) (gid kid : Nat) (f : Gang → Gang) (q : Op), u.groups = s.groups →
        s.GroupsKept (((u.modGang gid kid f).setOp core q)) := fun s u gid kid f q e =>
      ((State.groupsKept_of_groups e).trans (u.groupsKept_modGang gid kid f)).trans (State.groupsKept_of_groups rfl)
    exact h _ _ _ _ _ _ rfl

theorem State.groupsKept_serveLocal (s : State) (core : Nat) (o : Op) : s.GroupsKept (s.serveLocal core o).1 := by
  unfold State.serveLocal
  refine State.groupsKept_foldl2 _ (fun a p => ?_) _ (s, o)
  obtain ⟨s, o⟩ := a
  dsimp only
  split
  · exact State.GroupsKept.refl s
  · split
    · split
      · exact State.groupsKept_readL1 s core o p
      · exact State.GroupsKept.refl s
    · split
      · exact State.groupsKept_readL1 s core o p
      · exact State.GroupsKept.refl s
    · split
      · rename_i h
        exact State.groupsKept_of_groups (State.groups_storeL1 _ _ _ _ (by simp at h; exact h.2))
      · exact State.GroupsKept.refl s
    · split
      · rename_i h
        exact State.groupsKept_of_groups (State.groups_storeL1 _ _ _ _ (by simp at h; exact h.2))
      · exact State.GroupsKept.refl s
    · split
      · rename_i h
        exact State.groupsKept_of_groups (State.groups_storeL1 _ _ _ _ (by simp at h; exact h.2))
      · exact State.GroupsKept.refl s
    · exact State.GroupsKept.refl s

theorem State.groupsKept_settleOp (s : State) (core : Nat) (o : Op) : s.GroupsKept (s.settleOp core o) := by
  unfold State.settleOp
  split
  · exact State.GroupsKept.refl s
  · split
    · exact s.groupsKept_completeOp core o (.inl (by assumption))
    · exact s.groupsKept_completeOp core o (.inr (by assumption))
    · exact (State.groupsKept_of_groups rfl).trans (State.groupsKept_acked _ _)
    · exact State.groupsKept_of_groups rfl
    · exact State.groupsKept_of_groups rfl
    · split
      · exact State.groupsKept_of_groups rfl
      · exact State.GroupsKept.refl s

/-- What the host port and the links accept gives no register a value. -/
theorem State.groupsKept_acceptY (s : State) (core : Nat) (o : Op) (write : Bool) : s.GroupsKept (s.acceptY core o write) := by
  have h : ∀ (ys : List YOp) (s : State), (ys.foldl (fun (s : State) y => s.placeWriteY core y.agent) s).groups = s.groups := by
    intro ys
    induction ys with
    | nil => exact fun _ => rfl
    | cons y ys ih => exact fun s => ih _
  unfold State.acceptY
  dsimp only
  split
  · exact State.groupsKept_of_groups rfl
  · have h1 : ∀ (ys : List YOp) (u : State), u.groups = s.groups →
        s.GroupsKept ((ys.foldl (fun (s : State) y => s.placeWriteY core y.agent) u).acceptedY o) := fun ys u e =>
      State.GroupsKept.trans (State.groupsKept_of_groups ((h ys u).trans e)) (State.groupsKept_modGroup _ _ _ fun _ => rfl)
    cases o.sb with
    | none => exact h1 _ _ (by rfl)
    | some n =>
      show s.GroupsKept (State.sbDone _ _ _ _)
      exact State.GroupsKept.trans (h1 _ _ (by rfl)) (State.groupsKept_sbDone _ _ _ _)

theorem State.groupsKept_advance (core : Nat) : ∀ (n : Nat) (s : State), s.GroupsKept (s.advance core n)
  | 0, s => State.GroupsKept.refl s
  | n + 1, s => by
    unfold State.advance
    split
    · exact State.GroupsKept.refl s
    · rename_i o _
      split
      · exact (s.groupsKept_acceptY core o _).trans (State.groupsKept_advance core n _)
      · have h := s.groupsKept_serveLocal core o
        dsimp only
        split
        · exact h
        · have h2 := h.trans (State.groupsKept_settleOp (s.serveLocal core o).1 core (s.serveLocal core o).2)
          split
          · exact h2
          · exact h2.trans (State.groupsKept_advance core n _)

theorem State.groupsKept_enqueue (s : State) (core : Nat) (o : Op) : s.GroupsKept (s.enqueue core o) :=
  (State.groupsKept_of_groups (t := s.modCore core fun k => { k with rq := k.rq ++ [o] }) rfl).trans
    (State.groupsKept_advance core _ _)

theorem State.groupsKept_weakUpdate (s : State) (core : Nat) (o : Op) (p : Piece) : s.GroupsKept (s.weakUpdate core o p) := by
  refine State.groupsKept_of_groups ?_
  unfold State.weakUpdate
  show (if (s.line (s.lineAt p.pa)).owner == some core then s.recallOwner (s.lineAt p.pa) else s).groups = s.groups
  split
  · exact s.groups_recallOwner _
  · rfl

theorem State.groupsKept_enqueueWeak (s : State) (core : Nat) (o : Op) : s.GroupsKept (s.enqueueWeak core o) := by
  unfold State.enqueueWeak
  dsimp only
  have h : s.GroupsKept (s.modCore core fun k => { k with wk := k.wk ++ [o] }) := State.groupsKept_of_groups rfl
  split
  · have h2 : ∀ (ps : List Piece) (u : State) (q : Op), s.GroupsKept u →
        s.GroupsKept (((ps.foldl (fun (s : State) p => s.weakUpdate core o p) u).setOp core q).settleOp core q) := fun ps u q e =>
      ((e.trans (State.groupsKept_foldl _ (fun s p => s.groupsKept_weakUpdate core o p) ps u)).trans
        (State.groupsKept_of_groups (t := State.setOp _ core q) rfl)).trans (State.groupsKept_settleOp _ core q)
    exact h2 _ _ _ h
  · exact (h.trans (State.groupsKept_serveLocal _ core o)).trans (State.groupsKept_settleOp _ _ _)

theorem State.groupsKept_wakePhwaits (s : State) (tid off n : Nat) (spad : List Host.Cell) :
    s.GroupsKept (s.wakePhwaits tid off n spad) := by
  unfold State.wakePhwaits
  refine State.groupsKept_foldl _ (fun s e => ?_) _ s
  split
  · exact State.GroupsKept.refl s
  · refine State.groupsKept_foldl _ (fun s k => ?_) _ s
    split
    · split
      · exact State.groupsKept_modGroup _ _ _ fun g =>
          ((g.moved_modGang k.id fun k => { k with wait := .no, since := s.cycle }).trans (Group.moved_retire _ _ _ _ _ _ _)).kept
      · exact State.GroupsKept.refl s
    · exact State.GroupsKept.refl s

/-- A store to scratchpad keeps every group's values. -/
theorem State.groupsKept_spadStore (s : State) (tid off n v : Nat) : s.GroupsKept (s.spadStore tid off n v) := by
  unfold State.spadStore
  split
  · exact State.GroupsKept.refl s
  · refine State.GroupsKept.trans (t := s.modTeam tid fun t => t.spadWrite off n v) (State.groupsKept_of_groups rfl) ?_
    exact State.groupsKept_wakePhwaits _ _ _ _ _

/-- Taking a tag and raising a scoreboard keeps every group's values. -/
theorem State.groupsKept_queueUp {s u : State} {v : View} {i : Instr} {sb : Option (BitVec 3)} {tag : Option Nat}
    (h : s.queueUp v i sb = some (u, tag)) : s.GroupsKept u := by
  unfold State.queueUp at h
  split at h
  · cases h; exact State.GroupsKept.refl s
  · simp only [State.openTag] at h
    cases hf : (s.core v.t.core).freeTag with
    | none => rw [hf] at h; cases h
    | some t =>
      rw [hf] at h
      simp only [Option.map_some, Option.some.injEq, Prod.mk.injEq] at h
      obtain ⟨h, _⟩ := h
      subst h
      exact State.GroupsKept.trans (State.groupsKept_of_groups rfl)
        (State.groupsKept_modGroup _ _ _ fun _ => rfl)

/-- Retiring keeps every group's values. -/
theorem State.groupsKept_retired (s : State) (v : View) (i : Instr) (lat : Option (List Nat × (Nat → Word))) :
    s.GroupsKept (s.retired v i lat) := by
  refine State.GroupsKept.trans (State.groupsKept_modGroup s v.gid _ fun _ => (Group.moved_retire _ _ _ _ _ _ _).kept)
    (State.groupsKept_modGroup _ _ _ fun _ => ((Group.moved_closeWindows _ _).trans (Group.moved_meetAgain _ _)).kept)

theorem State.groupsKept_waits (s : State) (v : View) : s.GroupsKept (s.waits v) :=
  State.GroupsKept.trans (State.groupsKept_modGroup s v.gid _ fun _ => (Group.moved_ungrant _ _).kept)
    (State.groupsKept_modGroup _ _ _ fun _ => ((Group.moved_closeWindows _ _).trans (Group.moved_meetAgain _ _)).kept)

end Sys2Proof.Machine
end

