-- ==== Sys2Proof/Tests/Slice0.lean ====
section
/-! SUPPORT. The model's own tests: words of the spec's encoding, words that are refused, results worked out from the spec's rules and
examples, and a witness for the hypotheses of every statement. -/
open Sys2Proof Sys2Proof.Machine
namespace Sys2Proof.Tests

set_option maxRecDepth 100000
set_option Elab.async false

/-! ### Small states -/

/-- The guard of an instruction that no predicate guards, and one that no lane meets. -/
def all : Guard := ⟨false, 7⟩
def none_ : Guard := ⟨true, 7⟩

/-- A word's instruction placed after reset, with a gang of slice 0 alone as the issuing one. -/
def at_ (i : Instr) : State :=
  let s := State.reset.withFetchWord 64 ((encode i).getD 0).toNat
  ({ s with focus := some (0, 0) } : State).modGroup 0 fun g =>
    { g with slices := [(0, Slice.placed)], gangs := g.gangs.map fun k => { k with slices := [0] } }

/-- Values for registers, the same in each of the four lanes. -/
def regs (xs : List (Nat × Nat)) (s : State) : State :=
  xs.foldl (fun s x => s.modGroup 0 fun g => g.setRegs x.1 [0, 1, 2, 3] fun _ => BitVec.ofNat 32 x.2) s

/-- Values for a register's lanes. -/
def lanes (n : Nat) (ws : List Nat) (s : State) : State :=
  s.modGroup 0 fun g => g.setRegs n (List.range ws.length) fun l => BitVec.ofNat 32 (ws.getD l 0)

/-- Changes to the parts of the small state. -/
def grp (f : Group → Group) (s : State) : State := s.modGroup 0 f
def gang (f : Gang → Gang) (s : State) : State := s.modGang 0 0 f
def sl (f : Slice → Slice) (s : State) : State := s.modGroup 0 fun g => g.modSlice 0 f
def team (f : Team → Team) (s : State) : State := s.modTeam 0 f
def ctx (f : Ctx → Ctx) (s : State) : State := s.modCtx 0 f
def core (f : Core → Core) (s : State) : State := s.modCore 0 f

/-- What an instruction leaves of a state. -/
def after (i : Instr) (s : State) (p : State → Bool) : Bool :=
  match exec i s with
  | .next t => p t
  | _ => false

/-- A register's lane, a predicate's lane, after an instruction. -/
def gives (i : Instr) (s : State) (n l w : Nat) : Bool :=
  after i s fun t => match t.group 0 with
    | some g => (g.reg n l).toNat == w
    | none => false

def givesPred (i : Instr) (s : State) (p : BitVec 3) (l : Nat) (b : Bool) : Bool :=
  after i s fun t => match t.group 0 with
    | some g => g.pred p l == b
    | none => false

/-- The group, the context after an instruction. -/
def group (i : Instr) (s : State) (p : Group → Bool) : Bool :=
  after i s fun t => match t.group 0 with
    | some g => p g
    | none => false

/-! ### Witnesses -/

/-- Whether an instruction issues with nothing in its way, and its view meets what a statement asks for beside that. -/
def shows (i : Instr) (s : State) (p : View → Bool) : Bool :=
  match s.view with
  | none => false
  | some v =>
    v.x.alive && !v.x.halted && !v.roundHolds i && !v.fenceHolds i && !v.g.overrun && operandsOk v.g v.c i && !s.spanHeld v i
      && !(sbNamed i).any v.sbFull && !(s.core v.t.core).storing v.g.team (v.descRange i)
      && !(popFlagOf i && v.c.slot == 0 && v.k.slices.any (fun n => (v.g.slice n).popFlag v.c.hdr != (v.g.slice n, false)))
      && p v

theorem shows_spec {i : Instr} {s : State} {p : View → Bool} (h : shows i s p = true) : ∃ v, Issues i s v ∧ p v = true := by
  unfold shows at h
  split at h
  · cases h
  · rename_i v hv
    simp only [Bool.and_eq_true, Bool.not_eq_true'] at h
    obtain ⟨⟨⟨⟨⟨⟨⟨⟨⟨⟨h1, h2⟩, h3⟩, h4⟩, h5⟩, h6⟩, h7⟩, h8⟩, h9⟩, h10⟩, h11⟩ := h
    exact ⟨v, ⟨hv, h1, h2, h3, h4, h5, h6, h7, h8, h9, h10⟩, h11⟩

/-- A clean group (View.Clean), as a check. -/
def clean (v : View) : Bool :=
  decide (v.g.gangs.map (·.id)).Nodup && decide (v.g.gangs.flatMap (·.slices)).Nodup
    && v.k.slices.all (fun n => decide (n < 8) && (v.g.slices.look n).isSome)
    && v.k.slices.any (fun n => (v.g.slice n).live != 0) && v.k.wait == .no && v.k.fence.isNone
    && v.g.gangs.all fun k => match k.wait with | .regang .. => false | _ => true

theorem clean_spec {v : View} (h : clean v = true) : v.Clean := by
  simp only [clean, Bool.and_eq_true, decide_eq_true_eq, List.all_eq_true, List.any_eq_true, beq_iff_eq, bne_iff_ne, Option.isNone_iff_eq_none]
    at h
  obtain ⟨⟨⟨⟨⟨⟨h1, h2⟩, h3⟩, ⟨n, h4, h4'⟩⟩, h5⟩, h6⟩, h7⟩ := h
  refine ⟨h1, h2, fun n hn => ⟨(h3 n hn).1, Option.isSome_iff_exists.mp (h3 n hn).2⟩, ⟨n, h4, h4'⟩, h5, h6, fun k hk a b e => ?_⟩
  have := h7 k hk
  rw [e] at this
  cases this

/-! ### Words -/

/-- A word from its fields as R247 lays them out: opcode, bit 53, destination, sources A, B and C, predicate, modifier. -/
def word (op x d a b c p m : Nat) : Nat :=
  op * 2 ^ 54 + x * 2 ^ 53 + d * 2 ^ 43 + a * 2 ^ 32 + b * 2 ^ 21 + c * 2 ^ 10 + p * 2 ^ 6 + m

/-- Whether words decode to instructions. -/
def reads (xs : List (Nat × Instr)) : Bool := xs.all fun x => decodeTableWord 64 x.1 == some x.2

/-- R254, R255, R249, R79: class VALU; vA 2, vB the latch 3, vC 5, p6 negated where a guard is given. -/
theorem test_decode_valu_integer : reads [
  (word 0x001 0 1 2 3 0 7 0, .iadd ⟨false, 1, .reg 2, .reg 3, all⟩),
  (word 0x002 1 1 2 (1024 + 3) 0 14 0, .isub ⟨true, 1, .reg 2, .lat 3, ⟨true, 6⟩⟩),
  (word 0x003 0 4 2 3 0 7 (8 + 2), .imul ⟨false, 4, .reg 2, .reg 3, all⟩ .wide .n32),
  (word 0x004 0 1 2 3 5 7 0, .imad ⟨false, 1, .reg 2, .reg 3, .reg 5, all⟩),
  (word 0x005 0 1 2 3 0 7 8, .imin ⟨false, 1, .reg 2, .reg 3, all⟩ .n32),
  (word 0x006 0 1 2 3 0 7 0, .imax ⟨false, 1, .reg 2, .reg 3, all⟩ .i32),
  (word 0x007 0 1 2 0 0 7 0, .iabs ⟨false, 1, .reg 2, all⟩),
  (word 0x008 0 4 2 3 0 7 (8 + 5), .icmp ⟨false, 4, .reg 2, .reg 3, all⟩ .ge .n32),
  (word 0x009 0 1 2 (3 * 2 + 1) 5 7 0x16, .lop3 ⟨false, 1, .reg 2, .reg 3, .reg 5, all⟩ 0x96),
  (word 0x00A 0 1 2 3 0 7 0, .shl ⟨false, 1, .reg 2, .reg 3, all⟩),
  (word 0x00B 0 1 2 3 0 7 1, .shr ⟨false, 1, .reg 2, .reg 3, all⟩ true),
  (word 0x00C 0 1 2 3 5 7 1, .shf ⟨false, 1, .reg 2, .reg 3, .reg 5, all⟩ true),
  (word 0x00D 0 1 2 0 0 7 0, .popc ⟨false, 1, .reg 2, all⟩),
  (word 0x00E 0 1 2 0 0 7 0, .clz ⟨false, 1, .reg 2, all⟩),
  (word 0x00F 0 1 2 0 0 7 0, .brev ⟨false, 1, .reg 2, all⟩),
  (word 0x010 0 1 2 3 5 7 8, .bfx ⟨false, 1, .reg 2, .reg 3, .reg 5, all⟩ .n32),
  (word 0x011 0 1 2 3 5 7 0, .bfi ⟨false, 1, .reg 2, .reg 3, .reg 5, all⟩),
  (word 0x012 0 1 2 3 (1024 + 7) 7 0, .prmt ⟨false, 1, .reg 2, .reg 3, .lat 7, all⟩),
  (word 0x013 0 1 2 3 4 7 0, .sel ⟨false, 1, .reg 2, .reg 3, all⟩ 4),
  (word 0x014 0 1 2 0 0 7 0, .mov ⟨false, 1, .reg 2, all⟩),
  (word 0x015 0 1 0 0 0 7 0 + 0x3FFFFF * 2 ^ 10, .movi false 1 (.short 0x3FFFFF) all),
  (word 0x015 0 1 (1024 + 0x2AA) 0 0 7 0 + 5 * 2 ^ 10, .movi false 1 (.long (0x2AA * 2 ^ 22 + 5)) all),
  (word 0x016 0 1 0 0 7 7 0, .movs false 1 7 all),
  (word 0x017 0 1 2 (3 * 2 + 1) (1024 + 4) 7 0x28, .plop ⟨false, 1, 2, 3, 4, 0xE8, all⟩)] = true := by decide +kernel

theorem test_decode_valu_float : reads [
  (word 0x020 0 1 2 3 0 7 0, .fadd ⟨false, 1, .reg 2, .reg 3, all⟩ .f32),
  (word 0x021 0 1 2 3 0 7 16, .fmul ⟨false, 1, .reg 2, .reg 3, all⟩ .f16x2),
  (word 0x022 0 1 2 3 5 7 32, .ffma ⟨false, 1, .reg 2, .reg 3, .reg 5, all⟩ .b16x2),
  (word 0x023 0 1 2 3 0 7 0, .fmin ⟨false, 1, .reg 2, .reg 3, all⟩ .f32),
  (word 0x024 0 1 2 3 0 7 0, .fmax ⟨false, 1, .reg 2, .reg 3, all⟩ .f32),
  (word 0x025 0 4 2 3 0 7 (16 + 6), .fcmp ⟨false, 4, .reg 2, .reg 3, all⟩ .un .f16x2),
  (word 0x026 0 1 2 0 0 7 0, .fcls ⟨false, 1, .reg 2, all⟩ .f32),
  (word 0x027 0 1 2 0 0 7 0, .frcp ⟨false, 1, .reg 2, all⟩ .f32),
  (word 0x028 0 1 2 0 0 7 32, .frsq ⟨false, 1, .reg 2, all⟩ .b16x2),
  (word 0x029 0 1 2 0 0 7 16, .fsqrt ⟨false, 1, .reg 2, all⟩ .f16x2),
  (word 0x02A 0 1 2 0 0 7 0, .fexp2 ⟨false, 1, .reg 2, all⟩ .f32),
  (word 0x02B 0 1 2 0 0 7 0, .flog2 ⟨false, 1, .reg 2, all⟩ .f32),
  (0x0C002002000099C0, .cvt ⟨false, 4, .reg 2, all⟩ .f8e4 .f32 .sat .rn),
  (word 0x030 0 4 2 0 (0 * 16 + 6) 7 (1 * 4 + 3), .cvt ⟨false, 4, .reg 2, all⟩ .f16 .f32 .inf .rd),
  (word 0x031 0 1 2 3 6 7 0, .qpack ⟨false, 1, .reg 2, .reg 3, all⟩ 6),
  (word 0x032 0 1 2 0 0 7 3, .qunpk ⟨false, 1, .reg 2, all⟩ 3),
  (word 0x033 0 4 6 0 0 7 0, .rand false 4 6 all)] = true := by decide +kernel

/-- R256, R157, R257: classes MEM and XFER. -/
theorem test_decode_mem_xfer : reads [
  (word 0x080 1 4 2 (8 + 1) 2047 7 2, .ld ⟨true, 4, .reg 2, true, .b2, 2047, all, .g, 2⟩),
  (word 0x080 0 4 2 3 5 7 (3 * 8 + 1), .ld ⟨false, 4, .reg 2, false, .b8, 5, all, .y, 1⟩),
  (word 0x081 0 (8 + 2) (1024 + 1) 6 4 7 (8 + 5), .st ⟨false, some 5, .b4, .lat 1, .reg 6, 4, all, .s⟩),
  (word 0x082 0 4 2 (5 * 4 + 3) 1 7 6, .ldb ⟨false, 4, 2, 5, .b8, 1, all, 6⟩),
  (word 0x083 1 (5 * 2) 2 (3 * 4 + 1) 1 7 0, .stb ⟨true, none, 5, 2, 3, .b2, 1, all⟩),
  (word 0x084 0 1 0 0 0 7 0 + 64 * 2 ^ 10, .ldc false 1 64 all),
  (word 0x088 1 (3 * 2) (1024 + 2) (4 * 4 + 3) 1 7 5, .atom ⟨true, 3, false, .cas, 2, 4, 1, all, .g, 5⟩),
  (word 0x089 0 (0 * 8 + 4 + 2) 10 12 0 7 2, .ared ⟨false, .add, true, true, .reg 10, .reg 12, 0, all, .g, 2⟩),
  (word 0x08A 1 4 2 3 1 7 4, .amaxp ⟨true, 4, .reg 2, .reg 3, 1, all, .g, 4⟩),
  (word 0x08C 0 4 2 3 1 7 (24 + 1), .mwait ⟨false, 4, 2, .reg 3, 1, all, true, true⟩),
  (word 0x090 0 0 0 0 0 7 2, .fence .dev),
  (word 0x091 0 0 2 0 1 7 0, .pref ⟨2, 1, all⟩),
  (word 0x092 0 0 2 0 1 7 0, .cflush ⟨2, 1, all⟩),
  (word 0x100 0 4 2 3 5 7 2, .shfl ⟨4, .reg 2, .reg 3, 5, .rot, all⟩),
  (word 0x101 0 3 1 0 0 7 1, .vote .any 3 1 all),
  (word 0x101 0 8 2 0 0 7 2, .vote .bal 8 2 all),
  (word 0x102 0 4 2 0 0 7 (2 * 8 + 1), .gred 4 (.reg 2) .min .f32 all),
  (word 0x103 0 52 51 1 0 7 8, .gscan 52 (.reg 51) true .add .n32 all),
  (word 0x104 0 4 2 0 0 7 0, .matchv 4 (.reg 2) all)] = true := by decide +kernel

/-- R143, R149, R157, R258, R49: classes MTX and ENG. -/
theorem test_decode_mtx_eng : reads [
  (0x60008020010025C8, .mma ⟨16, 32, .reg 8, .reg 9, 1, 0, all⟩),
  (word 0x181 0 4 2 3 0 7 0, .bset 4 2 (.reg 3) all),
  (word 0x181 0 4 0 3 0 7 1, .bsetFree 4 (.reg 3) all),
  (word 0x188 0 5 7 3 (9 * 8) 7 1, .accopen ⟨5, 7, .reg 3, 9, true⟩),
  (word 0x189 0 0 0 0 0 7 0, .accclose),
  (word 0x18A 0 8 3 0 0 7 0, .accz 8 3 all),
  (word 0x18B 0 5 2 0 0 7 0, .accmov 5 2 all),
  (word 0x18C 0 5 2 0 1 7 4, .accld ⟨5, .reg 2, 1, all, 4⟩),
  (word 0x18D 0 5 2 (1 * 16 + 1 * 4 + 2) 1 7 4, .accst ⟨5, .reg 2, .b16, .inf, .ru, 1, all, 4⟩),
  (word 0x190 0 5 20 0 0 7 0, .bndthr 5 20 all),
  (word 0x191 0 5 20 0 0 7 0, .bndrd 5 20 none all),
  (word 0x191 0 5 20 (256 + 5 * 16 + 1) 0 7 0, .bndrd 5 20 (some (.i8, .rz)) all),
  (word 0x198 0 0 12 0 0 7 3, .mqrun 12 3 all),
  (word 0x200 0 0 2 4 6 7 (16 + 8 + 3), .cpy ⟨true, 2, 4, some 6, 3, all⟩),
  (word 0x201 0 0 2 0 0 7 3, .gath (.reg 2) 3 all),
  (word 0x202 0 0 2 0 0 7 3, .scat (.reg 2) 3 all),
  (word 0x203 0 0 2 0 0 7 3, .nzscan (.reg 2) 3 all),
  (word 0x208 0 0 2 3 0 7 1, .ownE (.reg 2) (.reg 3) all),
  (word 0x208 0 0 2 3 0 7 0, .ownT (.reg 2) (.reg 3) all),
  (0x8400480402800DC0, .relent 9 (.reg 4) (.reg 20) ⟨false, 3⟩ all),
  (word 0x211 0 4 0 0 (64 + 33) 7 0, .relsealSeal 4 ⟨true, 33⟩ all),
  (word 0x211 0 4 2 3 5 7 1, .relsealRec 4 (.reg 2) (.reg 3) ⟨false, 5⟩ all),
  (word 0x211 0 4 0 0 5 7 2, .relsealFree 4 ⟨false, 5⟩ all),
  (word 0x212 0 4 2 0 5 7 0, .relgrp 4 (.reg 2) ⟨false, 5⟩ all),
  (word 0x213 0 4 2 (64 + 6) 5 7 0, .reljoin 4 (.reg 2) ⟨false, 5⟩ ⟨true, 6⟩ all),
  (word 0x214 0 50 0 0 0 7 3, .relmrg 50 (.reg 0) 3 all),
  (word 0x215 0 4 0 0 5 7 0, .relstat 4 ⟨false, 5⟩ all)] = true := by decide +kernel

/-- A word of format C (R252): opcode, bit 53, bits 52..42, target, predicate, bits 5..0. -/
def wordC (op x k off p m : Nat) : Nat := op * 2 ^ 54 + x * 2 ^ 53 + k * 2 ^ 42 + off * 2 ^ 10 + p * 2 ^ 6 + m

/-- R259, R157, R161: class CTL. -/
theorem test_decode_ctl : reads [
  (word 0x280 0 0 0 0 0 7 0, .nop false all),
  (wordC 0x281 1 0 0xFFFFFFFE 6 0, .bra true 0xFFFFFFFE ⟨false, 6⟩),
  (wordC 0x281 0 3 16 7 0, .braPop false 3 16 all),
  (wordC 0x282 0 256 8 1 (10 * 4), .brm ⟨false, 1, ⟨false, 1⟩, ⟨true, 2⟩, ⟨false, 0⟩, ⟨false, 0⟩, 8⟩),
  (wordC 0x283 0 0 16 7 0, .jmp false 16),
  (wordC 0x284 0 0 16 6 0, .call false 16 ⟨false, 6⟩),
  (word 0x285 0 0 0 0 0 7 0, .ret false all),
  (word 0x286 0 0 0 0 0 7 0, .exit false all),
  (wordC 0x288 0 0 16 7 0, .rcvpush false 16),
  (word 0x289 0 0 0 0 0 7 15, .rcvdrop false 15),
  (word 0x28A 1 0 0 0 0 7 0, .regang true),
  (word 0x28A 0 0 0 0 0 7 1, .regangAll false),
  (0xA3000000000009C2, .yield 2 2 all),
  (word 0x290 0 4 0 0 0 7 (4 + 2), .bar false .sync true 4),
  (word 0x291 0 0 2 3 1 7 8, .phwait false (.reg 2) (.reg 3) 1 all),
  (word 0x292 0 0 2 0 1 7 8, .phflip false (.reg 2) 1 all),
  (word 0x293 0 0 2 3 0 7 4, .bcbarm 2 (.reg 3) 4 all),
  (word 0x294 0 4 2 0 0 7 0, .bcbwait 4 2 all),
  (wordC 0x298 0 0 16 7 0, .phend false 16),
  (word 0x299 0 0 2 4 0 7 0, .emit false (.reg 2) 4 all),
  (wordC 0x29C 0 0 0x9E3779B1 7 0, .sigchk false 0x9E3779B1)] = true := by decide +kernel

/-- R260: class SYS. CSTATE's two further forms have the word of the first (log 10). -/
theorem test_decode_sys : reads [
  (word 0x300 0 0 0 0 0 7 0 + 99 * 2 ^ 10, .trap 99 all),
  (word 0x301 0 0 0 0 0 7 0, .rtt),
  (word 0x302 0 4 0 0 0x0B 7 0, .srget 4 0x0B all),
  (word 0x303 0 0 2 0 0x0D 7 0, .srset 0x0D (.reg 2) all),
  (word 0x304 0 0 0 0 0 7 0, .pmoff),
  (word 0x305 0 0 0 0 0 7 0, .pmon),
  (word 0x306 0 0 0 0 0 7 3, .flushp 3 all),
  (word 0x307 0 0 2 4 0 7 0, .tlbinv 2 4 all),
  (0xC2012022000001C1, .pqpop 36 34 0 1 all),
  (word 0x309 0 0 2 0 0 7 0, .ctxkill (.reg 2) all),
  (word 0x30C 0 13 3 19 0 7 0, .cstateRead 13 (.reg 3) (.reg 19) all),
  (word 0x30D 0 13 3 19 0 7 0, .cdrain 13 (.reg 3) (.reg 19) all),
  (word 0x30E 0 13 3 0 0 7 0, .cretire 13 (.reg 3) all),
  (word 0x30F 0 4 0 3 0 7 1, .wearrdSelf 4 (.reg 3) all),
  (word 0x30F 0 4 2 3 0 7 0, .wearrd 4 (.reg 2) (.reg 3) all),
  (word 0x310 0 0 2 4 0 7 0, .tstrun (.reg 2) 4 all),
  (word 0x311 0 0 2 0 0 7 0, .tstabt (.reg 2) all)] = true := by decide +kernel

/-- R244, R254, R246, R261, R79: a header among the body's words, an unassigned opcode, a field that must be zero, a predicate on JMP, a
reserved format. -/
theorem test_decode_refused : ([
  (word 0x380 0 0 0 0 0 7 0, .header),
  (word 0x018 0 0 0 0 0 7 0, .unassigned),
  (word 0x001 0 1 2 3 1 7 0, .mustBeZero),
  (wordC 0x283 0 0 16 6 0, .reserved),
  (word 0x003 0 4 2 3 0 7 3, .reserved),
  (word 0x003 0 5 2 3 0 7 2, .illFormed)] : List (Nat × IllegalWord)).all (fun x =>
    match decode (BitVec.ofNat 64 x.1) with
    | .error e => e == x.2
    | .ok _ => false) = true := by decide +kernel

/-- R246, R255 to R262: an ill-formed instruction for each check of WellFormed. -/
theorem test_ill_formed : ([
  .rand false 5 6 all,                                             -- even
  .ld ⟨false, 6, .reg 2, false, .b16, 0, all, .s, 0⟩,                -- quad, destBlock
  .srset 0x08 (.lat 1) all,                                        -- pairSrc, sr64
  .lop3 ⟨false, 1, .reg 2, .reg 512, .reg 5, all⟩ 0,                  -- low512
  .ld ⟨false, 6, .reg 3, false, .b4, 0, all, .g, 0⟩,                 -- base
  .st ⟨false, none, .b8, .reg 2, .lat 0, 0, all, .g⟩,             -- dataBlock
  .ld ⟨false, 6, .reg 2, true, .b4, 0, all, .g, 0⟩,                  -- signExt
  .ld ⟨true, 6, .reg 2, false, .b4, 0, all, .s, 0⟩,                  -- weak
  .st ⟨false, none, .b4, .reg 2, .reg 4, 0, all, .c⟩,             -- notConst
  .ldb ⟨false, 6, 2, 2, .b16, 0, all, 0⟩,                            -- boundSize
  .atom ⟨true, 1, true, .add, 2, 2, 0, all, .g, 0⟩,                   -- tBit
  .ared ⟨false, .swap, false, false, .reg 2, .reg 4, 0, all, .g, 0⟩,    -- redOp
  .ared ⟨false, .add, false, true, .reg 2, .reg 4, 0, all, .g, 0⟩,      -- merge
  .gred 4 (.reg 2) .xor .f32 all,                                  -- redTy
  .cvt ⟨false, 4, .reg 2, all⟩ .i4x .f32 .sat .rn,                   -- cvtFmt
  .bndrd 5 20 (some (.i4x, .ru)) all,                              -- i4xRn
  .relstat 4 ⟨false, 16⟩ all,                                      -- hnd
  .brm ⟨false, 0, all, all, ⟨false, 0⟩, ⟨false, 0⟩, 8⟩,                    -- brmPair
  .srget 4 0x10 all                                                -- srAssigned
  ] : List Instr).all (fun i => i.wf == false) = true := by decide +kernel

/-- Words that the spec prints beside a line of assembly (its instruction reference, R49, R79, R143). -/
theorem test_decode_printed : reads [
  (0x6300180400040 * 4096 + 0x1C1, .accld ⟨3, .reg 4, 256, all, 1⟩),
  (0x62C02802000001C0, .accmov 5 2 all),
  (0x62008003010101C1, .accopen ⟨16, 3, .reg 8, 8, true⟩),
  (0x634000240C0001C3, .accst ⟨0, .reg 36, .f32, .sat, .rn, 0, all, 3⟩),
  (0x62804003000001C0, .accz 8 3 all),
  (0x2280A00402A001C9, .amaxp ⟨false, 20, .reg 4, .reg 21, 0, all, .s, 1⟩),
  (0x2240300A018001C2, .ared ⟨false, .add, true, true, .reg 10, .reg 12, 0, all, .g, 2⟩),
  (0xA400A800000001C2, .bar false .sync false 21),
  (0xA4C00028054001C4, .bcbarm 40 (.reg 42) 4 all),
  (0xA5016028000001C0, .bcbwait 44 40 all),
  (0x0400280100400DC8, .bfx ⟨false, 5, .reg 1, .reg 2, .reg 3, all⟩ .n32),
  (0x64400038200001C0, .bndrd 0 56 (some (.f16, .rn)) all),
  (0x64000014000001C0, .bndthr 0 20 all),
  (0x60411810044001C0, .bset 35 16 (.reg 34) all),
  (0xA1000000000021C0, .call false 8 all),
  (0x2480000400040 * 4096 + 0x1C0, .cflush ⟨4, 256, all⟩),
  (0x8000001402C061DC, .cpy ⟨true, 20, 22, some 24, 4, all⟩),
  (0xC2400005000001C0, .ctxkill (.reg 5) all),
  (0x0C002002000019C7, .cvt ⟨false, 4, .reg 2, all⟩ .f16 .f32 .inf .rd),
  (0xA640000400C001C0, .emit false (.reg 4) 6 all),
  (0x09400802006001C2, .fcmp ⟨false, 1, .reg 2, .reg 3, all⟩ .lt .f32),
  (0x02000801032001CA, .icmp ⟨false, 1, .reg 1, .reg 25, all⟩ .lt .n32),
  (0x00C0500400A001C2, .imul ⟨false, 10, .reg 4, .reg 5, all⟩ .wide .i32),
  (0x2080A00A07C001C1, .ldb ⟨false, 20, 10, 15, .b4, 0, all, 1⟩),
  (0x21005000000021C0, .ldc false 10 8 all),
  (0x2300B806002001C1, .mwait ⟨false, 23, 6, .reg 1, 0, all, false, true⟩),
  (0xA6000000000009C0, .phend false 2),
  (0xA440000400A001C8, .phwait false (.reg 4) (.reg 5) 0 all),
  (0x05C0080200F011EA, .plop ⟨false, 1, 2, 3, 4, 0xEA, all⟩),
  (0x0C400000000011C0 + 0x5001 * 2 ^ 32 + 0x00400000, .qpack ⟨false, 10, .reg 1, .reg 2, all⟩ 4),
  (0xA2400000000001C1, .rcvdrop false 1),
  (0x04C0380500C005C0, .sel ⟨false, 7, .reg 5, .reg 6, all⟩ 1),
  (0x4000A01502C009C1, .shfl ⟨20, .reg 21, .reg 22, 2, .rel, all⟩),
  (0x02C0280600E001C1, .shr ⟨false, 5, .reg 6, .reg 7, all⟩ true),
  (0xA700011FA5646DC0, .sigchk false 0x47E9591B),
  (0xC0C0000400002DC0, .srset 0x0B (.reg 4) all),
  (0x20C0F80A054001C1, .stb ⟨false, some 1, 15, 10, 10, .b4, 0, all⟩),
  (0xC00000000048D1C0, .trap 0x1234 all),
  (0xC400000300C001C0, .tstrun (.reg 3) 6 all),
  (0x40404002000001C2, .vote .bal 8 2 all),
  (0xC3C05000006001C1, .wearrdSelf 10 (.reg 3) all)] = true := by decide +kernel

/-! ### Results of VALU and XFER -/

/-- An instruction of two sources v2, v3 (v5) into v1 (v4) with values, in lane 3. -/
def two (f : V2 → Instr) (a b w : Nat) : Bool := let i := f ⟨false, 1, .reg 2, .reg 3, all⟩; gives i (regs [(2, a), (3, b)] (at_ i)) 1 3 w
def one (f : V1 → Instr) (a w : Nat) : Bool := let i := f ⟨false, 1, .reg 2, all⟩; gives i (regs [(2, a)] (at_ i)) 1 3 w
def three (f : V3 → Instr) (a b c old w : Nat) : Bool :=
  let i := f ⟨false, 1, .reg 2, .reg 3, .reg 5, all⟩; gives i (regs [(1, old), (2, a), (3, b), (5, c)] (at_ i)) 1 3 w
/-- A float result and the flags that enter %fstat. -/
def flags (i : Instr) (s : State) (w fl : Nat) : Bool := group i s fun g => (g.reg 1 3).toNat == w && g.fstat.toNat == fl

/-- R327, R329: sums wrap; .HI is the floor of a negative product; .WIDE writes a pair. -/
theorem test_integer : (two .iadd 0xFFFFFFFF 2 1 && two .isub 1 2 0xFFFFFFFF && two (.imul · .lo .i32) 0xFFFFFFFF 3 0xFFFFFFFD
    && two (.imul · .hi .i32) 0xFFFFFFFF 3 0xFFFFFFFF && two (.imul · .hi .n32) 0xFFFFFFFF 3 2
    && three .imad 0x10000 0x10000 7 0 7 && two (.imin · .i32) 1 0xFFFFFFFF 0xFFFFFFFF && two (.imin · .n32) 1 0xFFFFFFFF 1
    && two (.imax · .i32) 1 0xFFFFFFFF 1 && one .iabs 0x80000000 0x80000000 && one .iabs 0xFFFFFFFB 5) = true := by decide +kernel

/-- R328, R336, R350, R368, R339. -/
theorem test_compare_logic :
    (let i : Instr := .icmp ⟨false, 4, .reg 2, .reg 3, all⟩ .lt .i32; let s := regs [(2, 0xFFFFFFFF), (3, 0)] (at_ i)
     givesPred i s 4 3 true && givesPred i s 3 3 false)
    && (let i : Instr := .icmp ⟨false, 4, .reg 2, .reg 3, all⟩ .lt .n32; givesPred i (regs [(2, 0xFFFFFFFF), (3, 0)] (at_ i)) 4 3 false)
    && three (.lop3 · 0x96) 0xF0 0xCC 0xAA 0 0x96 && three (.lop3 · 0xE8) 0xF0 0xCC 0xAA 0 0xE8
    && (let i : Instr := .plop ⟨false, 1, 2, 3, 4, 0xEA, all⟩
        givesPred i (grp (·.setPreds 2 [3] fun _ => true) (at_ i)) 1 3 true && givesPred i (grp (·.setPreds 3 [3] fun _ => true) (at_ i)) 1 3 false)
    && (let i : Instr := .sel ⟨false, 1, .reg 2, .reg 3, all⟩ 4
        let s := grp (·.setPreds 4 [3] fun _ => true) (regs [(2, 5), (3, 6)] (at_ i)); gives i s 1 3 5 && gives i s 1 2 6)
    && one .mov 5 5 && (let i : Instr := .movi false 1 (.short 0x3FFFFF) all; gives i (at_ i) 1 3 0xFFFFFFFF)
    && (let i : Instr := .movs false 1 0 all; gives i (at_ i) 1 3 3) = true := by decide +kernel

/-- R371, R369, R352, R312, R306, R302 and R355, with their examples. -/
theorem test_shifts_fields : (two .shl 1 33 2 && two (.shr · true) 0x80000000 31 0xFFFFFFFF && two (.shr · false) 0x80000000 31 1
    && three (.shf · true) 0x12345678 0x9ABCDEF0 8 0 0xF0123456 && three (.shf · false) 0x12345678 0x9ABCDEF0 8 0 0xBCDEF012
    && one .popc 0xF0F00001 9 && one .clz 0 32 && one .clz 0x00010000 15 && one .brev 1 0x80000000 && one .brev 0x0000000D 0xB0000000
    && three (.bfx · .i32) 0xF0A0 8 8 0 0xFFFFFFF0 && three (.bfx · .n32) 0xF0A0 8 8 0 0xF0 && three .bfi 0xAB 12 8 0x12345678 0x123AB678
    && three .bfi 0xAB 32 8 0x12345678 0x12345678
    && three .prmt 0x44332211 0x88776655 0x0A60 0 0x66225511 && three .prmt 0x44332211 0x88776655 0xCCFFF 0 0xFF88FF88
    && three .prmt 0x44332211 0x88776655 0x84000 0 0xFF110011) = true := by decide +kernel

/-- R319, R320, R321, R323: %fstat takes nx (bit 4). -/
theorem test_float : (two (.fadd · .f32) 0x3FC00000 0x40100000 0x40700000 && two (.fmul · .f16x2) 0x3E004000 0x40004200 0x42004600
    && three (.ffma · .f32) 0x40000000 0x40400000 0x3F800000 0 0x40E00000 && two (.fmin · .f32) 0x3F800000 0x40000000 0x3F800000
    && two (.fmax · .b16x2) 0x3F804000 0x40003F80 0x40004000
    && (let i : Instr := .fcmp ⟨false, 1, .reg 2, .reg 3, all⟩ .lt .f32; givesPred i (regs [(2, 0xBF800000), (3, 0x3F800000)] (at_ i)) 1 3 true)
    && one (.fcls · .f32) 0x80000000 3 && one (.frcp · .f32) 0x40800000 0x3E800000 && one (.frsq · .f32) 0x40800000 0x3F000000
    && one (.flog2 · .f32) 0x41000000 0x40400000 && one (.fexp2 · .f32) 0x40400000 0x41000000
    && (let i : Instr := .fsqrt ⟨false, 1, .reg 2, all⟩ .f32; flags i (regs [(2, 0x40000000)] (at_ i)) 0x3FB504F3 16)
    && (let i : Instr := .fadd ⟨false, 1, .reg 2, .reg 3, all⟩ .f32; flags i (regs [(2, 0x3F800000), (3, 0x4B800000)] (at_ i)) 0x4B800000 16))
    = true := by decide +kernel

/-- R79, R77, R356, R357, R359 with their examples. -/
theorem test_convert : ((let i : Instr := .cvt ⟨false, 1, .reg 2, all⟩ .f16 .f32 .inf .rd
      group i (regs [(2, 0xC7C35000)] (at_ i)) fun g => (g.reg 1 3).toNat == 0xFC00 && g.fstat.toNat != 0)
    && (let i : Instr := .qpack ⟨false, 1, .reg 2, .reg 3, all⟩ 4
        flags i (regs [(2, 0x4119999A), (3, 0xC04CCCCD), (4, 0x3F800000), (5, 0x41400000)] (at_ i)) 0x52D8 16)
    && one (.qunpk · 0) 0x52D8 0x41200000 && one (.qunpk · 1) 0xCF82 0xC0F00000
    && (let i : Instr := .qunpk ⟨false, 1, .reg 2, all⟩ 0; flags i (regs [(2, 0x0088)] (at_ i)) 0 (4 * 2 ^ 16))
    && (let i : Instr := .rand false 4 6 all
        group i (grp (fun g => { g with rank0 := 2, rand := [(3, 3)] }) (regs [(4, 8), (5, 8), (6, 3), (7, 0x500)] (at_ i))) fun g =>
          g.reg 4 3 == 0 && g.reg 5 3 == 0 && g.rand.getD 3 0 == 4 && g.rand.getD 2 0 == 1)) = true := by decide +kernel

/-- R370, R382, R326, R337 with their examples. -/
theorem test_xfer : ((let i : Instr := .shfl ⟨20, .reg 21, .reg 22, 2, .rel, all⟩; let s := (lanes 21 [10, 11, 12, 13] (at_ i))
      gives i (regs [(22, 1)] s) 20 0 11 && gives i (regs [(22, 1)] s) 20 3 13 && givesPred i (regs [(22, 1)] s) 2 3 false
        && gives i (regs [(22, 0xFFFFFFFF)] s) 20 0 10 && gives i (regs [(22, 0xFFFFFFFF)] s) 20 3 12)
    && (let s := fun i => grp (·.setPreds 1 [1, 3] fun _ => true) ((at_ i))
        givesPred (.vote .all 3 1 all) (s (.vote .all 3 1 all)) 3 0 false && givesPred (.vote .any 3 1 all) (s (.vote .any 3 1 all)) 3 0 true
          && gives (.vote .bal 8 1 all) (s (.vote .bal 8 1 all)) 8 2 0xA)
    && (let s := fun i => (lanes 2 [0x3F800000, 0x4B800000, 0x3F800000, 0x3F800000] (at_ i))
        gives (.gred 4 (.reg 2) .add .f32 all) (s (.gred 4 (.reg 2) .add .f32 all)) 4 0 0x4B800001
          && gives (.gscan 4 (.reg 2) false .add .f32 all) (s (.gscan 4 (.reg 2) false .add .f32 all)) 4 2 0x4B800000
          && gives (.gscan 4 (.reg 2) false .add .f32 all) (s (.gscan 4 (.reg 2) false .add .f32 all)) 4 3 0x4B800001
          && gives (.gscan 4 (.reg 2) true .add .f32 all) (s (.gscan 4 (.reg 2) true .add .f32 all)) 4 0 0x80000000)
    && (let i : Instr := .matchv 6 (.reg 5) all; let s := (lanes 5 [7, 9, 7, 7] (at_ i))
        gives i s 6 0 0xD && gives i s 6 1 2)) = true := by decide +kernel

/-- R246: an instruction whose predicate is false in every lane writes nothing; R57: nor one suppressed by .NW. -/
theorem test_no_lane : ((let i : Instr := .iadd ⟨false, 1, .reg 2, .reg 3, none_⟩; gives i (regs [(1, 7)] (at_ i)) 1 3 7)
    && (let i : Instr := .iadd ⟨true, 1, .reg 2, .reg 3, all⟩; gives i (regs [(1, 7)] (at_ i)) 1 3 7)) = true := by decide +kernel

/-- R202's example: from a signature of zero, IADD and then MOV leave 0x47E9591B. -/
theorem test_signature : group (.mov ⟨false, 1, .reg 2, all⟩) (sl (fun x => { x with sig := 0x9E3779B1 }) (at_ (.mov ⟨false, 1, .reg 2, all⟩)))
    (fun g => (g.slice 0).sig == 0x47E9591B)
    && group (.iadd ⟨false, 1, .reg 2, .reg 3, all⟩) (at_ (.iadd ⟨false, 1, .reg 2, .reg 3, all⟩)) (fun g => (g.slice 0).sig == 0x9E3779B1)
    = true := by decide +kernel

/-! ### Memory: results -/

/-- The first reply of core 0, after an instruction. -/
def replied (i : Instr) (s : State) (p : Op → Bool) : Bool :=
  after i s fun t => match (t.core 0).replies with
    | o :: _ => p o
    | [] => false

/-- Bytes of the team's scratchpad, and a byte of it after an instruction. -/
def spad (xs : List (Nat × Nat × Nat)) (s : State) : State :=
  xs.foldl (fun s x => s.modTeam 0 fun t => { t with spad := Mem.writeN t.spad x.1 x.2.1 x.2.2 }) s
def stores (i : Instr) (s : State) (a n w : Nat) : Bool :=
  after i s fun t => match t.team 0 with
    | some t => Mem.readN t.spad a n == w
    | none => false

/-- R375, R107: the highest lane wins a byte; little-endian; the byte below is kept. R331: a signed byte. -/
theorem test_spad_store_load : ((let i : Instr := .st ⟨false, none, .b2, .reg 2, .reg 3, 1, all, .s⟩
      let s := spad [(7, 1, 0x55)] (lanes 3 [1, 2, 3, 0x1234] (regs [(2, 7)] (at_ i)))
      stores i s 8 2 0x1234 && stores i s 7 1 0x55)
    && (let i : Instr := .ld ⟨false, 4, .reg 2, true, .b1, 2047, all, .s, 1⟩
        replied i (spad [(7, 1, 0x80)] (regs [(2, 8)] (at_ i))) fun o =>
          (o.pieces.map (·.got)).head? == some (some 0x80) && (o.pieces.head?.map o.words) == some [(4, 0xFFFFFF80)])) = true := by
  decide +kernel

/-- R294, R297: lanes 0 and 1 compare with 0; lane 0 puts 5, and lane 1 finds it. -/
theorem test_cas : (let i : Instr := .atom ⟨false, 4, false, .cas, 2, 2, 0, ⟨false, 1⟩, .s, 0⟩
    let s := grp (·.setPreds 1 [0, 1] fun _ => true) (lanes 4 [5, 7] (regs [(2, 16), (5, 0)] (at_ i)))
    stores i s 16 4 5 && replied i s fun o => o.pieces.map (·.got) == [some 0, some 5]) = true := by decide +kernel

/-- R335: LDC reads its launch's bank. -/
theorem test_ldc : (let i : Instr := .ldc false 4 8 all
    let s := (at_ i).modLaunch 0 fun l => { l with bank := [0x4000], record := l.record ||| (1#1024 <<< 256) }
    gives i { s with mem := Mem.writeN s.mem 0x4008 4 0xCAFE } 4 3 0xCAFE
      && after i ((at_ i)) fun t => (t.ctx 0).line == some 0x03) = true := by decide +kernel

/-! ### VALU, XFER, MEM: witnesses -/

/-- Every instruction of VALU and XFER in turn issues with nothing in its way. -/
theorem witness_valu : ([
    .iadd ⟨false, 1, .reg 2, .reg 3, all⟩, .isub ⟨false, 1, .reg 2, .reg 3, all⟩, .imul ⟨false, 1, .reg 2, .reg 3, all⟩ .lo .i32,
    .imul ⟨false, 1, .reg 2, .reg 3, all⟩ .hi .n32, .imul ⟨false, 4, .reg 2, .reg 3, all⟩ .wide .i32, .imad ⟨true, 1, .reg 2, .reg 3, .reg 5, all⟩,
    .imin ⟨false, 1, .reg 2, .reg 3, all⟩ .i32, .imax ⟨false, 1, .reg 2, .reg 3, none_⟩ .n32, .iabs ⟨false, 1, .reg 2, all⟩,
    .icmp ⟨false, 7, .reg 2, .reg 3, all⟩ .lt .i32, .lop3 ⟨false, 1, .reg 2, .reg 3, .reg 5, all⟩ 0x96, .shl ⟨false, 1, .reg 2, .reg 3, all⟩,
    .shr ⟨false, 1, .reg 2, .reg 3, all⟩ true, .shf ⟨false, 1, .reg 2, .reg 3, .reg 5, all⟩ false, .popc ⟨false, 1, .reg 2, all⟩,
    .clz ⟨false, 1, .reg 2, all⟩, .brev ⟨false, 1, .reg 2, all⟩, .prmt ⟨false, 1, .reg 2, .reg 3, .reg 5, all⟩,
    .sel ⟨false, 1, .reg 2, .reg 3, all⟩ 2, .mov ⟨false, 1, .reg 2, all⟩, .movi false 1 (.short 5) all, .movi false 1 (.long 5) all,
    .movs false 1 7 all, .plop ⟨false, 1, 2, 3, 4, 0xEA, all⟩, .fadd ⟨false, 1, .reg 2, .reg 3, all⟩ .f32, .fmul ⟨false, 1, .reg 2, .reg 3, all⟩ .f16x2,
    .ffma ⟨false, 1, .reg 2, .reg 3, .reg 5, all⟩ .b16x2, .fmin ⟨false, 1, .reg 2, .reg 3, all⟩ .f32, .fmax ⟨false, 1, .reg 2, .reg 3, all⟩ .f32,
    .fcmp ⟨false, 1, .reg 2, .reg 3, all⟩ .un .f32, .fcls ⟨false, 1, .reg 2, all⟩ .f32, .frcp ⟨false, 1, .reg 2, all⟩ .f32,
    .frsq ⟨false, 1, .reg 2, all⟩ .f32, .fsqrt ⟨false, 1, .reg 2, all⟩ .f32, .fexp2 ⟨false, 1, .reg 2, all⟩ .f32, .flog2 ⟨false, 1, .reg 2, all⟩ .f32,
    .qpack ⟨false, 1, .reg 2, .reg 3, all⟩ 4, .qunpk ⟨false, 1, .reg 2, all⟩ 3, .shfl ⟨4, .reg 2, .reg 3, 5, .rot, all⟩, .vote .all 3 1 all,
    .vote .any 3 1 all, .vote .bal 8 1 all, .gred 4 (.reg 2) .add .f32 all, .gscan 4 (.reg 2) true .min .i32 all, .matchv 4 (.reg 2) all]
    : List Instr).all (fun i => shows i (at_ i) fun v => v.k.fence.isNone) = true := by decide +kernel

/-- BitFields: wd of 0, pos of 32, a field inside the word. Conversions: no lane traps, one does. RandomStreams: none exhausted, one is. -/
theorem witness_fields_conversions_random : ([
    (let i : Instr := .bfx ⟨false, 1, .reg 2, .reg 3, .reg 5, all⟩ .i32
     let wd (v : View) : Nat := (v.src (.reg 5) 0).toNat % 256
     let pos (v : View) : Nat := (v.src (.reg 3) 0).toNat % 256
     shows i (at_ i) (fun v => wd v == 0) && shows i (regs [(3, 32), (5, 1)] (at_ i)) (fun v => decide (32 ≤ pos v))
       && shows i (regs [(3, 31), (5, 1)] (at_ i)) (fun v => !(wd v == 0 || decide (32 ≤ pos v)))),
    (let i : Instr := .bfi ⟨false, 1, .reg 2, .reg 3, .reg 5, all⟩; shows i (at_ i) fun _ => true),
    (let i : Instr := .cvt ⟨false, 1, .reg 2, all⟩ .f16 .f32 .trap .rn
     let r (v : View) (l : Nat) : Bool := match cvt (fmtValue .f32 (v.src (.reg 2) l).toNat) .f16 .rn .trap with | .ok _ => true | .error _ => false
     shows i (at_ i) (fun v => (v.lanes all).all (r v))
       && shows i (regs [(2, 0x47C35000)] (at_ i)) (fun v => (v.lanes all).any (fun l => !r v l) && v.k.fence.isNone)),
    (let i : Instr := .rand false 4 6 all
     shows i (at_ i) (fun v => (v.lanes all).all fun l => decide (v.g.rand.getD l 0 < 2 ^ 40))
       && shows i (grp (fun g => { g with rand := [(2, 2 ^ 40)] }) (at_ i)) fun v =>
         (v.lanes all).any (fun l => decide (2 ^ 40 ≤ v.g.rand.getD l 0)) && v.k.fence.isNone)] : List Bool).all id = true := by decide +kernel

/-- A page of host memory for .Y, and deterministic mode. -/
def ypage (s : State) : State := core (fun c => { c with tlb := ⟨0, 0x40000000, 0x10000, 0x200000, true, false, true⟩ :: c.tlb }) s
def det (s : State) : State := ctx (fun x => { x with record := x.record ||| (1#512 <<< 168) }) s
/-- The group's gang is the one whose held synchronising operation executes now. -/
def granted (s : State) : State := grp (fun g => { g with det := { g.det with ended := true, granted := some 0 } }) s

/-- Whether an access passes its checks, has room and finds a tag and a scoreboard. -/
def goes (s : State) (v : View) (i : Instr) (sp : Space) (write : Bool) (sb : Option (BitVec 3)) (ps : List Piece)
    (miss : Piece → Bool) : Bool :=
  match v.check s sp write ps with
  | .ok qs => !v.loadWaits s sp (qs.filter miss) qs && !(s.core v.t.core).noRoom (qs.filter miss) && !(s.core v.t.core).noRoomY qs
      && (s.queueUp v i sb).isSome && qs.all fun p => !s.lockedFor p.pa
  | _ => false

/-- A queued store of gang 0 of group 0, of one word at an address; an ACCST of the team that has not come yet, of a word at an offset. -/
def queued (pa : Nat) : Op := ⟨0, 0, 0, 0, 0, [0], none, some 1, .store, 0, [⟨0, 0, pa, pa, 4, 5, 0, none, false, true, false⟩], 0, 0, none, false, none⟩
def coming (off : Nat) (s : State) : State :=
  core (fun c => { c with replies := [{ queued 0 with kind := .accst, pieces := [⟨0, 0, off, 0, 4, 5, 0, none, false, false, false⟩] }] }) s

/-- LoadsAndStores: a load of each space and of each kind, a store of .S, .G, .Y, weak and logged. -/
theorem witness_loads_stores : ([
    (let ld (wk : Bool) (sp : Space) : LdOp := ⟨wk, 4, .reg 2, false, .b4, 0, all, sp, 1⟩
     let ok (o : LdOp) (s : State) (q : View → Bool) : Bool := shows (.ld o) s fun v =>
       goes s v (.ld o) o.space false (some o.sb) ((v.lanes o.g).map fun l => piece l 0 (addrOf v.g v.c o.space o.base o.off l) (bytesOf o.size) 0)
         (fun p => o.space == .y || (o.space == .g && !s.l1Hit v.t.core (s.lineAt p.pa) (sectorsOf p.pa p.len))) && q v
     ok (ld false .g) (regs [(2, 0x1FFFC)] (at_ (.ld (ld false .g)))) (fun v => !v.x.det)
       && ok (ld true .g) (regs [(2, 0x10200)] (at_ (.ld (ld true .g)))) (fun v => !v.x.det)
       && ok (ld false .g) (det (regs [(2, 0x10200)] (at_ (.ld (ld false .g))))) (·.x.det)
       && ok (ld false .y) (ypage (regs [(2, 0x40000000)] (at_ (.ld (ld false .y))))) (fun _ => true)
       && ok (ld false .s) (regs [(2, 65532)] (at_ (.ld (ld false .s)))) (fun _ => true)
       && ok (ld false .c) ((at_ (.ld (ld false .c))).modLaunch 0 fun l => { l with bank := [0x4000], record := l.record ||| (1#1024 <<< 256) })
         (fun _ => true)),
    (let o : LdbOp := ⟨false, 4, 2, 3, .b4, 0, all, 1⟩
     let s := regs [(2, 0x10200), (6, 0x10300)] (at_ (.ldb o))
     shows (.ldb o) s fun v => goes s v (.ldb o) .g false (some o.sb) ((v.lanes o.g).flatMap fun l =>
         [piece l 0 (v.g.pair (2 * o.plane2.toNat) l).toNat 2 0, piece l 1 (addrOf v.g v.c .g (.reg o.base) o.off l) (bytesOf o.size) 0])
       (fun p => !s.l1Hit v.t.core (s.lineAt p.pa) (sectorsOf p.pa p.len))),
    (let st (wk : Bool) (sp : Space) (sb : Option (BitVec 3)) : StOp := ⟨wk, sb, .b4, .reg 2, .reg 4, 0, all, sp⟩
     let ps (v : View) (o : StOp) : List Piece := (v.lanes o.g).map fun l => piece l 0 (addrOf v.g v.c o.space o.base o.off l) (bytesOf o.size)
       (dataOf v.g v.c o.data (regsOf o.size) l % 2 ^ (8 * bytesOf o.size))
     let ok (o : StOp) (s : State) (q : View → Bool) : Bool := shows (.st o) s fun v =>
       goes s v (.st o) o.space true o.sb (ps v o) (fun p => o.space == .y || o.wk || !s.ownsFor v.t.core p.pa p.len) && q v
     ok (st false .s (some 1)) (regs [(2, 65532)] (at_ (.st (st false .s (some 1))))) (fun v => !v.x.det && !v.sbFull 1)
       && ok (st false .s none) (regs [(2, 0)] (at_ (.st (st false .s none)))) (fun v => !v.x.det)
       && shows (.st (st false .s none)) (coming 0 (at_ (.st (st false .s none)))) (fun v => !v.x.det
         && ((coming 0 (at_ (.st (st false .s none)))).core v.t.core).storing v.g.team [(0, 4)])
       && ok (st false .g none) (regs [(2, 0x10200)] (at_ (.st (st false .g none)))) (fun v => !v.x.det)
       && ok (st true .g (some 2)) (regs [(2, 0x10200)] (at_ (.st (st true .g (some 2))))) (fun v => !v.x.det)
       && ok (st false .y (some 2)) (ypage (regs [(2, 0x40000000)] (at_ (.st (st false .y (some 2)))))) (fun _ => true)
       && ok (st false .g none) (det (lanes 2 [0x10200, 0x10240, 0x10280, 0x102C0] (at_ (.st (st false .g none))))) (fun v =>
         v.x.det && match v.check (det (lanes 2 [0x10200, 0x10240, 0x10280, 0x102C0] (at_ (.st (st false .g none))))) .g true (ps v (st false .g none)) with
           | .ok qs => decide (v.g.det.used + logEntries .g qs ≤ 512)
           | _ => false)),
    (let o : StbOp := ⟨false, some 1, 3, 2, 2, .b4, 0, all⟩
     let s := regs [(2, 0x10200), (6, 0x10300)] (at_ (.stb o))
     shows (.stb o) s fun v => !v.x.det && goes s v (.stb o) .g true o.sb ((v.lanes o.g).flatMap fun l =>
         [piece l 0 (addrOf v.g v.c .g (.reg o.base) o.off l) (bytesOf o.size)
             (dataOf v.g v.c (.reg (BitVec.ofNat 10 (2 * o.data2.toNat))) (regsOf o.size) l % 2 ^ (8 * bytesOf o.size)),
          piece l 1 (v.g.pair (2 * o.plane2.toNat) l).toNat 2 ((v.g.reg (2 * o.data2.toNat + regsOf o.size) l).toNat % 2 ^ 16)])
       (fun p => !s.ownsFor v.t.core p.pa p.len))] : List Bool).all id = true := by decide +kernel

/-- ScratchpadAndConstants: a store in .S; an LDC inside its bank, and one at the bank's end. -/
theorem witness_spad_constants : ([
    (let o : StOp := ⟨false, none, .b4, .reg 2, .reg 4, 0, all, .s⟩
     shows (.st o) (at_ (.st o)) fun v => !v.x.det && Memory.wf v.t.spad
       && !((at_ (.st o)).core v.t.core).storing v.g.team [(0, 4)] && match v.check (at_ (.st o)) .s true ((v.lanes o.g).map fun l => piece l 0 (addrOf v.g v.c .s o.base o.off l) (bytesOf o.size)
           (dataOf v.g v.c o.data (regsOf o.size) l % 2 ^ (8 * bytesOf o.size))) with | .ok _ => true | _ => false),
    (let bank (s : State) : State := s.modLaunch 0 fun l => { l with bank := [0x4000], record := l.record ||| (1#1024 <<< 256) }
     let i : Instr := .ldc false 4 252 all
     let s (poison : List Nat) (cached : Bool) : State := core (fun c => { c with ccache := if cached then [(0, 252, 7)] else [] })
       { bank (at_ i) with dev := { Device.reset with poison := poison } }
     let held (v : View) (s : State) : Bool := ((s.core v.t.core).ccache.find? fun e => e.1 == v.g.launch && e.2.1 == 252).isSome
     shows i (s [] true) (fun v => decide (252 + 4 ≤ v.l.bankSize) && held v (s [] true))
       && shows i (s [] false) (fun v => decide (252 + 4 ≤ v.l.bankSize) && !held v (s [] false)
         && (s [] false).bad (v.l.bank.getD 0 0 + 252) == false)
       && shows i (s [0x40FC / 64] false) (fun v => decide (252 + 4 ≤ v.l.bankSize) && !held v (s [0x40FC / 64] false)
         && (s [0x40FC / 64] false).bad (v.l.bank.getD 0 0 + 252) && v.k.fence.isNone && v.x.line.isNone)
       && shows (.ldc false 4 256 all) (bank (at_ (.ldc false 4 256 all))) fun v => decide (v.l.bankSize < 256 + 4) && v.k.fence.isNone)] : List Bool).all id = true := by decide +kernel

/-- Atomics: .G, .S, .Y and deterministic forms that go, and a form that .Y does not carry. -/
theorem witness_atomics : ([
    (let atom (op : AtomOp) (sp : Space) : AtomArgs := ⟨false, 2, false, op, 2, 3, 0, all, sp, 1⟩
     let ok (o : AtomArgs) (s : State) (q : View → Bool) : Bool := shows (.atom o) s fun v => q v && goes s v (.atom o) o.space true (some o.sb)
       ((v.lanes o.g).map fun l =>
           { piece l 0 (addrOf v.g v.c o.space (.reg o.base) o.off l) (if o.w8 then 8 else 4)
               (dataOf v.g v.c (.reg (BitVec.ofNat 10 (2 * o.b2.toNat))) (if o.w8 then 2 else 1) l) with
             cmp := dataOf v.g v.c (.reg (BitVec.ofNat 10 (2 * o.b2.toNat + if o.w8 then 2 else 1))) (if o.w8 then 2 else 1) l })
       (fun _ => o.space != .s)
     ok (atom .add .g) (regs [(2, 0x10200)] (at_ (.atom (atom .add .g)))) (fun v => !v.x.det)
       && ok (atom .cas .g) (granted (det (regs [(2, 0x10200)] (at_ (.atom (atom .cas .g)))))) (·.x.det)
       && ok (atom .max .s) (regs [(2, 65532)] (at_ (.atom (atom .max .s)))) (fun _ => true)
       && ok (atom .swap .y) (ypage (regs [(2, 0x40000000)] (at_ (.atom (atom .swap .y))))) (fun _ => true)
       && shows (.atom (atom .or .y)) (at_ (.atom (atom .or .y))) fun v => v.k.fence.isNone),
    (let o : AredArgs := ⟨true, .add, false, false, .reg 2, .reg 4, 0, all, .g, 1⟩
     let s := regs [(2, 0x10200)] (at_ (.ared o))
     shows (.ared o) s fun v => goes s v (.ared o) .g true (some o.sb) ((v.lanes o.g).map fun l =>
       piece l 0 (addrOf v.g v.c o.space o.base o.off l) (if o.w8 then 8 else 4) (dataOf v.g v.c o.data (if o.w8 then 2 else 1) l)) fun _ => true),
    (let o : AmaxpArgs := ⟨false, 4, .reg 2, .reg 6, 0, all, .g, 1⟩
     let s := regs [(2, 0x10200)] (at_ (.amaxp o))
     shows (.amaxp o) s fun v => goes s v (.amaxp o) .g true (some o.sb) ((v.lanes o.g).map fun l =>
       piece l 0 (addrOf v.g v.c o.space o.base o.off l) 4 (v.src o.v l).toNat) fun _ => true)] : List Bool).all id = true := by decide +kernel

/-- A store of the same group that waits in core order. -/
def waiting (s : State) : State :=
  core (fun c => { c with rq := [queued 0x10300] })
    { s with nextUid := 1 }

/-- WaitsAndFences: MWAIT in .Y, without a lane, and going; FENCE with nothing to await and with something; PREF and CFLUSH. -/
theorem witness_waits_fences : ([
    (let o (y : Bool) (g : Guard) : MwaitArgs := ⟨false, 8, 2, .reg 4, 0, g, y, false⟩
     shows (.mwait (o true all)) (at_ (.mwait (o true all))) (fun v => v.k.fence.isNone && v.lanes all != [])
       && shows (.mwait (o false none_)) (at_ (.mwait (o false none_))) (fun v => v.lanes none_ == [])
       && (let s := regs [(2, 0x10200)] (at_ (.mwait (o false all)))
           shows (.mwait (o false all)) s fun v => !v.x.det && (s.openTag v (.mwait (o false all)) 1).isSome && v.lanes all == [0, 1, 2, 3]
             && match v.check s .g false [{ piece 0 0 (addrOf v.g v.c .g (.reg 2) 0 0) 4 (lanesMask [0, 1, 2, 3]) with
                   cmp := dataOf v.g v.c (.reg 4) 1 0 }] with
               | .ok [q] => !(s.core v.t.core).noRoom [q]
               | _ => false)
       && (let s := granted (det (regs [(2, 0x10200)] (at_ (.mwait (o false all)))))
           shows (.mwait (o false all)) s fun v => v.x.det && v.lanes all == [0, 1, 2, 3]
             && match v.check s .g false [{ piece 0 0 (addrOf v.g v.c .g (.reg 2) 0 0) 4 (lanesMask [0, 1, 2, 3]) with
                   cmp := dataOf v.g v.c (.reg 4) 1 0 }], s.openTag v (.mwait (o false all)) 1 with
               | .ok [q], some (u, _) => !(s.core v.t.core).noRoom [q] && !s.bad q.pa
                 && ((u.fresh.1.park v.gid v.kid (.mwait s.nextUid)).coreRead v.t.core q.pa q.len).2 == q.cmp
               | _, _ => false)),
    shows (.fence .dev) (det (at_ (.fence .dev))) (·.x.det),
    shows (.fence .dev) (at_ (.fence .dev)) (fun v => v.fenceAwaits (at_ (.fence .dev)) .dev == []),
    shows (.fence .dev) (waiting (at_ (.fence .dev))) (fun v => v.fenceAwaits (waiting (at_ (.fence .dev))) .dev != [] && !v.x.det && clean v),
    shows (.pref ⟨2, 0, all⟩) (at_ (.pref ⟨2, 0, all⟩)) (fun _ => true),
    (let s := grp (·.setPreds 1 [0] fun _ => true) (regs [(2, 0x10200)] (at_ (.pref ⟨2, 0, ⟨false, 1⟩⟩)))
     shows (.pref ⟨2, 0, ⟨false, 1⟩⟩) s fun v => v.lanes ⟨false, 1⟩ == [0] && s.translate v.t.core v.g.ctx 0x10200 1 false false == .ok 0x10200
       && !(s.core v.t.core).inFlight.contains (0x10200 / 64) && !(s.core v.t.core).noRoom [{ piece 0 0 0 1 0 with pa := 0x10200 }]),
    shows (.cflush ⟨2, 0, all⟩) (at_ (.cflush ⟨2, 0, all⟩)) (fun v => v.lanes all != []),
    (let s := regs [(2, 0x10200)] (at_ (.cflush ⟨2, 0, all⟩))
     shows (.cflush ⟨2, 0, all⟩) s fun v => s.groups.all (fun e => e.2.gangs.all (·.fence.isNone))
       && (v.lanes all).all fun l => s.translate v.t.core v.g.ctx (addrOf v.g v.c .g (.reg 2) 0 l) 1 false false == .ok 0x10200)] : List Bool).all id = true := by decide +kernel

/-! ### MTX and ENG: results and witnesses -/

def quad (f : Quad → Quad) (s : State) : State := s.modQuad 0 f

/-- A second gang on slice 1, with a wait. -/
def beside (w : Wait) (s : State) : State :=
  grp (fun g => { g with
    slices := g.slices.put 1 Slice.placed, nextGang := 2
    gangs := g.gangs ++ [{ Gang.placed 0 0 with id := 1, slices := [1], wait := w, clause := none, port := none }] }) s

/-- A pending request of an MMA that names a set, a slot and a word. -/
def request (set slot : Nat) (w : Word) : ResEntry := ⟨7, 7, 0, 0, 0, 0, 0, [0], none, 0, set, slot, w, [⟨0, [0, 0, 0, 0], 0⟩], 3, 0, false, true, 0, 0⟩

/-- A run of one slot, one in reserve, whose cells may exceed and then escalate. -/
def aRun (w : Word) : Run := ⟨2, 1, 1, false, w, 0, true, 0x10200, []⟩

/-- R292, R289, R304: ACCZ zeroes data and cells and keeps the tag; ACCMOV copies; BNDRD shows a cell in lane 2r + g. -/
theorem test_slots :
    (let s (i : Instr) : State := team (fun t => { t with tags := [(2, 1)], acc := Mem.writeN t.acc 8200 2 0x3C00, cells := Mem.writeN t.cells 130 2 0x3F80 }) (at_ i)
     after (.accz 2 0 all) (s (.accz 2 0 all)) (fun t => match t.team 0 with
         | some t => t.acc == [] && t.cells == [] && t.tags.getD 2 0 == 1
         | none => false)
       && after (.accmov 5 2 all) (s (.accmov 5 2 all)) (fun t => match t.team 0 with
         | some t => Mem.readN t.acc 20488 2 == 0x3C00 && Mem.readN t.cells 322 2 == 0x3F80 && t.tags.getD 5 0 == 1
         | none => false)
       && gives (.bndrd 2 4 none all) (s (.bndrd 2 4 none all)) 4 1 0x3F80) = true := by decide +kernel

/-- R156, R346: OWN.E makes tiles 1 and 2 engine-side; R139: BSET declares and answers mask and completeness; R48: RELSTAT. -/
theorem test_own_bset_relstat :
    (after (.ownE (.reg 2) (.reg 3) all) (regs [(2, 1), (3, 2)] (at_ (.ownE (.reg 2) (.reg 3) all))) fun t => match t.team 0 with
      | some t => t.owner == 6
      | none => false)
    && gives (.bset 4 16 (.reg 2) all) (regs [(2, 1)] (at_ (.bset 4 16 (.reg 2) all))) 4 3 0x11
    && gives (.bset 4 16 (.reg 2) all) (regs [(2, 0x41)] (at_ (.bset 4 16 (.reg 2) all))) 4 3 0x01
    && gives (.relstat 4 ⟨false, 3⟩ all) (team (fun t => { t with handles := [(3, { Handle.fresh with state := .sealed, rows := 5 })] })
      (at_ (.relstat 4 ⟨false, 3⟩ all))) 4 3 0x20000005 = true := by decide +kernel

/-- MatrixMultiply. -/
theorem witness_matrix_multiply : ([
    shows (.bset 4 16 (.reg 2) none_) (at_ (.bset 4 16 (.reg 2) none_)) fun v => v.lanes none_ == [],
    (let s := regs [(2, 0x5E7F41)] (at_ (.bset 4 16 (.reg 2) all))
     shows (.bset 4 16 (.reg 2) all) s fun v => let x := (v.src (.reg 2) 0).toNat
       bits x 31 24 = 0 && bit x 16 == false && bit x 3 == false && decide (bits x 23 20 ≤ 5) && decide (bits x 5 4 ≤ bits x 7 6)
         && decide ((bits x 19 17 + 1) * kgSize (bits x 23 20) ≤ 64) && decide (16 + (bits x 19 17 + 1) * spanRegs (bits x 23 20) ≤ v.g.budget)
         && s.bset v.t.core v.g.launch (x % 8) == none && decide ((s.quad 0).sets.length < 16)),
    (let s := quad (fun q => { q with sets := [⟨0, 1, 0, 1, 1, [(1, ⟨0, 16, 3⟩)]⟩] }) (regs [(2, 0x41)] (at_ (.bset 4 16 (.reg 2) all)))
     shows (.bset 4 16 (.reg 2) all) s fun v => let x := (v.src (.reg 2) 0).toNat
       decide (bits x 5 4 ≤ bits x 7 6) && decide (16 + (bits x 19 17 + 1) * spanRegs (bits x 23 20) ≤ v.g.budget) &&
         match s.bset v.t.core v.g.launch (x % 8) with
         | some o => o.bfmt == bits x 23 20 && o.kg == bits x 19 17 + 1 && o.nq == bits x 7 6 && o.quarters.look (bits x 5 4) == none
         | none => false),
    shows (.bsetFree 4 (.reg 2) none_) (at_ (.bsetFree 4 (.reg 2) none_)) fun v => v.lanes none_ == [],
    (let s := quad (fun q => { q with table := [request 1 0 0] }) (regs [(2, 1)] (at_ (.bsetFree 4 (.reg 2) all)))
     shows (.bsetFree 4 (.reg 2) all) s fun v => (s.quad 0).table.any fun e => e.launch == v.g.launch && e.set == (v.src (.reg 2) 0).toNat % 8),
    (let s := quad (fun q => { q with table := [request 2 0 0] }) (regs [(2, 1)] (at_ (.bsetFree 4 (.reg 2) all)))
     shows (.bsetFree 4 (.reg 2) all) s fun v => (s.quad 0).table.all fun e => !(e.launch == v.g.launch && e.set == (v.src (.reg 2) 0).toNat % 8)),
    (let o : MmaArgs := ⟨15, 32, .reg 8, .reg 9, 1, 0, all⟩
     let s := quad (fun q => { q with sets := [⟨0, 1, 0, 1, 0, [(0, ⟨0, 512, 0⟩)]⟩] }) (at_ (.mma o))
     shows (.mma o) s fun v => (match v.mmaCheck s o (quartersOf (v.lanes o.g)) with
         | .ok es => decide ((s.quad 0).table.length + es.length ≤ 64)
         | .error _ => false) && (s.queueUp v (.mma o) (some o.sb)).isSome),
    (let o : MmaArgs := ⟨15, 32, .reg 8, .reg 9, 1, 0, all⟩
     shows (.mma o) (lanes 8 [1, 2] (at_ (.mma o))) fun v => v.src o.f 0 != v.src o.f 1 && (v.lanes o.g).all (fun l => l / 8 == 0) && v.k.fence.isNone),
    (let o : MmaArgs := ⟨15, 32, .reg 8, .reg 9, 1, 0, none_⟩
     shows (.mma o) (at_ (.mma o)) fun v => v.lanes o.g == [])] : List Bool).all id = true := by decide +kernel

/-- Four slices in the gang. -/
def four (s : State) : State :=
  gang (fun k => { k with slices := List.range 4 }) (grp (fun g => { g with slices := (List.range 4).map fun n => (n, Slice.placed) }) s)

/-- MatrixMultiply: 128 columns and one too many; lanes of the second quarter whose words differ, the first one's passing; a check that fails. -/
theorem witness_matrix_traps : ([
    (let s (w : Nat) : State := regs [(2, w)] (at_ (.bset 4 16 (.reg 2) all))
     let ok (w : Nat) (q : Nat → Bool) : Bool := shows (.bset 4 16 (.reg 2) all) (s w) fun v => let x := (v.src (.reg 2) 0).toNat
       bits x 31 24 == 0 && bit x 16 == false && bit x 3 == false && decide (bits x 23 20 ≤ 5) && decide (bits x 5 4 ≤ bits x 7 6)
         && decide ((bits x 19 17 + 1) * kgSize (bits x 23 20) ≤ 64) && decide (16 + (bits x 19 17 + 1) * spanRegs (bits x 23 20) ≤ v.g.budget)
         && (s w).bset v.t.core v.g.launch (x % 8) == none && decide (((s w).quad 0).sets.length < 16) && v.k.fence.isNone && q (bits x 15 8)
     ok 0x5E8041 (fun n => decide (127 < n)) && ok 0x5E7F41 fun n => decide (n ≤ 127)),
    (let o : MmaArgs := ⟨15, 32, .reg 8, .reg 9, 1, 0, all⟩
     let s := quad (fun q => { q with sets := [⟨0, 1, 0, 1, 0, [(0, ⟨0, 512, 0⟩)]⟩] })
       (lanes 8 ([1, 1, 1, 1, 1, 1, 1, 1, 1, 1, 1, 1, 1, 1, 1, 2].map fun x => x - 1) (four (at_ (.mma o))))
     shows (.mma o) s fun v => v.lanes o.g == List.range 16 && v.src o.f 15 != v.src o.f 8 && v.k.fence.isNone
       && (quartersOf (v.lanes o.g)).all fun ls => decide (1 ≤ ls.headD 0 / 8) || match v.mmaWord s o ls with | .ok _ => true | .error _ => false),
    (let o : MmaArgs := ⟨15, 32, .reg 8, .reg 9, 1, 0, all⟩
     shows (.mma o) (at_ (.mma o)) fun v => v.lanes o.g != [] && v.k.fence.isNone
       && match v.mmaCheck (at_ (.mma o)) o (quartersOf (v.lanes o.g)) with | .error c => !c.1 | .ok _ => false)] : List Bool).all id = true := by
  decide +kernel

/-- Runs: a gang that waits for another, one that finds it elsewhere, a run that opens; that closes and that escalates. -/
theorem witness_runs : ([
    (let o : AccopenArgs := ⟨2, 0, .reg 8, 1, false⟩
     shows (.accopen o) (beside .no (at_ (.accopen o))) (fun v => v.meet == .wait)
       && shows (.accopen o) (beside (.rendezvous 0x99 false) (at_ (.accopen o))) (fun v => v.meet == .diverge && v.k.fence.isNone)
       && shows (.accopen o) (regs [(8, 0x1400)] (at_ (.accopen o))) fun v => v.meet == .all
         && v.partyWords o.vf != [] && (v.partyWords o.vf).all (· == 0x1400) && (fword 0x1400).legal && decide (2 + 1 + 1 ≤ v.t.slots)
         && v.g.run == none && ((regs [(8, 0x1400)] (at_ (.accopen o))).openRuns v.g.team).all (fun q => !q.meets 2 2)
         && !v.slotsBusy (regs [(8, 0x1400)] (at_ (.accopen o))) [2, 3]),
    (let s (w : Word) : State := grp (fun g => { g with run := some (aRun w) }) (team (fun t => { t with cells := Mem.writeN t.cells 128 2 0x7F80 }) (at_ .accclose))
     let go (w : Word) (q : RunEnd → Bool) : Bool := shows .accclose (s w) fun v => v.meet == .all && v.g.run == some (aRun w)
       && v.g.slices.all (fun e => e.2.stackSig == e.2.stackOpen) && !v.slotsBusy (s w) [2] && q (v.t.runEnd (aRun w))
     go 0 (· == .close) && go 0x5400 (· == .escalate) && shows .accclose (beside .no (s 0)) fun v => v.meet == .wait)]
    : List Bool).all id = true := by decide +kernel

/-- Runs: what keeps an ACCOPEN from opening: words that differ, an illegal one, slots beyond the window, a run that is open, a reserve that is too
small; a .SNAP that opens; ACCCLOSE without a run, on another stack, and with a threshold passed at the widest. -/
theorem witness_run_traps : ([
    (let o (snap : Bool) (n1 : BitVec 6) (r : BitVec 8) : AccopenArgs := ⟨2, n1, .reg 8, r, snap⟩
     let ok (o : AccopenArgs) (ws : List Nat) (f : State → State) (q : State → View → Bool) : Bool :=
       let s := f (lanes 8 ws (at_ (.accopen o)))
       shows (.accopen o) s fun v => v.meet == .all && v.k.fence.isNone && q s v
     let fit (o : AccopenArgs) (v : View) : Bool := decide (o.f.toNat + o.n1.toNat + 1 + o.r.toNat ≤ v.t.slots)
     let same (w : Word) (o : AccopenArgs) (v : View) : Bool := (v.partyWords o.vf).all (· == w)
     ok (o false 0 1) [0x1400, 0] id (fun _ v => !same 0x1400 (o false 0 1) v)
       && ok (o false 0 1) [3, 3, 3, 3] id (fun _ v => same 3 (o false 0 1) v && !(fword 3).legal)
       && ok (o false 0 255) [0x1400, 0x1400, 0x1400, 0x1400] id (fun _ v => same 0x1400 (o false 0 255) v && (fword 0x1400).legal && !fit (o false 0 255) v)
       && ok (o true 1 1) [0x1400, 0x1400, 0x1400, 0x1400] id (fun _ v => same 0x1400 (o true 1 1) v && fit (o true 1 1) v)
       && ok (o true 1 2) [0x1400, 0x1400, 0x1400, 0x1400] id (fun s v => same 0x1400 (o true 1 2) v && fit (o true 1 2) v && v.g.run == none
         && v.partyWords (.reg 8) != [] && (s.openRuns v.g.team).all (fun q => !q.meets 2 4) && !v.slotsBusy s [2, 3, 4, 5]
         && match s.team v.g.team with | some x => Tab.rising x.tags && Memory.wf x.acc && Memory.wf x.cells | none => false)
       && ok (o false 0 1) [0x1400, 0x1400, 0x1400, 0x1400] (grp fun g => { g with run := some (aRun 0x1400) }) (fun _ v => fit (o false 0 1) v && v.g.run.isSome)),
    (let s (f : Slice → Slice) (r : Option Run) : State :=
       sl f (grp (fun g => { g with run := r }) (team (fun t => { t with cells := Mem.writeN t.cells 128 2 0x7F80 }) (at_ .accclose)))
     let ok (f : Slice → Slice) (r : Option Run) (q : View → Bool) : Bool := shows .accclose (s f r) fun v =>
       v.meet == .all && v.k.fence.isNone && v.g.run == r && !v.slotsBusy (s f r) [2] && q v
     let far : Run := { aRun 0x5400 with width := 2 }
     ok id none (fun _ => true) && shows .accclose (beside (.rendezvous 0x99 false) (s id none)) (fun v => v.meet == .diverge && v.k.fence.isNone)
       && ok (fun x => { x with stackOpen := 1 :: x.stackSig }) (some (aRun 0)) (fun v => v.g.slices.any fun e => e.2.live != 0 && e.2.stackSig != e.2.stackOpen)
       && ok id (some far) fun v => (v.g.slices.all fun e => e.2.stackSig == e.2.stackOpen) && match v.t.runEnd far with | .trap _ => true | _ => false)]
    : List Bool).all id = true := by decide +kernel

/-- Slots. -/
theorem witness_slots : ([
    shows (.accz 15 0 all) (at_ (.accz 15 0 all)) fun v => v.lanes all != [] && decide (15 + 1 ≤ v.t.slots)
      && (at_ (.accz 15 0 all)).openRuns v.g.team == [] && !v.slotsBusy (at_ (.accz 15 0 all)) [15],
    shows (.accmov 15 0 all) (at_ (.accmov 15 0 all)) fun v => decide (15 < v.t.slots) && (at_ (.accmov 15 0 all)).openRuns v.g.team == []
      && v.g.run == none && !v.t.wide 15 1 && !v.t.wide 0 1 && !v.slotsBusy (at_ (.accmov 15 0 all)) [15, 0] && Memory.wf v.t.acc && Memory.wf v.t.cells
      && Tab.rising v.t.tags,
    (let o : AccldArgs := ⟨15, .reg 2, 0, all, 1⟩
     let s := regs [(2, 61312)] (at_ (.accld o))
     shows (.accld o) s fun v => decide (15 < v.t.slots) && v.accRange (addrOf v.g v.c .s o.base o.off 0) 4160 64 == none
       && s.openRuns v.g.team == [] && !v.t.wide 15 1 && !v.slotsBusy s [15] && !(s.core v.t.core).storing v.g.team [(61312, 4160)] && (s.queueUp v (.accld o) (some o.sb)).isSome),
    (let o (dst : Fmt) (pol : Pol) : AccstArgs := ⟨15, .reg 2, dst, pol, .rn, 0, all, 1⟩
     let s (o : AccstArgs) : State := team (fun t => { t with acc := Mem.writeN t.acc 61440 4 0x7F800000 }) (at_ (.accst o))
     let go (o : AccstArgs) (q : Except CvtTrap (List Nat × Word) → Bool) : Bool := shows (.accst o) (s o) fun v =>
       v.accRange (addrOf v.g v.c .s o.base o.off 0) (16 * (v.t.lay v.g.run 15).cols * fmtWidth o.dst / 8) 16 == none && v.slotsOk (s o) 15 1 == none
         && !v.slotsBusy (s o) [15] && !v.x.det && (s o).queueUp v (.accst o) (some o.sb) != none && v.k.fence.isNone
         && q (v.t.slotConvert (v.t.lay v.g.run 15) o.dst o.rm o.pol)
     go (o .f32 .sat) (fun r => match r with | .ok _ => true | .error _ => false)
       && go (o .i32 .trap) fun r => match r with | .ok _ => false | .error _ => true),
    shows (.bndrd 15 4 none all) (at_ (.bndrd 15 4 none all)) fun v => v.slotsOk (at_ (.bndrd 15 4 none all)) 15 1 == none
      && !v.slotsBusy (at_ (.bndrd 15 4 none all)) [15] && v.lanes all != [],
    shows (.bndrd 15 4 (some (.f16, .rn)) all) (at_ (.bndrd 15 4 (some (.f16, .rn)) all)) fun v => v.lanes all != [],
    shows (.bndthr 15 4 all) (at_ (.bndthr 15 4 all)) fun v => v.lanes all != []] : List Bool).all id = true := by decide +kernel

/-- Tiles on the engine side. -/
def owned (o : BitVec 512) (s : State) : State := team (fun t => { t with owner := o }) s

/-- EngineOperations: operands at the window's end, past it, on tiles of the wrong side; no lane. -/
theorem witness_engine : ([
    (let o (g : Guard) : CpyArgs := ⟨false, 20, 22, some 24, 3, g⟩
     let s (g : Guard) (off n : Nat) : State := regs [(20, 0x10200), (22, off), (23, n), (24, 0x10300)] (at_ (.cpy (o g)))
     let good (v : View) : Bool := (v.g.pair 20 0).toNat % 16 == 0 && (v.g.reg 22 0).toNat % 16 == 0 && (v.g.reg 23 0).toNat % 16 == 0
       && decide (16 ≤ (v.g.reg 23 0).toNat) && decide ((v.g.reg 23 0).toNat ≤ 2 ^ 21) && (v.g.pair 24 0).toNat % 8 == 0
     shows (.cpy (o none_)) (s none_ 0 16) (fun v => v.lanes none_ == [])
       && shows (.cpy (o all)) (s all 65520 16) (fun v => good v && v.t.inWindow 65520 16 && (tilesOf 65520 16).all (fun n => !v.t.engineSide n)
         && decide (((s all 65520 16).core v.t.core).ops.length < 32) && !((s all 65520 16).core v.t.core).moving v.g.team (tilesOf 65520 16) && ((s all 65520 16).queueUp v (.cpy (o all)) (some 3)).isSome && !v.x.det)
       && shows (.cpy (o all)) (s all 65536 16) (fun v => good v && !v.t.inWindow 65536 16 && v.k.fence.isNone)
       && shows (.cpy (o all)) (owned 1 (s all 0 16)) fun v => good v && v.t.engineSide 0 && v.k.fence.isNone),
    (let s (i : Instr) : State := spad [(64, 8, 0x10200), (64 + 12, 4, 16), (64 + 16, 4, 128), (64 + 20, 4, 1), (64 + 24, 4, 256)] (regs [(2, 64)] (at_ i))
     let ok (i : Instr) : Bool := shows i (s i) fun v => let r := gathCheck 64 (v.t.spadRead 64 32)
       !r.1 && v.t.inWindow 64 32 && r.2.all (fun e => v.t.inWindow e.1 e.2) && !v.t.engineSide 0 && ((s i).queueUp v i (some 1)).isSome
     ok (.gath (.reg 2) 1 all) && ok (.scat (.reg 2) 1 all)),
    (let i : Instr := .nzscan (.reg 2) 1 all
     let s := spad [(8, 4, 0x10), (12, 4, 4), (20, 4, 64), (24, 4, 1)] (at_ i)
     shows i s fun v => let x := v.t.spadRead 0 32
       bits x 95 69 == 0 && nzSize (bits x 67 64) != 0 && bits x 63 0 % nzSize (bits x 67 64) == 0 && bits x 191 160 % 4 == 0
         && v.t.inWindow (bits x 191 160) (4 * bits x 223 192) && bit x 68 && !v.t.engineSide 0 && (s.queueUp v i (some 1)).isSome),
    (let i : Instr := .mqrun 2 1 all
     let s := spad [(0, 4, 64), (4, 4, 1), (12, 4, 1)] (at_ i)
     shows i s fun v => let x := v.t.spadRead 0 64
       bits x 511 168 == 0 && bits x 63 32 == 2 ^ 0 && decide (0 < bits x 127 96) && decide (bits x 127 96 ≤ bits x 63 32) && bits x 31 0 % 64 == 0
         && v.t.inWindow 0 64 && !v.t.engineSide 0 && (s.queueUp v i (some 1)).isSome),
    (let e (i : Instr) (t n : Nat) (o : BitVec 512) (q : View → Nat → Nat → Bool) : Bool := shows i (owned o (regs [(2, t), (3, n)] (at_ i))) fun v =>
       let k := (owned o (regs [(2, t), (3, n)] (at_ i))).core v.t.core
       k.rq.isEmpty && k.wk.isEmpty && k.replies.isEmpty && k.yq.isEmpty && q v (v.src (.reg 2) 0).toNat (v.src (.reg 3) 0).toNat && v.k.fence.isNone
     let bad (v : View) (t n : Nat) : Bool := n == 0 || decide (512 < n) || decide (v.t.window < 4096 * (t + n))
     e (.ownE (.reg 2) (.reg 3) all) 0 0 0 bad && e (.ownE (.reg 2) (.reg 3) all) 0 513 0 bad && e (.ownE (.reg 2) (.reg 3) all) 16 1 0 bad
       && e (.ownE (.reg 2) (.reg 3) all) 15 1 0 (fun v t n => !bad v t n) && e (.ownT (.reg 2) (.reg 3) all) 16 1 0 bad
       && e (.ownT (.reg 2) (.reg 3) all) 15 1 0x8000 (fun v t n => !bad v t n && v.heldTiles (at_ (.ownT (.reg 2) (.reg 3) all)) == []))]
    : List Bool).all id = true := by decide +kernel

/-- A handle of the team. -/
def hold (h : Handle) (s : State) : State := team (fun t => { t with handles := t.handles.put 3 h }) s

/-- HandleStates. -/
theorem witness_handles : ([
    shows (.relstat 4 ⟨false, 3⟩ all) (at_ (.relstat 4 ⟨false, 3⟩ all)) fun v => v.lanes all != [],
    shows (.relsealSeal 4 ⟨true, 63⟩ all) (at_ (.relsealSeal 4 ⟨true, 63⟩ all)) fun v => v.lanes all != [],
    (let i : Instr := .relsealFree 4 ⟨false, 3⟩ all
     let s := hold { Handle.fresh with state := .sealed, held := 1 } (at_ i)
     shows i s fun v => (s.handle (v.href ⟨false, 3⟩)).held != 0),
    (let i : Instr := .relsealFree 4 ⟨false, 3⟩ all
     let s := hold { Handle.fresh with state := .sealed } (at_ i)
     shows i s fun v => (s.handle (v.href ⟨false, 3⟩)).held == 0 && (s.relWaiters (v.href ⟨false, 3⟩)).isEmpty && Tab.rising v.t.handles
       && match s.cluster v.t.cluster with | some c => Tab.rising c.handles | none => true)] : List Bool).all id = true := by decide +kernel

/-- A relation descriptor in scratchpad at 0: rows in .S at 4096, a capacity and a member count. -/
def desc (cap members : Nat) (s : State) : State := spad [(0, 64, 4096 + cap * 2 ^ 64 + members * 2 ^ 96 + 2 ^ 128)] s
/-- A valid row with a rank. -/
def row (rank : Nat) : Nat := rank * 2 ^ 64 + 0xA5 * 2 ^ 448

/-- PopulationEntry: RELSEAL.REC on an idle handle with 0, 1 and a broken row and on one that is not; RELENT on a handle past entry, by a
lane that has entered, with one row too many, with exactly enough, and one that completes the announced members. -/
theorem witness_entry : ([
    (let i : Instr := .relsealRec 4 (.reg 2) (.reg 5) ⟨false, 3⟩ all
     let s (m : Nat) (r : Nat) : State := spad [(4096, 64, r)] (desc 4 0 (regs [(2, m)] (at_ i)))
     let ok (s : State) (m : Nat) : Bool := shows i s fun v => (s.handle (v.href ⟨false, 3⟩)).state == .idle && (match v.openDesc s ⟨false, 3⟩ 0, v.coreDrained s with
       | .ok dd, some u => decide (m ≤ relCap dd) && (match ((u.modGroup v.gid (·.impure)).setHandle (v.href ⟨false, 3⟩) { Handle.fresh with
             state := .sealed, desc := BitVec.ofNat 512 dd, off := 0, opener := v.g.team, rows := m }).useRows v.t.core v.g.ctx (v.href ⟨false, 3⟩) with
           | (_, .ok 0) => true
           | _ => false)
       | _, _ => false)
     ok (s 0 0) 0 && ok (s 1 (row 0)) 1 && ok (s 1 0) 1
       && shows i (hold { Handle.fresh with state := .sealed } (s 0 0)) fun v => v.k.fence.isNone),
    (let i : Instr := .relent 4 (.reg 2) (.reg 5) ⟨false, 3⟩ all
     let x (v : View) (s : State) : Handle := s.handle (v.href ⟨false, 3⟩)
     shows i (hold { Handle.fresh with state := .sealed } (at_ i)) (fun v => (x v (hold { Handle.fresh with state := .sealed } (at_ i))).state == .sealed)
       && shows i (hold { Handle.fresh with state := .opened, entered := [(0, 2)] } (at_ i)) (fun v => v.t.inWindow 0 64 && v.k.fence.isNone
         && (v.lanes all).any fun m => [(0, 2)].contains (v.gid, m))),
    (let i : Instr := .relent 4 (.reg 2) (.reg 5) ⟨false, 3⟩ all
     let ok (cap members : Nat) (q : Nat → Bool) : Bool := shows i (desc cap members (at_ i)) fun v =>
       match v.entDesc (desc cap members (at_ i)) ⟨false, 3⟩ 0 [0, 1, 2, 3] with
       | .ok dd => q dd && (!relKeyw dd) && (((desc cap members (at_ i)).modGroup v.gid (·.impure)).relOut v.gid v.t.core v.g.ctx v.g.team (relSpace dd)
           (relBase dd) 256 (packRows ([0, 1, 2, 3].map fun m => v.row dd (srcVal v.g v.c (.reg 2) (relKeyw dd) m) m))).2 == .ok 0
         && ((desc cap members (at_ i)).relWaiters (v.href ⟨false, 3⟩)).isEmpty
       | .error _ => false
     ok 3 0 (fun dd => decide (relCap dd < 4)) && ok 4 0 (fun dd => decide (4 ≤ relCap dd)) && ok 4 4 (fun dd => relMembers dd == 4)
       && ok 4 3 (fun dd => decide (relMembers dd < 4)))] : List Bool).all id = true := by decide +kernel

/-- Grouping. -/
theorem witness_grouping : ([
    (let i (g : Guard) : Instr := .relgrp 4 (.reg 2) ⟨false, 3⟩ g
     let h (st : HState) : Handle := { Handle.fresh with state := st, live := true, rows := 1, entered := [(0, 1)], image := [row 0] }
     let ok (x : Handle) (q : Bool) : Bool := shows (i all) (hold x (at_ (i all))) fun v => let s := hold x (at_ (i all))
       (s.openTag v (i all) 1).isSome && !v.x.det && v.t.residence == .resident && (s.relWaiters (v.href ⟨false, 3⟩)).isEmpty
         && lanesOf (BitVec.ofNat 32 (lanesMask [0, 1, 2, 3])) == [0, 1, 2, 3] && v.lanes all == [0, 1, 2, 3] && q
     shows (i none_) (at_ (i none_)) (fun v => v.lanes none_ == []) && ok (h .opened) true && ok (h .sealed) true && ok (h .unsealable) (!HState.unsealable.whole)
       && ok (h .grouped) ((h .grouped).survivors == [0]))] : List Bool).all id = true := by decide +kernel

/-- JoiningAndMerging: a join that waits, one carried out with a failure, with no pair and with one; a merge with each fate. -/
theorem witness_joins : ([
    (let i (g : Guard) : Instr := .reljoin 4 (.reg 2) ⟨false, 3⟩ ⟨false, 4⟩ g
     let d (s : State) : State := spad [(0, 32, 4096 + 4 * 2 ^ 64 + 2 ^ 139)] s
     let at2 (x : Handle) (s : State) : State := team (fun t => { t with handles := t.handles.put 4 x }) s
     let full (st : HState) (k : Nat) : Handle := { Handle.fresh with state := st, rows := 1, image := [row k + k] }
     let ev (a b : Handle) (code pairs : Nat) : Bool :=
       let s := gang (fun k => { k with wait := .reljoin (.team 0 3) (.team 0 4) 0 4 0 0xF, port := none }) (at2 b (hold a (d (at_ (i all)))))
       match s.viewOf 0 0 with
       | none => false
       | some v => !v.x.det && v.k.wait == .reljoin (.team 0 3) (.team 0 4) 0 4 0 0xF && s.relRuns v.t.core v.g.ctx && v.t.residence == .resident
         && (match v.joinDesc s 0 (.team 0 3) (.team 0 4) with
             | .ok w => joinSpace w && v.t.inWindow (joinPairs w) 8 && joinCode a b pairs (joinCap w) v.t.spawns.length == code
             | .error _ => false)
         && (if a.state.whole && b.state.whole then pairsOf a b else []).length == pairs
         && [a, b].all fun h => !h.state.whole || h.image.length == h.rows
     shows (i none_) (at_ (i none_)) (fun v => v.lanes none_ == [])
       && shows (i all) (d (at_ (i all))) (fun v => !v.x.det && ((d (at_ (i all))).openTag v (i all) 1).isSome
         && match v.joinDesc (d (at_ (i all))) 0 (v.href ⟨false, 3⟩) (v.href ⟨false, 4⟩) with | .ok _ => true | .error _ => false)
       && ev Handle.fresh Handle.fresh 1 0 && ev (full .sealed 0) (full .sealed 1) 0 0 && ev (full .sealed 1) (full .sealed 1) 0 1),
    (let i (g : Guard) : Instr := .relmrg 4 (.reg 2) 1 g
     let s (off : Nat) (o : BitVec 512) : State := owned o (regs [(2, off)] (at_ (i all)))
     shows (i none_) (at_ (i none_)) (fun v => v.lanes none_ == [])
       && shows (i all) (s 32 0) (fun v => v.t.inWindow 32 64 && v.k.fence.isNone) && shows (i all) (s 0 0) (fun v => !v.t.engineSide 0)
       && shows (i all) (spad [(63, 1, 1)] (s 0 1)) (fun v => v.t.engineSide 0 && mrgBad (v.t.spadRead 0 64))
       && shows (i all) (spad [(49, 1, 0x10)] (s 0 1)) fun v => v.t.engineSide 0 && !mrgBad (v.t.spadRead 0 64) && bit (v.t.spadRead 0 64) 396
         && (mrgAreas (v.t.spadRead 0 64)).all (fun r => v.t.inWindow r.1 r.2 && (tilesOf r.1 r.2).all v.t.engineSide)
         && !((spad [(49, 1, 0x10)] (s 0 1)).core v.t.core).moving v.g.team [0] && ((spad [(49, 1, 0x10)] (s 0 1)).core v.t.core).ops.isEmpty
         && ((spad [(49, 1, 0x10)] (s 0 1)).queueUp v (i all) (some 1)).isSome && !v.x.det)] : List Bool).all id = true := by decide +kernel

/-! ### CTL and SYS: results and witnesses -/

/-- A context whose tables map its first 16 GiB of addresses to themselves, with a save area, a handler, a queue and a record pool. -/
def mapped (s : State) : State :=
  ctx (fun x => { x with record := BitVec.ofNat 512 (0x40000 + 0x300000 * 2 ^ 64 + 4 * 2 ^ 160 + 0x100000 * 2 ^ 192 + 0x10200 * 2 ^ 256
    + 0x200000 * 2 ^ 320 + 1 * 2 ^ 384) })
    { s with mem := Mem.writeN (Mem.writeN s.mem 0x40000 8 0x48001) 0x48000 8 15 }

/-- A maintenance context. -/
def maint (s : State) : State := ctx (fun x => { x with record := x.record ||| (1#512 <<< 169) }) s

def p1 (s : State) : State := grp (·.setPreds 1 [0, 1] fun _ => true) s
def stack (xs : List StackEntry) (s : State) : State := sl (fun x => { x with stack := xs }) s
def g1 : Guard := ⟨false, 1⟩

/-- R19: a divergent branch takes the lowest address first; here the fall-through clause at 0x10110, and the others park with 0x10200. R299,
R365: CALL pushes the offset of the next clause from the kernel's first, and RET comes back to it. -/
theorem test_branches :
    group (.bra false 32 g1) (stack [⟨0x10300, 0, 0xF, 0xF⟩] (p1 (at_ (.bra false 32 g1)))) (fun g =>
      let x := g.slice 0
      x.pc == 0x10110 && x.active == 12 && x.resume.getD 0 0 == 0x10200 && x.resume.getD 1 0 == 0x10200)
    && group (.bra false 32 all) (at_ (.bra false 32 all)) (fun g => (g.slice 0).pc == 0x10200 && (g.slice 0).active == 15)
    && group (.call false 32 all) (at_ (.call false 32 all)) (fun g => (g.slice 0).pc == 0x10200 && g.returns 3 == [0x10])
    && group (.ret false all) (grp (fun g => { g with rets := [(0, [0x10]), (1, [0x10]), (2, [0x10]), (3, [0x10])] }) (at_ (.ret false all))) (fun g =>
      (g.slice 0).pc == 0x10110 && g.returns 3 == [])
    && after (.bra false 32 g1) (p1 (at_ (.bra false 32 g1))) (fun t => (t.ctx 0).line == some 0x05) = true := by decide +kernel

/-- R190, R189, R366: TRAP enters the handler with its slices' state saved and %trapinfo set; R318: EXIT of every lane ends the group; R372. -/
theorem test_trap_exit :
    group (.trap 0x1234 all) (mapped (at_ (.trap 0x1234 all))) (fun g => g.inHandler && (g.slice 0).pc == 0x10200
      && ((g.slice 0).trap.map (·.pc)) == some 0x10110 && g.trapinfo == 0x88000400)
    && after (.trap 0x1234 all) (mapped (at_ (.trap 0x1234 all))) (fun t => Mem.readN t.mem (0x118000) 1 != 0 || Mem.readN t.mem 0x118000 64 != 0)
    && after (.exit false all) (at_ (.exit false all)) (fun t => t.group 0 == none)
    && group (.exit false g1) (p1 (at_ (.exit false g1))) (fun g => (g.slice 0).live == 12 && (g.slice 0).pc == 0x10110)
    && group (.srget 4 0x08 all) (grp (fun g => { g with lclock := 0x500000003 }) (at_ (.srget 4 0x08 all))) (fun g => g.reg 4 0 == 3 && g.reg 5 0 == 5)
    && group (.srset 0x0B (.reg 2) all) (regs [(2, 0xFFFFFFFF)] (at_ (.srset 0x0B (.reg 2) all))) (fun g => g.fstat == 0xFFFF003F) = true := by
  decide +kernel

/-- Branching. -/
theorem witness_branching : ([
    shows (.bra false 32 all) (at_ (.bra false 32 all)) clean,
    shows (.bra true 32 g1) (p1 (at_ (.bra true 32 g1))) fun v => clean v && (v.g.slice 0).stack == [],
    shows (.bra false 32 g1) (stack [⟨0x10300, 0, 0xF, 0xF⟩] (p1 (at_ (.bra false 32 g1)))) fun v => clean v && (v.g.slice 0).stack != [],
    shows (.jmp false 32) (at_ (.jmp false 32)) clean,
    (let s (n : Nat) : State := grp (fun g => { g with rets := [(0, List.replicate n 0x10), (1, [0x10]), (2, [0x10]), (3, [0x10])] }) (at_ (.call false 32 all))
     shows (.call false 32 all) (s 8) (fun v => clean v && (v.lanes all).any fun l => decide (8 ≤ (v.g.returns l).length))
       && shows (.call false 32 all) (s 7) (fun v => clean v && (v.lanes all).all fun l => decide ((v.g.returns l).length < 8))
       && shows (.ret false all) (s 0) (fun v => clean v && (v.lanes all).any fun l => v.g.returns l == [])
       && shows (.ret false all) (s 1) fun v => clean v && (v.lanes all).all fun l => v.g.returns l != []),
    (let o : BrmArgs := ⟨false, 0, g1, ⟨false, 0⟩, ⟨false, 0⟩, ⟨false, 0⟩, 32⟩
     let s : State := { at_ (.brm o) with mem := Mem.writeN (Mem.writeN (at_ (.brm o)).mem 0x10200 8 (headerOf 5).toNat) 0x10208 8 ((encode (.jmp false 4)).getD 0).toNat }
     shows (.brm o) s fun v => clean v && match s.fetchAll v.t.core v.g.launch v.g.ctx 2 0x10200 with
       | (u, .ok (h :: ws)) => u.groups == s.groups && (ws.filterMap (brmTarget 0x10200)).length == 1 && (match decodeHeader h with | some hd => hd.cls == 5 && hd.count == 1 | none => false)
       | _ => false),
    (let i : Instr := .braPop false 1 32 g1
     let s (xs : List StackEntry) : State := stack xs (p1 (at_ i))
     let going (v : View) : Mask4 := maskOf fun l => (v.g.slice 0).active.getLsbD l && v.g.guard g1 l
     shows i (s [⟨0x10300, 0, 0xF, 0xF⟩]) (fun v => clean v && going v == 3 && (v.g.slice 0).stack[1]?.isNone)
       && shows i (s [⟨0x10300, 0, 0xF, 0xF⟩, ⟨0x10200, 0, 0xF, 0xF⟩]) fun v => clean v && going v == 3
         && ((v.g.slice 0).stack[1]?.map (·.addr)) == some 0x10200 && ((v.g.slice 0).braPop 1 (going v) v.c.next).2 == false),
    (let s (i : Instr) (n : Nat) (e : StackEntry) : State := stack (List.replicate n e) (at_ i)
     shows (.rcvpush false 32) (s (.rcvpush false 32) 16 ⟨0x10300, 0, 0xF, 0xF⟩) (fun v => clean v && decide (16 ≤ (v.g.slice 0).stack.length))
       && shows (.rcvpush false 32) (s (.rcvpush false 32) 15 ⟨0x10300, 0, 0xF, 0xF⟩) (fun v => clean v && decide ((v.g.slice 0).stack.length < 16))
       && shows (.rcvdrop false 0) (s (.rcvdrop false 0) 0 ⟨0x10300, 0, 0xF, 0xF⟩) (fun v => clean v && decide ((v.g.slice 0).stack.length < 1))
       && shows (.rcvdrop false 0) (s (.rcvdrop false 0) 1 ⟨0x10300, 0, 0xF, 0xF⟩) fun v => clean v
         && (v.g.slice 0).stack.all fun e => e.waiting == 0 && e.pending &&& ~~~(v.g.slice 0).active == 0)] : List Bool).all id = true := by decide +kernel

/-- NopExitSignature and RegangAndYield. -/
theorem witness_control : ([
    shows (.nop false all) (at_ (.nop false all)) fun _ => true,
    shows (.exit false g1) (p1 (at_ (.exit false g1))) fun v => clean v && !v.g.inHandler && (v.g.slice 0).live &&& ~~~3 != 0
      && !({ (v.g.slice 0).endLanes 3 with pc := v.c.next, popDone := false } : Slice).settle.2,
    shows (.exit false all) (at_ (.exit false all)) fun v => clean v && !v.g.inHandler && v.g.gangs.all (·.id == v.kid) && !v.x.det
      && !(at_ (.exit false all)).setsPending v.gid v.t.core && Tab.rising (at_ (.exit false all)).groups && (v.g.slice 0).live &&& ~~~15 == 0
      && !({ (v.g.slice 0).endLanes 15 with pc := v.c.next, popDone := false } : Slice).settle.2,
    shows (.sigchk false 5) (grp (fun g => { g with inHandler := true }) (at_ (.sigchk false 5))) fun v => v.g.inHandler,
    shows (.sigchk false 5) (at_ (.sigchk false 5)) fun v => !v.g.inHandler && v.k.fence.isNone && v.x.line.isNone && (v.g.slice 0).sig != 5,
    shows (.sigchk false 0) (at_ (.sigchk false 0)) fun v => !v.g.inHandler && clean v && (v.g.slice 0).sig == 0 && (v.g.slice 0).tokens == 0,
    shows (.regang false) (at_ (.regang false)) fun v => v.g.gangs.all (fun k => !v.g.inside k) && decide (v.g.gangs.map (·.id)).Nodup && decide (v.g.gangs.flatMap (·.slices)).Nodup
      && v.k.slices != [],
    shows (.regangAll false) (beside (.regang true 0x10108) (at_ (.regangAll false))) fun v => v.g.gangs.all (fun k => !v.g.inside k) && decide (v.g.gangs.map (·.id)).Nodup
      && decide (v.g.gangs.flatMap (·.slices)).Nodup && v.here == 0x10108 && v.g.gangs.all (fun k => k.id == v.kid || k.wait == .regang true v.here)
      && (v.g.slice 0).stackSig == (v.g.slice 1).stackSig,
    shows (.yield 32 2 none_) (at_ (.yield 32 2 none_)) fun v => v.lanes none_ == [],
    shows (.yield 32 2 g1) (p1 (at_ (.yield 32 2 g1))) fun v => v.lanes g1 != [] && v.lanes g1 != v.active && v.k.fence.isNone,
    shows (.yield 32 2 all) (at_ (.yield 32 2 all)) fun v => clean v && v.lanes all == v.active && v.g.det.unseen == [] && (v.g.slice 0).sbOf 2 == 0,
    shows (.yield 32 2 all) (sl (fun x => { x with sb := [(2, 1)] }) (at_ (.yield 32 2 all))) fun v => clean v && v.lanes all == v.active && (v.g.slice 0).sbOf 2 != 0]
    : List Bool).all id = true := by decide +kernel

/-- BarriersAndPhases. -/
theorem witness_barriers : ([
    (let bar (k : BarKind) : Instr := .bar false k false 4
     let s (k : BarKind) (p : BarPart) (now : Nat) : State := team (fun t => { t with barPhase := now }) (grp (fun g => { g with barTeam := p }) (at_ (bar k)))
     let now (v : View) (s : State) : Nat := s.barPhase false v.g.team
     shows (bar .wait) (s .wait ⟨none, false, false, false⟩ 0) (fun v => !(v.g.part false).pending)
       && shows (bar .wait) (s .wait ⟨some 0, true, false, false⟩ 1) (fun v => (v.g.part false).pending && decide (0 < now v (s .wait ⟨some 0, true, false, false⟩ 1)))
       && shows (bar .wait) (s .wait ⟨some 1, true, false, false⟩ 1) (fun v => (v.g.part false).pending && decide (now v (s .wait ⟨some 1, true, false, false⟩ 1) ≤ 1))
       && shows (bar .sync) (beside .no (at_ (bar .sync))) (fun v => v.meet == .wait)
       && shows (bar .arr) (beside (.rendezvous 0x99 true) (at_ (bar .arr))) (fun v => v.meet == .diverge && v.k.fence.isNone)
       && shows (bar .arr) (s .arr ⟨some 1, true, false, false⟩ 1) (fun v => v.meet == .all
         && (v.g.part false).last == some (now v (s .arr ⟨some 1, true, false, false⟩ 1)))
       && shows (bar .arr) (coming 0 (at_ (bar .arr))) (fun v => v.meet == .all && !(v.g.part false).pending && !v.teamDrained (coming 0 (at_ (bar .arr))))
       && shows (.bar false .sync true 4) (waiting (at_ (.bar false .sync true 4))) (fun v => v.meet == .all && !(v.g.part true).pending
         && (v.drained (waiting (at_ (.bar false .sync true 4)))).isNone)
       && shows (.bar false .arr true 4) (at_ (.bar false .arr true 4)) (fun v => clean v && v.meet == .all && !(v.g.part true).pending
         && ((at_ (.bar false .arr true 4)).cluster v.t.cluster).isSome && (v.drained (at_ (.bar false .arr true 4))).isSome)
       && [BarKind.arr, .sync].all fun k => shows (bar k) (at_ (bar k)) fun v => clean v && v.meet == .all && !(v.g.part false).pending
         && Tab.rising (at_ (bar k)).groups && (v.drained (at_ (bar k))).isSome && ((at_ (bar k)).scope false v.g.team).all fun e => e.1 == v.gid),
    (let i : Instr := .phwait false (.reg 2) (.reg 3) 0 all
     let ok (a p : Nat) (q : View → Nat → Bool) : Bool := shows i (regs [(2, a), (3, p)] (at_ i)) fun v => addrOf v.g v.c .s (.reg 2) 0 0 == a && q v a && v.k.fence.isNone
     let good (v : View) (a : Nat) : Bool := a % 4 == 0 && v.t.inWindow a 4 && (tilesOf a 4).all fun n => !v.t.engineSide n
     ok 65533 0 (fun v a => a % 4 != 0 && !good v a) && ok 65536 0 (fun v a => !v.t.inWindow a 4) && ok 65532 0 (fun v a => good v a && (Mem.read v.t.spad a).getLsbD 0 == false)
       && ok 65532 1 (fun v a => good v a && (Mem.read v.t.spad a).getLsbD 0 != true && ((at_ i).core v.t.core).replies.isEmpty)
       && shows (.phwait false (.reg 2) (.reg 3) 0 none_) (at_ (.phwait false (.reg 2) (.reg 3) 0 none_)) (fun v => v.lanes none_ == [])
       && shows (.phflip false (.reg 2) 0 none_) (at_ (.phflip false (.reg 2) 0 none_)) fun v => v.lanes none_ == []),
    (let i : Instr := .phflip false (.reg 2) 0 all
     shows i (regs [(2, 65532)] (at_ i)) (fun v => v.t.inWindow 65532 4 && Memory.wf v.t.spad && v.teamDrained (at_ i))
       && shows i (coming 0 (regs [(2, 65532)] (at_ i))) (fun v => v.t.inWindow 65532 4 && !v.teamDrained (coming 0 (at_ i))) && shows i (regs [(2, 65536)] (at_ i)) fun v => !v.t.inWindow 65536 4),
    (let i (g : Guard) : Instr := .bcbarm 2 (.reg 4) 1 g
     let s := regs [(2, 0x10200)] (at_ (i all))
     shows (i none_) (at_ (i none_)) (fun v => v.lanes none_ == [] && !v.x.det) && shows (i all) s fun v => !v.x.det
       && goes s v (i all) .g true (some 1) [piece 0 0 (v.g.pair 2 0).toNat 8 (v.src (.reg 4) 0).toNat] fun _ => true),
    (let i (g : Guard) : Instr := .bcbwait 4 2 g
     let s := regs [(2, 0x10200)] (at_ (i all))
     let armed := core (fun c => { c with rq := [{ queued 0x10200 with kind := .bcbarm }] }) s
     shows (i none_) (at_ (i none_)) (fun v => v.lanes none_ == [])
       && shows (i all) s (fun v => !v.arming s 0x10200 && (s.openTag v (i all) 1).isSome
         && match v.check s .g false [piece 0 0 (v.g.pair 2 0).toNat 8 15] with | .ok [q] => q.pa == 0x10200 && !(s.core v.t.core).noRoom [q] | _ => false)
       && shows (i all) (granted (det s)) (fun v => v.x.det && !v.arming (granted (det s)) 0x10200 && match v.check (granted (det s)) .g false [piece 0 0 (v.g.pair 2 0).toNat 8 15],
             (granted (det s)).openTag v (i all) 1 with
         | .ok [q], some (u, _) => !((granted (det s)).core v.t.core).noRoom [q] && (granted (det s)).bad q.pa == false
           && ((u.fresh.1.park v.gid v.kid (.bcbwait s.nextUid)).coreRead v.t.core q.pa q.len).2 == 0
         | _, _ => false)
       && shows (i all) armed fun v => v.arming armed 0x10200)] : List Bool).all id = true := by decide +kernel

/-- PhaseEnds and Emitting. -/
theorem witness_phase_emit : ([
    (let i : Instr := .phend false 32
     let s := mapped (at_ i)
     shows i (beside .no s) (fun v => v.meet == .wait) && shows i (grp (fun g => { g with inHandler := true }) s) (fun v => v.meet == .all && v.k.fence.isNone)
       && shows i s fun v => v.meet == .all && !v.g.inHandler && (v.g.slice 0).stack == [] && v.g.gangs.all (·.fence.isNone)
         && (List.range 8).all (fun b => (v.g.slice 0).sbOf b == 0) && v.g.run == none && v.g.det.unseen == [] && !v.g.det.ended && !s.setsPending v.gid v.t.core
         && ((s.ghost v.gid v.t.core).distWrite v.g.ctx (v.x.save + recordAt (s.recPlace v.g.ctx))
           (256 + 128 * (v.l.carry v.g.budget).length) (v.phaseRec v.g (v.c.hdr + 256))).2),
    (let i (g : Guard) : Instr := .emit false (.reg 2) 4 g
     let node : Node := ⟨BitVec.ofNat 1024 (5 * 2 ^ 480), 0, [], 0, [], none⟩
     let s (n page : Nat) : State := ctx (fun x => { x with nodes := [(3, node)], pages := List.range page })
       (grp (·.setPreds 1 [0] fun _ => true) (regs [(2, n), (4, 0x10300)] (mapped (at_ (i g1)))))
     let got (v : View) (s : State) : Emitted := s.emitOne v.g.ctx (v.src (.reg 2) 0).toNat v.g.dclock.toNat 0
     shows (i none_) (at_ (i none_)) (fun v => v.lanes none_ == [] && v.k.emitted == 0)
       && shows (i g1) (s 0 0) (fun v => v.nodeMisuse (.reg 2) 0 && v.k.fence.isNone) && shows (i g1) (s 65536 0) (fun v => v.nodeMisuse (.reg 2) 0)
       && shows (i g1) (s 3 0) (fun v => v.lanes g1 == [0] && !v.nodeMisuse (.reg 2) 0 && (v.drained (s 3 0)).isSome
         && (match v.check (s 3 0) .g false (v.emitPieces 4 (.reg 2) 0) with | .ok q => !q.any (s 3 0).poisoned | _ => false)
         && match got v (s 3 0) with | .entered _ => true | _ => false)
       && (let f := ctx (fun x => { x with record := x.record + BitVec.ofNat 512 (2 ^ 354) }) (s 3 0)
           shows (i g1) f fun v => v.lanes g1 == [0] && !v.nodeMisuse (.reg 2) 0 && (v.drained f).isSome && v.k.fence.isNone
             && match got v f with | .fault _ => true | _ => false)
       && shows (i g1) (s 3 1) fun v => v.lanes g1 == [0] && (match v.check (s 3 1) .g false (v.emitPieces 4 (.reg 2) 0) with | .ok q => !q.any (s 3 1).poisoned | _ => false)
         && match got v (s 3 1) with | .noPage => true | _ => false)] : List Bool).all id = true := by decide +kernel

/-- Traps. -/
theorem witness_traps : ([
    (let i (g : Guard) : Instr := .trap 5 g
     let save : TrapSave := ⟨0x10110, 0xF, [], none, 0⟩
     let s := mapped (at_ (i all))
     shows (i none_) (at_ (i none_)) (fun v => v.lanes none_ == [])
       && shows (i all) (sl (fun x => { x with trap := some save }) s) (fun v => clean v && v.x.line.isNone && (v.g.slice 0).trap != none)
       && shows (i all) (grp (fun g => { g with inHandler := true }) s) (fun v => clean v && v.x.line.isNone && (v.g.slice 0).trap == none && v.g.inHandler)
       && shows (i all) s fun v => clean v && (v.g.slice 0).trap == none && !v.g.inHandler && v.x.trap != 0
         && ((s.countStop v.t.core (stopBin 0x20)).saveRecord v.g.ctx (0x18000 + 64 * (v.x.tseq % 256)) (v.report (i all) 2 0x20 0 5)
           (fun x => { x with tseq := x.tseq + 1 })).group v.gid == some v.g),
    (let save (d : Nat) : TrapSave := ⟨0x10110, 0xF, [], none, d⟩
     let s (d : Nat) : State := sl (fun x => { x with trap := some (save d) }) (at_ .rtt)
     shows .rtt (at_ .rtt) (fun v => clean v && (v.g.slice 0).trap == none) && shows .rtt (s 1) (fun v => clean v && (v.g.slice 0).stack.length != 1)
       && shows .rtt (s 0) fun v => clean v && (v.g.slice 0).trap == some (save 0) && (v.g.slice 0).stack.length == 0)] : List Bool).all id = true := by
  decide +kernel

/-- SpecialRegisters, Privilege, Invalidations. -/
theorem witness_system : ([
    shows (.srget 4 0x09 all) (at_ (.srget 4 0x09 all)) fun v => srWide 0x09 && !v.x.maint, shows (.srget 4 0x0B all) (at_ (.srget 4 0x0B all)) fun _ => !srWide 0x0B,
    shows (.srset 0x0B (.reg 2) none_) (at_ (.srset 0x0B (.reg 2) none_)) fun v => v.lanes none_ == [],
    shows (.srset 0x0B (.reg 2) all) (at_ (.srset 0x0B (.reg 2) all)) fun v => v.lanes all != [],
    shows (.srset 0x0D (.reg 2) all) (at_ (.srset 0x0D (.reg 2) all)) fun v => clean v && (v.g.slice 0).tokens == 0,
    shows (.srset 0x40 (.reg 2) all) (at_ (.srset 0x40 (.reg 2) all)) fun v => v.lanes all != [],
    shows .pmoff (at_ .pmoff) fun v => v.g.pmoff == none, shows .pmon (at_ .pmon) fun _ => true,
    ([.tlbinv 2 4 all, .pqpop 4 2 0 1 all, .ctxkill (.reg 2) all, .cstateRead 4 (.reg 2) (.reg 3) all, .cstateReserve 4 (.reg 2) (.reg 3) all,
      .cstateRelease 4 (.reg 2) (.reg 3) all, .cdrain 4 (.reg 2) (.reg 3) all, .cretire 4 (.reg 2) all, .wearrd 4 (.reg 2) (.reg 3) all,
      .tstrun (.reg 2) 4 all, .tstabt (.reg 2) all] : List Instr).all fun i => shows i (at_ i) fun v => !v.x.maint && v.k.fence.isNone,
    (let i : Instr := .tlbinv 2 4 all
     let s := regs [(5, 0x04000000)] (maint (at_ i))
     let far (n : Nat) : State := { s with cores := s.cores.put 9 { s.core 9 with rq := [{ queued n with grp := 7 }] } }
     shows (.tlbinv 2 4 none_) (maint (at_ (.tlbinv 2 4 none_))) (fun v => v.x.maint && v.lanes none_ == [])
       && shows i (waiting s) (fun v => v.x.maint && v.lanes all == [0, 1, 2, 3] && (v.drained (waiting s)).isNone)
       && shows i s (fun v => v.x.maint && v.lanes all == [0, 1, 2, 3] && match v.drained s with
         | some u => !u.translatedInFlight (invRange (some 0) 0 0)
         | none => false)
       && shows i (far 0x10300) fun v => v.x.maint && v.lanes all == [0, 1, 2, 3] && match v.drained (far 0x10300) with
         | some u => u.translatedInFlight (invRange (some 0) 0 0)
         | none => false),
    (let i : Instr := .ctxkill (.reg 2) all
     let s (f : Ctx → Ctx) (k : Nat) : State := maint (regs [(2, k)] ((at_ i).modCtx 5 f))
     shows i (s id 63) (fun v => v.x.maint && !((s id 63).ctx 63).alive && 63 != v.g.ctx)
       && shows i (s (fun x => { x with alive := true, dead := true }) 5) (fun v => v.x.maint && v.lanes all != []
         && ((s (fun x => { x with alive := true, dead := true }) 5).ctx 5).dead && !((s (fun x => { x with alive := true, dead := true }) 5).ctx 5).conf)
       && shows (.ctxkill (.reg 2) none_) (maint (at_ (.ctxkill (.reg 2) none_))) (fun v => v.x.maint && v.lanes none_ == [])
       && shows i (s (fun x => { x with alive := true }) 5) fun v => v.x.maint && ((s (fun x => { x with alive := true }) 5).ctx 5).alive
         && !((s (fun x => { x with alive := true }) 5).ctx 5).dead && !((s (fun x => { x with alive := true }) 5).ctx 5).conf),
    (let i (g : Guard) : Instr := .flushp 1 g
     let y : YOp := ⟨{ queued 0x200000 with sb := none }, true, none, false, 0, false⟩
     let s := core (fun c => { c with yq := [y] }) (at_ (i all))
     shows (i none_) (at_ (i none_)) (fun v => v.lanes none_ == []) && shows (i all) (at_ (i all)) (fun v => !(at_ (i all)).outstanding v.g.ctx)
       && shows (i all) s fun v => s.outstanding v.g.ctx && (s.queueUp v (i all) (some 1)).isSome)] : List Bool).all id = true := by decide +kernel

/-- A core's wear record, and a reservation of it. -/
def worn (c : Nat) (st : WearState) (r : Option Nat) (s : State) : State :=
  { s with dev := { s.dev with wear := s.dev.wear.put c { Wear.fresh with state := st }, resv := match r with | some k => [(c, k)] | none => [] } }

/-- NoticesAndWear and Maintenance: each state of a core, each reservation, cores 287 and 288. -/
theorem witness_maintenance : ([
    (let i : Instr := .pqpop 4 2 0 1 all
     let s (q : List Notice) : State := maint (regs [(2, 0x10200)] { at_ i with dev := { Device.reset with queue := q } })
     let n : Notice := ⟨1, 0, 0, 0, 5⟩
     shows i (s []) (fun v => v.x.maint && match v.check (s []) .g true [piece 0 0 (addrOf v.g v.c .g (.reg 2) 0 0) 32 0] with | .ok _ => true | _ => false)
       && shows i (s [n]) fun v => v.x.maint && !v.x.det
         && goes (s [n]) v i .g true (some 1) [piece 0 0 (addrOf v.g v.c .g (.reg 2) 0 0) 32 n.bits] fun p => !(s [n]).ownsFor v.t.core p.pa p.len),
    shows (.wearrdSelf 4 (.reg 3) all) (at_ (.wearrdSelf 4 (.reg 3) all)) fun _ => true,
    shows (.wearrd 4 (.reg 2) (.reg 3) all) (maint (at_ (.wearrd 4 (.reg 2) (.reg 3) all))) (·.x.maint),
    (let s (i : Instr) (c x : Nat) (st : WearState) (r : Option Nat) : State := worn c st r (maint (regs [(2, c), (3, x)] (at_ i)))
     let ok (i : Instr) (c x : Nat) (st : WearState) (r : Option Nat) : Bool := shows i (s i c x st r) fun v => v.x.maint
       && (v.src (.reg 2) 0).toNat == c && (v.src (.reg 3) 0).toNat == x && ((s i c x st r).wear c).state == st && (s i c x st r).dev.resv.look c == r
     let rd : Instr := .cstateRead 4 (.reg 2) (.reg 3) all
     let rs : Instr := .cstateReserve 4 (.reg 2) (.reg 3) all
     let rl : Instr := .cstateRelease 4 (.reg 2) (.reg 3) all
     let dr : Instr := .cdrain 4 (.reg 2) (.reg 3) all
     let rt : Instr := .cretire 4 (.reg 2) all
     ok rd 288 0 .healthy none && ok rd 287 0 .healthy none && ok rs 287 1 .healthy none && ok rs 287 1 .drained (some 0) && ok rs 287 1 .retired none
       && ok rs 287 1 .healthy (some 5) && ok rl 287 2 .healthy (some 0) && ok rl 287 2 .healthy none && ok dr 287 3 .healthy none && ok dr 287 6 .derated none
       && ok dr 287 3 .drained none && ok dr 287 4 .healthy none && ok dr 287 6 .retired none && ok rt 287 0 .drained none && ok rt 287 0 .healthy none
       && ok rs 288 1 .healthy none && ok rl 288 2 .healthy none && ok dr 288 3 .healthy none && ok rt 288 0 .healthy none),
    (let i : Instr := .tstrun (.reg 2) 4 all
     let s (r : Option Nat) : State := worn 7 .healthy r (maint (regs [(2, 7), (4, 0x10200)] (at_ i)))
     let ok (r : Option Nat) (go : Bool) : Bool := shows i (s r) fun v => v.x.maint && ((s r).core v.t.core).rq == []
       && (match v.check (s r) .g true [piece 0 0 (v.g.pair 4 0).toNat 16 0] with | .ok [p] => !(s r).lockedFor p.pa | _ => false)
       && (decide (7 < 288) && (s r).coreIdle 7 && (s r).dev.resv.look 7 == some v.g.ctx) == go
     ok (some 0) true && ok none false),
    (let i : Instr := .tstabt (.reg 2) all
     let s (ts : List TestRun) : State := maint (regs [(2, 7)] { at_ i with dev := { Device.reset with tests := ts } })
     shows i (s [⟨7, 0, 0, 0x10200, 1, false⟩]) (fun v => v.x.maint && (s [⟨7, 0, 0, 0x10200, 1, false⟩]).dev.tests.any fun r => r.core == 7 && r.ctx == v.g.ctx && !r.aborting)
       && shows i (s []) fun v => v.x.maint)] : List Bool).all id = true := by decide +kernel

/-! ### Events: witnesses -/

/-- The small state without an instruction of interest; a piece and an operation of lane 1 of it; a change of core 0's lists. -/
def base : State := at_ (.nop false all)
def pc (pa len val : Nat) : Piece := ⟨1, 0, pa, pa, len, val, 0, none, false, false, false⟩
def op (kind : OpKind) (ps : List Piece) : Op := ⟨5, 0, 0, 0, 0, [0], some 0, some 2, kind, 4, ps, 0, 0, none, false, none⟩

/-- Slots: ACCMOV of a slot to itself. EngineOperations: a port with a write of .Y alone. PopulationEntry: descriptor offsets at the window and off
their boundary. JoiningAndMerging: a merge whose descriptor is past the window. -/
theorem witness_slots_relations : ([
    shows (.accmov 15 15 all) (at_ (.accmov 15 15 all)) fun v => v.lanes all != [] && decide (15 < v.t.slots)
      && (at_ (.accmov 15 15 all)).openRuns v.g.team == [] && v.g.run == none && !v.t.wide 15 1 && !v.slotsBusy (at_ (.accmov 15 15 all)) [15, 15],
    (let i : Instr := .ownE (.reg 2) (.reg 3) all
     let s := core (fun k => { k with yq := [⟨op .store [pc 0x200000 4 7], true, none, false, 0, false⟩] }) (regs [(2, 15), (3, 1)] (at_ i))
     shows i s fun v => let k := s.core v.t.core
       k.rq.isEmpty && k.wk.isEmpty && k.replies.isEmpty && k.yq.all (fun y => y.op.grp == v.gid && y.write) && decide (4096 * 16 ≤ v.t.window)),
    (let i : Instr := .relsealRec 4 (.reg 2) (.reg 5) ⟨false, 3⟩ all
     let ok (off : Nat) (q : View → Bool) : Bool := shows i (regs [(5, off)] (at_ i)) fun v =>
       ((regs [(5, off)] (at_ i)).handle (v.href ⟨false, 3⟩)).state == .idle && v.k.fence.isNone && (v.src (.reg 5) 0).toNat == off && q v
     ok 65536 (fun v => decide (v.t.window ≤ 65536)) && ok 65532 fun v => decide (65532 < v.t.window)),
    (let i : Instr := .relmrg 4 (.reg 2) 1 all
     shows i (regs [(2, 65536)] (at_ i)) (fun v => decide (v.t.window ≤ 65536) && v.k.fence.isNone)
       && shows i (regs [(2, 65532)] (at_ i)) fun v => decide (65532 < v.t.window) && v.k.fence.isNone),
    (let i : Instr := .relent 4 (.reg 2) (.reg 5) ⟨false, 3⟩ all
     let s := granted (desc 4 0 (det (at_ i)))
     shows i s fun v => match v.entDesc s ⟨false, 3⟩ 0 [0, 1, 2, 3] with
       | .ok dd => v.x.det && ((s.modGroup v.gid (·.impure)).relOut v.gid v.t.core v.g.ctx v.g.team (relSpace dd) (relBase dd) 256
           (packRows ([0, 1, 2, 3].map fun m => v.row dd (srcVal v.g v.c (.reg 2) (relKeyw dd) m) m))).2 == .ok 0
       | .error _ => false)] : List Bool).all id = true := by decide +kernel

/-- BarriersAndPhases: a .SYNC that waits for the phase of an earlier arrival, and a flip. Emitting: a record page that
is being copied. -/
theorem witness_drained : ([
    (let i : Instr := .bar false .sync false 4
     let s := team (fun t => { t with barPhase := 1 }) (grp (fun g => { g with barTeam := ⟨some 1, true, false, false⟩ }) (at_ i))
     shows i s fun v => v.meet == .all && (v.g.part false).pending && (v.g.part false).last == some (s.barPhase false v.g.team)),
    (let i : Instr := .phflip false (.reg 2) 0 all
     let s := regs [(2, 65532)] (at_ i)
     shows i s fun v => v.t.inWindow 65532 4 && Memory.wf v.t.spad && v.teamDrained s && (tilesOf 65532 4).all (fun n => !v.t.engineSide n)
       && !(s.core v.t.core).storing v.g.team [(65532, 4)]),
    (let i : Instr := .emit false (.reg 2) 4 g1
     let node : Node := ⟨BitVec.ofNat 1024 (5 * 2 ^ 480), 0, [], 0, [], none⟩
     let s := { ctx (fun x => { x with nodes := [(3, node)] }) (grp (·.setPreds 1 [0] fun _ => true) (regs [(2, 3), (4, 0x10300)] (mapped (at_ i)))) with
       migrations := [⟨0, 0x200000, 0x10000, 0x200000, 0x300000, false, []⟩] }
     shows i s fun v => v.lanes g1 == [0] && v.k.emitted == 0 && !v.nodeMisuse (.reg 2) 0 && (v.drained s).isSome
       && (match v.check s .g false (v.emitPieces 4 (.reg 2) 0) with | .ok q => !q.any s.poisoned | _ => false)
       && match s.emitOne v.g.ctx (v.src (.reg 2) 0).toNat v.g.dclock.toNat 0 with | .held => true | _ => false)] : List Bool).all id = true := by
  decide +kernel

/-- Changes to the device. -/
def dev (f : Device → Device) (s : State) : State := { s with dev := f s.dev }

/-- SpecialRegisters: a write of a privileged register in a maintenance context. Invalidations: CTXKILL of a confidential context in each state of its TDI
and of the own one; FLUSHP behind a queued access of .Y. NoticesAndWear: a notice in deterministic mode. -/
theorem witness_maint_writes : ([
    shows (.srset 0x42 (.reg 2) all) (maint (at_ (.srset 0x42 (.reg 2) all))) fun v => v.x.maint && v.lanes all != [] && srPriv 0x42,
    (let i : Instr := .ctxkill (.reg 2) all
     let conf : BitVec 512 := 1#512 <<< 170
     let s (t : Tdi) (dead : Bool) : State := dev (fun d => { d with tdis := [(16, t)] }) (maint (regs [(2, 5)] ((at_ i).modCtx 5 fun x =>
       { x with alive := true, dead := dead, vf := 16, record := conf })))
     let ok (t : Tdi) (dead : Bool) : Bool := shows i (s t dead) fun v => v.x.maint && ((s t dead).ctx 5).conf && ((s t dead).ctx 5).alive
       && ((s t dead).ctx 5).dead == dead && (s t dead).dev.tdis.getD ((s t dead).ctx 5).vf .unlocked == t
     ok .run false && ok .locked false && ok .run true && shows i (maint (at_ i)) fun v => v.x.maint && v.g.ctx == 0 && v.x.alive && !v.x.dead),
    (let i : Instr := .flushp 1 all
     let s := core (fun k => { k with rq := [{ queued 0x200000 with port := some true }] }) (at_ i)
     shows i s fun v => v.lanes all != [] && (s.core v.t.core).rq.any fun o => o.grp == v.gid && o.port != none),
    (let i : Instr := .pqpop 4 2 0 1 all
     let n : Notice := ⟨1, 0, 0, 0, 5⟩
     let s := granted (det (maint (regs [(2, 0x10200)] { at_ i with dev := { Device.reset with queue := [n] } })))
     shows i s fun v => v.x.maint && v.x.det && match v.check s .g true [piece 0 0 (addrOf v.g v.c .g (.reg 2) 0 0) 32 n.bits] with
       | .ok [q] => decide (v.g.det.used + logEntries .g [q] ≤ 512)
       | _ => false)] : List Bool).all id = true := by decide +kernel

/-- What the statements about a home ask of a request that is alone at a core. -/
def lone (kind : OpKind) (p : Piece) : Bool :=
  let o := op kind [p]
  let s := core (fun k => { k with rq := [o] }) base
  (s.core 0).rq == [o] && (s.core 0).wk == [] && (s.core 0).replies == [] && s.tagLive o.ctx o.gen && s.migrations == [] && s.monitors == []
    && s.router == [] && s.dev.poison == [] && s.dir == [] && s.l2 == [] && decide (0 < s.l2Ways (l2Key (lineOf p.pa))) && decide (0 < p.len) && decide (p.pa % 256 + p.len ≤ 256)
    && decide (p.val < 2 ^ (8 * p.len)) && (s.core 0).l1 == [] && Memory.wf s.mem

/-- Homes (the last word of a line and its first byte), Replies and HostPort. -/
theorem witness_homes : ([
    lone (.load false) (pc 0x103FC 4 0), lone .ldb (pc 0x10400 1 0), lone .store (pc 0x103FC 4 0xFFFFFFFF), lone (.atom .add false false) (pc 0x103FC 4 1),
    lone .bcbarm (pc 0x10400 8 1), (OpKind.atom .add false false).isAtomic, OpKind.bcbarm.isAtomic,
    (let o : Op := { op (.load true) [{ pc 0x10400 1 0 with got := some 0x80 }] with ready := true }
     let s := core (fun k => { k with replies := [o] }) base
     s.tagLive 0 0 && (s.group 0).isSome && (s.core 0).replies.find? (·.id == o.id) == some o),
    (let o : Op := { op (.atom .add false true) [{ pc 0x10400 8 0 with got := some 1 }] with ready := true, ts := 9 }
     let s := core (fun k => { k with rq := [o] }) base
     (s.core 0).rq == [o] && (s.core 0).wk == [] && o.ready),
    (let y : YOp := ⟨op (.load false) [pc 0x200000 4 0], false, none, false, 0, false⟩
     let s := core (fun k => { k with yq := [y] }) base
     (s.core 0).yq.find? (fun y => y.op.id == 5 && !y.write && s.mayGo 0 y) == some y && (s.core 0).lastOf y),
    (let y : YOp := ⟨op .store [pc 0x200000 4 7], true, none, false, 0, false⟩
     let s := core (fun k => { k with yq := [y] }) base
     let z : YOp := ⟨op .store [pc 0x200040 4 8], true, none, false, 1, false⟩
     let s2 := core (fun k => { k with yq := [y, z] }) base
     (s.core 0).yq.find? (fun y => y.write && s.mayGo 0 y) == some y && (s.core 0).lastOf y && s.tagLive 0 0
       && !({ s with ctxs := [] } : State).tagLive 0 0 && (s2.core 0).yq.find? (fun y => y.write && s2.mayGo 0 y) == some y
       && !(s2.core 0).lastOf y),
    (let s := State.reset
     placeOf 288 == .memory && !s.silent 288 && s.l2 == [] && decide (0 < s.l2Ways (l2Key 0xFFFFFFFF)) && s.migrations == [] && s.monitors == [] && s.ctxs == [] && Memory.wf s.mem && s.dir == [] && decide (2 ^ 40 - 1 + [(1 : Byte)].length ≤ 2 ^ 40))]
    : List Bool).all id = true := by decide +kernel

/-- Homes, Replies and HostPort: what they ask of the other queues; a write of the host beside a context, a monitor and a migration elsewhere, and one
into a private range. MemoryHousekeeping: two lanes of one instruction that merge. -/
theorem witness_memory_more : ([
    (let o : Op := op (.load false) [pc 0x103FC 4 0]
     let s := core (fun k => { k with rq := [o] }) base
     (s.core 0).yq == [] && o.port == none && (pc 0x103FC 4 0).merged == false && !(s.line (lineOf 0x103FC)).hostHeld),
    (let y : YOp := ⟨op (.load false) [pc 0x200000 4 0], false, none, false, 0, false⟩
     let s := core (fun k => { k with yq := [y] }) base
     (s.core 0).rq == [] && (pc 0x200000 4 0).got == none && s.tagLive 0 0 && y.op.poison == none && (s.group 0).isSome),
    (let y : YOp := ⟨op .store [pc 0x200000 4 7], true, none, false, 0, false⟩
     let s := core (fun k => { k with yq := [y] }) base
     (s.core 0).rq == [] && y.op.kind == .store && (s.core 0).yq.find? (fun y => y.write && s.mayGo 0 y) == some y),
    (let s : State := { base with
       migrations := [⟨0, 0x10000, 0x10000, 0x500000, 0x600000, false, []⟩]
       monitors := [⟨3, 0, 0, 0, 0, 0x10400, 0x10400, 4, .ne 0, 4, 15, some 0, true, 7⟩] }
     placeOf 288 == .memory && !s.silent 288 && !s.dev.tripped && Memory.wf s.mem && (s.migrations.all fun m => m.held.all fun h => h.2.2.2 != 288)
       && [0x10400, 0x10401].all (fun x => s.migrationOf x == none) && !s.privateAt 0x10400 2 && (s.ctx 0).alive
       && decide (((s.l2.getD (l2Key (0x10400 / 256)) []).filter (· != 0x10400 / 256)).length < s.l2Ways (l2Key (0x10400 / 256)))
       && (s.line (0x10400 / 256)).owner == none && decide (0x10400 / 256 = 0x10401 / 256)),
    (let s := ctx (fun x => { x with vf := 16, base := 0x10000, size := 0x10000, record := x.record ||| (1#512 <<< 170) }) base
     s.privateAt 0x10400 2 && s.migrations == [] && decide (0x10400 / 256 = 0x10401 / 256)),
    (let o := op (.ared .add true false true) [pc 0x10400 4 1, { pc 0x10400 4 2 with lane := 2 }]
     let s := core (fun k => { k with rq := [o] }) base
     (s.core 0).head == some o && o.port == none && mergeable o.kind o.kind && !(s.ctx 0).det && s.tagLive 0 0
       && mergePairs true o o == [(pc 0x10400 4 1, { pc 0x10400 4 2 with lane := 2 })]),
    (let o1 := op (.ared .add false false false) [pc 0x10400 4 1]
     let o2 := { op (.atom .add false false) [pc 0x10400 4 2] with id := 6 }
     let s := (core (fun k => { k with rq := [o1] }) base).modCore 1 fun k => { k with rq := [o2] }
     (s.core 0).head == some o1 && (s.core 1).head == some o2 && mergePairs false o1 o2 == [(pc 0x10400 4 1, pc 0x10400 4 2)])]
    : List Bool).all id = true := by decide +kernel

/-- MemoryHousekeeping and PageWalks. -/
theorem witness_housekeeping : ([
    (let s (n : Nat) : State := core (fun k => { k with ticks := 1 }) { base with cycle := n }
     decide (((s 8192).core 0).ticks < (s 8192).cycle / 4096) && decide ((s 8191).cycle / 4096 ≤ ((s 8191).core 0).ticks)),
    (let o1 := op (.ared .add false false false) [pc 0x10400 4 1]
     let o2 := { op (.atom .add false false) [pc 0x10400 4 2] with id := 6 }
     let s := (core (fun k => { k with rq := [o1] }) base).modCore 1 fun k => { k with rq := [o2] }
     mergeable o1.kind o2.kind && !(s.ctx 0).det && s.tagLive 0 0 && o1.nextPieces false == [pc 0x10400 4 1] && o2.nextPieces false == [pc 0x10400 4 2]
       && ((s.core 0).rq, (s.core 1).rq) == ([o1], [o2])),
    (let m (n : Nat) : Monitor := ⟨3, 0, 0, 0, 0, 0x10400, 0x10400, 4, .ne n, 4, 15, some 0, true, 7⟩
     let s (n : Nat) : State := { base with monitors := [m n], cycle := 1031 }
     let v (n : Nat) : Nat := ((s n).homeRead 0x10400 4).2
     decide ((m 0).polled + 1024 ≤ (s 0).cycle) && !(s 0).bad 0x10400 && decide (1030 < (m 0).polled + 1024)
       && (s 0).groups.all (fun e => e.2.gangs.all (·.fence.isNone)) && (s 0).monitors.find? (·.id == 3) == some (m 0) && !((s 0).ctx 0).det && ((s 0).group 0).isSome && !(m 0).cond.holds (v 0) && (m 1).cond.holds (v 1)),
    (let f : Fence := ⟨.dev, 0, ⟨[], [], none, [], [], [], none⟩, 0, [], [], 4, 1, 2, [], false⟩
     let s := gang (fun k => { k with fence := some f }) base
     match s.group 0 with
     | some g => (s.team g.team).isSome && match g.gang 0 with | some k => k.fence == some f && f.awaits == [] && f.reads == [] | none => false
     | none => false),
    (let o := op .store []
     let s (n : Nat) : State := core (fun k => { k with probes := [o], yq := [⟨{ op .store [pc 0x200000 4 7] with id := n }, true, none, false, 0, false⟩] }) base
     let newer (s : State) : Bool := s.cores.all fun e => e.2.yq.all fun y => y.op.ctx != 0 || decide (5 ≤ y.op.id)
     ((s 6).core 0).probes.find? (·.id == 5) == some o && newer (s 6) && !newer (s 4) && (s 4).tagLive 0 0
       && ((s 4).core 0).yq.all fun y => !(s 4).linkDown y),
    (let w : Walk := ⟨0, 0, 0, 0x30000, false⟩
     let s (b : Bool) : State := core (fun k => { k with walks := [w] }) (gang (fun k => { k with walking := if b then some 0x30000 else none, clause := none }) base)
     let q : State := (s true).modQuad 0 fun q => { q with tlb := [⟨0, 0x30000, 0x10000, 0x50000, false, false, true⟩] }
     (q.core 0).walks == [w] && !(s false).wants w && q.wants w && (tlbFind (q.quad 0).tlb 0 0x30000).isSome
       && (s true).wants w && (tlbFind ((s true).quad 0).tlb 0 0x30000).isNone && ((s true).quad 0).walkc == [] && !((s true).ctx 0).conf
       && (s true).migrations == [] && (s true).dir == [] && !(s true).bad (((s true).ctx 0).root + 8 * bits 0x30000 56 45) && ((s true).ctx 0).line == none
       && Mem.readN (s true).mem (((s true).ctx 0).root + 8 * bits 0x30000 56 45) 8 % 2 == 0
       && match (s true).group 0 with
          | some g => match g.gang 0 with | some k => k.fence == none && k.clause == none && ((s true).team g.team).isSome | none => false
          | none => false)] : List Bool).all id = true := by decide +kernel

/-- An operation of core 0's engines, under way. -/
def eop (kind : EngKind) (g o n : Nat) (data : BitVec 512) : EngOp :=
  ⟨5, kind, 0, 0, 0, [0], 15, some 0, 1, 4, true, 0, 0, 0, g, o, n, none, 0, data, [], [], [], 0, false, false, false, none⟩
def working (o : EngOp) (s : State) : State := core (fun k => { k with ops := [o] }) s
/-- What the statements ask of it. -/
def works (o : EngOp) (s : State) : Bool :=
  s.engOpOf 0 o.id == some o && o.started && !o.isOver && !o.faulted && s.asyncRuns 0 o.ctx && (s.team o.team).isSome && !(s.ctx o.ctx).det
    && s.migrations == []

/-- MatrixEngine. -/
theorem witness_matrix_engine : ([
    (let s := quad (fun q => { q with windows := [⟨3, 0, 1, 0x1400, true⟩] }) base
     ((s.quad 0).windows.find? (·.isOpen)).isSome),
    (let e := request 1 0 0x1400
     let w : Window := ⟨3, 0, 1, 0x1400, false⟩
     let s := quad (fun q => { q with windows := [w], table := [e], sets := [⟨0, 1, 0, 1, 0, [(0, ⟨0, 16, 3⟩)]⟩] }) base
     s.choosePass 0 == some w && (s.quad 0).table.filter (fun r => r.window == w.id) == [e] && (s.bset e.core e.launch e.set).isSome
       && (s.team e.team).isSome && s.groups.all fun p => p.2.stage != .exiting),
    (match base.group 0 with
     | some g => match base.team g.team with
       | some x => decide ((x.lay g.run 15).segs = 1) && decide (15 < x.slots) && Memory.wf x.cells
       | none => false
     | none => false),
    (let s := grp (fun g => { g with run := some (aRun 0x1500) }) base
     match s.group 0 with
     | some g => match s.team g.team with
       | some x => decide (1 < (x.lay g.run 2).segs) && Memory.wf x.cells
       | none => false
     | none => false)] : List Bool).all id = true := by decide +kernel

/-- EngineWork: the chunks of a copy around a page's end, and one that faults; rows with an index and with none; a scan; commands. -/
theorem witness_engine_work : ([
    (let o : EngOp := { eop .cpyIn 0x10200 0 16 0 with started := false }
     let s := working o base
     let t := core (fun k => { k with rq := [{ op .store [] with id := 4 }] }) s
     (s.core 0).ops.find? (fun p => !p.started) == some o && s.asyncRuns 0 0 && (s.core 0).rq == [] && (s.core 0).wk == []
       && ((t.core 0).rq.any fun p => p.grp == o.grp && decide (p.id < o.id))),
    (let o := eop .cpyIn 0x10FF0 0 48 0
     let s := working o (mapped base)
     works o s && !o.ran && min (o.n - o.at_) (4096 - (o.g + o.at_) % 4096) == 16
       && (match s.engRead 0 0 0x10FF0 16 with | (_, .ok _) => true | _ => false)
       && (match (working o base).engRead 0 0 0x30000 16 with | (_, .fault _ _) => true | _ => false)),
    (let o := eop .cpyOut 0x10200 0 16 0
     let s := working o (mapped base)
     works o s && match s.engWrite 0 o 0x10200 16 0 with | (_, _, .ok _) => true | _ => false),
    (let d (b : Nat) : BitVec 512 := BitVec.ofNat 512 (0x10200 + 16 * 2 ^ 64 + 16 * 2 ^ 96 + 128 * 2 ^ 128 + 2 ^ 160 + 256 * 2 ^ 192 + b * 2 ^ 224)
     let o (k : EngKind) (b : Nat) : EngOp := eop k 0 0 0 (d b)
     let s (k : EngKind) (b i : Nat) : State := spad [(128, 4, i)] (working (o k b) (mapped base))
     let i (s : State) (o : EngOp) : Nat := match s.team 0 with | some x => x.spadRead (o.field 159 128 + 4 * o.at_) 4 | none => 0
     let skip (k : EngKind) (b n : Nat) : Bool := bit (o k b).data.toNat 224 && i (s k b n) (o k b) == 0xFFFFFFFF
     works (o .gath 1) (s .gath 1 0) && works (o .scat 1) (s .scat 1 0) && skip .gath 1 0xFFFFFFFF && skip .scat 1 0xFFFFFFFF
       && !skip .gath 0 0xFFFFFFFF && !skip .gath 1 1 && !skip .scat 1 1
       && (match (s .gath 1 1).engRead 0 0 0x10210 16 with | (_, .ok _) => true | _ => false)
       && match (s .scat 1 1).engWrite 0 (o .scat 1) 0x10210 16 0 with | (_, _, .ok _) => true | _ => false),
    (let o := eop .nzscan 0 0 0 (BitVec.ofNat 512 (0x10 * 2 ^ 64 + 4 * 2 ^ 96 + 64 * 2 ^ 160 + 2 ^ 192))
     works o (working o base) && bit o.data.toNat 68),
    (let o := eop .mqrun 0 0 0 (BitVec.ofNat 512 (64 + 2 ^ 32 + 2 ^ 96))
     let cmd (op : Nat) : Nat := 0x400 + 8192 * 2 ^ 32 + 4096 * 2 ^ 64 + 16 * 2 ^ 128 + 4 * 2 ^ 144 + op * 2 ^ 184
     let s (op : Nat) : State := owned (BitVec.allOnes 512) (spad [(64, 64, cmd op)] (working o base))
     let t : State := quad (fun q => { q with table := [{ request 1 0 0x400 with id := 4 }], sets := [⟨0, 1, 0, 1, 0, [(0, ⟨0, 16, 3⟩)]⟩] }) (s 1)
     let st (s : State) (n : Nat) : Bool := match s.team 0 with
       | some x => works o s && !o.ran && (s.mqStatuses o x (o.cmd x 0)).length == n
       | none => false
     let held (s : State) : Bool := match s.team 0 with | some x => s.mtxPending 0 0 5 none (s.physSlots 0 0 (o.cmd x 0).slots) | none => false
     st (s 1) 0 && st (s 2) 1 && !held (s 1) && !held (s 2) && held t)] : List Bool).all id = true := by decide +kernel

/-- EngineCompletion and RelationEvents. -/
theorem witness_engine_ends : ([
    (let o : EngOp := { eop .cpyIn 0x10200 0 16 0 with ran := true, out := [(0, 16, 7)] }
     let r : EngOp := { eop .relmrg 0 0 0 0 with ran := true }
     let s (o : EngOp) : State := working o base
     works o (s o) && works r (s r) && (s r).relRuns 0 0 && o.bar == none && ((s o).group 0).isSome
       && (s o).groups.all fun e => e.2.gangs.all fun k => match k.wait with | .phwait .. => false | _ => true),
    (let h : HRef := .team 0 3
     let x (st : HState) : Handle := { Handle.fresh with state := st, desc := BitVec.ofNat 512 (4096 + 4 * 2 ^ 64 + 2 ^ 128), rows := 1, image := [row 0] }
     let s (st : HState) : State := beside (.relgrp h 0 4 0 0xF) (hold (x st) base)
     let ok (st : HState) : Bool := match (s st).relWaiters h, (s st).team 0 with
       | (gid, g, k, c) :: _, some y => gid == 0 && k.id == 1 && !(s st).relDet h && (s st).relRuns c g.ctx && ((s st).handle h).state == st
         && relSpace (x st).desc.toNat && y.inWindow (relBase (x st).desc.toNat) 64 && !((s st).ctx g.ctx).det
       | _, _ => false
     ok .opened && ok .sealed),
    (let sp (n : Nat) : Spawn := ⟨List.replicate n ⟨7, [1], [2]⟩, 0, 0, 0x10200, 16, 0, .team 0 3, .team 0 4⟩
     let s (n : Nat) : State := team (fun t => { t with spawns := [sp n] }) (base.modLaunch 0 fun l => { l with record := BitVec.ofNat 1024 (63 * 2 ^ 64) })
     let ok (n : Nat) : Bool := match (s n).team 0, (s n).launch 0 with
       | some x, some l => x.spawns == [sp n] && ((s n).freeIndex 0).isSome && x.residence == .resident && !x.stopping && (s n).serves l.ctx
         && (s n).groupRoom x.core l.part 16 && x.launch == 0
       | _, _ => false
     ok 1 && ok 33)] : List Bool).all id = true := by decide +kernel

/-- MatrixEngine: a pass of one request, and an operand error with the issue record of its request. EngineWork: what holds a start beside the queue; a
deterministic copy that has run and one that has not; a command that a stop request finds, of statuses and of none. EngineCompletion: a copy with a barrier
that translates and one whose barrier does not; a deterministic one. RelationEvents: a handle with rows in a log, and deterministic mode. -/
theorem witness_engine_more : ([
    (let e := request 1 0 0x1400
     let w : Window := ⟨3, 0, 1, 0x1400, false⟩
     let s := quad (fun q => { q with windows := [w], table := [e], sets := [⟨0, 1, 0, 1, 0, [(0, ⟨0, 16, 3⟩)]⟩] }) base
     s.choosePass 0 == some w && ((s.quad 0).table.map (·.id)).length == 1 && (match s.setOf e with | some b => decide (0 < b.kg) | none => false)
       && (match s.team e.team with | some x => !x.stopping | none => false) && e.kdone == 0),
    (let e : ResEntry := { request 1 15 0 with tag := some 4 }
     let r : IssueRec := ⟨1, 2, 0x10100, 1, 1, 0, 0, false, 0, 0⟩
     let s := core (fun k => { k with issueRecs := [(4, r)] }) (quad (fun q => { q with table := [e], sets := [⟨0, 1, 0, 1, 0, [(0, ⟨0, 16, 3⟩)]⟩] }) base)
     match s.mtxEntries.find? (fun e => e.grp == 0 && (s.entrySlots e).contains 15) with
     | some e => e.tag == some 4 && (s.recordFor 0 0 (some 4)).isSome
     | none => false),
    (let o : EngOp := { eop .cpyIn 0x10200 0 16 0 with started := false }
     let s (f : Core → Core) : State := core f (working o base)
     let first (s : State) : Bool := (s.core 0).ops.find? (fun p => !p.started) == some o
     let wk := s fun k => { k with wk := [{ op .store [] with id := 4 }] }
     let rep := s fun k => { k with replies := [{ op .accst [] with id := 4, d := 0 }] }
     let yq := s fun k => { k with yq := [⟨{ op (.load false) [pc 0x200000 4 0] with id := 4 }, false, none, false, 0, false⟩] }
     first wk && ((wk.core 0).wk.any fun p => p.grp == o.grp && decide (p.id < o.id))
       && first rep && ((rep.core 0).replies.any fun p => p.kind == .accst && p.d == o.team && decide (p.id < o.id))
       && first yq && ((yq.core 0).yq.any fun y => y.op.grp == o.grp && !y.write && decide (y.op.id < o.id))
       && first (s id) && (s id).asyncRuns 0 0 && ((s id).core 0).replies == [] && ((s id).core 0).yq == []),
    (let go (a : Nat) (ran : Bool) : Bool :=
       let o := eop .cpyIn a 0 16 0
       let s := working o (det (mapped base))
       match s.team 0 with
       | some x => s.engOpOf 0 5 == some o && o.started && !o.ran && !o.faulted && s.asyncRuns 0 0 && (s.ctx 0).det && (s.runDet 0 x o.steps o).2.ran == ran
       | none => false
     go 0x10200 true && go (2 ^ 56) false),
    (let o := eop .mqrun 0 0 0 (BitVec.ofNat 512 (64 + 2 ^ 32 + 2 ^ 96))
     let cmd (op : Nat) : Nat := 0x400 + 8192 * 2 ^ 32 + 4096 * 2 ^ 64 + 16 * 2 ^ 128 + 4 * 2 ^ 144 + op * 2 ^ 184
     let s (op : Nat) : State := team (fun t => { t with stopping := true }) (owned (BitVec.allOnes 512) (spad [(64, 64, cmd op)] (working o base)))
     match (s 1).team 0 with
     | some x => works o (s 1) && x.stopping && !o.ran && o.at_ == 0 && decide (o.at_ < (o.cmd (o.sees x) 0).kg) && (s 1).mqStatuses o x (o.cmd x 0) == []
         && !(s 1).mtxPending 0 0 5 none ((s 1).physSlots 0 0 (o.cmd x 0).slots)
     | none => false),
    (let o (c : Nat) : EngOp := { eop .cpyIn 0x10200 0 16 0 with ran := true, out := [(0, 16, 7)], bar := some c }
     let s (c : Nat) : State := working (o c) (mapped base)
     works (o 0x10300) (s 0x10300) && ((s 0x10300).groups.all fun e => e.2.gangs.all (·.fence.isNone))
       && (match (s 0x10300).translateNow 0 0 0x10300 false true with
         | (w, .ok pa) => w.migrationOf pa == none && w.badIn [(pa, 8)] 0x10300 == none && decide (pa % 256 + 8 ≤ 256)
         | _ => false)
       && match (s (2 ^ 56)).translateNow 0 0 (2 ^ 56) false true with | (_, .fault _) => true | _ => false),
    (let o : EngOp := { eop .cpyIn 0x10200 0 16 0 with ran := true, out := [(0, 16, 7)] }
     let s := working o (det base)
     s.engOpOf 0 5 == some o && o.started && !o.isOver && !o.faulted && o.bar == none && s.asyncRuns 0 0 && (s.ctx 0).det && match s.group 0 with
       | some g => g.gangs.all fun k => match k.wait with | .yield .. => false | _ => true
       | none => false),
    (let h : HRef := .team 0 3
     let x : Handle := { Handle.fresh with state := .sealed, logged := true }
     let s := beside (.relgrp h 0 4 0 0xF) (hold x base)
     !(s.relWaiters h).isEmpty && !s.relDet h && (s.handle h).logged && (det s).relDet h && (((det s).launch 0).map fun l => ((det s).ctx l.ctx).det) == some true)]
    : List Bool).all id = true := by decide +kernel

/-- The small state at a clause boundary: its gang holds no port and its next header is at an address. -/
def between (pc : Dword) (s : State) : State := sl (fun x => { x with pc := pc }) (gang (fun k => { k with clause := none, port := none }) s)

/-- ClauseIssue: a clause inside the code and one outside; a gang forced after 256 cycles; windows of 63 and 64 cycles. -/
theorem witness_clause_issue : ([
    (let ok (a : Dword) (q : State → Group → Gang → Launch → Bool) : Bool :=
       let s := between a base
       match s.group 0 with
       | none => false
       | some g => match g.gang 0, s.team g.team, s.launch g.launch with
         | some k, some _, some l => s.holder 0 3 == none && ((pickReady (s.readyGangs 0)).map fun r => (r.gid, r.kid)) == some (0, 0) && k.clause == none
             && g.operandError == none && g.pcOf k == a && !g.handling k && q s g k l
         | _, _, _ => false
     ok 0x10100 (fun s _ _ l => match s.fetch 0 0 0 0x10100 with
         | (u, .word w) => match decodeHeader w with
           | some h => l.holdsCode 0x10100 (8 * (h.count + 1)) && !(s.ctx 0).det && match u.fetchAll 0 0 0 h.count 0x10108 with
             | (u', .ok _) => u'.groups == s.groups
             | _ => false
           | none => false
         | _ => false)
       && ok 0x20000 fun _ _ _ l => !l.holdsCode 0x20000 8),
    (let s (n : Nat) : State := { between 0x10100 base with cycle := n }
     let ok (n : Nat) (due : Bool) : Bool := match (s n).group 0 with
       | none => false
       | some g => match g.gang 0, (s n).team g.team with
         | some k, some x => k.port == none && k.forced == none && (s n).ready g x k && decide (k.since + 256 ≤ (s n).cycle) == due
         | _, _ => false
     ok 256 true && ok 255 false),
    (let s (n : Nat) : State := { gang (fun k => { k with wait := .regang false 0x10200 }) (between 0x10100 base) with cycle := n }
     let due (n : Nat) : Bool := match (s n).group 0 with
       | none => false
       | some g => g.gangs.all fun j => j.wait == .regang false 0x10200 && decide (j.since + 64 ≤ (s n).cycle)
     due 64 && !due 63)] : List Bool).all id = true := by decide +kernel

/-- A kernel of one role with one group, and a record of one team of it. -/
def kernelWords : Nat := 0x4B45524E + 2 ^ 32 + 2 ^ 104
def launchWords : Nat := 2 ^ 34 + 2 ^ 64 + 2 ^ 96 + 0x20000 * 2 ^ 128
/-- The context alone, with the kernel in memory. -/
def idle : State :=
  let s := mapped base
  { s with launches := [], groups := [], teams := [], clusters := [], cores := [], nextUid := 8, mem := Mem.writeN s.mem 0x20000 256 kernelWords }

/-- Queues. -/
theorem witness_queues : ([
    (match idle.distRead 0 (idle.ctx 0).qbase 8 with | (_, some t) => idle.serves 0 && t == 0 | _ => false),
    (let entry (r : Nat) : QEntry := ⟨0, BitVec.ofNat 1024 r, none, none, 0, 0, false, 0⟩
     let s (r : Nat) : State := ctx (fun x => { x with entries := [entry r] }) idle
     let ok (r : Nat) (q : State → Bool) : Bool := (s r).serves 0 && ((s r).ctx 0).pendingEntry == some (entry r) && !(s r).binding 0 && !((s r).ctx 0).det
       && !bit r 38 && q (s r)
     let node : Nat := launchWords + 2 ^ 32 + 2 ^ 40 + 2 ^ 480
     ok (launchWords + 2 ^ 348) (fun s => recordBad (launchWords + 2 ^ 348) (s.ctx 0).pmax)
       && ok launchWords (fun s => match s.checkRecord 0 launchWords with
         | (w, .ok k _) => bits launchWords 127 96 == 1 && bits launchWords 33 32 == 0 && bits launchWords 415 352 == 0
             && w.fittable (Launch.fresh 0 0 (BitVec.ofNat 1024 launchWords) (BitVec.ofNat 2048 k) 1)
         | _ => false)
       && ok node fun s => match s.checkRecord 0 node with
         | (w, .ok _ _) => bits node 33 32 == 1 && (w.ctx 0).nodes.look (bits node 55 40) == none
         | _ => false),
    (let entry (a : Nat) : QEntry := ⟨0, BitVec.ofNat 1024 (a * 2 ^ 416), none, some 0, 1, 5, false, 0⟩
     let s (a : Nat) : State := ctx (fun x => { x with entries := [entry a] }) idle
     let ok (a : Nat) : Bool := ((s a).ctx 0).alive && !((s a).ctx 0).halted && ((s a).ctx 0).deliverable == some (entry a)
     ok 0 && ok 0x30010 && match (s 0x30010).distWrite 0 0x30018 8 5 with | (_, true) => true | _ => false),
    (let b : NodeBuf := ⟨0, 7, 3, 9⟩
     let nd : Node := ⟨BitVec.ofNat 1024 launchWords, BitVec.ofNat 2048 kernelWords, [], 2, [b], none⟩
     let s := ctx (fun x => { x with nodes := [(1, nd)], pages := [0] }) (gang (fun k => { k with wait := .emit }) (mapped base))
     s.serves 0 && (s.groups.any fun e => e.2.ctx == 0 && e.2.gangs.any fun k => k.wait == .emit) && (s.ctx 0).rpages == 1
       && (s.ctx 0).nodes == [(1, nd)] && (s.ctx 0).pages == [b.page])] : List Bool).all id = true := by decide +kernel

/-- Queues: each check of an entry that fails, the count word, and a record of kind 2 with its node absent, busy, empty and partly filled. -/
theorem witness_queue_checks : ([
    (let entry (r : Nat) : QEntry := ⟨0, BitVec.ofNat 1024 r, none, none, 0, 0, false, 0⟩
     let s (r : Nat) (f : State → State) : State := f (ctx (fun x => { x with entries := [entry r] }) idle)
     let st (r : Nat) (f : State → State) (q : State → Bool) : Bool := let s := s r f
       s.serves 0 && ((s.ctx 0).pendingEntry.map (·.index)) == some 0 && !s.binding 0 && !(s.ctx 0).det && !bit r 38 && !recordBad r (s.ctx 0).pmax && q s
     let kernel (k : Nat) (s : State) : State := { s with mem := Mem.writeN s.mem 0x20000 256 k }
     let read (r : Nat) (q : State → Nat → Bool) (s : State) : Bool := bits r 191 128 % 256 == 0 && match s.distRead 0 (bits r 191 128) 256 with
       | (w, some k) => q w k
       | _ => false
     let parts (r : Nat) (k : Nat) : Bool × Bool :=
       let part := bits r 95 64
       let carried := (List.range 1024).filter fun n => bit k (1024 + n)
       let largest := (rolesOf k).foldl (fun (m : Nat) x => max m x.2.2) 0
       (bits part 5 0 == 0 || decide (32 < bits part 5 0 + bits part 11 6) || bits part 31 12 != 0,
        decide (64 < carried.length) || (rolesOf k != [] && carried.any fun n => decide (largest ≤ n)))
     let good (r k : Nat) : Bool := !(parts r k).1 && !(parts r k).2
     let ok (r : Nat) (q : State → Bool) (s : State) : Bool := match s.checkRecord 0 r with | (w, .ok _ _) => q w | _ => false
     let l := launchWords
     st (l + 2 ^ 128) id (fun _ => bits (l + 2 ^ 128) 191 128 % 256 != 0)
       && st (l + 2 ^ 180) id (fun s => bits (l + 2 ^ 180) 191 128 % 256 == 0 && (s.distRead 0 (bits (l + 2 ^ 180) 191 128) 256).2 == none)
       && st (l - 2 ^ 64) id (read (l - 2 ^ 64) fun _ k => (parts (l - 2 ^ 64) k).1)
       && st l (kernel (kernelWords + 2 ^ 2047)) (read l fun _ k => !(parts l k).1 && (parts l k).2)
       && st (l + 2 ^ 256 + 2 ^ 192) id (read (l + 2 ^ 256 + 2 ^ 192) fun _ k => good (l + 2 ^ 256 + 2 ^ 192) k && bits (l + 2 ^ 256 + 2 ^ 192) 255 192 % 256 != 0)
       && st (l + 2 ^ 256 + 2 ^ 240) id (read (l + 2 ^ 256 + 2 ^ 240) fun w k => good (l + 2 ^ 256 + 2 ^ 240) k && (w.pinBank 0 (2 ^ 48) 1).2 == none)
       && st l (kernel 0) (read l fun _ k => good l k && bits l 271 256 == 0 && !rolesOk k (bits l 333 329 + 1))
       && st (l - 2 ^ 96) id (ok (l - 2 ^ 96) fun _ => bits (l - 2 ^ 96) 127 96 == 0)
       && st (l - 2 ^ 34 + 2 ^ 120) id (ok (l - 2 ^ 34 + 2 ^ 120) fun w =>
         !w.fittable (Launch.fresh 0 0 (BitVec.ofNat 1024 (l - 2 ^ 34 + 2 ^ 120)) (BitVec.ofNat 2048 kernelWords) (2 ^ 24 + 1)))
       && (let c (a : Nat) : Nat := l + a * 2 ^ 352
           st (c (2 ^ 48)) id (ok (c (2 ^ 48)) fun w => (w.distRead 0 (2 ^ 48) 4).2 == none)
             && st (c 0x30000) id (ok (c 0x30000) fun w => match w.distRead 0 0x30000 4 with | (_, some x) => min 1 x == 0 | _ => false)
             && st (c 0x30000) (fun s => { s with mem := Mem.writeN s.mem 0x30000 4 7 }) (ok (c 0x30000) fun w => match w.distRead 0 0x30000 4 with
               | (u, some x) => min 1 x == 1 && u.fittable (Launch.fresh 0 0 (BitVec.ofNat 1024 (c 0x30000)) (BitVec.ofNat 2048 kernelWords) 1)
               | _ => false))
       && (let r := l + 2 * 2 ^ 32 + 5 * 2 ^ 40
           let nd (bs : List NodeBuf) : Node := ⟨BitVec.ofNat 1024 l, BitVec.ofNat 2048 kernelWords, [], 2, bs, none⟩
           let node (bs : List NodeBuf) : State → State := ctx fun x => { x with nodes := [(5, nd bs)] }
           let busy : State → State := fun s => { s with groups := (gang (fun k => { k with emitLeft := [(1, 5)] }) base).groups }
           st r id (ok r fun w => !w.emitting 0 5 && (w.ctx 0).nodes.look 5 == none) && st r busy (ok r fun w => w.emitting 0 5)
             && st r (node []) (ok r fun w => !w.emitting 0 5 && (w.ctx 0).nodes.look 5 == some (nd []) && (w.ctx 0).nodes.rising && w.launches == [])
             && st r (node [⟨0, 7, 3, 9⟩]) (ok r fun w => !w.emitting 0 5 && (w.ctx 0).nodes.look 5 == some (nd [⟨0, 7, 3, 9⟩]))))]
    : List Bool).all id = true := by decide +kernel

/-- Teams: a team that can be bound; one asked to leave that is pinned, and quiet; one that can resume; a phase with its record. -/
theorem witness_teams : ([
    (let l : Launch := Launch.fresh 0 0 (BitVec.ofNat 1024 launchWords) (BitVec.ofNat 2048 kernelWords) 1
     let s : State := { idle with launches := [(7, l)] }
     s.launch 7 == some l && s.serves 0 && l.pclass == 1 && l.shape == 0 && s.heldLaunches.all (·.1 == 7) && !s.resumable l.prio
       && (s.place0 7 l false).isSome),
    (let s (p : Option Nat) : State := grp (fun g => { g with pmoff := p }) (team (fun x => { x with stopping := true }) (between 0x10100 (mapped base)))
     let ok (p : Option Nat) (q : State → Team → Bool) : Bool := match (s p).team 0 with
       | some x => x.residence == .resident && x.stopping && (s p).serves 0 && ((s p).launch x.launch).isSome && q (s p) x
       | none => false
     ok (some 0) (fun s x => s.pinned 0 x) && ok none fun s x => s.quiet 0 x && !s.pinned 0 x && s.allAnswered),
    (let s : State := (team (fun x => { x with stopping := true, residence := .swappedOut }) (between 0x10100 (mapped base))).modLaunch 0
       fun l => { l with record := BitVec.ofNat 1024 (launchWords + (14 + 16 * 64) * 2 ^ 64) }
     match s.team 0 with
     | some x => s.hasWork 0 x && s.heldLaunches.all (fun e => s.heldBack e.1 || e.1 == 0) && (s.resume 0).isSome
     | none => false),
    (let s : State := core (fun k => { k with phaseQ := [0] }) (grp (fun g => { g with record := some 3, stage := .betweenPhases, gangs := [] })
       ((mapped base).modLaunch 0 fun l => { l with record := BitVec.ofNat 1024 (launchWords + 31 * 2 ^ 64) }))
     let s : State := { s with mem := Mem.writeN s.mem (0x100000 + recordAt 3) 256 (0x50485243 + 2 ^ 192) }
     match s.group 0, s.launch 0, s.team 0 with
     | some g, some l, some x => (s.core 0).phaseQ == [0] && g.record == some 3 && x.residence == .resident && !x.stopping && s.serves l.ctx
         && s.groupRoom 0 l.part g.budget && (l.carry g.budget).length == 0
         && match ((s.newSerial 0).1.modCore 0 fun k => { k with phaseQ := [] }).distRead l.ctx ((s.ctx l.ctx).save + recordAt 3) 256 with
            | (w, some r) => recordGood r 0 && w.dev.poison == []
            | _ => false
     | _, _, _ => false)] : List Bool).all id = true := by decide +kernel

/-- Rounds and Halting. -/
theorem witness_rounds_halting : ([
    (let s (ended : Bool) (grants : Option (List (Nat × Nat))) (w : Wait) : State :=
       (gang (fun k => { k with wait := w }) (grp (fun g => { g with det := { g.det with ended := ended } }) (between 0x10100 (det (mapped base))))).modLaunch 0
         fun l => { l with grants := grants }
     let ok (s : State) : Bool := (s.launch 0).isSome && (s.ctx 0).det && s.serves 0 && s.groups.all fun e => e.2.det.granted == none
     ok (s false none .no) && !(s false none .no).roundOver 0 && ok (s true none (.round true)) && (s true none (.round true)).roundOver 0
       && ok (s true (some [(0, 0)]) (.round true)) && [(0, 0)].filter (s true (some [(0, 0)]) (.round true)).holdsSync == [(0, 0)]
       && (s true (some []) (.round false)).teams.all (fun e => e.2.spawns.isEmpty && (s true (some []) (.round false)).phaseLaunch e.2.core == none)
       && ok (s true (some []) (.round false)) && [].filter (s true (some []) (.round false)).holdsSync == []),
    (let s (w : Wait) (e : List (Nat × Engine)) : State := ctx (fun x => { x with line := some 1, serving := e }) (gang (fun k => { k with wait := w }) (mapped base))
     let quiet (s : State) : Bool := s.quiescent 0 0 .issue
     let b := between 0x10100 (s .stopped [(0, .issue)])
     ((s .no [(0, .issue)]).ctx 0).alive && !((s .no [(0, .issue)]).ctx 0).halted && !quiet (s .no [(0, .issue)]) && quiet b
       && (match b.distWrite 0 0x101000 64 (((b.ctx 0).recordOf 0 .issue).bits 0) with | (_, true) => true | _ => false)
       && (let x := (s .stopped []).ctx 0
           match ((s .stopped []).modCtx 0 fun y => { y with halted := true, hseq := y.hseq + 1 }).distWrite 0 x.save 32
             ({ x with halted := true, hseq := x.hseq + 1 } : Ctx).header with | (_, true) => true | _ => false)),
    (let s (n : Nat) : State := { grp (fun g => { g with pmoff := some 5 }) base with cycle := n }
     let due (s : State) : Bool := match s.group 0 with | some g => g.pmoff == some 5 && decide (5 + 2 ^ 22 ≤ s.cycle) | none => false
     due (s (5 + 2 ^ 22)) && !due (s (4 + 2 ^ 22))),
    (let s := ctx (fun x => { x with alive := false, dead := true }) base
     (s.ctx 0).dead && !s.tagged 0 && (core (fun k => { k with rq := [op .store []] }) s).tagged 0)] : List Bool).all id = true := by decide +kernel

/-- Cores of a quad in a wear state; hours of a core. -/
def worn_ (st : WearState) (s : State) : State := dev (fun d => { d with wear := [0, 1, 2, 3].map fun c => (c, { Wear.fresh with state := st }) }) s
def aged (core hours : Nat) (s : State) : State := dev (fun d => { d with wear := [(core, { Wear.fresh with hours := hours })] }) s

/-- Ageing and TestsAndHeat. -/
theorem witness_ageing : ([
    (base.ctx 0).alive && (base.launch 0).isSome && ((base.launch 0).map (·.ctx)) == some 0,
    (let s : State := { base with launches := base.launches ++ (base.launches.map fun e => (e.1 + 9, e.2)) }
     (s.ctx 0).alive && ((s.launch 0).map (·.ctx)) == some 0 && ((s.launch 9).map (·.ctx)) == some 0 && decide (4 + 6 ≤ 5 * 2)
       && decide (5 * 2 < ([(0, 0, 5), (0, 9, 6)].map fun (b : Nat × Nat × Nat) => b.2.2).sum)),
    (let s := dev (fun d => { d with retiring := [0] }) base
     s.dev.retiring.contains 0 && !s.coreIdle 0),
    (let s := worn_ .drained (dev (fun d => { d with retiring := [0] }) State.reset)
     s.dev.retiring.contains 0 && [0, 1, 2, 3].all fun i => s.coreIdle i && (s.wear i).state == .drained),
    decide (((aged 287 2879 base).wear 287).hours < 2880) && decide (2880 ≤ ((aged 287 2880 base).wear 287).hours),
    (let s (n : Nat) : State := dev (fun d => { d with testDue := [(5, (100, false))] }) (aged 5 n base)
     (s 0).dev.testDue.look 5 == some (100, false) && decide (((s 1539).wear 5).hours < 100 + 1440) && decide (100 + 1440 ≤ ((s 1540).wear 5).hours)),
    (let s (b : Bool) : State := dev (fun d => { d with tests := [⟨5, 0, 0, 0x40000, 3, b⟩] }) base
     ((s false).testOn 5 false).isSome && ((s true).testOn 5 true).isSome && !(s true).lockedFor 0x40000),
    !base.coreIdle 0, [0, 1, 2, 3].all fun i => base.coreIdle (4 * 3 + i), !wornQuad base.dev.wear 3,
    wornQuad (worn_ .derated base).dev.wear 0,
    base.ctxs.all fun e => !e.2.alive || !e.2.dead] : List Bool).all id = true := by decide +kernel

/-- Rounds: a barrier word that does not translate, and starts that are due and that are not. Ageing: what a core has served; flash that is due. TestsAndHeat:
a quad that is not the busiest, one that heat throttles. Ports: a TDI in each state while its range is zeroed. -/
theorem witness_device_more : ([
    (let o (c : Nat) : EngOp := { eop .cpyIn 0x10200 0 16 0 with ran := true, isOver := true, bar := some c }
     let s (c : Nat) : State := gang (fun k => { k with wait := .round true }) (grp (fun g => { g with det := { g.det with ended := true } })
       (between 0x10100 (working (o c) (det (mapped base)))))
     ((s (2 ^ 56)).launch 0).isSome && ((s (2 ^ 56)).ctx 0).det && (s (2 ^ 56)).serves 0 && (s (2 ^ 56)).roundOver 0 && ((s (2 ^ 56)).barFault 0).isSome
       && (s 0x10300).roundOver 0 && ((s 0x10300).barFault 0).isNone),
    (let s : State := (det (mapped base)).modLaunch 0 fun l => { l with grants := some [] }
     !s.startsDue 0 && s.teams.all fun e => e.2.spawns.isEmpty && s.team e.1 == some e.2 && s.phaseLaunch e.2.core == none),
    (let sp : Spawn := ⟨[⟨7, [1], [2]⟩], 0, 0, 0x10200, 16, 0, .team 0 3, .team 0 4⟩
     let s : State := (team (fun t => { t with spawns := [sp], residence := .swappedOut, stopping := true }) (det (mapped base))).modLaunch 0
       fun l => { l with grants := some [], record := BitVec.ofNat 1024 (63 * 2 ^ 64) }
     s.startsDue 0 && s.teams.all fun e => e.2.residence != .resident && s.team e.1 == some e.2 && s.phaseLaunch e.2.core == none),
    (let s := core (fun k => { k with served := [(0, 0)] }) base
     (s.servedBy 0).contains (0, 0) && !(s.servedBy 0).contains (0, 9) && !(base.servedBy 1).contains (0, 0)),
    ((aged 5 6 base).flashDue && !(aged 5 5 base).flashDue),
    (let s := dev (fun d => { d with load := [(4, 9)], throttled := [2] }) base
     decide (s.quadLoad 0 < s.quadLoad 1) && decide ((s.dev.islands.getD 1 0).toNat < 5) && s.dev.throttled.contains 2
       && (List.range 72).all fun r => decide (s.quadLoad r ≤ s.quadLoad 1)),
    (let s (t : Tdi) : State := dev (fun d => { d with tdis := [(16, t)] }) (ctx (fun x => { x with zeroing := true, vf := 16, base := 2 ^ 30, size := 2 ^ 30 }) base)
     (s .error).tdi 16 == .error && (s .run).tdi 16 == .run && ((s .run).ctx 0).zeroing && !((s .run).ctx 0).dead && (s .run).dir == [] && Memory.wf (s .run).mem
       && !((s .error).modCtx 0 fun x => { Ctx.fresh with gen := x.gen }).zeroingVf 16)] : List Bool).all id = true := by decide +kernel

/-- Resets: no bank, a lost supply, one that is up. That a bank is accepted rests on the part's cryptography, which is no number of the
model (log 6): with two banks that it accepts, both images are found. -/
theorem witness_resets : ([
    ({ Device.reset with banks := [] } : Device).chooseBank 1 == none, (dev (fun d => { d with boot := 0 }) State.reset).dev.boot == 0,
    State.reset.dev.boot != 0 && !State.reset.dev.lost] : List Bool).all id = true := by decide +kernel
theorem witness_banks (a b : Bank) (lost : Bool) (ha : a.accepted 1 0 = true) (hb : b.accepted 2 0 = true) :
    (∃ x, ({ Device.reset with banks := [a, a, b, b], lost := lost } : Device).chooseBank 1 = some x)
    ∧ ∃ x, ({ Device.reset with banks := [a, a, b, b], lost := lost } : Device).chooseBank 2 = some x := by
  simp [Device.chooseBank, Device.reset, Flash.fresh, ha, hb]

/-- A context's record whose tables map the first 16 GiB to themselves, and the state in which it can be created. -/
def newRecord : BitVec 512 := 0x40000#512 ||| (4#512 <<< 160) ||| (0x100000#512 <<< 192)
def tables : State := { State.reset with mem := [(0x40000, 1), (0x40001, 0x80), (0x40002, 4), (0x48000, 15)] }
def created (s : State) : State :=
  (s.submit 0 1 0 (Config.createArgs newRecord 0 0 0 false)).fresh.1.modCtx 0 fun _ => { Ctx.fresh with alive := true, record := newRecord, pasid := Config.pasid s.nextUid }
/-- The same after the walk's first entry has been read, and after its second. -/
def hop1 : State := ((created tables).homeRead 0x40000 8).1
def hop2 : State := (hop1.homeRead 0x48000 8).1

set_option exponentiation.threshold 600 in
theorem created_maps (va : Nat) (h : va < 2 ^ 34) : ((created tables).distTranslate 0 va true).2.isSome = true := by
  have h1 : (created tables).homeRead 0x40000 8 = (hop1, 0x48001) := Prod.ext rfl (by decide +kernel)
  have h2 : hop1.homeRead 0x48000 8 = (hop2, 15) := Prod.ext rfl (by decide +kernel)
  have p1 : hop1.bad 0x40000 = false := by decide +kernel
  have p2 : hop2.bad 0x48000 = false := by decide +kernel
  have b1 : bits va 56 45 = 0 := by simp only [bits]; omega
  have b2 : bits va 44 34 = 0 := by simp only [bits]; omega
  have r1 : readEntry hop1 0 va 4 0x48001 = .ok (.inr 0x48000) := by rfl
  have r2 : readEntry hop2 0 va 3 15 = .ok (.inl (.ok ⟨0, va / 2 ^ 34 * 2 ^ 34, 2 ^ 34, 0, false, true, true⟩)) := by rfl
  have c : canonical va = true := by simp only [canonical, decide_eq_true_eq]; omega
  have x : ((created tables).ctx 0).root = 0x40000 := by decide +kernel
  have y : ((created tables).ctx 0).conf = false := by decide +kernel
  simp [State.distTranslate, c, State.walkRoot, x, y, walkTables, levelLow, levelBits, b1, b2, h1, h2, p1, p2, r1, r2, TlbEntry.check]

/-- HostCommands, creation: a record that is good, tables that map its save area, and tables that do not. -/
theorem witness_created : (created tables).saveMapped 0 0x100000 = true := by
  simp only [State.saveMapped, List.all_eq_true, List.mem_range]
  exact fun i hi => created_maps _ (by omega)
theorem witness_create : ([
    ctxRecordBad (newRecord ||| (1#512 <<< 511)).toNat, !ctxRecordBad newRecord.toNat, !bit newRecord.toNat 170, !bit newRecord.toNat 169,
    (let x := tables.ctx 0
     !x.alive && !x.dead && !x.zeroing && x.gen == 0),
    !(created State.reset).saveMapped 0 0x100000, tables.dev.boot == 6, !tables.dev.tripped] : List Bool).all id = true := by decide +kernel

/-- HostCommands. -/
theorem witness_commands : ([
    base.dev.boot == 6 && !base.dev.tripped, base.mayName 0 0 true && !(base.ctx 0).dead, !base.mayName 5 0 true,
    !(base.mayName 0 0 false && (base.ctx 0).halted),
    (let s := ctx (fun x => { x with halted := true, line := some 1 }) base
     s.mayName 0 0 false && (s.ctx 0).halted),
    decide (base.dev.queue.length < 256) && base.dev.heldNotices == [] && base.dev.heldEvents == [] && base.dev.lostEvents == 0,
    (let ringed (code c : Nat) (args : List Byte) : State :=
       { base with dev := { Device.reset with rings := [(0, ⟨1, 0, [(0, freshEntry code c args)]⟩)] } }
     let e (s : State) : BitVec 512 := (s.ringOf 0).entries.getD ((s.ringOf 0).head % ringEntries 0) 0
     [ringed 10 0 [], ringed 9 0 [], ringed 2 5 [], ringed 2 0 [], ringed 2 0 [1], ringed 7 0 [3, 4]].all (fun s =>
         decide ((s.ringOf 0).head < (s.ringOf 0).tail))
       && entryCode (e (ringed 10 0 [])) == 10 && entryCode (e (ringed 9 0 [])) == 9 && entryCtx (e (ringed 2 5 [])) == 5
       && entryCode (e (ringed 2 0 [])) == 2 && entryCtx (e (ringed 2 0 [])) == 0 && entryArgs (e (ringed 2 0 [])) == argBytes []
       && (ringed 2 0 []).mayName 0 0 true && !((ringed 2 0 []).ctx 0).dead && entryArgs (e (ringed 2 0 [1])) != argBytes []
       && entryCode (e (ringed 7 0 [3, 4])) == 7 && entryArgs (e (ringed 7 0 [3, 4])) != argBytes [3, 5]),
    decide ((base.ringOf 0).tail ≤ (base.ringOf 0).head) && decide ((base.ringOf 16).tail ≤ (base.ringOf 16).head),
    (let s := ctx (fun x => { x with halted := true, line := some 1 }) (mapped base)
     let u := (s.submit 0 3 0 []).modCtx 0 fun x => { x with line := none, halted := false, serving := [], reports := [] }
     s.mayName 0 0 false && (u.distWrite 0 (u.ctx 0).save 32 (u.ctx 0).header).2),
    (let s := core (fun k => { k with rq := [op (.load false) [pc 0x103FC 4 0]] }) base
     s.translatedInFlight (invRange (some 0) 0x10000 0x10000) && !s.translatedInFlight (invRange (some 0) 0x20000 0x10000)),
    (let s : State := { tables with mem := Mem.writeN (Mem.writeN (Mem.writeN tables.mem 0x48000 8 0x50001) 0x50000 8 0x58001) 0x58000 8 15 }
     let s := created s
     s.mayName 0 0 false && canonical 0x1FFFFF && match leafOf (s.submit 0 6 0 (argWords [0x1FFFFF, 0x200000])) 0 0x1FFFFF 4 (s.ctx 0).root with
       | some (a, _, tl) => a == 0x58000 && tl.size == 2 ^ 21 && s.mayMigrate 0 tl 0x200000
       | none => false)] : List Bool).all id = true := by decide +kernel

/-- Ports. -/
theorem witness_ports : ([
    (let m (b : Bool) : Migration := ⟨0, 0, 2 ^ 21, 0x400000, 0x200000, b, []⟩
     let t : State := created { tables with mem := Mem.writeN (Mem.writeN (Mem.writeN tables.mem 0x48000 8 0x50001) 0x50000 8 0x58001) 0x58000 8 0x40000F }
     let s (b : Bool) : State := { t with migrations := [m b] }
     let w : State := (s true).modCore 0 fun k => { k with rq := [op .store [pc 0x5FFFFC 4 0]] }
     let v := ((s false).recallRange 0x400000 (2 ^ 21)).recallRange 0x200000 (2 ^ 21)
     let u := ({ v with mem := (m false).copy v.mem }.moveTimes (m false)).follow (m false)
     (s false).dir == [] && (s false).monitors == [] && Memory.wf (s false).mem && !overlap 0x400000 (2 ^ 21) 0x200000 (2 ^ 21)
       && ((s true).cores.all fun e => e.2.rq == [] && e.2.wk == []) && overlap 0x5FFFFC 4 0x400000 (2 ^ 21)
       && (w.cores.all fun e => e.2.rq.all fun o => o.waiting == [pc 0x5FFFFC 4 0])
       && match leafOf u 0 0 4 (u.ctx 0).root with
         | some (a, e, tl) => a == 0x58000 && e == 0x40000F && tl.pa == 0x400000
         | none => false),
    (let s (t : Tdi) : State := dev (fun d => { d with tdis := [(16, t)] }) (ctx (fun x => { x with vf := 16, record := x.record ||| (1#512 <<< 170) }) base)
     (s .locked).tdisp 16 && (s .unlocked).tdi 16 == .unlocked && (s .locked).tdi 16 == .locked && ((s .locked).ctx 0).conf && ((s .locked).ctx 0).alive
       && ((s .locked).ctx 0).vf == 16 && !((s .locked).ctx 0).dead && (s .run).tdi 16 == .run && (s .error).tdi 16 == .error
       && !(s .run).tdisp 0 && !(s .run).tdisp 17 && (s .locked).ctxs.all (fun e => e.2.vf != 15)),
    (let s := ctx (fun x => { x with zeroing := true, base := 2 ^ 30, size := 2 ^ 30 }) base
     (s.ctx 0).zeroing && !(s.ctx 0).dead && s.dir == [] && Memory.wf s.mem
       && !(s.modCtx 0 fun x => { Ctx.fresh with gen := x.gen }).zeroingVf (s.ctx 0).vf),
    (let s (n : Nat) : State := dev (fun d => { d with links := [(15, ⟨true, n, true⟩)] }) base
     ((s 7).skein 15).up && decide (((s 7).skein 15).failures < 8) && decide (8 ≤ ((s 8).skein 15).failures) && ((s 8).skein 15).up)]
    : List Bool).all id = true := by decide +kernel

/-- HostAnswers: a read and a write that wait for a page, and none; a page request that is out; a request on its way; the port up and not up.
-/
theorem witness_answers : ([
    (let y (k : OpKind) (w b : Bool) : YOp := ⟨op k [pc 0x200000 4 0], w, none, b, 0, false⟩
     let s (k : OpKind) (w b : Bool) : State := core (fun k' => { k' with yq := [y k w b] }) base
     let rd := s (.load false) false
     let wr := s .store true
     let asked := dev (fun d => { d with priPages := [(0, 0x200)] }) (rd true)
     let busy (s : State) : Bool := s.cores.any fun e => e.2.yq.any fun y => !y.ats && y.op.ctx == 0 && y.onPage 0x200
     !base.atsLacks 0 0x200 && (rd true).atsLacks 0 0x200 && (wr true).atsLacks 0 0x200 && (y .store true true).waitsFor 0 0x200
       && (y .store true true).writes && !(y (.load false) false true).writes && !(rd true).dev.priPages.contains (0, 0x200)
       && (asked.cores.any fun e => e.2.yq.any fun y => y.waitsFor 0 0x200) && asked.dev.priPages.contains (0, 0x200) && (asked.ctx 0).alive
       && (asked.ctx 0).line == none && busy (rd false) && !busy (rd true)),
    base.dev.boot == 6 && (dev (fun d => { d with boot := 0xE0 }) base).dev.boot != 6] : List Bool).all id = true := by decide +kernel

/-- StepRunsDecoded: the turn of a port, an event's and a tick's; no clock; a word in the instruction cache and one that is not. -/
theorem witness_step : ([
    (let i : Instr := .iadd ⟨false, 1, .reg 2, .reg 3, all⟩
     let s := State.reset.withFetchWord 64 ((encode i).getD 0).toNat
     let u : State := { s.takeTurn.2 with cycle := s.cycle + 1 }
     s.clocked && s.takeTurn.1 == .issue 0 0 && match u.holder 0 0 with
       | none => false
       | some (gid, g, x, k) => match k.clause with
         | none => false
         | some c =>
           let w := c.words.getD c.slot 0
           k.walking == none && !(u.ctx g.ctx).halted && !u.awaitsPage g x k && c.words != [] && wordClass w == c.header.cls
             && (match decode w with | .ok j => j == i | .error _ => false) && !i.endsClause && ({ u with focus := some (gid, k.id) } : State).view.isSome),
    (let s (b : Bool) : State := { State.reset with agenda := [.tick 5], dev := { Device.reset with tripped := b } }
     (s false).clocked && !(s true).clocked && (s true).takeTurn.1 == .tick 5 && !unclocked (.tick 5)),
    (let s (z : List (Nat × Nat × Dword)) : State := core (fun k => { k with icache := z }) base
     let held (s : State) : Bool := ((s.core 0).icache.find? fun e => e.1 == 0 && e.2.1 == 0x10100).isSome
     canonical 0x10100 && held (s [(0, 0x10100, 7)]) && !held (s []) && match tlbFind (base.core 0).tlb 0 0x10100 with
       | some e => !e.host && e.x && !((s []).homeRead (e.pa + (0x10100 - e.va)) 8).1.bad (e.pa + (0x10100 - e.va))
       | none => false),
    (let s : State := { State.reset with agenda := [.event (.ptsTick 0)] }
     s.takeTurn.1 == .event (.ptsTick 0) && (Instr.ptsTick 0).isEvent),
    (({ State.reset with agenda := [.tick 5] } : State).takeTurn.1 == .tick 5)] : List Bool).all id = true := by decide +kernel

/-- StepKeepsMemory, RoundTrip and IssueChecks. -/
theorem witness_checks : ([
    State.reset.memoryWf && (match step base with | .next _ => true | _ => false), (Instr.nop false all).wf,
    (match decode 0x00400802006001C0 with | .ok _ => true | .error _ => false), State.reset.view.isNone,
    (let i : Instr := .iadd ⟨false, 1, .reg 1023, .reg 3, all⟩
     let v (s : State) (q : View → Bool) : Bool := match s.view with
       | some v => !i.isEvent && q v
       | none => false
     let live (v : View) : Bool := v.x.alive && !v.x.halted && !v.roundHolds i && !v.fenceHolds i
     v (ctx (fun x => { x with halted := true }) (at_ i)) (·.x.halted) && v (grp (fun g => { g with overrun := true }) (at_ i)) (fun v => live v && v.g.overrun)
       && v (grp (fun g => { g with budget := 16 }) (at_ i)) (fun v => live v && !v.g.overrun && !operandsOk v.g v.c i && v.k.fence == none)),
    (let i : Instr := .iadd ⟨false, 16, .reg 2, .reg 3, all⟩
     let s := quad (fun q => { q with sets := [⟨0, 1, 0, 1, 0, [(0, ⟨0, 16, 3⟩)]⟩], table := [request 1 0 0] }) (at_ i)
     match s.view with
     | some v => v.x.alive && !v.x.halted && !v.roundHolds i && !v.fenceHolds i && !v.g.overrun && operandsOk v.g v.c i && s.spanHeld v i
     | none => false),
    (let i : Instr := .gath (.reg 2) 1 all
     let ok (s : State) (q : View → Bool) : Bool := match s.view with
       | some v => v.x.alive && !v.x.halted && !v.roundHolds i && !v.fenceHolds i && !v.g.overrun && operandsOk v.g v.c i && q v
       | none => false
     ok (sl (fun x => { x with sb := [(1, 63)] }) (at_ i)) (fun v => sbNamed i == some 1 && v.sbFull 1)
       && ok (coming 31 (at_ i)) fun v => ((coming 31 (at_ i)).core v.t.core).storing v.g.team (v.descRange i))] : List Bool).all id = true := by decide +kernel

end Sys2Proof.Tests
end

section
/-! SUPPORT. Resets: what bring-up loads, what each reset keeps, and the obligations about them (R4, R120, R123, R176, R208, R209, R214, R217,
R228, R229). -/
namespace Sys2Proof.Machine

/-! ### Tables that are built by a fold or a map -/

/-- Every key that a fold lists has an entry of the kind that the fold puts, whatever the later puts are. -/
theorem Tab.foldl_put_listed {α : Type} {P : α → Prop} (f : Tab α → Nat → α) (hf : ∀ t k, P (f t k)) (ns : List Nat) :
    ∀ (t : Tab α) (n : Nat), (n ∈ ns ∨ ∃ v, t.look n = some v ∧ P v) →
      ∃ v, (ns.foldl (fun t k => t.put k (f t k)) t).look n = some v ∧ P v := by
  induction ns with
  | nil => intro t n h; simpa using h
  | cons k ns ih =>
    intro t n h
    refine ih (t.put k (f t k)) n ?_
    by_cases hn : n = k
    · subst hn
      exact .inr ⟨_, Tab.look_put_same t n _, hf t n⟩
    · rw [Tab.look_put_other t _ hn]
      simpa [hn] using h

theorem Tab.look_map_const {α : Type} (v : α) {n : Nat} {ns : List Nat} (h : n ∈ ns) :
    Tab.look (ns.map fun k => (k, v)) n = some v := by
  induction ns with
  | nil => cases h
  | cons k ns ih =>
    by_cases hk : k = n
    · simp [Tab.look, hk]
    · have hn : n ∈ ns := (List.mem_cons.mp h).resolve_left (Ne.symm hk)
      simpa [Tab.look, hk] using ih hn

theorem Tab.look_map_entries {α : Type} (t : Tab α) (f : α → α) (n : Nat) :
    Tab.look (t.map fun e => (e.1, f e.2)) n = (t.look n).map f := by
  simpa using Tab.look_map t (fun _ => true) f n

/-! ### Notices -/

/-- A notice takes the next posting number; it touches nothing but the two queues of notices (R176). -/
theorem State.postNotice_eq (s : State) (kind ctx : Nat) (arg : BitVec 128) :
    ∃ queue held, s.postNotice kind ctx arg
      = { s with dev := { s.dev with nseq := s.dev.nseq + 1, queue := queue, heldNotices := held } } := by
  unfold State.postNotice
  dsimp only
  split
  · exact ⟨_, _, rfl⟩
  · exact ⟨_, _, rfl⟩

/-! ### What bring-up loads -/

/-- What bring-up adds to the record of one core after a loss of power (R209): the body of the fold of `Flash.loadWear`. -/
def Flash.addLoss (f : Flash) (t : Tab Wear) (c : Nat) : Tab Wear :=
  let a := 6 * f.accel.getD c 0
  if a = 0 then t else t.put c { t.getD c Wear.fresh with cwu := (t.getD c Wear.fresh).cwu + a }.predict

theorem Flash.loadWear_lost (f : Flash) : f.loadWear true = (List.range 288).foldl f.addLoss f.wear := rfl

theorem Flash.addLoss_cwu_same (f : Flash) (t : Tab Wear) (c : Nat) :
    ((f.addLoss t c).getD c Wear.fresh).cwu = (t.getD c Wear.fresh).cwu + 6 * f.accel.getD c 0 := by
  unfold Flash.addLoss
  dsimp only
  split
  · rename_i h0; rw [h0, Nat.add_zero]
  · rw [Tab.getD, Tab.look_put_same, Option.getD_some, Wear.predict]

theorem Flash.addLoss_getD_other (f : Flash) (t : Tab Wear) {c n : Nat} (h : n ≠ c) (d : Wear) :
    (f.addLoss t c).getD n d = t.getD n d := by
  unfold Flash.addLoss
  dsimp only
  split
  · rfl
  · rw [Tab.getD, Tab.look_put_other t _ h, Tab.getD]

theorem Flash.foldl_addLoss_getD_other (f : Flash) {n : Nat} (d : Wear) (ns : List Nat) :
    ∀ t : Tab Wear, n ∉ ns → (ns.foldl f.addLoss t).getD n d = t.getD n d := by
  induction ns with
  | nil => intros; rfl
  | cons c ns ih =>
    intro t h
    obtain ⟨hc, hns⟩ := List.ne_and_not_mem_of_not_mem_cons h
    rw [List.foldl_cons, ih _ hns, f.addLoss_getD_other t hc]

/-- A core that is listed once is charged once. -/
theorem Flash.foldl_addLoss_cwu (f : Flash) {n : Nat} (ns : List Nat) :
    ∀ t : Tab Wear, ns.Nodup → n ∈ ns →
      ((ns.foldl f.addLoss t).getD n Wear.fresh).cwu = (t.getD n Wear.fresh).cwu + 6 * f.accel.getD n 0 := by
  induction ns with
  | nil => intro t _ h; cases h
  | cons c ns ih =>
    intro t hd h
    obtain ⟨hc, hns⟩ := List.nodup_cons.mp hd
    rw [List.foldl_cons]
    by_cases hn : n = c
    · subst hn
      rw [f.foldl_addLoss_getD_other _ ns _ hc, f.addLoss_cwu_same]
    · rw [ih _ hns ((List.mem_cons.mp h).resolve_left hn), f.addLoss_getD_other t hn]

theorem Flash.loadWear_lost_cwu (f : Flash) {n : Nat} (h : n < 288) :
    ((f.loadWear true).getD n Wear.fresh).cwu = (f.wear.getD n Wear.fresh).cwu + 6 * f.accel.getD n 0 := by
  rw [f.loadWear_lost]
  exact f.foldl_addLoss_cwu _ _ List.nodup_range (List.mem_range.mpr h)

theorem reinstate_pinned {pins : List Nat} {n : Nat} (h : n ∈ pins) :
    ((reinstate pins).getD n DirEntry.fresh).pinned.isSome = true := by
  have hl : ∃ e, (reinstate pins).look n = some e ∧ e.pinned.isSome = true := by
    refine Tab.foldl_put_listed (P := fun e : DirEntry => e.pinned.isSome = true) _ ?_ pins [] n (.inl h)
    exact fun _ _ => rfl
  obtain ⟨e, he, hp⟩ := hl
  rw [Tab.getD, he, Option.getD_some]
  exact hp

theorem wornIslands_getD {wear : Tab Wear} {q : Nat} (hq : q < 72) (hw : wornQuad wear q = true) :
    (wornIslands wear).getD q 0 = 1 := by
  have hm : q ∈ (List.range 72).filter (wornQuad wear) := List.mem_filter.mpr ⟨List.mem_range.mpr hq, hw⟩
  rw [wornIslands, Tab.getD, Tab.look_map_const 1 hm, Option.getD_some]

/-! ### The device after bring-up -/

theorem Device.loadWear_kept {d : Device} (h : d.lost = false) : d.loadWear = d.wear := by
  simp [Device.loadWear, h]

theorem Device.loadWear_lost {d : Device} (h : d.lost = true) : d.loadWear = d.flash.loadWear true := by
  simp [Device.loadWear, h]

/-- With an accepted bank of each image the device is ready, with the map and the records of flash (R209, R214, R228). -/
theorem Device.bringUp_accepted {d : Device} {a b : Nat × Nat} (ha : d.chooseBank 1 = some a) (hb : d.chooseBank 2 = some b) :
    d.bringUp = { Device.reset with
      boot := 6, lost := false, queue := [], nseq := 0
      banks := d.banks, testDue := d.testDue, flashErrs := d.flashErrs, charged := d.charged, cxl := d.cxl
      flash := { d.flash.booted a b with wear := if d.lost then d.loadWear else d.flash.wear }
      map := d.flash.map, mapno := d.flash.mapno, replacement := d.flash.replacement
      wear := d.loadWear, islands := wornIslands d.loadWear
      dieErrs := if d.lost then d.flash.dieErrs else d.dieErrs
      corrected := if d.lost then d.flash.corrected else d.corrected } := by
  rw [Device.bringUp, ha, hb]
  rfl

/-- Without one, bring-up stops, and no supply that was lost has been made up for (R228, R229). -/
theorem Device.bringUp_stopped {d : Device} (h : d.chooseBank 1 = none ∨ d.chooseBank 2 = none) :
    d.bringUp = { Device.reset with
      boot := 0xE0, lost := d.lost, banks := d.banks, flash := d.flash, cxl := d.cxl, wear := d.wear, testDue := d.testDue
      dieErrs := d.dieErrs, corrected := d.corrected, flashErrs := d.flashErrs, charged := d.charged } := by
  unfold Device.bringUp
  split
  · rename_i ha hb
    rcases h with h | h
    · rw [h] at ha; cases ha
    · rw [h] at hb; cases hb
  · rfl

/-- While the supply lasts, the wear records go through bring-up as they are, whether or not it stops. -/
theorem Device.bringUp_wear {d : Device} (h : d.lost = false) : d.bringUp.wear = d.wear := by
  unfold Device.bringUp
  split
  · exact Device.loadWear_kept h
  · rfl

/-! ### The resets -/

theorem exec_coldReset (s : State) : exec .coldReset s = .next s.coldReset := rfl

theorem exec_warmReset (s : State) : exec .warmReset s = .next s.warmReset := rfl

theorem exec_powerLoss (s : State) : exec .powerLoss s = .next s.powerLoss := rfl

theorem exec_dieReset (die : Nat) (s : State) : exec (.dieReset die) s = .next (s.dieReset die) := rfl

theorem State.coldReset_dev (s : State) : s.coldReset.dev = s.dev.bringUp := rfl

theorem State.coldReset_pinned (s : State) {n : Nat} (h : n ∈ s.dev.flash.pins) : (s.coldReset.line n).pinned.isSome = true :=
  reinstate_pinned h

/-- After a loss of power the records are those of flash, each with the accrual of 60 s (R209). -/
theorem State.coldReset_cwu_lost (s : State) {a b : Nat × Nat} (ha : s.dev.chooseBank 1 = some a) (hb : s.dev.chooseBank 2 = some b)
    (hl : s.dev.lost = true) {n : Nat} (hn : n < 288) :
    (s.coldReset.wear n).cwu = (s.dev.flash.wear.getD n Wear.fresh).cwu + 6 * s.dev.flash.accel.getD n 0 := by
  have hw : s.coldReset.dev.wear = s.dev.flash.loadWear true := by
    rw [s.coldReset_dev, Device.bringUp_accepted ha hb]
    exact Device.loadWear_lost hl
  rw [State.wear, hw]
  exact s.dev.flash.loadWear_lost_cwu hn

theorem State.warmReset_off {s : State} (h : s.dev.boot = 0) : s.warmReset = s := by
  simp [State.warmReset, h]

theorem State.warmReset_on {s : State} (h : s.dev.boot ≠ 0) :
    s.warmReset = { s.coldReset with
      cycle := s.cycle
      cores := s.cores.map fun (e : Nat × Core) => (e.1, { Core.fresh with pts := e.2.pts, ticks := e.2.ticks, seen := e.2.seen })
      dev := { s.coldReset.dev with agents := s.dev.agents, nseq := s.dev.nseq } } := by
  simp [State.warmReset, h]

/-- Logical time goes on over a warm reset (R123). -/
theorem State.warmReset_pts {s : State} (h : s.dev.boot ≠ 0) (n : Nat) : (s.warmReset.core n).pts = (s.core n).pts := by
  rw [State.warmReset_on h, State.core, State.core, Tab.getD, Tab.getD,
    Tab.look_map_entries s.cores fun k => { Core.fresh with pts := k.pts, ticks := k.ticks, seen := k.seen }]
  cases s.cores.look n with
  | none => rfl
  | some k => rfl

/-- The translations of a die's cores and quads are dropped, and one notice is posted. -/
theorem State.dieReset_eq (s : State) {die : Nat} (h : die < 4) :
    ∃ queue held, s.dieReset die = { s with
      cores := s.cores.map fun (e : Nat × Core) => if e.1 / 72 == die then (e.1, { e.2 with tlb := [] }) else e
      quads := s.quads.map fun (e : Nat × Quad) => if e.1 / 18 == die then (e.1, { e.2 with tlb := [], walkc := [] }) else e
      dev := { s.dev with nseq := s.dev.nseq + 1, queue := queue, heldNotices := held } } := by
  rw [State.dieReset, if_neg (by omega)]
  exact State.postNotice_eq _ _ _ _

theorem State.dieReset_core_tlb (s : State) {die n : Nat} (h : die < 4) (hn : n / 72 = die) :
    ((s.dieReset die).core n).tlb = [] := by
  obtain ⟨queue, held, e⟩ := s.dieReset_eq h
  rw [e, State.core, Tab.getD, Tab.look_map s.cores (· / 72 == die) fun k => { k with tlb := [] }]
  cases s.cores.look n with
  | none => rfl
  | some k => simp [hn]

theorem State.dieReset_quad_tlb (s : State) {die q : Nat} (h : die < 4) (hq : q / 18 = die) :
    ((s.dieReset die).quad q).tlb = [] := by
  obtain ⟨queue, held, e⟩ := s.dieReset_eq h
  rw [e, State.quad, Tab.getD, Tab.look_map s.quads (· / 18 == die) fun k => { k with tlb := [], walkc := [] }]
  cases s.quads.look q with
  | none => rfl
  | some k => simp [hq]

theorem Device.shippedMap_getD {n : Nat} (h : n < 64) : Device.shippedMap.getD n none = some (18 * (n / 16) + n % 16) := by
  simp [Device.shippedMap, List.getD, h]

/-! ### The obligations -/

/-- Settles O49: the fields that bring-up loads by the equations of `Device.bringUp`, every other by the definition of its reset. -/
theorem resets : Obligations.Resets := by
  intro s
  refine ⟨?accepted, ?stopped, ?off, ?warm, ?power, ?die⟩
  case accepted =>
    intro a b ha hb
    have hd : s.coldReset.dev = _ := s.coldReset_dev.trans (Device.bringUp_accepted ha hb)
    refine ⟨s.coldReset, exec_coldReset s, rfl, rfl, rfl, rfl, rfl, rfl, rfl, rfl, ?boot, ?map, ?mapno, ?queue, ?nseq, rfl,
      fun n hn => s.coldReset_pinned hn, ?lost, ?islands, ?wear, ?flash⟩
    case boot | map | mapno | queue | nseq | lost => rw [hd]
    case islands =>
      rw [hd]
      exact fun q hq hw => wornIslands_getD hq hw
    case wear =>
      rw [hd]
      exact fun hl => Device.loadWear_kept hl
    case flash =>
      intro hl
      refine ⟨?_, fun n hn => s.coldReset_cwu_lost ha hb hl hn⟩
      rw [hd]
      exact if_pos hl
  case stopped =>
    intro h
    refine ⟨s.coldReset, exec_coldReset s, ?_, ?_⟩
    all_goals rw [s.coldReset_dev, Device.bringUp_stopped h]
  case off =>
    intro h
    rw [exec_warmReset, State.warmReset_off h]
  case warm =>
    intro hb hl
    refine ⟨s.warmReset, exec_warmReset s, ?mem, ?groups, ?ctxs, ?cycle, ?wear, ?nseq, State.warmReset_pts hb⟩
    all_goals rw [State.warmReset_on hb]
    case wear => exact Device.bringUp_wear hl
    case mem | groups | ctxs => rfl
  case power => exact ⟨s.powerLoss, exec_powerLoss s, rfl, rfl, rfl, rfl, rfl, rfl, rfl, rfl⟩
  case die =>
    intro die h
    refine ⟨s.dieReset die, exec_dieReset die s, ?_, ?_, ?_, fun n hn => s.dieReset_core_tlb h hn, fun q hq => s.dieReset_quad_tlb h hq⟩
    all_goals
      obtain ⟨queue, held, e⟩ := s.dieReset_eq h
      rw [e]

/-- Settles O55: every field as `State.reset` writes it, the map through `Device.shippedMap_getD`. -/
theorem resetValues : Obligations.ResetValues :=
  ⟨rfl, fun _ => rfl, fun _ => rfl, fun _ => ⟨rfl, rfl⟩, fun _ => rfl, fun _ => rfl, fun _ => rfl, rfl, fun _ => rfl, fun _ => rfl, rfl,
    rfl, rfl, rfl, rfl, rfl, fun _ h => Device.shippedMap_getD h⟩

end Sys2Proof.Machine
end

section
/-! SUPPORT. What comes before an instruction's own effect (R60, R141, R187, R197, R198, R246, R262, R291). -/
namespace Sys2Proof.Machine

/-- The meaning of every instruction is one issue of it: only the own effect is the instruction's. An event is none, and its case is void. -/
theorem exec_eq_issue {i : Instr} (h : i.isEvent = false) (s : State) : ∃ body, exec i s = issue i s body := by
  cases i <;> cases h
  all_goals exact ⟨_, rfl⟩

theorem issue_none (i : Instr) {s : State} (h : s.view = none) (body : View → State → Res) :
    issue i s body = .fault .noIssuingGang := by
  simp only [issue, h]

theorem issue_some (i : Instr) {s : State} {v : View} (h : s.view = some v) (body : View → State → Res) :
    issue i s body = .next (s.issueIn v i body) := by
  simp only [issue, h]

/-- Nothing issues in a context that is dead or halted. -/
theorem State.issueIn_stopped (s : State) {v : View} (h : v.x.alive = false ∨ v.x.halted = true) (i : Instr)
    (body : View → State → Res) : s.issueIn v i body = s := by
  have hs : (!v.x.alive || v.x.halted) = true := by simpa using h
  simp only [State.issueIn, hs, if_true]

/-- The order of the checks once the context runs and neither a round nor a fence holds the gang: the watchdog, the operands, then what
makes the gang wait. -/
theorem State.issueIn_running (s : State) {v : View} {i : Instr} (ha : v.x.alive = true) (hh : v.x.halted = false)
    (hr : v.roundHolds i = false) (hf : v.fenceHolds i = false) (body : View → State → Res) :
    (v.g.overrun = true → s.issueIn v i body
      = (s.modGroup v.gid fun g => { g with overrun := false, pmoff := none }).haltGang v i 0x07 0)
    ∧ (v.g.overrun = false → operandsOk v.g v.c i = false → s.issueIn v i body = s.finish s v i (.halt 0x04 0))
    ∧ (v.g.overrun = false → operandsOk v.g v.c i = true →
      (s.spanHeld v i = true ∨ (sbNamed i).any v.sbFull = true ∨ (s.core v.t.core).storing v.g.team (v.descRange i) = true) →
      s.issueIn v i body = s) := by
  refine ⟨fun ho => ?_, fun ho hp => ?_, fun ho hp hw => ?_⟩
  · simp [State.issueIn, ha, hh, hr, hf, ho]
  · simp [State.issueIn, ha, hh, hr, hf, ho, hp]
  · rcases hw with hw | hw | hw
    all_goals simp [State.issueIn, ha, hh, hr, hf, ho, hp, hw]

/-- Settles O58: an instruction's meaning is an issue of it, whose checks come in the order of `State.issueIn`. -/
theorem issueChecks : Obligations.IssueChecks := by
  intro i s hi
  obtain ⟨body, he⟩ := exec_eq_issue hi s
  rw [he]
  refine ⟨fun hn => issue_none i hn body, fun v hv => ?_⟩
  rw [issue_some i hv]
  refine ⟨fun hd => by rw [s.issueIn_stopped hd], fun ha hh hr hf => ?_⟩
  obtain ⟨watchdog, operands, waits⟩ := s.issueIn_running ha hh hr hf body
  refine ⟨fun ho => by rw [watchdog ho], fun ho hp hk => ?_, fun ho hp hw => ?_⟩
  · simp [operands ho hp, State.finish, hk]
  · rw [waits ho hp (by simpa [Option.any_eq_true] using hw)]

end Sys2Proof.Machine
end

section
/-! SUPPORT. Special registers: signatures after a write of %sigreg, privileged registers after a write, and what SRGET, SRSET, PMOFF and PMON
do (R4, R61, R62, R197, R202, R351, R373, R374). -/
namespace Sys2Proof.Machine

/-! ### Signatures after a write of %sigreg -/

/-- Two groups whose slices have the same signatures. -/
def Group.SameSigs (a b : Group) : Prop := ∀ n, (b.slice n).sig = (a.slice n).sig

theorem Group.SameSigs.trans {a b c : Group} (h : a.SameSigs b) (k : b.SameSigs c) : a.SameSigs c :=
  fun n => (k n).trans (h n)

theorem Group.slice_modSlices (g : Group) (ns : List Nat) (f : Slice → Slice) {n : Nat} :
    (g.modSlices ns f).slice n = g.slice n ∨ n ∈ ns ∧ (g.modSlices ns f).slice n = f (g.slice n) := by
  simp only [Group.slice, Group.modSlices, Tab.getD, Tab.look_map g.slices (fun m => ns.contains m) f n]
  cases g.slices.look n with
  | none => exact .inl rfl
  | some sl => by_cases hn : n ∈ ns <;> simp [hn]

theorem Group.sameSigs_modSlices (g : Group) (ns : List Nat) (f : Slice → Slice) (h : ∀ n ∈ ns, (f (g.slice n)).sig = (g.slice n).sig) :
    g.SameSigs (g.modSlices ns f) := by
  intro n
  rcases g.slice_modSlices ns f (n := n) with e | ⟨hn, e⟩
  · rw [e]
  · rw [e, h n hn]

theorem Group.sameSigs_modGang (g : Group) (k : Nat) (f : Gang → Gang) : g.SameSigs (g.modGang k f) := fun _ => rfl

@[simp] theorem Group.countWord_slice (g : Group) (k : Gang) (n : Nat) : (g.countWord k).slice n = g.slice n := by
  unfold Group.countWord
  split <;> rfl

/-- A word without an update of its own leaves the signature of a slice that has no token (R202). -/
theorem Slice.sign_none_sig (frozen : Bool) (extra : Word) {sl : Slice} (h : sl.tokens = 0) : (sl.sign frozen none extra).sig = sl.sig := by
  simp [Slice.sign, h]

/-- The same of the gang that retires it. -/
theorem Group.sameSigs_retire {g : Group} {kid : Nat} {k : Gang} (hk : g.gang kid = some k) (ht : ∀ n ∈ k.slices, (g.slice n).tokens = 0)
    (now : Nat) (extra : Word) (lat : Option (List Nat × (Nat → Word))) : g.SameSigs (g.retire kid now none extra false lat) := by
  have hs : g.SameSigs ((g.countWord k).modSlices k.slices (Slice.sign g.inHandler none extra)) := by
    have hc : g.SameSigs (g.countWord k) := fun n => by rw [g.countWord_slice]
    refine hc.trans (Group.sameSigs_modSlices _ _ _ fun n hn => Slice.sign_none_sig _ _ ?_)
    rw [g.countWord_slice]
    exact ht n hn
  simp only [Group.retire, hk, Bool.false_eq_true, if_false]
  split
  · exact hs
  · split
    all_goals
      refine .trans ?_ (Group.sameSigs_modGang _ _ _)
      exact .trans (fun n => hs n) (Group.sameSigs_modSlices _ _ _ fun _ _ => rfl)

theorem Group.sameSigs_meetAgain (g : Group) (now : Nat) : g.SameSigs (g.meetAgain now) := by
  unfold Group.meetAgain
  split
  · exact fun _ => rfl
  · split <;> exact fun _ => rfl

/-- Where no gang stands at a REGANG, an instruction without an update of its own leaves every signature. -/
theorem State.sameSigs_retired {s : State} {v : View} {i : Instr} {g g' : Group} {k : Gang} (hg : s.group v.gid = some g)
    (hi : signOp i = none) (hk : g.gang v.kid = some k) (ht : ∀ n ∈ k.slices, (g.slice n).tokens = 0)
    (hr : ∀ k ∈ g.gangs, ∀ all a, k.wait ≠ .regang all a) (lat : Option (List Nat × (Nat → Word)))
    (hg' : (s.retired v i lat).group v.gid = some g') : g.SameSigs g' := by
  have hn : ∀ k ∈ (g.retire v.kid s.cycle none (extraOf i) false lat).gangs, ∀ all a, k.wait ≠ .regang all a := by
    intro x hx all a
    obtain ⟨j, hj, e⟩ := Group.retire_waits _ _ _ _ _ _ _ x hx
    rw [e]
    exact hr j hj all a
  have e : (s.retired v i lat).group v.gid = some ((g.retire v.kid s.cycle none (extraOf i) false lat).meetAgain s.cycle) := by
    simp only [State.retired, State.closeWindows, State.modGroup_modGroup, State.group_modGroup, hg, Option.map_some, hi]
    exact congrArg (fun x : Group => some (x.meetAgain s.cycle)) (Group.closeWindows_none _ _ hn)
  obtain rfl := Option.some.inj (e.symm.trans hg')
  exact (Group.sameSigs_retire hk ht _ _ _).trans (Group.sameSigs_meetAgain _ _)

/-! ### SRSET to %sigreg -/

/-- The signature that some lanes give a slice, each with its own word: that of the slice's lowest; else the one it has. -/
def sigFrom (ls : List Nat) (f : Nat → Word) (n : Nat) (old : Word) : Word :=
  match ls.filter fun l => l / 4 == n with
  | l :: _ => f l
  | [] => old

theorem sigFrom_again (ls : List Nat) (f : Nat → Word) (n : Nat) (old : Word) :
    sigFrom ls f n (sigFrom ls f n old) = sigFrom ls f n old := by
  unfold sigFrom
  cases ls.filter fun l => l / 4 == n <;> rfl

/-- What SRSET to %sigreg makes of one slice. -/
def Group.giveSig (ls : List Nat) (f : Nat → Word) (g : Group) (n : Nat) : Group :=
  match ls.filter fun l => l / 4 == n with
  | [] => g
  | l :: _ => g.modSlice n fun sl => { sl with sig := f l }

/-- What it makes of the slices of a list. -/
def Group.giveSigs (ls : List Nat) (f : Nat → Word) (ns : List Nat) (g : Group) : Group := ns.foldl (Group.giveSig ls f) g

theorem Group.giveSig_look (ls : List Nat) (f : Nat → Word) (g : Group) (n m : Nat) :
    (g.giveSig ls f n).slices.look m
      = (g.slices.look m).map fun sl => if m = n then { sl with sig := sigFrom ls f n sl.sig } else sl := by
  unfold Group.giveSig sigFrom
  cases ls.filter fun l => l / 4 == n with
  | nil => simp
  | cons l _ =>
    by_cases h : m = n
    · subst h
      simpa [Group.modSlice] using Tab.look_alter_same g.slices m fun sl => { sl with sig := f l }
    · simpa [Group.modSlice, h] using Tab.look_alter_other g.slices (fun sl => { sl with sig := f l }) h

theorem Group.giveSigs_look (ls : List Nat) (f : Nat → Word) (m : Nat) (ns : List Nat) : ∀ g : Group,
    (g.giveSigs ls f ns).slices.look m
      = (g.slices.look m).map fun sl => if m ∈ ns then { sl with sig := sigFrom ls f m sl.sig } else sl := by
  induction ns with
  | nil => intro g; simp [Group.giveSigs]
  | cons n ns ih =>
    intro g
    have e : g.giveSigs ls f (n :: ns) = (g.giveSig ls f n).giveSigs ls f ns := rfl
    rw [e, ih, g.giveSig_look, Option.map_map]
    refine Option.map_congr fun sl _ => ?_
    by_cases h : m = n
    · subst h
      by_cases hm : m ∈ ns <;> simp [hm, sigFrom_again]
    · simp [h]

/-- It writes signatures of slices and nothing else of the group. -/
theorem Group.giveSigs_eq (ls : List Nat) (f : Nat → Word) (ns : List Nat) : ∀ g : Group,
    g.giveSigs ls f ns = { g with slices := (g.giveSigs ls f ns).slices } := by
  induction ns with
  | nil => exact fun _ => rfl
  | cons n ns ih =>
    intro g
    have e : g.giveSigs ls f (n :: ns) = (g.giveSig ls f n).giveSigs ls f ns := rfl
    rw [e, ih]
    unfold Group.giveSig
    split <;> rfl

theorem Group.giveSigs_slice (ls : List Nat) (f : Nat → Word) {ns : List Nat} {g : Group} {n : Nat} (hn : n ∈ ns)
    (hl : ∃ sl, g.slices.look n = some sl) :
    (g.giveSigs ls f ns).slice n = { g.slice n with sig := sigFrom ls f n (g.slice n).sig } := by
  obtain ⟨sl, hl⟩ := hl
  simp [Group.slice, Tab.getD, Group.giveSigs_look, hl, hn]

/-- SRSET to %sigreg of the issuing gang, from the lanes that execute it. -/
def View.giveSigs (v : View) (a : Src) (gd : Guard) : Group → Group := Group.giveSigs (v.lanes gd) (v.src a) v.k.slices

theorem View.kept_giveSigs (v : View) (a : Src) (gd : Guard) : v.g.Kept (v.giveSigs a gd v.g) := by
  rw [View.giveSigs, Group.giveSigs_eq]
  rfl

theorem View.giveSigs_gangs (v : View) (a : Src) (gd : Guard) : (v.giveSigs a gd v.g).gangs = v.g.gangs := by
  rw [View.giveSigs, Group.giveSigs_eq]

theorem View.giveSigs_slice {v : View} (hc : v.Clean) (a : Src) (gd : Guard) {n : Nat} (hn : n ∈ v.k.slices) :
    (v.giveSigs a gd v.g).slice n = { v.g.slice n with sig := sigFrom (v.lanes gd) (v.src a) n (v.g.slice n).sig } :=
  Group.giveSigs_slice _ _ hn (hc.listed n hn).2

/-! ### Privileged registers -/

theorem srPriv_iff {n : Nat} : srPriv n = true ↔ 0x40 ≤ n ∧ n ≤ 0x43 := by
  simp [srPriv]

theorem View.sreg_priv (v : View) (s : State) {n : Nat} (h : srPriv n = true) (l : Nat) :
    v.sreg s n l = if v.x.maint then s.privReg v.t.core n else 0 := by
  obtain ⟨h1, h2⟩ := srPriv_iff.mp h
  obtain rfl | rfl | rfl | rfl : n = 0x40 ∨ n = 0x41 ∨ n = 0x42 ∨ n = 0x43 := by omega
  all_goals rfl

/-- No two privileged registers of a core have one key. -/
theorem privKey_inj {core n m : Nat} (hn : srPriv n = true) (hm : srPriv m = true) (h : privKey core n = privKey core m) : n = m := by
  have h1 := srPriv_iff.mp hn
  have h2 := srPriv_iff.mp hm
  unfold privKey at h
  split at h <;> split at h <;> omega

@[simp] theorem State.privNow_privWrite (s : State) (core num : Nat) (w : Dword) (n : Nat) :
    (s.privWrite core num w).privNow core n = s.privNow core n := rfl

/-- A privileged register reads as written, at its width (R4, R61). -/
theorem State.privReg_privWrite_same (s : State) (core num x : Nat) :
    (s.privWrite core num (BitVec.ofNat 64 x)).privReg core num = BitVec.ofNat 64 (x % 2 ^ if srWide num then 64 else 32) := by
  rw [State.privReg, State.privNow_privWrite]
  simp only [State.privWrite, Tab.look_put_same, if_true]
  apply BitVec.eq_of_toNat_eq
  cases srWide num
  all_goals simp

theorem State.privReg_privWrite_other (s : State) {core num n : Nat} (w : Dword) (hp : srPriv num = true) (hn : srPriv n = true)
    (h : n ≠ num) : (s.privWrite core num w).privReg core n = s.privReg core n := by
  have hk : privKey core n ≠ privKey core num := fun e => h (privKey_inj hn hp e)
  rw [State.privReg, State.privReg, State.privNow_privWrite]
  simp only [State.privWrite, Tab.look_put_other _ _ hk]

/-- A register that is not privileged does not read what SRSET writes to one that is. -/
theorem View.sreg_privWrite_unpriv (v : View) (s : State) (core num : Nat) (w : Dword) {n : Nat} (h : srPriv n = false) (l : Nat) :
    v.sreg (s.privWrite core num w) n l = v.sreg s n l := by
  unfold View.sreg
  split
  case h_9 | h_10 | h_11 | h_12 => cases h
  all_goals rfl

theorem View.sreg_privWrite_other (v : View) (s : State) {num n : Nat} (w : Dword) (hp : srPriv num = true) (h : n ≠ num) (l : Nat) :
    v.sreg (s.privWrite v.t.core num w) n l = v.sreg s n l := by
  cases hn : srPriv n with
  | true => rw [v.sreg_priv _ hn, v.sreg_priv _ hn, s.privReg_privWrite_other w hp hn h]
  | false => exact v.sreg_privWrite_unpriv s _ _ w hn l

/-- Bits 15 to 6 of %fstat read zero (R62). -/
theorem fstatWrite_bit (w : Word) {k : Nat} (h : k < 32) :
    (fstatWrite w).getLsbD k = (w.getLsbD k && (decide (k < 6) || decide (16 ≤ k))) := by
  have hm : ∀ k < 32, (0xFFFF003F : Word).getLsbD k = (decide (k < 6) || decide (16 ≤ k)) := by decide
  rw [fstatWrite, BitVec.getLsbD_and, hm k h]

/-! ### The instructions -/

/-- The way out of an instruction that changes its group and leaves no latch. -/
theorem issue_changes {i : Instr} {s : State} {v : View} (h : Issues i s v) {body : View → State → Res} (f : Group → Group)
    (hb : body v s = .ok (s.modGroup v.gid f) none) :
    let t := (s.modGroup v.gid f).retired v i none
    ∃ g, issue i s body = .next t ∧ OnlyGroup s t v.gid g ∧ (f v.g).Moved g := by
  obtain ⟨t, g, he, ho, hm, -⟩ := issue_modGroup h hb
  obtain rfl := Host.Outcome.next.inj (he.symm.trans (issue_ok h hb))
  exact ⟨g, he, ho, hm⟩

theorem srget_wide {s : State} {v : View} {d : BitVec 10} {num : BitVec 8} {gd : Guard} (hi : Issues (.srget d num gd) s v)
    (hw : srWide num.toNat = true) :
    WritesPair s v (exec (.srget d num gd) s) false d (v.lanes gd) (v.sreg s num.toNat) :=
  issue_putPair hi (v.lanes_lt gd) rfl (by simp only [hw]; rfl)

theorem srget_narrow {s : State} {v : View} {d : BitVec 10} {num : BitVec 8} {gd : Guard} (hi : Issues (.srget d num gd) s v)
    (hw : srWide num.toNat = false) :
    WritesReg s v (exec (.srget d num gd) s) false d (v.lanes gd) fun l => (v.sreg s num.toNat l).truncate 32 :=
  issue_put hi (v.lanes_lt gd) (by simp only [hw]; rfl)

theorem srset_noLanes {s : State} {v : View} {num : BitVec 8} {a : Src} {gd : Guard} (hi : Issues (.srset num a gd) s v)
    (hl : v.lanes gd = []) : Completes s v (exec (.srset num a gd) s) :=
  issue_completes (lat := none) hi (by simp only [hl])

theorem srset_fstat {s : State} {v : View} {a : Src} {gd : Guard} {l : Nat} {ls : List Nat} (hi : Issues (.srset 0x0B a gd) s v)
    (hl : v.lanes gd = l :: ls) :
    ∃ t g, exec (.srset 0x0B a gd) s = .next t ∧ OnlyGroup s t v.gid g ∧ ({ v.g with fstat := g.fstat } : Group).Moved g
      ∧ g.fstat = fstatWrite (v.src a l) := by
  obtain ⟨t, g, he, ho, hm⟩ : ∃ t g, exec (.srset 0x0B a gd) s = .next t ∧ OnlyGroup s t v.gid g
      ∧ ({ v.g with fstat := fstatWrite (v.src a l) } : Group).Moved g :=
    ⟨_, issue_changes hi (fun g => { g with fstat := fstatWrite (v.src a l) }) (by simp only [hl]; rfl)⟩
  have hf : g.fstat = fstatWrite (v.src a l) := hm.fstat
  exact ⟨t, g, he, ho, by rw [hf]; exact hm, hf⟩

theorem srset_sigreg {s : State} {v : View} {a : Src} {gd : Guard} {l : Nat} {ls : List Nat} (hi : Issues (.srset 0x0D a gd) s v)
    (hl : v.lanes gd = l :: ls) (hc : v.Clean) (ht : ∀ n ∈ v.k.slices, (v.g.slice n).tokens = 0) :
    ∃ t g, exec (.srset 0x0D a gd) s = .next t ∧ OnlyGroup s t v.gid g ∧ v.g.Kept g
      ∧ ∀ n ∈ v.k.slices, (g.slice n).sig = sigFrom (v.lanes gd) (v.src a) n (v.g.slice n).sig := by
  let t := (s.modGroup v.gid (v.giveSigs a gd)).retired v (.srset 0x0D a gd) none
  obtain ⟨g, he, ho, hm⟩ : ∃ g, exec (.srset 0x0D a gd) s = .next t ∧ OnlyGroup s t v.gid g ∧ (v.giveSigs a gd v.g).Moved g :=
    issue_changes hi (v.giveSigs a gd) (by simp only [hl, View.giveSigs]; rfl)
  obtain ⟨-, hg, hk, -⟩ := State.view_spec hi.view
  have hs : (v.giveSigs a gd v.g).SameSigs g := by
    refine State.sameSigs_retired (k := v.k) ?_ rfl ?_ (fun n hn => ?_) ?_ none ho.here
    · rw [State.group_modGroup, hg]; rfl
    · rw [Group.gang, v.giveSigs_gangs]; exact hk
    · rw [View.giveSigs_slice hc a gd hn]; exact ht n hn
    · rw [v.giveSigs_gangs]; exact hc.apart
  refine ⟨t, g, he, ho, (v.kept_giveSigs a gd).trans hm.kept, fun n hn => ?_⟩
  rw [hs n, View.giveSigs_slice hc a gd hn]

theorem srset_priv {s : State} {v : View} {num : BitVec 8} {a : Src} {gd : Guard} {l : Nat} {ls : List Nat}
    (hi : Issues (.srset num a gd) s v) (hl : v.lanes gd = l :: ls) (hp : srPriv num.toNat = true) (hm : v.x.maint = true) :
    Completes (s.privWrite v.t.core num.toNat (BitVec.ofNat 64 (srcVal v.g v.c a (srWide num.toNat) l))) v
      (exec (.srset num a gd) s) := by
  have hB : num ≠ 0x0B := by rintro rfl; cases hp
  have hD : num ≠ 0x0D := by rintro rfl; cases hp
  exact issue_completes (lat := none) hi (by simp only [hl, hB, hD, hp, hm, if_false]; rfl)

theorem srset_ignored {s : State} {v : View} {num : BitVec 8} {a : Src} {gd : Guard} {l : Nat} {ls : List Nat}
    (hi : Issues (.srset num a gd) s v) (hl : v.lanes gd = l :: ls) (hB : num ≠ 0x0B) (hD : num ≠ 0x0D)
    (hp : srPriv num.toNat = false ∨ v.x.maint = false) : Completes s v (exec (.srset num a gd) s) := by
  have hn : (srPriv num.toNat && v.x.maint) = false := Bool.and_eq_false_iff.mpr hp
  exact issue_completes (lat := none) hi (by simp only [hl, hB, hD, hn, if_false]; rfl)

theorem pmoff_opens {s : State} {v : View} (hi : Issues .pmoff s v) :
    ∃ t g, exec .pmoff s = .next t ∧ OnlyGroup s t v.gid g ∧ ({ v.g with pmoff := g.pmoff } : Group).Moved g
      ∧ g.pmoff = match v.g.pmoff with | some c => some c | none => some s.cycle := by
  obtain ⟨t, g, he, ho, hm⟩ : ∃ t g, exec .pmoff s = .next t ∧ OnlyGroup s t v.gid g
      ∧ (if v.g.pmoff.isSome then v.g else { v.g with pmoff := some s.cycle } : Group).Moved g :=
    ⟨_, issue_changes hi (fun g => if g.pmoff.isSome then g else { g with pmoff := some s.cycle }) rfl⟩
  cases hp : v.g.pmoff with
  | none =>
    rw [hp] at hm
    have hc : g.pmoff = some s.cycle := by rw [hm.rest]; rfl
    exact ⟨t, g, he, ho, by rw [hc]; exact hm, hc⟩
  | some c =>
    rw [hp] at hm
    have hc : g.pmoff = some c := by rw [hm.rest]; exact hp
    exact ⟨t, g, he, ho, by rw [hc, ← hp]; exact hm, hc⟩

theorem pmon_closes {s : State} {v : View} (hi : Issues .pmon s v) :
    ∃ t g, exec .pmon s = .next t ∧ OnlyGroup s t v.gid g ∧ ({ v.g with pmoff := none, overrun := false } : Group).Moved g :=
  ⟨_, issue_changes hi (fun g => { g with pmoff := none, overrun := false }) rfl⟩

/-- Settles O28: SRGET and SRSET by the width and the number of the register, with the privileged ones by the laws of `State.privWrite`. -/
theorem specialRegisters : Obligations.SpecialRegisters := by
  refine ⟨fun s v d num a gd => ⟨fun hi => ⟨srget_wide hi, srget_narrow hi⟩, fun l => ?reads, srset_noLanes, fun l ls hi hl => ?writes⟩,
    fun s v => ⟨pmoff_opens, pmon_closes⟩⟩
  case reads =>
    refine ⟨rfl, rfl, rfl, rfl, rfl, rfl, fun hm n h1 h2 => ?_⟩
    rw [v.sreg_priv s (srPriv_iff.mpr ⟨h1, h2⟩), hm, if_neg Bool.false_ne_true]
  case writes =>
    refine ⟨?fstat, ?sigreg, fun hp hm => ?priv, srset_ignored hi hl⟩
    case fstat =>
      rintro rfl
      obtain ⟨t, g, he, ho, hm, hf⟩ := srset_fstat hi hl
      exact ⟨t, g, he, ho, hm, fun k hk => by rw [hf, fstatWrite_bit _ hk]⟩
    case sigreg =>
      rintro rfl hc ht
      exact srset_sigreg hi hl hc ht
    case priv =>
      refine ⟨_, srset_priv hi hl hp hm, rfl, fun m => ⟨?_, fun n hn => v.sreg_privWrite_other s _ hp hn m⟩⟩
      rw [v.sreg_priv _ hp, hm, if_pos rfl, State.privReg_privWrite_same]

end Sys2Proof.Machine
end

section
/-! SUPPORT. The quad matrix engine: windows that close, requests that are forced, a pass of one request, and operand errors (R83, R87, R118,
R144, R146, R147). -/
namespace Sys2Proof.Machine

/-! ### Lists, tables and memory -/

theorem argmin_mem {α : Type} {key : α → Nat} {xs : List α} {x : α} (h : argmin key xs = some x) : x ∈ xs := by
  induction xs with
  | nil => cases h
  | cons y ys ih =>
    unfold argmin at h
    split at h
    next => cases h; exact List.mem_cons_self
    next z hz =>
      split at h
      next => cases h; exact List.mem_cons_self
      next => cases h; exact List.mem_cons_of_mem y (ih hz)

/-- Two elements of a list whose keys do not repeat are one where their keys are one. -/
theorem eq_of_key_eq {α : Type} {key : α → Nat} {xs : List α} {x y : α} (hd : (xs.map key).Nodup) (hx : x ∈ xs) (hy : y ∈ xs)
    (h : key x = key y) : x = y := by
  induction xs with
  | nil => cases hx
  | cons z zs ih =>
    obtain ⟨hz, hzs⟩ := List.nodup_cons.mp hd
    have away : ∀ u ∈ zs, key z ≠ key u := fun u hu e => hz (e ▸ List.mem_map_of_mem hu)
    rcases List.mem_cons.mp hx with rfl | hxs
    · rcases List.mem_cons.mp hy with rfl | hys
      · rfl
      · exact absurd h (away y hys)
    · rcases List.mem_cons.mp hy with rfl | hys
      · exact absurd h.symm (away x hxs)
      · exact ih hzs hxs hys

/-- What every entry of a table has, it has after a change of one entry that keeps it. -/
theorem Tab.forall_alter {α : Type} {P : α → Prop} {n : Nat} {f : α → α} (hf : ∀ x, P x → P (f x)) {t : Tab α}
    (h : ∀ e ∈ t, P e.2) : ∀ e ∈ t.alter n f, P e.2 := by
  induction t with
  | nil => exact h
  | cons d t ih =>
    obtain ⟨hd, ht⟩ := List.forall_mem_cons.mp h
    unfold Tab.alter
    split
    · exact List.forall_mem_cons.mpr ⟨hf _ hd, ht⟩
    · exact List.forall_mem_cons.mpr ⟨hd, ih ht⟩

/-- What has been written reads back, at its width (R2). -/
theorem Mem.readN_writeN_same (n : Nat) : ∀ {m : List Host.Cell} (a v : Nat), Memory.wf m = true →
    Mem.readN (Mem.writeN m a n v) a n = v % 256 ^ n := by
  induction n with
  | zero => intro m a v _; rw [Nat.pow_zero, Nat.mod_one]; rfl
  | succ n ih =>
    intro m a v h
    have low : Mem.read (Mem.writeN m a (n + 1) v) a = BitVec.ofNat 8 v :=
      (Mem.read_writeN_outside n _ _ _ (.inl (Nat.lt_succ_self a))).trans (Mem.read_write_same m a _ h)
    have high : Mem.readN (Mem.writeN m a (n + 1) v) (a + 1) n = v / 256 % 256 ^ n := ih _ _ (Memory.wf_write a _ h)
    rw [Mem.readN, low, high, Nat.pow_succ', Nat.mod_mul, BitVec.toNat_ofNat]

/-! ### Windows and forced requests (R146, R147) -/

theorem exec_fusionWindowClose (q : Nat) (s : State) : exec (.fusionWindowClose q) s = .next (s.windowClose q) := rfl

theorem exec_mtxEntryForced (q id : Nat) (s : State) : exec (.mtxEntryForced q id) s = .next (s.entryForced q id) := rfl

theorem exec_matrixPass (q : Nat) (s : State) : exec (.matrixPass q) s = .next (s.matrixPass q) := rfl

theorem exec_matrixOperandError (gid slot row seg : Nat) (s : State) :
    exec (.matrixOperandError gid slot row seg) s = .next (s.matrixError gid slot row seg) := rfl

theorem State.quad_modQuad_same (s : State) (q : Nat) (f : Quad → Quad) : (s.modQuad q f).quad q = f (s.quad q) := by
  rw [State.quad_modQuad, if_pos rfl]

theorem State.quad_modQuad_other (s : State) {q n : Nat} (f : Quad → Quad) (h : n ≠ q) : (s.modQuad q f).quad n = s.quad n := by
  rw [State.quad_modQuad, if_neg h]

theorem State.windowClose_open {s : State} {q : Nat} {w : Window} (h : (s.quad q).windows.find? (·.isOpen) = some w) :
    s.windowClose q = s.modQuad q fun k =>
      { k with windows := k.windows.map fun x => if x.id = w.id then { x with isOpen := false } else x } := by
  simp only [State.windowClose, h, mapIf, beq_iff_eq]

theorem State.entryForced_eq (s : State) (q id : Nat) :
    s.entryForced q id = s.modQuad q fun k =>
      { k with table := k.table.map fun e => if e.id = id ∧ 1024 ≤ e.skipped then { e with forced := true } else e } := by
  simp only [State.entryForced, mapIf, Bool.and_eq_true, beq_iff_eq, decide_eq_true_eq]

/-! ### The choice of a pass -/

theorem State.choosePass_ready {s : State} {q : Nat} {w : Window} (h : s.choosePass q = some w) : s.windowReady q w = true := by
  have hw : w ∈ (s.quad q).windows.filter (s.windowReady q) := by
    unfold State.choosePass at h
    dsimp only at h
    split at h
    · exact argmin_mem h
    · exact (List.mem_filter.mp (argmin_mem h)).1
  exact (List.mem_filter.mp hw).2

/-- A pass takes its requests from those of its window. -/
theorem State.passOf_sublist (s : State) (q : Nat) (w : Window) :
    (s.passOf q w).Sublist ((s.quad q).table.filter fun r => r.window == w.id) := by
  have home : ((s.quad q).table.filter fun e => e.window == w.id && s.entryHome e).Sublist
      ((s.quad q).table.filter fun r => r.window == w.id) := by
    rw [← List.filter_filter]
    exact List.filter_sublist.filter _
  unfold State.passOf
  dsimp only
  split
  · exact List.nil_sublist _
  · split
    · exact home
    · split
      · exact List.filter_sublist.trans home
      · exact List.nil_sublist _

/-- The pass of a window with one request is that request. -/
theorem State.passOf_single {s : State} {q : Nat} {w : Window} {e : ResEntry} (hw : s.choosePass q = some w)
    (he : (s.quad q).table.filter (fun r => r.window == w.id) = [e]) : s.passOf q w = [e] := by
  have hr : (!(s.passOf q w).isEmpty) = true := State.choosePass_ready hw
  have hs : (s.passOf q w).Sublist [e] := he ▸ s.passOf_sublist q w
  rcases List.sublist_cons_iff.mp hs with h | ⟨r, h, h'⟩
  · rw [List.sublist_nil.mp h] at hr; cases hr
  · rw [h, List.sublist_nil.mp h']

/-- Without a pre-emption request, a request goes to its last K-group (R162). -/
theorem State.passGoals_single {s : State} {e : ResEntry} {b : BSet} (hb : s.setOf e = some b) (hs : s.entryStopping e = false) :
    s.passGoals [e] = (s, [(e, b.kg)]) := by
  simp [State.passGoals, State.kStop, hb, hs]

/-! ### What a pass changes -/

/-- The rows of a request, each by its own step, as teams. -/
theorem Team.macRows_fst {α : Type} (t : Team) (rows : List α) (f : Team → α → Team × Word) :
    (t.macRows rows f).1 = rows.foldl (fun z r => (f z r).1) t :=
  (List.foldl_hom Prod.fst fun _ _ => rfl).symm

theorem State.serve_eq (s : State) (core ctx launch : Nat) :
    s.serve core ctx launch = { s with cores := (s.serve core ctx launch).cores } := by
  unfold State.serve
  split <;> rfl

theorem State.macTeam_some {s : State} {tid : Nat} {x : Team} (h : s.team tid = some x) (gid bad : Nat) (f : Team → Team × Word) :
    s.macTeam tid gid bad f = (s.modTeam tid fun _ => (f x).1).modGroup gid fun g =>
      { g with fstat := countMalformed (g.fstat ||| (f x).2) bad } := by
  simp only [State.macTeam, h]

/-- The slots of the team after all the rows of a request (R87, R144). -/
def State.afterRows (s : State) (e : ResEntry) (b : BSet) (x : Team) : Team :=
  e.rows.foldl (fun (z : Team) r =>
    (z.macRow ((s.group e.grp).bind (·.run)) (fword e.word) (e.slot + r.lane / 16 * (fword e.word).nb b.n) (r.lane % 16) b.n b.kg
      (rowElem (fword e.word).afmt (packRow r.regs)) (s.bElem b) r.bound.toNat).1) x

/-- A request that no K-group of has been applied yet, applied to its end: the team's slots, and flags of its group. -/
theorem State.applyEntry_whole {s : State} {e : ResEntry} {b : BSet} {x : Team} (hb : s.setOf e = some b) (hx : s.team e.team = some x)
    (h0 : e.kdone = 0) :
    ∃ f : Group → Group, (∀ g, (f g).stage = g.stage)
      ∧ s.applyEntry e b.kg = (s.modTeam e.team fun _ => s.afterRows e b x).modGroup e.grp f := by
  simp only [State.applyEntry, hb, h0]
  rw [State.macTeam_some hx, Team.macRows_fst]
  refine ⟨_, ?_, rfl⟩
  exact fun _ => rfl

theorem State.applyEntry_quads (s : State) (e : ResEntry) (hi : Nat) : (s.applyEntry e hi).quads = s.quads := by
  unfold State.applyEntry
  split
  · rfl
  · dsimp only
    unfold State.macTeam
    split <;> rfl

theorem State.setOf_of_quads {s t : State} (h : t.quads = s.quads) (e : ResEntry) : t.setOf e = s.setOf e := by
  simp only [State.setOf, State.bset, State.quad, h]

theorem State.completeMma_eq (s : State) (q : Nat) (e : ResEntry) :
    s.completeMma q e = { s with groups := (s.completeMma q e).groups, cores := (s.completeMma q e).cores } := by
  unfold State.completeMma
  split <;> rfl

/-- No group is about to leave (R141). -/
def State.noneExiting (s : State) : Prop := ∀ p ∈ s.groups, p.2.stage ≠ .exiting

theorem State.noneExiting_modGroup {s : State} (h : s.noneExiting) (gid : Nat) {f : Group → Group} (hf : ∀ g, (f g).stage = g.stage) :
    (s.modGroup gid f).noneExiting :=
  Tab.forall_alter (P := fun g : Group => g.stage ≠ .exiting) (fun g hg => by rwa [hf g]) h

theorem Group.Kept.stage {a b : Group} (h : a.Kept b) : b.stage = a.stage := by
  rw [h]

theorem State.noneExiting_sbDone {s : State} (h : s.noneExiting) (gid : Nat) (ns : List Nat) (n : Nat) : (s.sbDone gid ns n).noneExiting := by
  refine State.noneExiting_modGroup h gid fun g => ?_
  have hw : ((g.sbDown ns n).wakeYields s.cycle).stage = g.stage := (Group.kept_wakeYields (g.sbDown ns n) s.cycle).stage
  dsimp only
  split
  · exact hw
  · exact hw

theorem State.noneExiting_completeMma {s : State} (h : s.noneExiting) (q : Nat) (e : ResEntry) : (s.completeMma q e).noneExiting := by
  unfold State.completeMma
  split
  · exact h
  · exact State.noneExiting_sbDone (s := s.modCore e.core fun k => k.unref e.tag) h _ _ _

theorem State.leaveAll_none {s : State} (h : s.noneExiting) : s.leaveAll = s := by
  have hf : s.groups.filter (fun e => e.2.stage == .exiting) = [] := by
    refine List.filter_eq_nil_iff.mpr fun p hp => ?_
    simpa using h p hp
  rw [State.leaveAll, hf]
  rfl

/-- Where requests have names of their own, to leave out a window's only request is to leave out the window. -/
theorem filter_id_eq_filter_window {table : List ResEntry} {n : Nat} {e : ResEntry} (he : table.filter (fun r => r.window == n) = [e])
    (hd : (table.map (·.id)).Nodup) : table.filter (fun r => r.id != e.id) = table.filter fun r => r.window != n := by
  have hm : e ∈ table ∧ (e.window == n) = true := List.mem_filter.mp (he ▸ List.mem_singleton_self e)
  refine List.filter_congr fun r hr => ?_
  have hi : r.id = e.id ↔ r.window = n := by
    constructor
    · intro h
      rw [eq_of_key_eq hd hr hm.1 h]
      exact beq_iff_eq.mp hm.2
    · intro h
      have : r ∈ [e] := he ▸ List.mem_filter.mpr ⟨hr, beq_iff_eq.mpr h⟩
      rw [List.mem_singleton.mp this]
  rw [Bool.eq_iff_iff, bne_iff_ne, bne_iff_ne, Ne, Ne, hi]

/-- A pass of one request: its K-groups are applied, it leaves the table, its MMA completes, and groups that waited for it leave. -/
theorem State.matrixPass_single {s : State} {q : Nat} {w : Window} {e : ResEntry} {b : BSet} (hw : s.choosePass q = some w)
    (he : (s.quad q).table.filter (fun r => r.window == w.id) = [e]) (hb : s.setOf e = some b) (hs : s.entryStopping e = false)
    (h0 : e.kdone < b.kg) :
    ∃ f : Quad → Quad, (∀ k, (f k).table.map (·.id) = (k.table.filter fun r => r.id != e.id).map (·.id))
      ∧ s.matrixPass q = ((((s.serve e.core e.ctx e.launch).applyEntry e b.kg).modQuad q f).completeMma q e).leaveAll := by
  have hd : ((s.serve e.core e.ctx e.launch).applyEntry e b.kg).setOf e = some b := by
    rw [State.setOf_of_quads (State.applyEntry_quads _ e b.kg), s.serve_eq]
    exact hb
  simp only [State.matrixPass, hw, State.passOf_single hw he, State.passGoals_single hb hs, sortBy, insertBy, List.foldr, List.foldl,
    List.filter, List.map, List.find?, nodup, List.contains_nil, List.nil_append, Bool.false_eq_true, beq_self_eq_true, hd, h0,
    Nat.le_refl, decide_true, if_true, if_false]
  refine ⟨_, fun k => ?_, rfl⟩
  have others : k.table.filter (fun r => !([e.id]).contains r.id) = k.table.filter fun r => r.id != e.id := by
    simp only [List.contains_cons, List.contains_nil, Bool.or_false, bne]
  rw [others, List.map_map]
  refine List.map_congr_left fun r _ => ?_
  rw [Function.comp_apply]
  split
  · rfl
  · split <;> rfl

/-! ### Operand errors (R118) -/

theorem Team.accWrite_cells (t : Team) (l : Lay) (r c : Nat) (v : FVal) : (t.accWrite l r c v).1.cells = t.cells := by
  unfold Team.accWrite
  dsimp only
  split <;> rfl

/-- The cell of a spoilt segment is unbounded. -/
theorem Team.cell_spoil {t : Team} (h : Memory.wf t.cells = true) (l : Lay) (row seg : Nat) : (t.spoil l row seg).cell l row seg = 0x7F80 := by
  have kept : ∀ (cs : List Nat) (t : Team),
      (cs.foldl (fun (t : Team) c => (t.accWrite l row (64 * seg + c) (.nan false)).1) t).cells = t.cells := by
    intro cs
    induction cs with
    | nil => exact fun _ => rfl
    | cons c cs ih => exact fun t => (ih _).trans (t.accWrite_cells l row _ _)
  rw [Team.cell, Team.spoil, Team.setCell, kept]
  exact (Mem.readN_writeN_same 2 _ _ h).trans (Nat.mod_eq_of_lt (by decide))

/-- The request that an operand error is of: the first of the group that names the slot (R118). -/
def State.errorEntry (s : State) (gid slot : Nat) : Option ResEntry :=
  s.mtxEntries.find? fun e => e.grp == gid && (s.entrySlots e).contains slot

/-- What an operand error reports, with the issue record of its request (R118, R186). -/
def State.errorReport (s : State) (gid core slot cell : Nat) : OperandError :=
  let tag := (s.errorEntry gid slot).bind (·.tag)
  let r := s.recordFor gid core tag
  ⟨slot, cell, tag.getD 0xFF, (r.map (·.clause)).getD 0, (r.map (·.islot)).getD 0, (r.map (·.opa)).getD 0, (r.map (·.opb)).getD 0⟩

theorem State.errorReport_record {s : State} {gid core slot n : Nat} {e : ResEntry} {r : IssueRec} (he : s.errorEntry gid slot = some e)
    (ht : e.tag = some n) (hr : s.recordFor gid core (some n) = some r) (cell : Nat) :
    s.errorReport gid core slot cell = ⟨slot, cell, n, r.clause, r.islot, r.opa, r.opb⟩ := by
  simp only [State.errorReport, he, ht, hr, Option.bind_some, Option.getD_some, Option.map_some]

/-- The cell is spoilt, the error is kept unless an earlier one is pending, and the core's wear record counts it (R118, R208, log 56). -/
theorem State.matrixError_eq {s : State} {gid slot row seg : Nat} {g : Group} {x : Team} (hg : s.group gid = some g)
    (hx : s.team g.team = some x) (hrow : row < 16) (hseg : seg < (x.lay g.run slot).segs) (hslot : slot < x.slots) :
    s.matrixError gid slot row seg =
      (((s.countErr x.core 5).modTeam g.team fun t => t.spoil (x.lay g.run slot) row seg).modGroup gid fun g' =>
        { g' with operandError := some (g'.operandError.getD
            (s.errorReport gid x.core slot (if (x.lay g.run slot).segs = 1 then row else 2 * row + seg))) }) := by
  have inside : (decide (16 ≤ row) || decide ((x.lay g.run slot).segs ≤ seg) || decide (x.slots ≤ slot)) = false := by
    simp only [Bool.or_eq_false_iff, decide_eq_false_iff_not, Nat.not_le]
    exact ⟨⟨hrow, hseg⟩, hslot⟩
  simp only [State.matrixError, hg, hx, inside, Bool.false_eq_true, if_false]
  rfl

/-! ### The obligation -/

theorem fusionWindowClose_closes {s : State} {q : Nat} {w : Window} (hw : (s.quad q).windows.find? (·.isOpen) = some w) :
    ∃ t : State, exec (.fusionWindowClose q) s = .next t ∧ t = { s with quads := t.quads } ∧ (∀ n, n ≠ q → t.quad n = s.quad n)
      ∧ t.quad q = { s.quad q with
          windows := (s.quad q).windows.map fun (x : Window) => if x.id = w.id then { x with isOpen := false } else x } := by
  refine ⟨_, exec_fusionWindowClose q s, ?_⟩
  rw [State.windowClose_open hw]
  exact ⟨rfl, fun n hn => s.quad_modQuad_other _ hn, s.quad_modQuad_same q _⟩

theorem mtxEntryForced_forces (s : State) (q id : Nat) :
    ∃ t : State, exec (.mtxEntryForced q id) s = .next t ∧ t = { s with quads := t.quads } ∧ (∀ n, n ≠ q → t.quad n = s.quad n)
      ∧ t.quad q = { s.quad q with
          table := (s.quad q).table.map fun (e : ResEntry) =>
            if e.id = id ∧ 1024 ≤ e.skipped then { e with forced := true } else e } := by
  refine ⟨_, exec_mtxEntryForced q id s, ?_⟩
  rw [State.entryForced_eq]
  exact ⟨rfl, fun n hn => s.quad_modQuad_other _ hn, s.quad_modQuad_same q _⟩

theorem matrixPass_applies {s : State} {q : Nat} {w : Window} {e : ResEntry} {b : BSet} {x : Team} (hw : s.choosePass q = some w)
    (he : (s.quad q).table.filter (fun r => r.window == w.id) = [e]) (hd : ((s.quad q).table.map (·.id)).Nodup)
    (hb : s.setOf e = some b) (hk : 0 < b.kg) (hx : s.team e.team = some x) (hs : x.stopping = false) (h0 : e.kdone = 0)
    (hl : s.noneExiting) :
    ∃ t : State, exec (.matrixPass q) s = .next t ∧ t.mem = s.mem ∧ t.team e.team = some (s.afterRows e b x)
      ∧ (t.quad q).table.map (·.id) = ((s.quad q).table.filter fun r => r.window != w.id).map (·.id) := by
  have running : s.entryStopping e = false := by simp only [State.entryStopping, hx, hs]
  obtain ⟨f, hf, hpass⟩ := State.matrixPass_single hw he hb running (h0 ▸ hk)
  obtain ⟨fg, hstage, happly⟩ : ∃ fg : Group → Group, (∀ g, (fg g).stage = g.stage)
      ∧ (s.serve e.core e.ctx e.launch).applyEntry e b.kg
        = ((s.serve e.core e.ctx e.launch).modTeam e.team fun _ => s.afterRows e b x).modGroup e.grp fg := by
    rw [s.serve_eq]
    exact State.applyEntry_whole hb hx h0
  let u := (((s.serve e.core e.ctx e.launch).modTeam e.team fun _ => s.afterRows e b x).modGroup e.grp fg).modQuad q f
  have hu : u.noneExiting := by
    refine State.noneExiting_modGroup (s := (s.serve e.core e.ctx e.launch).modTeam e.team fun _ => s.afterRows e b x) ?_ e.grp hstage
    rw [s.serve_eq]
    exact hl
  have ht : s.matrixPass q = u.completeMma q e := by
    rw [hpass, happly]
    exact State.leaveAll_none (State.noneExiting_completeMma hu q e)
  have hquad : u.quad q = f (s.quad q) := by
    rw [State.quad_modQuad_same, s.serve_eq]
    rfl
  have hteam : u.team e.team = some (s.afterRows e b x) := by
    have h : (s.serve e.core e.ctx e.launch).team e.team = some x := by rw [s.serve_eq]; exact hx
    refine (State.team_modTeam _ _ _).trans ?_
    rw [h, Option.map_some]
  have hmem : u.mem = s.mem := by
    show (s.serve e.core e.ctx e.launch).mem = s.mem
    rw [s.serve_eq]
  refine ⟨_, exec_matrixPass q s, ?_⟩
  rw [ht, u.completeMma_eq q e]
  refine ⟨hmem, hteam, ?_⟩
  show (u.quad q).table.map (·.id) = _
  rw [hquad, hf, filter_id_eq_filter_window he hd]

theorem matrixOperandError_spoils {s : State} {gid slot row seg : Nat} {g : Group} {x : Team} (hg : s.group gid = some g)
    (hx : s.team g.team = some x) (hrow : row < 16) (hseg : seg < (x.lay g.run slot).segs) (hslot : slot < x.slots)
    (hwf : Memory.wf x.cells = true) :
    let err := s.errorReport gid x.core slot (if (x.lay g.run slot).segs = 1 then row else 2 * row + seg)
    ∃ (t : State) (y : Team), exec (.matrixOperandError gid slot row seg) s = .next t ∧ t.mem = s.mem
      ∧ t.group gid = some { g with operandError := some (g.operandError.getD err) } ∧ (∀ n, n ≠ gid → t.group n = s.group n)
      ∧ t.team g.team = some y ∧ y.cell (x.lay g.run slot) row seg = 0x7F80 := by
  intro err
  refine ⟨_, x.spoil (x.lay g.run slot) row seg, exec_matrixOperandError gid slot row seg s, ?_⟩
  rw [State.matrixError_eq hg hx hrow hseg hslot]
  refine ⟨rfl, ?here, fun n hn => State.group_modGroup_other _ _ hn, ?team, Team.cell_spoil hwf _ row seg⟩
  case here =>
    have h : ((s.countErr x.core 5).modTeam g.team fun t => t.spoil (x.lay g.run slot) row seg).group gid = some g := hg
    rw [State.group_modGroup, h, Option.map_some]
  case team =>
    have h : (s.countErr x.core 5).team g.team = some x := hx
    rw [State.team_modGroup, State.team_modTeam, h, Option.map_some]

/-- Settles O38: a pass of one request through `State.matrixPass_single`, an operand error through `State.matrixError_eq`. -/
theorem matrixEngine : Obligations.MatrixEngine := by
  intro s q
  refine ⟨fun w hw => fusionWindowClose_closes hw, mtxEntryForced_forces s q, ?pass, ?error⟩
  case pass =>
    intro w e b x hw he hd hb hk hx hs h0 hl
    exact matrixPass_applies hw he hd hb hk hx hs h0 hl
  case error =>
    intro gid g x slot row seg hg hx hrow hseg hslot hwf
    obtain ⟨t, y, hexec, hmem, hhere, hother, hteam, hcell⟩ := matrixOperandError_spoils hg hx hrow hseg hslot hwf
    refine ⟨t, y, _, hexec, hmem, rfl, rfl, fun e n r he ht hr => ?_, hhere, hother, hteam, hcell⟩
    rw [State.errorReport_record he ht hr]
    exact ⟨rfl, rfl, rfl, rfl, rfl⟩

end Sys2Proof.Machine
end

section
/-! SUPPORT. Accumulator runs: what ACCOPEN makes of a team's slots, what the end of a pass makes of the run and of the group's slices, and the
obligation about both (R95, R97, R285, R286, R290). -/
namespace Sys2Proof.Machine

/-! ### Tables with rising keys -/

theorem Tab.rising_iff_pairwise {α : Type} (t : Tab α) : t.rising = true ↔ t.Pairwise fun d e => d.1 < e.1 := by
  induction t with
  | nil => simp [Tab.rising]
  | cons d t ih =>
    cases t with
    | nil => simp [Tab.rising]
    | cons e t =>
      simp only [Tab.rising, Bool.and_eq_true, decide_eq_true_eq, ih, List.pairwise_cons, List.forall_mem_cons]
      constructor
      · rintro ⟨hde, het, ht⟩
        exact ⟨⟨hde, fun x hx => Nat.lt_trans hde (het x hx)⟩, het, ht⟩
      · rintro ⟨⟨hde, -⟩, het, ht⟩
        exact ⟨hde, het, ht⟩

theorem Tab.look_eq_none {α : Type} {t : Tab α} {n : Nat} (h : ∀ e ∈ t, e.1 ≠ n) : t.look n = none := by
  induction t with
  | nil => rfl
  | cons e t ih =>
    obtain ⟨he, ht⟩ := List.forall_mem_cons.mp h
    rw [Tab.look, if_neg he, ih ht]

theorem Tab.look_del_same {α : Type} {t : Tab α} (h : t.rising = true) (n : Nat) : (t.del n).look n = none := by
  rw [Tab.rising_iff_pairwise] at h
  induction t with
  | nil => rfl
  | cons e t ih =>
    obtain ⟨he, ht⟩ := List.pairwise_cons.mp h
    rw [Tab.del]
    split
    · rename_i hn
      exact Tab.look_eq_none fun x hx => Nat.ne_of_gt (hn ▸ he x hx)
    · rename_i hn
      rw [Tab.look, if_neg hn, ih ht]

theorem Tab.del_sublist {α : Type} (t : Tab α) (n : Nat) : (t.del n).Sublist t := by
  induction t with
  | nil => exact List.Sublist.refl _
  | cons e t ih =>
    rw [Tab.del]
    split
    · exact List.sublist_cons_self _ _
    · exact ih.cons_cons _

theorem Tab.rising_del {α : Type} {t : Tab α} (h : t.rising = true) (n : Nat) : (t.del n).rising = true := by
  rw [Tab.rising_iff_pairwise] at h ⊢
  exact h.sublist (t.del_sublist n)

theorem Tab.mem_put {α : Type} {t : Tab α} {n : Nat} {v : α} {e : Nat × α} (h : e ∈ t.put n v) : e = (n, v) ∨ e ∈ t := by
  induction t with
  | nil => exact .inl (List.mem_singleton.mp h)
  | cons d t ih =>
    unfold Tab.put at h
    split at h
    · exact List.mem_cons.mp h
    · split at h
      · exact (List.mem_cons.mp h).imp_right (List.mem_cons_of_mem _)
      · rcases List.mem_cons.mp h with rfl | h
        · exact .inr List.mem_cons_self
        · exact (ih h).imp_right (List.mem_cons_of_mem _)

theorem Tab.rising_put {α : Type} {t : Tab α} (h : t.rising = true) (n : Nat) (v : α) : (t.put n v).rising = true := by
  rw [Tab.rising_iff_pairwise] at h ⊢
  induction t with
  | nil => exact List.pairwise_singleton _ _
  | cons d t ih =>
    obtain ⟨hd, ht⟩ := List.pairwise_cons.mp h
    rw [Tab.put]
    split
    · rename_i hn
      exact List.pairwise_cons.mpr ⟨List.forall_mem_cons.mpr ⟨hn, fun x hx => Nat.lt_trans hn (hd x hx)⟩, h⟩
    · split
      · rename_i hn
        exact List.pairwise_cons.mpr ⟨fun x hx => hn ▸ hd x hx, ht⟩
      · refine List.pairwise_cons.mpr ⟨fun x hx => ?_, ih ht⟩
        rcases Tab.mem_put hx with rfl | hx
        · show d.1 < n
          omega
        · exact hd x hx

theorem Tab.alter_self {α : Type} (t : Tab α) (n : Nat) : t.alter n (fun x => x) = t := by
  induction t with
  | nil => rfl
  | cons e t ih =>
    rw [Tab.alter, ih]
    split <;> rfl

/-! ### Memory after an interval is zeroed or copied -/

theorem Mem.read_clear (m : List Host.Cell) (a n b : Nat) :
    Mem.read (Mem.clear m a n) b = if a ≤ b ∧ b < a + n then 0 else Mem.read m b := by
  induction m with
  | nil => simp [Mem.clear, Mem.read]
  | cons e m ih =>
    obtain ⟨k, w⟩ := e
    unfold Mem.clear at ih ⊢
    by_cases hk : a ≤ k ∧ k < a + n
    · have hb : Mem.read ((k, w) :: m) b = if k = b then w else Mem.read m b := rfl
      rw [List.filter_cons_of_neg (by simpa using hk), ih, hb]
      split
      · rfl
      · rw [if_neg (by omega)]
    · have ho : k < a ∨ a + n ≤ k := by omega
      rw [List.filter_cons_of_pos (by simpa using ho), Mem.read, Mem.read, ih]
      by_cases hb : k = b
      · subst hb
        rw [if_pos rfl, if_pos rfl, if_neg hk]
      · rw [if_neg hb, if_neg hb]

/-- Bytes that are read in one memory and written in another, one by one (R2). -/
theorem Mem.read_copy (src : List Host.Cell) (b n : Nat) : ∀ {m : List Host.Cell} (d a : Nat), Memory.wf m = true →
    Mem.read (Mem.writeN m d n (Mem.readN src a n)) b = if d ≤ b ∧ b < d + n then Mem.read src (b - d + a) else Mem.read m b := by
  induction n with
  | zero =>
    intro m d a _
    rw [if_neg (by omega)]
    rfl
  | succ n ih =>
    intro m d a h
    have low : BitVec.ofNat 8 (Mem.readN src a (n + 1)) = Mem.read src a := by
      apply BitVec.eq_of_toNat_eq
      rw [Mem.readN, BitVec.toNat_ofNat, Nat.add_mul_mod_self_left, Nat.mod_eq_of_lt (Mem.read src a).isLt]
    have high : Mem.readN src a (n + 1) / 256 = Mem.readN src (a + 1) n := by
      have := (Mem.read src a).isLt
      rw [Mem.readN]
      omega
    rw [Mem.writeN, low, high, ih _ _ (Memory.wf_write d _ h)]
    by_cases hb : b = d
    · subst hb
      rw [if_neg (by omega), if_pos (by omega), Mem.read_write_same _ _ _ h, Nat.sub_self, Nat.zero_add]
    · rw [Mem.read_write_other _ _ hb]
      by_cases hi : d + 1 ≤ b ∧ b < d + 1 + n
      · rw [if_pos hi, if_pos (by omega), show b - (d + 1) + (a + 1) = b - d + a by omega]
      · rw [if_neg hi, if_neg (by omega)]

/-! ### Blocks that a loop writes one after another -/

/-- A loop over n blocks of width w from block b on, each step of which writes its block and nothing else. What a step writes may be stated of the
state in which the loop began, for every place outside the blocks written so far reads there as it did then. -/
theorem foldl_range_blocks {σ β : Type} {step : σ → Nat → σ} {get : σ → Nat → β} {P : σ → Prop} {new : Nat → β} {t0 : σ}
    {w b : Nat} (n : Nat)
    (keeps : ∀ t i, P t → P (step t i))
    (writes : ∀ t i, i < n → P t → (∀ a, ¬(w * b ≤ a ∧ a < w * (b + i)) → get t a = get t0 a) →
      ∀ a, get (step t i) a = if w * (b + i) ≤ a ∧ a < w * (b + i) + w then new a else get t a)
    (h0 : P t0) :
    P ((List.range n).foldl step t0)
      ∧ ∀ a, get ((List.range n).foldl step t0) a = if w * b ≤ a ∧ a < w * (b + n) then new a else get t0 a := by
  induction n with
  | zero =>
    refine ⟨h0, fun a => ?_⟩
    rw [if_neg (by rw [Nat.add_zero]; omega)]
    rfl
  | succ n ih =>
    obtain ⟨hP, hget⟩ := ih fun t i hi => writes t i (Nat.lt_succ_of_lt hi)
    rw [List.range_succ, List.foldl_append, List.foldl_cons, List.foldl_nil]
    refine ⟨keeps _ _ hP, fun a => ?_⟩
    rw [writes _ n (Nat.lt_succ_self n) hP fun x hx => by rw [hget, if_neg hx], hget]
    have hle : w * b ≤ w * (b + n) := Nat.mul_le_mul_left w (Nat.le_add_right b n)
    have hnext : w * (b + (n + 1)) = w * (b + n) + w := by rw [← Nat.add_assoc, Nat.mul_succ]
    rw [hnext]
    by_cases hlast : w * (b + n) ≤ a ∧ a < w * (b + n) + w
    · rw [if_pos hlast, if_pos (by omega)]
    · rw [if_neg hlast]
      by_cases hin : w * b ≤ a ∧ a < w * (b + n)
      · rw [if_pos hin, if_pos (by omega)]
      · rw [if_neg hin, if_neg (by omega)]

/-! ### One slot -/

@[simp] theorem Team.setTag_acc (t : Team) (s fmt : Nat) : (t.setTag s fmt).acc = t.acc := by
  unfold Team.setTag
  split <;> rfl

@[simp] theorem Team.setTag_spad (t : Team) (s fmt : Nat) : (t.setTag s fmt).spad = t.spad := by
  unfold Team.setTag
  split <;> rfl

theorem Team.setTag_tags (t : Team) (s fmt : Nat) :
    (t.setTag s fmt).tags = if fmt = 0 then t.tags.del s else t.tags.put s fmt := by
  unfold Team.setTag
  split <;> rfl

theorem Team.setTag_cells (t : Team) (s fmt : Nat) :
    (t.setTag s fmt).cells = if fmt = 0 then Mem.clear t.cells (64 * s + 32) 32 else t.cells := by
  unfold Team.setTag
  split <;> rfl

theorem Team.rising_setTag {t : Team} (h : t.tags.rising = true) (s fmt : Nat) : (t.setTag s fmt).tags.rising = true := by
  rw [t.setTag_tags]
  split
  · exact Tab.rising_del h s
  · exact Tab.rising_put h s fmt

theorem Team.tag_setTag {t : Team} (h : t.tags.rising = true) (s fmt m : Nat) :
    (t.setTag s fmt).tags.getD m 0 = if m = s then fmt else t.tags.getD m 0 := by
  rw [t.setTag_tags]
  unfold Tab.getD
  by_cases hm : m = s
  · subst hm
    rw [if_pos rfl]
    split
    · rename_i h0
      rw [Tab.look_del_same h, h0]
      rfl
    · rw [Tab.look_put_same]
      rfl
  · rw [if_neg hm]
    split
    · rw [Tab.look_del_other _ hm]
    · rw [Tab.look_put_other _ _ hm]

/-- The cell bytes of a slot that its shape has: an F32 slot has none in bytes 32 to 63 (R64). -/
def cellKept (fmt : Nat) (m : List Host.Cell) (b : Nat) : Byte := if fmt = 0 ∧ 32 ≤ b % 64 then 0 else Mem.read m b

theorem Team.read_cells_setTag (t : Team) (s fmt a : Nat) :
    Mem.read (t.setTag s fmt).cells a = if 64 * s ≤ a ∧ a < 64 * s + 64 then cellKept fmt t.cells a else Mem.read t.cells a := by
  rw [t.setTag_cells, cellKept]
  by_cases h0 : fmt = 0
  · rw [if_pos h0, Mem.read_clear]
    by_cases hs : 64 * s ≤ a ∧ a < 64 * s + 64
    · rw [if_pos hs]
      congr 1
      apply propext
      omega
    · rw [if_neg hs, if_neg (by omega)]
  · simp only [h0, false_and, if_false, ite_self]

theorem Team.wf_setTag_cells {t : Team} (h : Memory.wf t.cells = true) (s fmt : Nat) : Memory.wf (t.setTag s fmt).cells = true := by
  rw [t.setTag_cells]
  split
  · exact Memory.wf_clear _ _ h
  · exact h

theorem Team.read_acc_zeroSlot (t : Team) (s a : Nat) :
    Mem.read (t.zeroSlot s).acc a = if 4096 * s ≤ a ∧ a < 4096 * s + 4096 then 0 else Mem.read t.acc a :=
  Mem.read_clear _ _ _ _

theorem Team.read_cells_zeroSlot (t : Team) (s a : Nat) :
    Mem.read (t.zeroSlot s).cells a = if 64 * s ≤ a ∧ a < 64 * s + 64 then 0 else Mem.read t.cells a :=
  Mem.read_clear _ _ _ _

/-- A copy changes elements, cells and tags only. Its bytes are hidden here, lest a comparison of teams unfold their 4096 writes. -/
theorem Team.copySlot_eq (t : Team) (src dst : Nat) : ∃ acc cells, t.copySlot src dst
    = { t with acc := acc, cells := cells, tags := (t.setTag dst (t.tags.getD src 0)).tags } := ⟨_, _, rfl⟩

theorem Team.copySlot_spad (t : Team) (src dst : Nat) : (t.copySlot src dst).spad = t.spad := by
  obtain ⟨acc, cells, e⟩ := t.copySlot_eq src dst
  rw [e]

theorem Team.copySlot_tags (t : Team) (src dst : Nat) : (t.copySlot src dst).tags = (t.setTag dst (t.tags.getD src 0)).tags := by
  obtain ⟨acc, cells, e⟩ := t.copySlot_eq src dst
  rw [e]

theorem Team.acc_copySlot {t : Team} (src dst : Nat) (h : Memory.wf t.acc = true) :
    Memory.wf (t.copySlot src dst).acc = true
      ∧ ∀ a, Mem.read (t.copySlot src dst).acc a
        = if 4096 * dst ≤ a ∧ a < 4096 * dst + 4096 then Mem.read t.acc (a - 4096 * dst + 4096 * src) else Mem.read t.acc a := by
  simp only [Team.copySlot, Memory.wf_writeN _ _ _ h, Mem.read_copy _ _ _ _ _ h, implies_true, and_self]

theorem Team.cells_copySlot {t : Team} (src dst : Nat) (h : Memory.wf t.cells = true) :
    Memory.wf (t.copySlot src dst).cells = true
      ∧ ∀ a, Mem.read (t.copySlot src dst).cells a
        = if 64 * dst ≤ a ∧ a < 64 * dst + 64 then Mem.read t.cells (a - 64 * dst + 64 * src) else Mem.read t.cells a := by
  simp only [Team.copySlot, Memory.wf_writeN _ _ _ h, Mem.read_copy _ _ _ _ _ h, implies_true, and_self]

/-- The tags as blocks of width 1. -/
theorem Team.tags_copySlot {t : Team} (src dst : Nat) (h : t.tags.rising = true) :
    (t.copySlot src dst).tags.rising = true
      ∧ ∀ a, (t.copySlot src dst).tags.getD a 0
        = if 1 * dst ≤ a ∧ a < 1 * dst + 1 then t.tags.getD (a - 1 * dst + 1 * src) 0 else t.tags.getD a 0 := by
  rw [t.copySlot_tags]
  refine ⟨Team.rising_setTag h _ _, fun a => ?_⟩
  rw [Team.tag_setTag h]
  by_cases ha : a = dst
  · rw [if_pos ha, if_pos (by omega), show a - 1 * dst + 1 * src = src by omega]
  · rw [if_neg ha, if_neg (by omega)]

/-! ### The slots that ACCOPEN opens (R290) -/

/-- One slot of a run as ACCOPEN opens it: zeroed unless the run snapshots, with the format's tag. -/
def Team.openSlot (t : Team) (fmt : Nat) (snap : Bool) (s : Nat) : Team := (if snap then t else t.zeroSlot s).setTag s fmt

/-- The n slots of a run from f on. -/
def Team.openSlots (t : Team) (f n fmt : Nat) (snap : Bool) : Team := (List.range n).foldl (fun t i => t.openSlot fmt snap (f + i)) t

/-- The copies of the n slots from f on that a snapshot keeps in the reserve. -/
def Team.copySlots (t : Team) (f n r : Nat) : Team := (List.range n).foldl (fun t i => t.copySlot (f + i) (f + r + i)) t

theorem Team.openRun_eq (t : Team) (f n r fmt : Nat) (snap : Bool) :
    t.openRun f n r fmt snap = if snap then ((t.unwiden f (n + r)).openSlots f n fmt snap).copySlots f n r
      else (t.unwiden f (n + r)).openSlots f n fmt snap := rfl

theorem Team.openRun_spad (t : Team) (f n r fmt : Nat) (snap : Bool) : (t.openRun f n r fmt snap).spad = t.spad := by
  have opened : ((t.unwiden f (n + r)).openSlots f n fmt snap).spad = t.spad := by
    refine List.foldlRecOn (motive := fun u : Team => u.spad = t.spad) _ _ rfl fun u hu i _ => ?_
    rw [Team.openSlot, Team.setTag_spad]
    cases snap <;> exact hu
  rw [t.openRun_eq]
  split
  · exact List.foldlRecOn (motive := fun u : Team => u.spad = t.spad) _ _ opened fun u hu _ _ => (u.copySlot_spad _ _).trans hu
  · exact opened

theorem Team.acc_openSlots {t : Team} (f n fmt : Nat) (snap : Bool) (h : Memory.wf t.acc = true) :
    Memory.wf (t.openSlots f n fmt snap).acc = true
      ∧ ∀ a, Mem.read (t.openSlots f n fmt snap).acc a
        = if 4096 * f ≤ a ∧ a < 4096 * (f + n) then (if snap then Mem.read t.acc a else 0) else Mem.read t.acc a := by
  refine foldl_range_blocks (P := fun t : Team => Memory.wf t.acc = true) (get := fun (t : Team) a => Mem.read t.acc a)
    (new := fun a => if snap then Mem.read t.acc a else 0) n (fun u i hu => ?_) (fun u i _ _ before a => ?_) h
  all_goals rw [Team.openSlot, Team.setTag_acc]
  all_goals cases snap
  case refine_1.false => exact Memory.wf_clear _ _ hu
  case refine_1.true => exact hu
  case refine_2.false => exact u.read_acc_zeroSlot (f + i) a
  case refine_2.true =>
    by_cases ha : 4096 * (f + i) ≤ a ∧ a < 4096 * (f + i) + 4096
    · rw [if_pos ha]
      exact before a (by omega)
    · rw [if_neg ha]
      rfl

theorem Team.cells_openSlots {t : Team} (f n fmt : Nat) (snap : Bool) (h : Memory.wf t.cells = true) :
    Memory.wf (t.openSlots f n fmt snap).cells = true
      ∧ ∀ a, Mem.read (t.openSlots f n fmt snap).cells a
        = if 64 * f ≤ a ∧ a < 64 * (f + n) then (if snap then cellKept fmt t.cells a else 0) else Mem.read t.cells a := by
  refine foldl_range_blocks (P := fun t : Team => Memory.wf t.cells = true) (get := fun (t : Team) a => Mem.read t.cells a)
    (new := fun a => if snap then cellKept fmt t.cells a else 0) n (fun u i hu => ?_) (fun u i _ _ before a => ?_) h
  case refine_1 =>
    refine Team.wf_setTag_cells ?_ _ _
    cases snap
    · exact Memory.wf_clear _ _ hu
    · exact hu
  case refine_2 =>
    rw [Team.openSlot, Team.read_cells_setTag]
    by_cases ha : 64 * (f + i) ≤ a ∧ a < 64 * (f + i) + 64
    · rw [if_pos ha, if_pos ha]
      cases snap
      · simp [cellKept, u.read_cells_zeroSlot, ha]
      · simp [cellKept, before a (by omega)]
    · rw [if_neg ha, if_neg ha]
      cases snap
      · exact (u.read_cells_zeroSlot (f + i) a).trans (if_neg ha)
      · rfl

theorem Team.tags_openSlots {t : Team} (f n fmt : Nat) (snap : Bool) (h : t.tags.rising = true) :
    (t.openSlots f n fmt snap).tags.rising = true
      ∧ ∀ a, (t.openSlots f n fmt snap).tags.getD a 0 = if 1 * f ≤ a ∧ a < 1 * (f + n) then fmt else t.tags.getD a 0 := by
  have same (u : Team) (s : Nat) : (if snap then u else u.zeroSlot s).tags = u.tags := by split <;> rfl
  refine foldl_range_blocks (P := fun t : Team => t.tags.rising = true) (get := fun (t : Team) a => t.tags.getD a 0) n
    (fun u i hu => Team.rising_setTag (by rw [same]; exact hu) _ _) (fun u i _ hu _ a => ?_) h
  rw [Team.openSlot, Team.tag_setTag (by rw [same]; exact hu), same]
  congr 1
  apply propext
  omega

/-- A kind of content of slots that a copy of a slot takes along reads, after an ACCOPEN that keeps its elements in the reserve, in the copies as in
the slots that have been opened; after any other it reads as the opening left it. -/
theorem Team.openRun_get {β : Type} {get : Team → Nat → β} {P : Team → Prop} {new : Nat → β} {w f n r fmt : Nat} {snap : Bool} {t : Team}
    (copies : ∀ {t : Team} (src dst : Nat), P t → P (t.copySlot src dst) ∧ ∀ a, get (t.copySlot src dst) a
      = if w * dst ≤ a ∧ a < w * dst + w then get t (a - w * dst + w * src) else get t a)
    (hr : snap = true → n ≤ r)
    (opened : P ((t.unwiden f (n + r)).openSlots f n fmt snap) ∧ ∀ a, get ((t.unwiden f (n + r)).openSlots f n fmt snap) a
      = if w * f ≤ a ∧ a < w * (f + n) then new a else get t a) (a : Nat) :
    get (t.openRun f n r fmt snap) a = if w * f ≤ a ∧ a < w * (f + n) then new a
      else if snap = true ∧ w * (f + r) ≤ a ∧ a < w * (f + r + n) then new (a - w * r) else get t a := by
  obtain ⟨hP, hget⟩ := opened
  rw [t.openRun_eq]
  cases snap with
  | false => simpa using hget a
  | true =>
    have hn : w * n ≤ w * r := Nat.mul_le_mul_left w (hr rfl)
    have copied := (foldl_range_blocks (step := fun t i => t.copySlot (f + i) (f + r + i)) (P := P) (get := get) (w := w) (b := f + r)
      (new := fun a => get ((t.unwiden f (n + r)).openSlots f n fmt true) (a - w * r)) n
      (fun u i hu => (copies (f + i) (f + r + i) hu).1) (fun u i hi hu before a => ?_) hP).2 a
    · rw [if_pos rfl, Team.copySlots, copied, hget, hget]
      simp only [true_and, Nat.mul_add]
      by_cases hin : w * f ≤ a ∧ a < w * f + w * n
      · rw [if_neg (by omega), if_pos hin, if_pos hin]
      · by_cases hcopy : w * f + w * r ≤ a ∧ a < w * f + w * r + w * n
        · rw [if_pos hcopy, if_pos (by omega), if_neg hin, if_pos hcopy]
        · rw [if_neg hcopy, if_neg hin, if_neg hin, if_neg hcopy]
    · rw [(copies (f + i) (f + r + i) hu).2]
      have hi' : w * (i + 1) ≤ w * n := Nat.mul_le_mul_left w hi
      simp only [Nat.mul_add, Nat.mul_one] at before hi' ⊢
      split
      · rw [before _ (by omega)]
        congr 1
        omega
      · rfl

section
variable {f n r : Nat} {snap : Bool} (hr : snap = true → n ≤ r)
include hr

theorem Team.openRun_acc {t : Team} (h : Memory.wf t.acc = true) (fmt a : Nat) :
    Mem.read (t.openRun f n r fmt snap).acc a =
      if 4096 * f ≤ a ∧ a < 4096 * (f + n) then (if snap then Mem.read t.acc a else 0)
      else if snap = true ∧ 4096 * (f + r) ≤ a ∧ a < 4096 * (f + r + n) then Mem.read t.acc (a - 4096 * r)
      else Mem.read t.acc a := by
  have e := Team.openRun_get (P := fun t => Memory.wf t.acc = true) (get := fun t a => Mem.read t.acc a) Team.acc_copySlot hr
    (Team.acc_openSlots (t := t.unwiden f (n + r)) f n fmt snap h) a
  cases snap
  · simpa using e
  · exact e

theorem Team.openRun_cells {t : Team} (h : Memory.wf t.cells = true) (fmt a : Nat) :
    Mem.read (t.openRun f n r fmt snap).cells a =
      if 64 * f ≤ a ∧ a < 64 * (f + n) then (if snap then cellKept fmt t.cells a else 0)
      else if snap = true ∧ 64 * (f + r) ≤ a ∧ a < 64 * (f + r + n) then cellKept fmt t.cells (a - 64 * r)
      else Mem.read t.cells a := by
  have e := Team.openRun_get (P := fun t => Memory.wf t.cells = true) (get := fun t a => Mem.read t.cells a) Team.cells_copySlot hr
    (Team.cells_openSlots (t := t.unwiden f (n + r)) f n fmt snap h) a
  cases snap
  · simpa using e
  · exact e

theorem Team.openRun_tags {t : Team} (h : t.tags.rising = true) (fmt : Nat) {k : Nat} (hk : k < n) :
    (t.openRun f n r fmt snap).tags.getD (f + k) 0 = fmt
      ∧ (snap = true → (t.openRun f n r fmt snap).tags.getD (f + r + k) 0 = fmt) := by
  have e := Team.openRun_get (P := fun t => t.tags.rising = true) (get := fun t a => t.tags.getD a 0) Team.tags_copySlot hr
    (Team.tags_openSlots (t := t.unwiden f (n + r)) f n fmt snap h)
  refine ⟨(e _).trans (if_pos (by omega)), fun hs => ?_⟩
  have hn := hr hs
  exact (e _).trans ((if_neg (by omega)).trans (if_pos ⟨hs, by omega⟩))

end

/-! ### Groups whose gangs leave a rendezvous -/

theorem Group.Moved.run {a b : Group} (h : a.Moved b) : b.run = a.run := by rw [h.rest]

/-- What an instruction that waits, or that has retired by itself, leaves of its group. -/
theorem State.waits_here {s : State} {v : View} {g : Group} (h : s.group v.gid = some g) :
    ∃ g', (s.waits v).group v.gid = some g' ∧ g.Moved g'
      ∧ ((∀ k ∈ g.gangs, ∀ all a, k.wait ≠ .regang all a) → g'.slices = g.slices) := by
  have e : (s.waits v).group v.gid = some (((g.ungrant v.kid).closeWindows s.cycle).meetAgain s.cycle) := by
    simp only [State.waits, State.closeWindows, State.modGroup_modGroup, State.group_modGroup, h, Option.map_some]
    rfl
  refine ⟨_, e, ((g.moved_ungrant _).trans (Group.moved_closeWindows _ _)).trans (Group.moved_meetAgain _ _), fun hw => ?_⟩
  have hu : (g.ungrant v.kid).gangs = g.gangs ∧ (g.ungrant v.kid).slices = g.slices := by
    unfold Group.ungrant
    split
    · exact ⟨rfl, rfl⟩
    · split <;> exact ⟨rfl, rfl⟩
  have hm : ∀ g : Group, (g.meetAgain s.cycle).slices = g.slices := by
    intro g
    unfold Group.meetAgain
    split
    · rfl
    · split <;> rfl
  rw [hm, Group.closeWindows_none _ _ (by rw [hu.1]; exact hw), hu.2]

theorem State.waits_other (s : State) {v : View} {n : Nat} (h : n ≠ v.gid) : (s.waits v).group n = s.group n := by
  simp only [State.waits, State.closeWindows, State.modGroup_modGroup, State.group_modGroup_other _ _ h]

/-- When the whole group has come, every gang of it is of the party (R285). -/
theorem View.mem_party_of_meet {v : View} (h : v.meet = .all) : ∀ k ∈ v.g.gangs, k ∈ v.party := by
  have hall : (v.g.gangs.filter (·.id != v.kid)).all (fun k => k.wait.at_ v.here) = true := by
    unfold View.meet at h
    dsimp only at h
    split at h
    · assumption
    · split at h <;> cases h
  intro k hk
  refine List.mem_filter.mpr ⟨hk, ?_⟩
  by_cases hid : k.id = v.kid
  · simp [hid]
  · have := List.all_eq_true.mp hall k (List.mem_filter.mpr ⟨hk, by simpa using hid⟩)
    simp [this]

/-- The others of the party past their instruction, each in the gang in which it came. -/
def View.freeOthers (v : View) (i : Instr) (now : Nat) (g : Group) : Group :=
  (v.party.filter (·.id != v.kid)).foldl (fun (g : Group) (k : Gang) =>
    (g.modGang k.id fun k => { k with wait := .no, since := now }).retire k.id now (signOp i) (extraOf i) false none) g

/-- The whole party past its instruction. -/
def View.passAll (v : View) (i : Instr) (now : Nat) (g : Group) : Group :=
  (v.freeOthers i now g).retire v.kid now (signOp i) 0 false none

theorem View.freeParty_eq (v : View) (s : State) (i : Instr) :
    v.freeParty s i (fun _ => none) = s.modGroup v.gid (v.freeOthers i s.cycle) := rfl

theorem View.moved_passAll (v : View) (i : Instr) (now : Nat) (g : Group) : g.Moved (v.passAll i now g) := by
  refine .trans (Group.moved_foldl _ (fun g k => ?_) _ g) (Group.moved_retire _ _ _ _ _ _ _)
  exact (g.moved_modGang _ _).trans (Group.moved_retire _ _ _ _ _ _ _)

/-! ### ACCOPEN's effect -/

/-- The slices' signatures noted for a replay (R202, R285). -/
def Group.noteOpen (g : Group) : Group :=
  { g with slices := g.slices.map fun (e : Nat × Slice) => (e.1, { e.2 with sigOpen := e.2.sig, stackOpen := e.2.stackSig }) }

/-- The run that an ACCOPEN opens. -/
def View.newRun (v : View) (o : AccopenArgs) (w : Word) : Run :=
  ⟨o.f.toNat, o.n1.toNat + 1, o.r.toNat, o.snap, w, 0, true, v.c.next, []⟩

theorem View.openRun_eq (v : View) (s : State) (i : Instr) (o : AccopenArgs) (w : Word) :
    v.openRun s i o w =
      (s.modTeam v.g.team fun t => t.openRun o.f.toNat (o.n1.toNat + 1) o.r.toNat (fword w).acc o.snap).modGroup v.gid fun g =>
        (v.passAll i s.cycle { g with run := some (v.newRun o w), accw := 0 }).noteOpen := by
  simp only [View.openRun, View.freeParty_eq, State.modGroup_modGroup]
  rfl

/-- The group after ACCOPEN has opened its run. -/
theorem View.openRun_here {v : View} {s : State} (h : s.group v.gid = some v.g) (i : Instr) (o : AccopenArgs) (w : Word) :
    ∃ g, ((v.openRun s i o w).waits v).group v.gid = some g ∧ g.run = some (v.newRun o w)
      ∧ ({ v.g with accw := 0, run := g.run } : Group).Kept g := by
  have passed := v.moved_passAll i s.cycle { v.g with run := some (v.newRun o w), accw := 0 }
  have here : (v.openRun s i o w).group v.gid
      = some (v.passAll i s.cycle { v.g with run := some (v.newRun o w), accw := 0 }).noteOpen := by
    rw [v.openRun_eq, State.group_modGroup, State.group_modTeam, h]
    rfl
  obtain ⟨g, hg, moved, -⟩ := State.waits_here here
  have run : g.run = some (v.newRun o w) := moved.run.trans passed.run
  refine ⟨g, hg, run, ?_⟩
  rw [run]
  have noted (a : Group) : a.Kept a.noteOpen := rfl
  exact (passed.kept.trans (noted _)).trans moved.kept

theorem View.openRun_other {v : View} (s : State) (i : Instr) (o : AccopenArgs) (w : Word) {k : Nat} (h : k ≠ v.gid) :
    ((v.openRun s i o w).waits v).group k = s.group k := by
  rw [State.waits_other _ h, v.openRun_eq, State.group_modGroup_other _ _ h, State.group_modTeam]

theorem View.openRun_team {v : View} {s : State} {x : Team} (h : s.team v.g.team = some x) (i : Instr) (o : AccopenArgs) (w : Word) :
    ((v.openRun s i o w).waits v).team v.g.team
      = some (x.openRun o.f.toNat (o.n1.toNat + 1) o.r.toNat (fword w).acc o.snap) := by
  have e : ((v.openRun s i o w).waits v).team v.g.team = (v.openRun s i o w).team v.g.team := rfl
  rw [e, v.openRun_eq, State.team_modGroup, State.team_modTeam, h]
  rfl

theorem View.openRun_teamOther {v : View} (s : State) (i : Instr) (o : AccopenArgs) (w : Word) {k : Nat} (h : k ≠ v.g.team) :
    ((v.openRun s i o w).waits v).team k = s.team k := by
  have e : ((v.openRun s i o w).waits v).team k = (v.openRun s i o w).team k := rfl
  rw [e, v.openRun_eq, State.team_modGroup, State.team_modTeam_other _ _ h]

theorem View.openRun_mem (v : View) (s : State) (i : Instr) (o : AccopenArgs) (w : Word) :
    ((v.openRun s i o w).waits v).mem = s.mem := by
  rw [v.openRun_eq]
  rfl

/-! ### How a pass ends (R97) -/

theorem Team.runExceeds_false_iff (t : Team) (r : Run) :
    t.runExceeds r = false ↔ ∀ i row g, i < r.n → row < 16 → g < (t.lay (some r) (r.f + i)).segs →
      t.exceeds (t.lay (some r) (r.f + i)) row g (fword r.word).t = false := by
  simp only [Team.runExceeds, List.any_eq_false, List.mem_range, Bool.not_eq_true]
  exact ⟨fun h i row g hi hrow hg => h i hi row hrow g hg, fun h i hi row hrow g hg => h i row g hi hrow hg⟩

theorem Team.runEnd_close_iff (t : Team) (r : Run) : t.runEnd r = .close ↔ (fword r.word).esc = 0 ∨ t.runExceeds r = false := by
  have e : (decide ((fword r.word).esc = 0) || !t.runExceeds r) = true ↔ (fword r.word).esc = 0 ∨ t.runExceeds r = false := by simp
  rw [← e]
  unfold Team.runEnd
  dsimp only
  refine ⟨fun h => Decidable.byContradiction fun hn => ?_, fun h => if_pos h⟩
  have other : ∀ {c : Prop} [Decidable c] {a b : RunEnd}, a ≠ .close → b ≠ .close → (if c then a else b) ≠ .close := by
    intro c _ a b ha hb
    split
    · exact ha
    · exact hb
  rw [if_neg hn] at h
  exact other RunEnd.noConfusion (other RunEnd.noConfusion (other RunEnd.noConfusion (other RunEnd.noConfusion RunEnd.noConfusion))) h

/-- A team whose group has closed a run: a width above the opening width leaves its range widened (R284, R286). -/
def Team.afterRun (t : Team) (r : Run) : Team :=
  { t with widened := if r.width = 0 then t.widened else t.widened ++ [⟨r.f, r.n, r.r, r.fmt, r.width⟩] }

theorem View.closeRun_eq (v : View) (s : State) (r : Run) :
    v.closeRun s r = (s.modGroup v.gid fun g => { g with run := none }).modTeam v.g.team (·.afterRun r) := by
  unfold View.closeRun Team.afterRun
  by_cases h : r.width = 0
  · simp only [h, if_true, State.modTeam, Tab.alter_self]
  · simp only [h, if_false]

theorem View.settleRun_close {v : View} {r : Run} (h : v.t.runEnd r = .close) (s : State) (i : Instr) :
    v.settleRun s i r = (s.modTeam v.g.team (·.afterRun r)).modGroup v.gid fun g => v.passAll i s.cycle { g with run := none } := by
  simp only [View.settleRun, h, View.freeParty_eq, View.closeRun_eq]
  simp only [State.modTeam, State.modGroup, Tab.alter_alter]
  rfl

theorem View.settleRun_trap {v : View} {r : Run} {c : Nat} (h : v.t.runEnd r = .trap c) (s : State) (i : Instr) :
    v.settleRun s i r
      = v.meetTrap (if v.x.line = none ∧ v.g.inHandler = false then v.closeRun s r else s) i c r.aux := by
  simp only [View.settleRun, h, Bool.and_eq_true, Option.isNone_iff_eq_none, Bool.not_eq_true']

theorem View.settleRun_escalate {v : View} {r : Run} (h : v.t.runEnd r = .escalate) (s : State) (i : Instr) :
    v.settleRun s i r = v.escalate s r := by
  simp only [View.settleRun, h]

/-- The group after the last pass of a run. -/
theorem View.close_here {v : View} {s : State} {r : Run} (h : s.group v.gid = some v.g) (he : v.t.runEnd r = .close) (i : Instr) :
    ∃ g, ((v.settleRun s i r).waits v).group v.gid = some g ∧ g.run = none ∧ v.g.Kept g := by
  have passed := v.moved_passAll i s.cycle { v.g with run := none }
  have here : (v.settleRun s i r).group v.gid = some (v.passAll i s.cycle { v.g with run := none }) := by
    rw [View.settleRun_close he, State.group_modGroup, State.group_modTeam, h]
    rfl
  obtain ⟨g, hg, moved, -⟩ := State.waits_here here
  have closed : v.g.Kept { v.g with run := none } := rfl
  exact ⟨g, hg, moved.run.trans passed.run, (closed.trans passed.kept).trans moved.kept⟩

theorem View.close_other {v : View} (s : State) {r : Run} (he : v.t.runEnd r = .close) (i : Instr) {k : Nat} (h : k ≠ v.gid) :
    ((v.settleRun s i r).waits v).group k = s.group k := by
  rw [State.waits_other _ h, View.settleRun_close he, State.group_modGroup_other _ _ h, State.group_modTeam]

theorem View.close_teams {v : View} (s : State) {r : Run} (he : v.t.runEnd r = .close) (i : Instr) (k : Nat) :
    ((v.settleRun s i r).waits v).team k = (s.modTeam v.g.team (·.afterRun r)).team k := by
  rw [View.settleRun_close he]
  rfl

theorem View.close_mem {v : View} (s : State) {r : Run} (he : v.t.runEnd r = .close) (i : Instr) :
    ((v.settleRun s i r).waits v).mem = s.mem := by
  rw [View.settleRun_close he]
  rfl

/-! ### Escalation (R97, R286) -/

/-- A run of which the next pass is to come. -/
def Run.widened (r : Run) : Run := { r with width := r.next.1, pure := true, tiles := [] }

/-- A gang away from the instruction at which the group met, as from a branch. -/
def Group.leaveMeeting (now : Nat) (g : Group) (k : Gang) : Group :=
  (g.modGang k.id fun k => { k with wait := .no, since := now }).retire k.id now none 0 true none

/-- The whole party away from it. -/
def View.leavePass (v : View) (now : Nat) (g : Group) : Group := v.party.foldl (Group.leaveMeeting now) g

/-- A live slice at the replay point, with its path signature of ACCOPEN. -/
def Slice.replay (r : Run) (sl : Slice) : Slice :=
  if sl.live = 0 then sl else { sl with pc := r.replay, sig := sl.sigOpen, tokens := 0, popDone := false }

theorem Slice.replay_live (r : Run) (sl : Slice) : (sl.replay r).live = sl.live := by
  unfold Slice.replay
  split <;> rfl

theorem Slice.replay_of_live (r : Run) {sl : Slice} (h : sl.live ≠ 0) :
    sl.replay r = { sl with pc := r.replay, sig := sl.sigOpen, tokens := 0, popDone := false } := if_neg h

/-- Every slice of a group, replayed. -/
def Group.replay (g : Group) (r : Run) : Group := { g with slices := g.slices.map fun e => (e.1, e.2.replay r) }

theorem Group.slice_replay (g : Group) (r : Run) (n : Nat) : (g.replay r).slice n = (g.slice n).replay r := by
  rw [Group.slice, Group.slice, Group.replay, Tab.getD, Tab.getD, Tab.look_map_entries]
  cases g.slices.look n <;> rfl

theorem View.escalate_eq (v : View) (s : State) (r : Run) :
    v.escalate s r = (s.modTeam v.g.team fun t => t.widen r r.next.1 r.next.2).modGroup v.gid fun g =>
      (v.leavePass s.cycle { g with run := some r.widened, accw := BitVec.ofNat 2 r.next.1 }).replay r := by
  have e : (fun e : Nat × Slice => if e.2.live = 0 then e else
      (e.1, { e.2 with pc := r.replay, sig := e.2.sigOpen, tokens := 0, popDone := false })) = fun e => (e.1, e.2.replay r) := by
    funext e
    unfold Slice.replay
    split <;> rfl
  simp only [View.escalate, e]
  rfl

theorem View.moved_leavePass (v : View) (now : Nat) (g : Group) : g.Moved (v.leavePass now g) :=
  Group.moved_foldl _ (fun g _ => (g.moved_modGang _ _).trans (Group.moved_retire _ _ _ _ _ _ _)) _ g

theorem Group.map_gangs_modGang {β : Type} (p : Gang → β) (g : Group) (n : Nat) (f : Gang → Gang) (h : ∀ k, p (f k) = p k) :
    (g.modGang n f).gangs.map p = g.gangs.map p := by
  simp only [Group.modGang, mapIf, List.map_map]
  refine List.map_congr_left fun k _ => ?_
  rw [Function.comp_apply]
  split
  · exact h k
  · rfl

/-- Retiring changes neither the names of the gangs nor their waits. -/
theorem Group.stands_retire (g : Group) (kid now : Nat) (op : Option Nat) (extra : Word) (br : Bool)
    (lat : Option (List Nat × (Nat → Word))) :
    (g.retire kid now op extra br lat).gangs.map (fun k => (k.id, k.wait)) = g.gangs.map fun k => (k.id, k.wait) := by
  have counted (k : Gang) : (g.countWord k).gangs.map (fun k => (k.id, k.wait)) = g.gangs.map fun k => (k.id, k.wait) := by
    unfold Group.countWord
    split
    · rfl
    · exact Group.map_gangs_modGang _ _ _ _ (by intro _; rfl)
  unfold Group.retire
  split
  · rfl
  · rename_i k _
    dsimp only
    split
    · exact counted k
    · split
      · exact (Group.map_gangs_modGang _ _ _ _ (by intro _; rfl)).trans (counted k)
      · split
        all_goals exact (Group.map_gangs_modGang _ _ _ _ (by intro _; rfl)).trans (counted k)

/-- A gang that leaves keeps its name and no wait; the others keep both. -/
theorem Group.stands_leaveMeeting {g : Group} {now : Nat} {k : Gang} {x : Nat × Wait}
    (h : x ∈ (g.leaveMeeting now k).gangs.map fun k => (k.id, k.wait)) :
    x.2 = .no ∨ x.1 ≠ k.id ∧ x ∈ g.gangs.map fun k => (k.id, k.wait) := by
  rw [Group.leaveMeeting, Group.stands_retire] at h
  obtain ⟨j, hj, rfl⟩ := List.mem_map.mp h
  obtain ⟨j', hj', rfl⟩ := List.mem_map.mp hj
  by_cases hid : j'.id = k.id
  · exact .inl (by simp [hid])
  · refine .inr ?_
    simp only [beq_iff_eq, hid, if_false]
    exact ⟨hid, List.mem_map_of_mem hj'⟩

/-- Where every gang that waits is among some that leave, none is left in a wait. -/
theorem Group.waits_foldl_leaveMeeting (now : Nat) (ks : List Gang) : ∀ g : Group,
    (∀ x ∈ g.gangs.map fun k => (k.id, k.wait), x.2 = .no ∨ x.1 ∈ ks.map (·.id)) →
    ∀ x ∈ (ks.foldl (Group.leaveMeeting now) g).gangs.map fun k => (k.id, k.wait), x.2 = .no := by
  induction ks with
  | nil => exact fun g hx x hm => (hx x hm).resolve_right List.not_mem_nil
  | cons k ks ih =>
    intro g hx
    refine ih _ fun x hm => ?_
    rcases Group.stands_leaveMeeting hm with h | ⟨hid, h⟩
    · exact .inl h
    · exact (hx x h).imp_right fun hin => (List.mem_cons.mp hin).resolve_left hid

/-- When the whole group has come, none of its gangs is left in a wait. -/
theorem View.leavePass_waits {v : View} (h : v.meet = .all) (now : Nat) {g : Group} (hg : g.gangs = v.g.gangs) :
    ∀ k ∈ (v.leavePass now g).gangs, k.wait = .no := by
  intro k hk
  refine Group.waits_foldl_leaveMeeting now v.party g (fun x hx => .inr ?_) _ (List.mem_map_of_mem hk)
  obtain ⟨j, hj, rfl⟩ := List.mem_map.mp hx
  exact List.mem_map_of_mem (v.mem_party_of_meet h j (hg ▸ hj))

/-- The group after an escalation. -/
theorem View.escalate_here {v : View} {s : State} (h : s.group v.gid = some v.g) (hm : v.meet = .all) (r : Run) :
    ∃ g, ((v.escalate s r).waits v).group v.gid = some g ∧ g.run = some r.widened
      ∧ ({ v.g with run := g.run, accw := BitVec.ofNat 2 r.next.1 } : Group).Kept g
      ∧ ∀ n, (g.slice n).live ≠ 0 → (g.slice n).pc = r.replay ∧ (g.slice n).sig = (v.g.slice n).sigOpen := by
  let g0 : Group := { v.g with run := some r.widened, accw := BitVec.ofNat 2 r.next.1 }
  have left : g0.Moved (v.leavePass s.cycle g0) := v.moved_leavePass s.cycle g0
  have here : (v.escalate s r).group v.gid = some ((v.leavePass s.cycle g0).replay r) := by
    rw [v.escalate_eq, State.group_modGroup, State.group_modTeam, h]
    rfl
  obtain ⟨g, hg, moved, same⟩ := State.waits_here here
  have run : g.run = some r.widened := moved.run.trans left.run
  have slices : ∀ n, g.slice n = ((v.leavePass s.cycle g0).slice n).replay r := by
    intro n
    rw [← Group.slice_replay, Group.slice, Group.slice, same ?_]
    intro k hk all a
    rw [View.leavePass_waits (g := g0) hm s.cycle rfl k hk]
    exact Wait.noConfusion
  refine ⟨g, hg, run, ?_, fun n hn => ?_⟩
  · rw [run]
    have replayed (a : Group) : a.Kept (a.replay r) := rfl
    exact (left.kept.trans (replayed _)).trans moved.kept
  · rw [slices, Slice.replay_live] at hn
    rw [slices, Slice.replay_of_live r hn]
    refine ⟨rfl, ?_⟩
    have e : (v.g.slice n).Moved ((v.leavePass s.cycle g0).slice n) := left.slices n
    show ((v.leavePass s.cycle g0).slice n).sigOpen = _
    rw [e]

theorem View.escalate_other {v : View} (s : State) (r : Run) {k : Nat} (h : k ≠ v.gid) :
    ((v.escalate s r).waits v).group k = s.group k := by
  rw [State.waits_other _ h, v.escalate_eq, State.group_modGroup_other _ _ h, State.group_modTeam]

/-! ### The instructions -/

/-- The way out of a class H cause of a gang that does not speculate. -/
theorem issue_halt_sure {i : Instr} {s : State} {v : View} (h : Issues i s v) (hf : v.k.fence = none) {body : View → State → Res} {c a : Nat}
    (hb : body v s = .halt c a) : issue i s body = .next (s.haltGang v i c a) := by
  rw [issue_halt h hb, hf]
  rfl

theorem headD_of_all_eq {ws : List Word} {w : Word} (hne : ws ≠ []) (h : ∀ x ∈ ws, x = w) : ws.headD 0 = w := by
  cases ws with
  | nil => exact absurd rfl hne
  | cons x xs => exact h x List.mem_cons_self

/-- A run that an ACCOPEN cannot open: the group has one, the reserve cannot hold the snapshot, or an open run of the team has one of its slots
(R95, R290). -/
def View.openMisuse (v : View) (s : State) (o : AccopenArgs) : Bool :=
  v.g.run.isSome || (o.snap && decide (o.r.toNat < o.n1.toNat + 1))
    || (s.openRuns v.g.team).any fun q => q.meets o.f.toNat (o.n1.toNat + 1 + o.r.toNat)

theorem View.openMisuse_iff (v : View) (s : State) (o : AccopenArgs) : v.openMisuse s o = true ↔
    v.g.run.isSome = true ∨ (o.snap = true ∧ o.r.toNat < o.n1.toNat + 1)
      ∨ ∃ q ∈ s.openRuns v.g.team, q.meets o.f.toNat (o.n1.toNat + 1 + o.r.toNat) = true := by
  simp only [View.openMisuse, Bool.or_eq_true, Bool.and_eq_true, decide_eq_true_eq, List.any_eq_true, or_assoc]

theorem any_ne_of_all_eq {ws : List Word} {w : Word} (h : ∀ x ∈ ws, x = w) : (ws.any (· != w)) = false := by
  refine List.any_eq_false.mpr fun x hx => ?_
  rw [h x hx, bne_self_eq_false]
  exact Bool.false_ne_true

section
variable {s : State} {v : View} {o : AccopenArgs} (hi : Issues (.accopen o) s v)
include hi

theorem accopen_waits (hm : v.meet = .wait) : exec (.accopen o) s = .next ((v.comeTo s false).waits v) :=
  issue_hold hi (by simp only [hm])

theorem accopen_diverges (hm : v.meet = .diverge) (hf : v.k.fence = none) :
    exec (.accopen o) s = .next (s.haltGang v (.accopen o) 0x05 0) :=
  issue_halt_sure hi hf (by simp only [hm])

theorem accopen_differs (hm : v.meet = .all) (hw : ∃ x ∈ v.partyWords o.vf, x ≠ (v.partyWords o.vf).headD 0) :
    exec (.accopen o) s = .next ((v.meetTrap s (.accopen o) 0x21 0).waits v) := by
  have differ : ((v.partyWords o.vf).any (· != (v.partyWords o.vf).headD 0)) = true := by simpa using hw
  exact issue_hold hi (by simp only [hm, differ, if_true])

section
variable (hm : v.meet = .all) (hw : ∀ x ∈ v.partyWords o.vf, x = (v.partyWords o.vf).headD 0)
include hm hw

theorem accopen_illegal (hl : (fword ((v.partyWords o.vf).headD 0)).legal = false) :
    exec (.accopen o) s = .next ((v.meetTrap s (.accopen o) 0x22 0).waits v) :=
  issue_hold hi (by simp only [hm, any_ne_of_all_eq hw, hl]; rfl)

variable (hl : (fword ((v.partyWords o.vf).headD 0)).legal = true)
include hl

theorem accopen_beyond (hs : v.t.slots < o.f.toNat + (o.n1.toNat + 1) + o.r.toNat) (hf : v.k.fence = none) :
    exec (.accopen o) s = .next (s.haltGang v (.accopen o) 0x04 0) :=
  issue_halt_sure hi hf (by simp only [hm, any_ne_of_all_eq hw, hl, hs, if_true]; rfl)

variable (hs : o.f.toNat + (o.n1.toNat + 1) + o.r.toNat ≤ v.t.slots)
include hs

theorem accopen_misuse (hu : v.openMisuse s o = true) :
    exec (.accopen o) s = .next ((v.meetTrap s (.accopen o) 0x27 0).waits v) := by
  unfold View.openMisuse at hu
  exact issue_hold hi (by simp only [hm, any_ne_of_all_eq hw, hl, Nat.not_lt.mpr hs, hu, if_true, if_false]; rfl)

theorem accopen_opens (hu : v.openMisuse s o = false)
    (hb : v.slotsBusy s ((List.range (o.n1.toNat + 1 + o.r.toNat)).map (· + o.f.toNat)) = false) :
    exec (.accopen o) s = .next ((v.openRun s (.accopen o) o ((v.partyWords o.vf).headD 0)).waits v) := by
  unfold View.openMisuse at hu
  exact issue_hold hi (by simp only [hm, any_ne_of_all_eq hw, hl, Nat.not_lt.mpr hs, hu, hb, if_false]; rfl)

end

end

section
variable {s : State} {v : View} (hi : Issues .accclose s v)
include hi

theorem accclose_waits (hm : v.meet = .wait) : exec .accclose s = .next ((v.comeTo s false).waits v) :=
  issue_hold hi (by simp only [hm])

theorem accclose_diverges (hm : v.meet = .diverge) (hf : v.k.fence = none) : exec .accclose s = .next (s.haltGang v .accclose 0x05 0) :=
  issue_halt_sure hi hf (by simp only [hm])

theorem accclose_noRun (hm : v.meet = .all) (hr : v.g.run = none) :
    exec .accclose s = .next ((v.meetTrap s .accclose 0x27 0).waits v) :=
  issue_hold hi (by simp only [hm, hr])

variable {r : Run} (hm : v.meet = .all) (hr : v.g.run = some r)
include hm hr

theorem accclose_otherStack {n : Nat} {sl : Slice} (hsl : (n, sl) ∈ v.g.slices) (hl : sl.live ≠ 0) (hst : sl.stackSig ≠ sl.stackOpen)
    (hf : v.k.fence = none) : exec .accclose s = .next (s.haltGang v .accclose 0x05 0) := by
  have other : (v.g.slices.any fun (e : Nat × Slice) => e.2.live != 0 && e.2.stackSig != e.2.stackOpen) = true :=
    List.any_eq_true.mpr ⟨(n, sl), hsl, by rw [Bool.and_eq_true, bne_iff_ne, bne_iff_ne]; exact ⟨hl, hst⟩⟩
  exact issue_halt_sure hi hf (by simp only [hm, hr, other, if_true])

theorem accclose_settles (hst : ∀ n sl, (n, sl) ∈ v.g.slices → sl.live ≠ 0 → sl.stackSig = sl.stackOpen)
    (hb : v.slotsBusy s ((List.range r.n).map (· + r.f)) = false) :
    exec .accclose s = .next ((v.settleRun s .accclose r).waits v) := by
  have same : (v.g.slices.any fun (e : Nat × Slice) => e.2.live != 0 && e.2.stackSig != e.2.stackOpen) = false := by
    refine List.any_eq_false.mpr fun e he => ?_
    simpa using hst e.1 e.2 he
  exact issue_hold hi (by simp only [hm, hr, same, hb]; rfl)

end

/-! ### The obligation -/

/-- Settles O14: ACCOPEN by its ways out and `Team.openRun_acc`, `_cells` and `_tags`; ACCCLOSE by its ways out and the three ends of a pass. -/
theorem runs : Obligations.Runs := by
  refine ⟨fun s v o hi => ⟨accopen_waits hi, accopen_diverges hi, ?opens, ?stops⟩,
    fun s v hi => ⟨accclose_waits hi, accclose_diverges hi, accclose_noRun hi, ?stack, ?ends⟩⟩
  case opens =>
    intro w hm hne hw hl hs hrun hsnap hmeet hbusy
    obtain rfl := headD_of_all_eq hne hw
    obtain ⟨-, hg, -⟩ := State.view_spec hi.view
    have usable : v.openMisuse s o = false := by
      rw [Bool.eq_false_iff, Ne, View.openMisuse_iff]
      rintro (h | ⟨h, hlt⟩ | ⟨q, hq, h⟩)
      · rw [hrun] at h; cases h
      · exact absurd (hsnap h) (Nat.not_le.mpr hlt)
      · rw [hmeet q hq] at h; cases h
    obtain ⟨g, hhere, hr, kept⟩ := View.openRun_here hg (.accopen o) o ((v.partyWords o.vf).headD 0)
    have opened := accopen_opens hi hm hw hl hs usable hbusy
    refine ⟨_, g, opened, hhere, hr, ?_, kept, fun k => View.openRun_other s _ o _,
      fun k => View.openRun_teamOther s _ o _, View.openRun_mem _ _ _ _ _,
      fun x hx => ⟨_, View.openRun_team hx _ o _, Team.openRun_spad _ _ _ _ _ _, ?_, ?_, ?_⟩⟩
    · rw [kept]
    · exact fun h k hk => Team.openRun_tags hsnap h _ hk
    · exact fun h a => Team.openRun_acc hsnap h _ a
    · exact fun h a => Team.openRun_cells hsnap h _ a
  case stops =>
    intro hm
    refine ⟨accopen_differs hi hm, fun hw => accopen_illegal hi hm hw, fun hw hl => ⟨accopen_beyond hi hm hw hl, fun hs hu => ?_⟩⟩
    exact accopen_misuse hi hm hw hl hs ((v.openMisuse_iff s o).mpr hu)
  case stack =>
    intro r n sl hm hr hsl hl hst hf
    exact accclose_otherStack hi hm hr hsl hl hst hf
  case ends =>
    intro r hm hr hst hbusy
    obtain ⟨-, hg, -⟩ := State.view_spec hi.view
    have settled := accclose_settles hi hm hr hst hbusy
    refine ⟨?closes, fun c hc => ?trap, fun hc => ?close, fun he => ?escalate⟩
    case closes => rw [Team.runEnd_close_iff, Team.runExceeds_false_iff]
    case trap => rw [settled, View.settleRun_trap hc]
    case close =>
      obtain ⟨g, hhere, hrun, kept⟩ := View.close_here hg hc .accclose
      refine ⟨_, g, settled, hhere, hrun, kept, fun k => View.close_other s hc .accclose, fun k hk => ?_, View.close_mem s hc .accclose,
        fun x hx => ⟨x.afterRun r, ?_, rfl, rfl, rfl, rfl⟩⟩
      · rw [View.close_teams s hc, State.team_modTeam_other _ _ hk]
      · rw [View.close_teams s hc, State.team_modTeam, hx]
        rfl
    case escalate =>
      obtain ⟨g, hhere, hrun, kept, replayed⟩ := View.escalate_here hg hm r
      refine ⟨_, g, settled, ?_, hrun, ?_, ?_, ?_, fun k hk => ?_, replayed⟩
      · rw [View.settleRun_escalate he, hhere]
      · rw [kept]
      · rw [kept]
      · rw [kept]
      · rw [View.settleRun_escalate he, View.escalate_other s r hk]

end Sys2Proof.Machine
end
